-- ==== Sys2Proof/Word.lean ====
section
/-! DEFINITION. The byte and the two divisions that the EW48's manual uses.

The manual's quantities are whole numbers in stated units (00_scope.md, "Units and ranges"), so they
are `Nat`; only what crosses a port, the Actuator Link or the Commissioning Store is a byte. -/

namespace Sys2Proof

/-- One byte as it crosses a client port, the Actuator Link or the Commissioning Store. -/
abbrev Byte := BitVec 8

/-- "ceil" of 00_scope.md, "Arithmetic": a division rounded up. -/
def ceilDiv (a b : Nat) : Nat := (a + b - 1) / b

end Sys2Proof
end

