-- ==== Sys2Proof/Syntax.lean ====
section
/-! DEFINITION. The commands of the EW48: one constructor per row of spec/opcode_table.json.

A command is an event that reaches the part from outside (a pulse, a line change, a byte strobe, a
request of a master, a node's reply) or one that a block of the part raises itself (a second
boundary, the expiry of a named timer, the start of a link slot, the completion of a store
operation). Operands are what the event brings: the address, the value, the bytes. -/

namespace Sys2Proof

/-- The three client ports (R156). -/
inductive Port where
  | S | L | K
  deriving DecidableEq, Repr

/-- The four supply branches (R93). -/
inductive Branch where
  | A | B | C | D
  deriving DecidableEq, Repr

/-- An aperture index 0..47 (R1). -/
abbrev ApId := Fin 48

/-- A zone descriptor number 0..7 (R36). -/
abbrev ZoneId := Fin 8

/-- A data strobe at a port with STSEL low: a write strobe carries a byte, a read strobe takes one (R156). -/
inductive Strobe where
  | write (b : Byte)
  | read
  deriving DecidableEq, Repr

/-- The commands, in the order of the opcode table. -/
inductive Instr where
  /-- POR, with the level of the CMSN strap sampled there (R165, R175). -/
  | por (cmsn : Bool)
  /-- PIN_RESET, with the level of the CMSN strap sampled there (R165, R175). -/
  | pinReset (cmsn : Bool)
  /-- ANEMO_PULSE: one pulse on ANEMO (R45). -/
  | anemoPulse
  /-- SECOND_BOUNDARY, with the samples of VANE[7:0], RAIN and RAINOK taken at it (R44, R50, R51, R52). -/
  | secondBoundary (vane : Byte) (rain rainok : Bool)
  /-- HOLD_TIMER_EXPIRY (R76). -/
  | holdTimerExpiry
  /-- ADVISORY_EXPIRY (R79). -/
  | advisoryExpiry
  /-- ROOM_EXPIRY of one aperture's room expiry timer (R35). -/
  | roomExpiry (i : ApId)
  /-- QUIET_TIMER_EXPIRY of one branch (R98). -/
  | quietTimerExpiry (b : Branch)
  /-- BRANCH_GAP_TIMER_EXPIRY of one branch (R103). -/
  | branchGapTimerExpiry (b : Branch)
  /-- INRUSH_TIMER_EXPIRY of one aperture (R114). -/
  | inrushTimerExpiry (i : ApId)
  /-- TRAVEL_TIMER_EXPIRY of one aperture (R117). -/
  | travelTimerExpiry (i : ApId)
  /-- SETTLE_TIMER_EXPIRY of one aperture (R120). -/
  | settleTimerExpiry (i : ApId)
  /-- RETRY_TIMER_EXPIRY of one aperture (R123). -/
  | retryTimerExpiry (i : ApId)
  /-- WARN_TIMER_EXPIRY of one zone descriptor (R127). -/
  | warnTimerExpiry (z : ZoneId)
  /-- CONTACT_TIMER_EXPIRY of one node (R141). -/
  | contactTimerExpiry (i : ApId)
  /-- LINK_SLOT_START (R139). -/
  | linkSlotStart
  /-- EXCHANGE_COMPLETED, with the bytes that arrived within the reply window, in order (R130, R133). -/
  | exchangeCompleted (reply : List Byte)
  /-- ALARM_LINE_CHANGE: the level on ALARM changes, either way (R146). -/
  | alarmLineChange
  /-- DEBOUNCE_TIMER_EXPIRY (R146, R147). -/
  | debounceTimerExpiry
  /-- REQUEST_BYTE_WRITE: a write strobe with STSEL low; `csN` is the level of CS_n (R156, R157). -/
  | requestByteWrite (p : Port) (csN : Bool) (b : Byte)
  /-- UNKNOWN_REQUEST: a whole request of a kind the part does not know (R158). -/
  | unknownRequest (p : Port) (kind : Byte) (body : List Byte)
  /-- STATUS_WRITE: a write strobe with STSEL high (R156). -/
  | statusWrite (p : Port) (csN : Bool) (b : Byte)
  /-- REPLY_BYTE_READ: a read strobe with STSEL low (R156, R160). -/
  | replyByteRead (p : Port) (csN : Bool)
  /-- WAIT_HOLD_OFF: a data strobe starts in PENDING and is held by WAIT (R159). -/
  | waitHoldOff (p : Port) (strobe : Strobe)
  /-- HELD_STROBE_END: the held strobe ends while WAIT is still asserted (R159). -/
  | heldStrobeEnd (p : Port)
  /-- PORT_GAP_TIMER_EXPIRY (R157). -/
  | portGapTimerExpiry (p : Port)
  /-- ORDER: index, target form byte and 16-bit target value (R26, R179). -/
  | order (p : Port) (index form : Byte) (value : BitVec 16)
  /-- ORDER_ZONE: zone, target form byte and 16-bit target value (R41, R179). -/
  | orderZone (p : Port) (zone form : Byte) (value : BitVec 16)
  /-- RELEASE: index (R30). -/
  | release (p : Port) (index : Byte)
  /-- QUERY_APERTURE: index (R21). -/
  | queryAperture (p : Port) (index : Byte)
  /-- CLEAR_FAULT: index (R14). -/
  | clearFault (p : Port) (index : Byte)
  /-- ADVISORY: arrival offset in s, predicted gust in 0.1 m/s, flags with rain expected in bit 0 (R78). -/
  | advisory (p : Port) (offset gust : BitVec 16) (flags : Byte)
  /-- ADVISORY_CANCEL (R79). -/
  | advisoryCancel (p : Port)
  /-- CLEAR_CONDITIONS (R57). -/
  | clearConditions (p : Port)
  /-- RESTART (R166). -/
  | restart (p : Port)
  /-- ALARM_RESTORE (R152). -/
  | alarmRestore (p : Port)
  /-- QUERY_BRANCH: branch code (R110). -/
  | queryBranch (p : Port) (code : Byte)
  /-- QUERY_WEATHER (R91). -/
  | queryWeather (p : Port)
  /-- QUERY_QUEUE: first position (R90). -/
  | queryQueue (p : Port) (first : Byte)
  /-- QUERY_ZONE: zone number (R42). -/
  | queryZone (p : Port) (zone : Byte)
  /-- QUERY_TRIGGER (R83). -/
  | queryTrigger (p : Port)
  /-- NEXT_NOTICE (R164). -/
  | nextNotice (p : Port)
  /-- STORE_MODE: mode code (R170). -/
  | storeMode (p : Port) (mode : Byte)
  /-- STORE_ACT: record number, and the 16 bytes to be written where the act is a write (R171). -/
  | storeAct (p : Port) (record : Byte) (data : Option (List Byte))
  /-- STORE_READ: record number (R173). -/
  | storeRead (p : Port) (record : Byte)
  /-- LOCK: lock code (R174). -/
  | lock (p : Port) (code : Byte)
  /-- LEAVE_COMMISSIONING (R175). -/
  | leaveCommissioning (p : Port)
  /-- STORE_OPERATION_COMPLETE (R172). -/
  | storeOperationComplete
  deriving DecidableEq, Repr

end Sys2Proof
end

