-- ==== Sys2Proof/Config.lean ====
section
/-! DEFINITION. What the manual fixes once for the part (capacities, slot length, fixed times), and
the free values: results the manual does not state, or states in two ways. -/

namespace Sys2Proof

/-- R162: a port's notice queue holds at most 16 notices. -/
def Config.noticeCapacity : Nat := 16
/-- R130: an exchange occupies a fixed slot of 5 ms. -/
def Config.slotMs : Nat := 5
/-- R157: the gap timer of a port expires 100 ms after the last byte. -/
def Config.portGapMs : Nat := 100
/-- R172: an erase completes 20 ms after it starts. -/
def Config.eraseMs : Nat := 20
/-- R172: a write completes 4 ms after it starts. -/
def Config.writeMs : Nat := 4
/-- R98: the quiet time of a branch, 2.0 s in ds. -/
def Config.quietDs : Nat := 20
/-- R133, R141: the node timeout since last contact, 2.0 s in ds. -/
def Config.contactDs : Nat := 20
/-- R123: the retry wait, 5.0 s in ds. -/
def Config.retryDs : Nat := 50
/-- R146: the ALARM debounce time, 0.5 s in ms (assumption log 57). -/
def Config.debounceMs : Nat := 500
/-- R9: the off-target threshold in permille. -/
def Config.offTargetPermille : Nat := 5
/-- R122: the back-off distance in permille. -/
def Config.backoffPermille : Nat := 30

/-! FREE VALUES (assumption log 26): the fields of a reply whose content the manual does not state. Each is
applied to `State.freeDraws`, which every event and every reset advances and no query does, and each has
the type of what R177 lets its field encode. -/

/-- The motion target that QUERY-APERTURE reports of an absent motion, by aperture index. -/
opaque Config.openMotionTarget : Nat → Nat → Option (Fin 1001)
/-- The direction that QUERY-APERTURE reports of an absent motion, by aperture index. -/
opaque Config.openMotionOpening : Nat → Nat → Bool
/-- The purpose that QUERY-APERTURE reports of an absent motion, by aperture index. -/
opaque Config.openMotionBackoff : Nat → Nat → Bool
/-- The predicted gust that QUERY-WEATHER reports of an absent advisory. -/
opaque Config.openAdvisoryGust : Nat → BitVec 16
/-- The rain-expected flag that QUERY-WEATHER reports of an absent advisory. -/
opaque Config.openAdvisoryRain : Nat → Bool
/-- The cause set that QUERY-TRIGGER reports of an empty record. -/
opaque Config.openTriggerCauses : Nat → BitVec 4
/-- The gust that QUERY-TRIGGER reports of an empty record. -/
opaque Config.openTriggerGust : Nat → BitVec 16
/-- The rain state that QUERY-TRIGGER reports of an empty record. -/
opaque Config.openTriggerRain : Nat → Bool
/-- The live, sticky and enable bits that QUERY-TRIGGER reports of an empty record, with the summary bit. -/
opaque Config.openTriggerWord : Nat → BitVec 13
/-- The count of claims that QUERY-TRIGGER reports of an empty record. -/
opaque Config.openTriggerClaims : Nat → Byte
/-- Whether QUERY-ZONE reports the base descriptor as enabled. -/
opaque Config.openBaseEnabled : Nat → Bool
/-- The base index that QUERY-ZONE reports of the base descriptor. -/
opaque Config.openBaseIndex : Nat → Option (Fin 48)
/-- The size code that QUERY-ZONE reports of the base descriptor. -/
opaque Config.openBaseSize : Nat → Byte

/-- FREE VALUE (assumption log 27). The tag field of a POLL frame sent while the node's send count is
unknown: R134 lets a POLL carry "the send count as it stands" and states no value for unknown. -/
opaque Config.unknownPollTag : Nat → BitVec 4

/-- FREE VALUE (DESIGN CHOICE, assumption log 56). Whether the third miss takes an aperture that entered
FAULT(TIMEOUT) at the node timeout to OFFLINE. R119 says that a later third miss takes it "to OFFLINE from there";
R18 and R140 say that an aperture in FAULT "stays in FAULT". The part does one or the other. -/
opaque Config.thirdMissEndsTimeout : Bool

end Sys2Proof
end

