-- ==== Sys2Proof/Machine/State.lean ====
section
/-! DEFINITION. The state of the EW48: plain data, every register, FIFO, buffer, counter, timer, mode
and pin the manual gives the part (INVENTORY.md, "State"), the queue of waiting commands, and the
state right after a power-on reset.

Times are uptime values (00_scope.md, "Time and events"): in ms, ds or s as each field says. A timer
is `some e` while it runs, with `e` its expiry, and `none` while it is stopped. What the manual
defines as following from other state (committed current, wait lists, governing zones, WARN lines,
ATTN, WAIT, status bytes, the queued field, the summary bit) is computed from this state in
Machine/Ops.lean and Machine/Flags.lean, so that it cannot disagree with it. -/

namespace Sys2Proof.Machine

open Sys2Proof

/-! ### Orders (chapter 2) -/

/-- The four order classes (R22). -/
inductive OrderClass where
  | life | weather | supervisory | room
  deriving DecidableEq, Repr

/-- A target: a position 0..1000 in permille, or HOLD (R22). CLOSE is `pos 0`, OPEN is `pos 1000`. -/
inductive Target where
  | pos (p : Nat)
  | hold
  deriving DecidableEq, Repr

/-- Who posted a slot (R22). -/
inductive Origin where
  | port (p : Port)
  | alarm
  | weather
  deriving DecidableEq, Repr

/-- A present slot of an order slate (R22). `posted` and `expiry` are uptime in ds; a ROOM slot's
`expiry` is also its room expiry timer (R34). -/
structure Slot where
  target : Target
  origin : Origin
  posted : Nat
  expiry : Option Nat
  deriving DecidableEq, Repr

/-- The order slate of one aperture (R22). -/
structure Slate where
  life        : Option Slot
  weather     : Option Slot
  supervisory : Option Slot
  room        : Option Slot
  deriving DecidableEq, Repr

/-! ### The aperture record (chapter 1) -/

/-- Aperture kinds, in the order of their codes (R3, R177). -/
inductive ApKind where
  | window | skylight | ventWindow | ventSkylight
  deriving DecidableEq, Repr

/-- The static half of an aperture record, as loaded (R1 to R6). Strokes in ds, currents in 0.1 A,
bearing in degrees, load limit in Pa, vent position in permille. -/
structure Static where
  installed   : Bool
  kind        : ApKind
  branch      : Branch
  facade      : Nat
  weight      : Nat
  loadLimit   : Nat
  rainExposed : Bool
  failSafe    : Bool
  rank        : Nat
  run         : Nat
  inrush      : Nat
  closeStroke : Nat
  openStroke  : Nat
  vent        : Nat
  deriving DecidableEq, Repr

/-- The motion states (section 1.7), in the order of their codes (R177). -/
inductive MotionState where
  | absent | unknown | rest | waiting | starting | running | stopping | settling | retryWait
  | fault | offline
  deriving DecidableEq, Repr

/-- Direction of a motion (R10). -/
inductive Direction where
  | closing | opening
  deriving DecidableEq, Repr

/-- Purpose of a motion (R10). -/
inductive Purpose where
  | normal | backoff
  deriving DecidableEq, Repr

/-- The motion field of an aperture record (R10). -/
structure Motion where
  target  : Nat
  dir     : Direction
  cls     : OrderClass
  purpose : Purpose
  deriving DecidableEq, Repr

/-- Fault kinds (R13). -/
inductive FaultKind where
  | stall | timeout | localControl
  deriving DecidableEq, Repr

/-- The fault record of an aperture (R13): kind and entry time in ds. -/
structure FaultRecord where
  kind  : FaultKind
  entry : Nat
  deriving DecidableEq, Repr

/-- Halt causes (R112, R117). -/
inductive HaltCause where
  | target | shed | timeout
  deriving DecidableEq, Repr

/-- Settle causes (R112, R120). -/
inductive SettleCause where
  | stop | stall | backoff
  deriving DecidableEq, Repr

/-- The Motion Monitor's record of one aperture (R112): timers with expiry in ds, and the two marks. -/
structure Monitor where
  inrush      : Option Nat
  travel      : Option Nat
  haltCause   : Option HaltCause
  settle      : Option Nat
  settleCause : Option SettleCause
  retry       : Option Nat
  deriving DecidableEq, Repr

/-- The Link Controller's node record of one aperture (R133); times in ds. The "priority POLL listed"
field of R133 is membership in `Link.priority`. -/
structure Node where
  sendCount    : Option (BitVec 4)
  missCount    : Nat
  lastContact  : Option Nat
  contactTimer : Option Nat
  deriving DecidableEq, Repr

/-- Wind standings (R66). -/
inductive Standing where
  | need | band | clear | unlimited
  deriving DecidableEq, Repr

/-- The Exposure Evaluator's figures of one aperture (R61). `adv` holds Q_adv and the advisory wind
need while an advisory has been computed with. -/
structure Figures where
  load     : Nat
  standing : Standing
  adv      : Option (Nat × Bool)
  deriving DecidableEq, Repr

/-- Closure causes, in the order of precedence of R82 (their codes are those of R177). -/
inductive Cause where
  | rain | wind | sensor | advisory
  deriving DecidableEq, Repr

/-- What the Weather Supervisor keeps beside a claim (R82). `deadline` is uptime in ds; `none` is
IMMEDIATE. -/
structure Claim where
  cause    : Cause
  deadline : Option Nat
  deriving DecidableEq, Repr

/-- One aperture: the record of chapter 1 with what the other blocks keep per aperture.
`waitSince` is the uptime in ds of the latest entry to WAITING (R96), `startTime` the start time of
R93, `held` the contribution an OFFLINE aperture still holds on its branch: `none` where it entered
OFFLINE with no commitment, `some 0` once it is released (R18, R94, R95). -/
structure Aperture where
  fix        : Static
  state      : MotionState
  position   : Option Nat
  motion     : Option Motion
  orderTag   : Option (BitVec 4)
  stallCount : Nat
  fault      : Option FaultRecord
  slate      : Slate
  effTarget  : Option Target
  effClass   : Option OrderClass
  waitSince  : Nat
  startTime  : Option Nat
  held       : Option Nat
  mon        : Monitor
  node       : Node
  fig        : Figures
  claim      : Option Claim
  deriving DecidableEq, Repr

/-! ### Zones (sections 2.5 and 7.7) -/

/-- Rights of a port in a zone (R40). -/
inductive Right where
  | none | observe | order
  deriving DecidableEq, Repr

/-- Life roles (R36). -/
inductive LifeRole where
  | none | vent | compartment
  deriving DecidableEq, Repr

/-- A zone descriptor, or the base descriptor with `enabled`, `base` and `size` unused (R36, R37).
Warn time in s, settle time in ds. -/
structure Zone where
  enabled : Bool
  base    : Nat
  size    : Nat
  rightS  : Right
  rightL  : Right
  rightK  : Right
  role    : LifeRole
  warn    : Nat
  settle  : Nat
  deriving DecidableEq, Repr

/-- Warning states of a zone (R126). -/
inductive WarnState where
  | idle | running | done
  deriving DecidableEq, Repr

/-- The warning of one zone: state and warn timer with expiry in ds (R126). -/
structure Warning where
  state : WarnState
  timer : Option Nat
  deriving DecidableEq, Repr

/-- The Zone Table. -/
structure Zones where
  desc     : Vector Zone 8
  base     : Zone
  warnings : Vector Warning 8
  deriving DecidableEq, Repr

/-! ### Sensor Front End (chapter 3) -/

/-- One bit for each of the four sensor conditions, in the order of the condition word (R54, R177). -/
structure Cond where
  windOver    : Bool
  vaneInvalid : Bool
  rainSensor  : Bool
  anemoSilent : Bool
  deriving DecidableEq, Repr

/-- The sensor condition word (R54); the summary bit is computed from `sticky`. -/
structure CondWord where
  live    : Cond
  sticky  : Cond
  enables : Cond
  deriving DecidableEq, Repr

/-- The Sensor Front End (R44 to R60). `triple` is newest first (R47), `ring` oldest first (R48);
`wet` is the rain state, true for WET (R51). `boundaryWord` is the condition word as the latest boundary left it,
which QUERY-WEATHER reports (R58); before the first boundary after a POR or PIN reset it is the word as the reset and
its load left it: DESIGN CHOICE, assumption log 52. -/
structure FrontEnd where
  count      : Nat
  saturated  : Bool
  speed      : Nat
  triple     : List Nat
  ring       : List Nat
  gust       : Nat
  bearing    : Option Nat
  wet        : Bool
  wetRun     : Nat
  dryRun     : Nat
  silent     : Nat
  word       : CondWord
  boundaryWord : CondWord
  precaution : Cond
  constK     : Nat
  vaneOffset : Nat
  wetDelay   : Nat
  dryDelay   : Nat
  silence    : Nat
  deriving DecidableEq, Repr

/-! ### Weather Supervisor (chapter 5) -/

/-- Weather states (R73), in the order of their codes (R177). -/
inductive Weather where
  | clear | watch | active | holding
  deriving DecidableEq, Repr

/-- The advisory record (R78); times in uptime s. `expiry` is also its expiry timer (R79). -/
structure Advisory where
  arrival : Nat
  expiry  : Nat
  gust    : Nat
  rain    : Bool
  deriving DecidableEq, Repr

/-- A set of closure causes (R83). -/
structure CauseSet where
  rain     : Bool
  wind     : Bool
  advisory : Bool
  sensor   : Bool
  deriving DecidableEq, Repr

/-- The Trigger Record (R83). -/
structure Trigger where
  second  : Nat
  causes  : CauseSet
  gust    : Nat
  bearing : Option Nat
  wet     : Bool
  word    : CondWord
  claims  : Nat
  deriving DecidableEq, Repr

/-- An entry of the Closure Queue (R84). `deadline` in ds, `none` for IMMEDIATE. -/
structure Entry where
  ap       : ApId
  cause    : Cause
  deadline : Option Nat
  rank     : Nat
  load     : Nat
  late     : Bool
  deriving DecidableEq, Repr

/-- The Weather Supervisor (R73 to R92), with the evaluator's building-wide figures: `advGust` is
G_adv (R65), `computed` says that a gust update has been delivered since the last reset (R68), and
`gustWord` is the sensor condition word of the latest gust update, which every exposure update passes on
(R71).
`holdTimer` expires at an uptime in s (R76); `needs` is the number of apertures with a closure need
at the latest update (R80). -/
structure Supervisor where
  weather     : Weather
  holdTimer   : Option Nat
  advisory    : Option Advisory
  trigger     : Option Trigger
  queue       : List Entry
  changeCount : BitVec 16
  watchGust   : Nat
  holdTime    : Nat
  guardLead   : Nat
  needs       : Nat
  advGust     : Option Nat
  computed    : Bool
  gustWord    : CondWord
  deriving DecidableEq, Repr

/-! ### Branch Admission Unit (chapter 6) -/

/-- A branch record (R93). Committed current and wait list are computed. `quiet` and `gapTimer` are
timers with expiry in ds (R98, R103); `projection` holds P_1, P_2, … of the latest recomputation (R108). -/
structure BranchRec where
  limit       : Nat
  window      : Nat
  gap         : Nat
  lastStart   : Option Nat
  quiet       : Option Nat
  gapTimer    : Option Nat
  reservation : Option ApId
  late        : Bool
  projection  : List Nat
  deriving DecidableEq, Repr

/-- The four branch records. -/
structure Branches where
  a : BranchRec
  b : BranchRec
  c : BranchRec
  d : BranchRec
  deriving DecidableEq, Repr

/-! ### Link Controller (chapter 8) -/

/-- What an exchange is (R130, R139). -/
inductive Exchange where
  | broadcastHalt
  | halt (i : ApId)
  | move (i : ApId) (target : Nat)
  | poll (i : ApId)
  deriving DecidableEq, Repr

/-- The exchange of the running slot: what was sent, the tag the frame carried, whether its list entry
may return after a miss (R138), and the uptime in ms at which the slot ends. -/
structure InFlight where
  what    : Exchange
  tag     : BitVec 4
  returns : Bool
  ends    : Nat
  deriving DecidableEq, Repr

/-- The Link Controller's state for the line as a whole (R133). `nextSlot` is the uptime in ms at
which the next slot begins. -/
structure Link where
  broadcast : Bool
  haltList  : List ApId
  moveList  : List (ApId × Nat)
  priority  : List ApId
  ring      : ApId
  run       : Nat
  inFlight  : Option InFlight
  nextSlot  : Nat
  deriving DecidableEq, Repr

/-! ### Fire Interface (chapter 9) -/

/-- Fire states (R146), in the order of their codes (R177). -/
inductive FireState where
  | normal | alarm | restoreWait
  deriving DecidableEq, Repr

/-- The Fire Interface: fire state, debounced level, debounce timer with expiry in ms (R146). -/
structure Fire where
  state    : FireState
  level    : Bool
  debounce : Option Nat
  deriving DecidableEq, Repr

/-! ### Client Ports (chapter 10) -/

/-- Reset kinds (00_scope.md, "Reset kinds"), in the order of their codes (R180). -/
inductive ResetKind where
  | por | pin | restart
  deriving DecidableEq, Repr

/-- What a restart was made for (R166, R180). -/
inductive RestartReason where
  | restart | leaveCommissioning
  deriving DecidableEq, Repr

/-- Why an order was cancelled (R32, R35, R180). -/
inductive CancelReason where
  | weather | expired
  deriving DecidableEq, Repr

/-- The notices, with the fields their own rules list (R162, R163, R180). -/
inductive NoticeBody where
  | weatherState (prev new : Weather) (claims : Nat) (causes : CauseSet)
  | closureDone (i : ApId) (cause : Cause)
  | apertureFault (i : ApId) (kind : FaultKind)
  | nodeOffline (i : ApId) (left : MotionState)
  | nodeOnline (i : ApId)
  | orderCancelled (i : ApId) (cls : OrderClass) (target : Target) (reason : CancelReason)
  | planLate (b : Branch) (lateEntries : Nat) (first : ApId)
  | planRecovered (b : Branch)
  | fireState (prev new : FireState) (slots : Nat)
  | sensorCondition (word : CondWord) (changed : Cond) (set : Bool)
  | restarted (kind : ResetKind) (reason : RestartReason)
  | loadClamped (record : Nat)
  deriving DecidableEq, Repr

/-- A notice record: the uptime second of its event and its body (R163). -/
structure Notice where
  second : Nat
  body   : NoticeBody
  deriving DecidableEq, Repr

/-- Port states (R156). -/
inductive PortState where
  | idle | assembling | pending | replying
  deriving DecidableEq, Repr

/-- The flags moved into a request's reply header at its taking (R158). -/
structure HeaderFlags where
  ovr   : Bool
  frm   : Bool
  rdisc : Bool
  deriving DecidableEq, Repr

/-- One client port (R156 to R164). `reqBuf` is the request buffer (kind, length, body so far),
`discarded` the discarded mark of R157, `gapTimer` the gap timer with expiry in ms, `replyBuf` the
unread bytes of the reply and `unread` says that no byte of it has been read (RRDY). `held` is the
strobe held under WAIT (R159); `dOut` is the byte the part drove on D[7:0] at the latest completed
read strobe. -/
structure PortRec where
  state     : PortState
  reqBuf    : List Byte
  discarded : Bool
  gapTimer  : Option Nat
  header    : HeaderFlags
  replyBuf  : List Byte
  unread    : Bool
  ovr       : Bool
  frm       : Bool
  rdisc     : Bool
  nlost     : Bool
  notices   : List Notice
  held      : Option Strobe
  dOut      : Option Byte
  deriving DecidableEq, Repr

/-- The three ports. -/
structure Ports where
  s : PortRec
  l : PortRec
  k : PortRec
  deriving DecidableEq, Repr

/-! ### Commissioning Store (chapter 11) -/

/-- Store modes (R170), in the order of their codes (R177). -/
inductive StoreMode where
  | none | erase1 | erase2 | erase4 | erase8 | eraseAll | write
  deriving DecidableEq, Repr

/-- The operation of a busy store (R172): the first and last records touched, the 16 bytes of a write
(`none` for an erase), and the uptime in ms at which it completes. -/
structure StoreOp where
  first : Nat
  last  : Nat
  data  : Option (List Byte)
  due   : Nat
  deriving DecidableEq, Repr

/-- The Commissioning Store. `cells` is its non-volatile contents as (address, byte) pairs, address
16·record + byte, in the canonical form of `Cells.wf`: an unlisted address reads 0xFF. -/
structure Store where
  cells         : List Host.Cell
  mode          : StoreMode
  op            : Option StoreOp
  commissioning : Bool
  plantLock     : Bool
  operLock      : Bool
  deriving DecidableEq, Repr

/-! ### The whole part -/

/-- Uptime in ms since the last POR or PIN reset, and the whole second of the next second boundary
(R44). -/
structure Clock where
  ms           : Nat
  nextBoundary : Nat
  deriving DecidableEq, Repr

/-- The input pins whose level the part reads outside a port strobe: ALARM as it stands, and the
levels last sampled of CMSN, VANE[7:0], RAIN and RAINOK. -/
structure Pins where
  alarm  : Bool
  cmsn   : Bool
  vane   : Byte
  rain   : Bool
  rainok : Bool
  deriving DecidableEq, Repr

/-- The state of the EW48. `loadEnd` is the uptime in ds of the end of the load (R103) and
`roomLifetime` the operating value of R34 in min. The last three fields are the MODEL's own: the
admission attempts owed inside the event under way (empty between events), the counter that the free
values are applied to, and the commands that are waiting, first in, first out. -/
structure State where
  clock        : Clock
  pins         : Pins
  aps          : Vector Aperture 48
  zones        : Zones
  fe           : FrontEnd
  sup          : Supervisor
  branches     : Branches
  link         : Link
  fire         : Fire
  ports        : Ports
  store        : Store
  roomLifetime : Nat
  loadEnd      : Nat
  owed         : List Branch
  freeDraws    : Nat
  pending      : List Instr
  deriving DecidableEq, Repr

/-- The faults of a step: none. The manual describes no condition in which the part stops, and no
command of the table is without an effect, so no definition raises a fault. -/
inductive Fault where
  deriving DecidableEq, Repr

/-- The refusals of a step. -/
inductive Refusal where
  /-- Raised only by an arm of `exec` whose command has no meaning yet (none has been left so). Safe:
  the machine stops where the part goes on. -/
  | notModelled (mnemonic : String)
  deriving DecidableEq, Repr

/-! ### Values after reset

The defaults of a blank Commissioning Store and the values each chapter's reset table gives. -/

/-- No condition. -/
def Cond.none : Cond := ⟨false, false, false, false⟩

/-- The fail-safe enables of a blank record 63 (R59, R167). -/
def Cond.defaultEnables : Cond := ⟨false, true, true, false⟩

/-- An empty order slate (R43). -/
def Slate.empty : Slate := ⟨none, none, none, none⟩

/-- All timers stopped and all marks absent (R129). -/
def Monitor.stopped : Monitor := ⟨none, none, none, none, none, none⟩

/-- A node record after reset (R144). -/
def Node.reset : Node := ⟨none, 0, none, none⟩

/-- The static half loaded from a blank PLANT record: installed = no; the other fields are irrelevant
(R2) and are named in assumption log 7. -/
def Static.blank : Static :=
  ⟨false, .window, .A, 0, 0, 0, false, false, 0, 1, 1, 10, 10, 0⟩

/-- The record of an aperture with static half `f` after any reset (R20, R72, R111, R129, R144). -/
def Aperture.reset (f : Static) : Aperture :=
  { fix := f
    state := if f.installed then .unknown else .absent
    position := none
    motion := none
    orderTag := none
    stallCount := 0
    fault := none
    slate := .empty
    effTarget := none
    effClass := none
    waitSince := 0
    startTime := none
    held := none
    mon := .stopped
    node := .reset
    fig := ⟨0, if f.loadLimit = 0 then .unlimited else .clear, none⟩
    claim := none }

/-- A zone descriptor loaded from a blank record (R36). -/
def Zone.blank : Zone := ⟨false, 0, 0, .none, .none, .none, .none, 0, 10⟩

/-- The base descriptor loaded from a blank record 60 (R37). -/
def Zone.blankBase : Zone := ⟨false, 0, 0, .order, .order, .observe, .none, 0, 10⟩

/-- A warning after reset (R129). -/
def Warning.reset : Warning := ⟨.idle, none⟩

/-- The front end after POR with the settings of blank records (R59, R60). -/
def FrontEnd.porDefault : FrontEnd :=
  { count := 0, saturated := false, speed := 0, triple := [], ring := [], gust := 0
    bearing := none, wet := false, wetRun := 0, dryRun := 0, silent := 0
    word := ⟨.none, .none, .defaultEnables⟩, boundaryWord := ⟨.none, .none, .defaultEnables⟩, precaution := .none
    constK := 250, vaneOffset := 0, wetDelay := 2, dryDelay := 600, silence := 3600 }

/-- The supervisor after POR with the operating values of blank records (R73, R92). -/
def Supervisor.porDefault : Supervisor :=
  { weather := .clear, holdTimer := none, advisory := none, trigger := none, queue := []
    changeCount := 0, watchGust := 150, holdTime := 1800, guardLead := 300, needs := 0
    advGust := none, computed := false, gustWord := ⟨.none, .none, .defaultEnables⟩ }

/-- A branch record after a reset whose load ends at uptime `t` ds, with the static fields given
(R93, R111). A gap of 0 has always passed and leaves no timer running (R103). -/
def BranchRec.reset (limit window gap t : Nat) : BranchRec :=
  { limit := limit, window := window, gap := gap, lastStart := none
    quiet := some (t + Config.quietDs)
    gapTimer := if gap = 0 then none else some (t + gap)
    reservation := none, late := false, projection := [] }

/-- The link after a reset at uptime `t` ms (R144). -/
def Link.reset (t : Nat) : Link :=
  { broadcast := true, haltList := [], moveList := [], priority := [], ring := 0, run := 0
    inFlight := none, nextSlot := t }

/-- A port after POR or PIN reset with the notices `ns` queued (R165). -/
def PortRec.reset (ns : List Notice) : PortRec :=
  { state := .idle, reqBuf := [], discarded := false, gapTimer := none
    header := ⟨false, false, false⟩, replyBuf := [], unread := false
    ovr := false, frm := false, rdisc := false, nlost := false
    notices := ns, held := none, dOut := none }

/-- The state right after a power-on reset of a part whose Commissioning Store is blank, with CMSN and
ALARM low (assumption log 5 and 6): every block at its POR values, the load done, RESTARTED queued on
every port (R165, R167), and no command waiting. -/
def State.reset : State :=
  { clock := ⟨0, 1⟩
    pins := ⟨false, false, 0, false, false⟩
    aps := Vector.replicate 48 (Aperture.reset Static.blank)
    zones := ⟨Vector.replicate 8 Zone.blank, Zone.blankBase, Vector.replicate 8 Warning.reset⟩
    fe := FrontEnd.porDefault
    sup := Supervisor.porDefault
    branches :=
      { a := BranchRec.reset 40 10 20 0
        b := BranchRec.reset 40 10 20 0
        c := BranchRec.reset 40 10 20 0
        d := BranchRec.reset 40 10 20 0 }
    link := Link.reset 0
    fire := ⟨.normal, false, none⟩
    ports :=
      { s := PortRec.reset [⟨0, .restarted .por .restart⟩]
        l := PortRec.reset [⟨0, .restarted .por .restart⟩]
        k := PortRec.reset [⟨0, .restarted .por .restart⟩] }
    store := ⟨[], .none, none, false, false, false⟩
    roomLifetime := 60
    loadEnd := 0
    owed := []
    freeDraws := 0
    pending := [] }

end Sys2Proof.Machine
end

