-- ==== Sys2Proof/Machine/Ops.lean ====
section
/-! DEFINITION. The named operations every block uses: uptime, access to the aperture, port and branch
records, notices, and the sets of states the chapters name. -/

namespace Sys2Proof.Machine

open Sys2Proof

/-! ### Uptime -/

/-- Uptime in ds (00_scope.md, "Units and ranges"). -/
def State.ds (s : State) : Nat := s.clock.ms / 100

/-- Uptime in s. -/
def State.sec (s : State) : Nat := s.clock.ms / 1000

/-- The uptime moves on to `t` ms, where it has not got there yet: an event that happens at time `t` is
taken at `t` or later (assumption log 1). -/
def State.advanceTo (s : State) (t : Nat) : State := { s with clock.ms := max s.clock.ms t }

/-! ### Apertures -/

/-- All aperture indices, in index order. -/
def allAps : List ApId := List.finRange 48

/-- All zone descriptor numbers, in order. -/
def allZones : List ZoneId := List.finRange 8

/-- The branches, in the order of their codes. -/
def allBranches : List Branch := [.A, .B, .C, .D]

/-- The ports, in the order the manual names them. -/
def allPorts : List Port := [.S, .L, .K]

/-- The record of aperture `i` (R1). -/
def State.ap (s : State) (i : ApId) : Aperture := s.aps[i]

/-- The record of aperture `i` is rewritten. -/
def State.setAp (s : State) (i : ApId) (a : Aperture) : State := { s with aps := s.aps.set i a }

/-- The record of aperture `i` is changed by `f`. -/
def State.modAp (s : State) (i : ApId) (f : Aperture → Aperture) : State := s.setAp i (f (s.ap i))

/-- An installed aperture: any state other than ABSENT (R16, R17). -/
def Aperture.present (a : Aperture) : Bool := a.state ≠ .absent

/-- The moving states (R15). -/
def MotionState.moving : MotionState → Bool
  | .starting | .running | .stopping => true
  | _ => false

/-- The states in which a motion is under way and not yet halted: STARTING and RUNNING. -/
def MotionState.driving : MotionState → Bool
  | .starting | .running => true
  | _ => false

/-- The states in which an aperture may be in the Closure Queue (R85). -/
def MotionState.queueable : MotionState → Bool
  | .rest | .waiting | .starting | .running | .stopping | .settling | .retryWait => true
  | _ => false

/-- The states that R18 and R140 name as those from which the third consecutive miss leads to OFFLINE. -/
def MotionState.mayGoOffline : MotionState → Bool
  | .unknown | .rest | .waiting | .starting | .running | .stopping | .settling | .retryWait => true
  | _ => false

/-- FAULT(TIMEOUT) entered at the node timeout (R119), the node silent since: the fault began later than the last
contact. At a stop that a fresh status confirms the two are one moment (assumption log 56). -/
def Aperture.silentTimeout (a : Aperture) : Bool :=
  match a.state, a.fault, a.node.lastContact with
  | .fault, some ⟨.timeout, t⟩, some c => c < t
  | _, _, _ => false

/-- The third consecutive miss takes the aperture to OFFLINE (R18, R140), from FAULT(TIMEOUT) entered at the node
timeout (R119) where the free value has it so (assumption log 56). -/
def Aperture.leavesByMiss (a : Aperture) : Bool :=
  a.state.mayGoOffline || a.silentTimeout && Config.thirdMissEndsTimeout

/-- Distance of two positions in permille. -/
def distance (p q : Nat) : Nat := if p ≤ q then q - p else p - q

/-- An opening target: numeric and above 0 (R22). -/
def Target.opening : Target → Bool
  | .pos p => 0 < p
  | .hold => false

/-- Off target (R9): the effective target is a position that differs from the known position by more
than 5 permille. -/
def Aperture.offTarget (a : Aperture) : Bool :=
  match a.effTarget, a.position with
  | some (.pos t), some p => Config.offTargetPermille < distance t p
  | _, _ => false

/-- Off target in the closing direction: the effective target is a position more than 5 permille below
the aperture's position (R118, R120, R122). -/
def Aperture.wantsClosing (a : Aperture) : Bool :=
  match a.effTarget, a.position with
  | some (.pos t), some p => t + Config.offTargetPermille < p
  | _, _ => false

/-- Off target in the opening direction (R12). -/
def Aperture.wantsOpening (a : Aperture) : Bool :=
  match a.effTarget, a.position with
  | some (.pos t), some p => p + Config.offTargetPermille < t
  | _, _ => false

/-- The contribution of an aperture to its branch's committed current (R94). -/
def Aperture.contribution (a : Aperture) : Nat :=
  match a.state with
  | .starting => a.fix.inrush
  | .running | .stopping => a.fix.run
  | .offline => a.held.getD 0
  | _ => 0

/-- Number of installed apertures with the property `f`. -/
def State.countAps (s : State) (f : Aperture → Bool) : Nat :=
  (allAps.filter fun i => (s.ap i).present && f (s.ap i)).length

/-- An event or a reset may leave other values in the reply fields that the manual does not state: the counter
of the free values advances (assumption log 26). -/
def State.draw (s : State) : State := { s with freeDraws := s.freeDraws + 1 }

/-! ### Slates -/

/-- The slot of one class (R22). -/
def Slate.get (t : Slate) : OrderClass → Option Slot
  | .life => t.life
  | .weather => t.weather
  | .supervisory => t.supervisory
  | .room => t.room

/-- The slot of one class is written or removed (R22: a write replaces its whole content). -/
def Slate.put (t : Slate) : OrderClass → Option Slot → Slate
  | .life, x => { t with life := x }
  | .weather, x => { t with weather := x }
  | .supervisory, x => { t with supervisory := x }
  | .room, x => { t with room := x }

/-- The highest-ranked present slot with its class (R9, R24). -/
def Slate.top (t : Slate) : Option (OrderClass × Slot) :=
  match t.life, t.weather, t.supervisory, t.room with
  | some x, _, _, _ => some (.life, x)
  | none, some x, _, _ => some (.weather, x)
  | none, none, some x, _ => some (.supervisory, x)
  | none, none, none, some x => some (.room, x)
  | none, none, none, none => none

/-- Rank of a class, highest first (R22). -/
def OrderClass.rank : OrderClass → Nat
  | .life => 0
  | .weather => 1
  | .supervisory => 2
  | .room => 3

/-- The class a port's orders take (R22). -/
def portClass : Port → OrderClass
  | .S => .supervisory
  | .L => .life
  | .K => .room

/-! ### Branches -/

/-- The record of one branch. -/
def Branches.get (t : Branches) : Branch → BranchRec
  | .A => t.a
  | .B => t.b
  | .C => t.c
  | .D => t.d

/-- The record of one branch is rewritten. -/
def Branches.put (t : Branches) : Branch → BranchRec → Branches
  | .A, x => { t with a := x }
  | .B, x => { t with b := x }
  | .C, x => { t with c := x }
  | .D, x => { t with d := x }

/-- The record of branch `b`. -/
def State.branch (s : State) (b : Branch) : BranchRec := s.branches.get b

/-- The record of branch `b` is changed by `f`. -/
def State.modBranch (s : State) (b : Branch) (f : BranchRec → BranchRec) : State :=
  { s with branches := s.branches.put b (f (s.branch b)) }

/-- The apertures wired to branch `b`, in index order (R5). -/
def State.onBranch (s : State) (b : Branch) : List ApId :=
  allAps.filter fun i => (s.ap i).fix.branch = b

/-- The committed current of branch `b`: the sum of the contributions of its apertures (R94). -/
def State.committed (s : State) (b : Branch) : Nat :=
  ((s.onBranch b).map fun i => (s.ap i).contribution).sum

/-- An admission attempt is owed on branch `b`; it runs at the end of the event under way
(R101, assumption log 12). -/
def State.owe (s : State) (b : Branch) : State :=
  if b ∈ s.owed then s else { s with owed := s.owed ++ [b] }

/-! ### Ports and notices -/

/-- The record of one port. -/
def Ports.get (t : Ports) : Port → PortRec
  | .S => t.s
  | .L => t.l
  | .K => t.k

/-- The record of one port is rewritten. -/
def Ports.put (t : Ports) : Port → PortRec → Ports
  | .S, x => { t with s := x }
  | .L, x => { t with l := x }
  | .K, x => { t with k := x }

/-- The record of port `p`. -/
def State.port (s : State) (p : Port) : PortRec := s.ports.get p

/-- The record of port `p` is changed by `f`. -/
def State.modPort (s : State) (p : Port) (f : PortRec → PortRec) : State :=
  { s with ports := s.ports.put p (f (s.port p)) }

/-- A notice joins a port's queue, or is discarded with NLOST set where the queue is full (R162). -/
def PortRec.addNotice (r : PortRec) (n : Notice) : PortRec :=
  if r.notices.length < Config.noticeCapacity then { r with notices := r.notices ++ [n] }
  else { r with nlost := true }

/-- A notice of the present uptime second is queued on each of the ports `ps` (R162, R163). -/
def State.notify (s : State) (ps : List Port) (b : NoticeBody) : State :=
  ps.foldl (fun s' p => s'.modPort p fun r => r.addNotice ⟨s.sec, b⟩) s

/-- The port behind an origin, where there is one (R162: ORDER-CANCELLED goes to the origin port). -/
def Origin.ports : Origin → List Port
  | .port p => [p]
  | .alarm | .weather => []

/-! ### Zones -/

/-- Zone descriptor `z` matches aperture index `i` (R38). -/
def Zone.covers (z : Zone) (i : ApId) : Bool :=
  z.enabled && i.val / 2 ^ z.size == z.base / 2 ^ z.size

/-- The governing zone of aperture `i`: the lowest-numbered descriptor that matches it, or `none` for
the base descriptor (R39). Descriptors change only at a reset, so this is the zone worked out there. -/
def State.governing (s : State) (i : ApId) : Option ZoneId :=
  allZones.find? fun z => (s.zones.desc[z]).covers i

/-- The descriptor that governs aperture `i` (R39). -/
def State.zoneOf (s : State) (i : ApId) : Zone :=
  match s.governing i with
  | some z => s.zones.desc[z]
  | none => s.zones.base

/-- The right a port holds in a zone (R40). -/
def Zone.right (z : Zone) : Port → Right
  | .S => z.rightS
  | .L => z.rightL
  | .K => z.rightK

/-- The warning of zone `z` is rewritten. -/
def State.setWarning (s : State) (z : ZoneId) (w : Warning) : State :=
  { s with zones.warnings := s.zones.warnings.set z w }

/-- A closing (R126): WAITING, STARTING, RUNNING or STOPPING with a motion whose direction is CLOSING. -/
def Aperture.closing (a : Aperture) : Bool :=
  (a.state = .waiting || a.state.moving) &&
    match a.motion with
    | some m => m.dir = .closing
    | none => false

/-- Zone `z` has at least one closing (R126). -/
def State.zoneCloses (s : State) (z : ZoneId) : Bool :=
  allAps.any fun i => (s.ap i).closing && s.governing i == some z

/-! ### Condition bits -/

/-- The four bits as a list, in the order of the condition word. -/
def Cond.bits (c : Cond) : List Bool := [c.windOver, c.vaneInvalid, c.rainSensor, c.anemoSilent]

/-- At least one of the four bits is set. -/
def Cond.any (c : Cond) : Bool := c.windOver || c.vaneInvalid || c.rainSensor || c.anemoSilent

/-- Two sets of bits combined bit by bit. -/
def Cond.zip (f : Bool → Bool → Bool) (c d : Cond) : Cond :=
  ⟨f c.windOver d.windOver, f c.vaneInvalid d.vaneInvalid, f c.rainSensor d.rainSensor,
    f c.anemoSilent d.anemoSilent⟩

end Sys2Proof.Machine
end

