-- ==== Sys2Proof/Machine/Queue.lean ====
section
/-! DEFINITION. The Closure Queue: membership, entries, order, and the projection over it
(R84 to R89, R108, R109). -/

namespace Sys2Proof.Machine

open Sys2Proof

/-- Deadline order of R86: IMMEDIATE first, then numeric deadlines, earliest first. -/
def deadlineLt : Option Nat → Option Nat → Bool
  | none, some _ => true
  | some a, some b => a < b
  | _, none => false

/-- The order of the Closure Queue (R86): deadline, protection rank, load descending, index. -/
def Entry.lt (x y : Entry) : Bool :=
  if x.deadline ≠ y.deadline then deadlineLt x.deadline y.deadline
  else if x.rank ≠ y.rank then x.rank < y.rank
  else if x.load ≠ y.load then y.load < x.load
  else x.ap < y.ap

/-- An entry is placed at the position its keys give (R86). -/
def insertEntry (e : Entry) : List Entry → List Entry
  | [] => [e]
  | x :: xs => if e.lt x then e :: x :: xs else x :: insertEntry e xs

/-- The queue is sorted by its keys (R86). -/
def sortEntries : List Entry → List Entry
  | [] => []
  | x :: xs => insertEntry x (sortEntries xs)

/-- Membership of the Closure Queue (R85). -/
def Aperture.member (a : Aperture) : Bool :=
  a.slate.weather.isSome && a.slate.life.isNone && a.state.queueable && decide (a.position ≠ some 0)

/-- The load of an entry (R84): Q_adv of the latest computation when the cause is ADVISORY and an
advisory is held, otherwise the latest Q. -/
def entryLoad (s : State) (a : Aperture) (c : Cause) : Nat :=
  match c, s.sup.advisory, a.fig.adv with
  | .advisory, some _, some (q, _) => q
  | _, _, _ => a.fig.load

/-- The claim kept for aperture `i`; every aperture with a WEATHER slot has one (R82). -/
def Aperture.claimOr (a : Aperture) : Claim := a.claim.getD ⟨.rain, none⟩

/-- The first five fields of the entry of aperture `i`, with the LATE mark given (R84). -/
def mkEntry (s : State) (i : ApId) (late : Bool) : Entry :=
  let a := s.ap i
  let c := a.claimOr
  { ap := i, cause := c.cause, deadline := c.deadline, rank := a.fix.rank
    load := entryLoad s a c.cause, late := late }

/-- The queued field of aperture `i` (R15, R84). -/
def State.queued (s : State) (i : ApId) : Bool := s.sup.queue.any fun e => e.ap = i

/-- The Closure Queue is rewritten. -/
def State.setQueue (s : State) (q : List Entry) : State := { s with sup.queue := q }

/-- The entry of aperture `i` leaves the queue; the others keep their order (R86). -/
def State.dropEntry (s : State) (i : ApId) : State :=
  s.setQueue (s.sup.queue.filter fun e => e.ap ≠ i)

/-- The membership of aperture `i` is judged again from its present state, and its entry joins or
leaves accordingly (R85, R86, R88, R89). -/
def refreshEntry (i : ApId) (s : State) : State :=
  match (s.ap i).member, s.queued i with
  | true, false => s.setQueue (insertEntry (mkEntry s i false) s.sup.queue)
  | false, true => s.dropEntry i
  | _, _ => s

/-- A fresh status writes a position (R7), and the supervisor judges membership again: position 0 takes
an entry out with a CLOSURE-DONE notice (R87). -/
def writePosition (i : ApId) (p : Nat) (s : State) : State :=
  let s := s.modAp i fun a => { a with position := some p }
  match p, s.sup.queue.find? fun e => e.ap = i with
  | 0, some e => (s.dropEntry i).notify [.S, .K] (.closureDone i e.cause)
  | _, _ => refreshEntry i s

/-- At an exposure update every entry's fields are rewritten and the queue is sorted again (R86). -/
def resortQueue (s : State) : State :=
  s.setQueue (sortEntries (s.sup.queue.map fun e => mkEntry s e.ap e.late))

/-! ### Projection and lateness -/

/-- The remaining time t_i of R108, in ds. -/
def remaining (a : Aperture) : Nat := ceilDiv (a.fix.closeStroke * a.position.getD 0) 1000

/-- The projected completions P_k over the entries `es` of one branch, with the work and the number of
the entries before them (R108). -/
def projectFrom (s : State) (r : BranchRec) : Nat → Nat → List Entry → List Nat
  | _, _, [] => []
  | w, k, e :: es =>
    let w' := w + (s.ap e.ap).fix.run * remaining (s.ap e.ap)
    (ceilDiv w' r.limit + (k + 1) * r.gap) :: projectFrom s r w' (k + 1) es

/-- The entries of the apertures wired to branch `b`, in queue order (R108). -/
def State.entriesOf (s : State) (b : Branch) : List Entry :=
  s.sup.queue.filter fun e => (s.ap e.ap).fix.branch = b

/-- The projection of branch `b` (R108). -/
def projection (s : State) (b : Branch) : List Nat := projectFrom s (s.branch b) 0 0 (s.entriesOf b)

/-- An entry is LATE when its deadline is numeric and the present uptime plus its projected completion
exceeds it (R109). -/
def lateMark (now p : Nat) (e : Entry) : Bool :=
  match e.deadline with
  | some d => d < now + p
  | none => false

/-- The apertures of branch `b` whose entries are LATE, in queue order (R109). -/
def lateAps (s : State) (b : Branch) : List ApId :=
  (((s.entriesOf b).zip (projection s b)).filter fun x => lateMark s.ds x.2 x.1).map fun x => x.1.ap

/-- The recomputation of branch `b`'s projection: LATE marks, late flag, and the PLAN-LATE or
PLAN-RECOVERED notice with the attempt that the flag's clearing runs (R100, R109). -/
def projectBranch (s : State) (b : Branch) : State :=
  let late := lateAps s b
  let was := (s.branch b).late
  let proj := projection s b
  let s := s.setQueue (s.sup.queue.map fun e =>
    if (s.ap e.ap).fix.branch = b then { e with late := late.contains e.ap } else e)
  let s := s.modBranch b fun r => { r with late := !late.isEmpty, projection := proj }
  match was, late with
  | false, i :: _ => s.notify [.S, .L] (.planLate b late.length i)
  | true, [] => (s.notify [.S, .L] (.planRecovered b)).owe b
  | _, _ => s

/-- The projection of every branch is recomputed (R108), and the PLAN notices of several branches join the
queues in the order A to D: DESIGN CHOICE, assumption log 58. -/
def project (s : State) : State := allBranches.foldl projectBranch s

end Sys2Proof.Machine
end

