-- ==== Sys2Proof/Machine/Motion.lean ====
section
/-! DEFINITION. Entering and leaving motion states, zone warnings, halts and the order lists they feed,
stalls, stops and faults (R9, R10, R12, R13, R17 to R19, R95, R96, R112 to R128, R138). -/

namespace Sys2Proof.Machine

open Sys2Proof

/-! ### The order lists of the link (R138) -/

/-- The running exchange is a MOVE to aperture `i`. -/
def InFlight.isMoveTo (f : InFlight) (i : ApId) : Bool :=
  match f.what with
  | .move j _ => j = i
  | _ => false

/-- A MOVE for `i` whose frame is in the running slot will not return to the list after a miss: a newer
entry was listed or the entry was withdrawn (R138). -/
def Link.forgetMove (l : Link) (i : ApId) : Link :=
  { l with inFlight := l.inFlight.map fun f => if f.isMoveTo i then { f with returns := false } else f }

/-- The MOVE of aperture `i` is withdrawn (R117, R138). -/
def Link.withdrawMove (l : Link) (i : ApId) : Link :=
  { l.forgetMove i with moveList := l.moveList.filter fun m => m.1 ≠ i }

/-- A HALT for aperture `i` is handed on: it joins the tail unless the aperture has one, and the
aperture's MOVE is withdrawn (R138). -/
def Link.listHalt (l : Link) (i : ApId) : Link :=
  { l.withdrawMove i with haltList := if i ∈ l.haltList then l.haltList else l.haltList ++ [i] }

/-- A MOVE handed on at an admission joins the tail (R138). -/
def Link.listMove (l : Link) (i : ApId) (t : Nat) : Link :=
  { l.forgetMove i with moveList := (l.moveList.filter fun m => m.1 ≠ i) ++ [(i, t)] }

/-- A MOVE handed on at a retarget takes the place of the aperture's entry, or joins the tail (R138). -/
def Link.relistMove (l : Link) (i : ApId) (t : Nat) : Link :=
  { l.forgetMove i with
    moveList := if l.moveList.any fun m => m.1 = i
      then l.moveList.map fun m => if m.1 = i then (i, t) else m
      else l.moveList ++ [(i, t)] }

/-! ### Zone warnings (R126, R127) -/

/-- A warning in DONE returns to IDLE as soon as its zone has no closing left (R127). -/
def settleWarning (z : ZoneId) (s : State) : State :=
  if (s.zones.warnings[z]).state = .done && !s.zoneCloses z then s.setWarning z ⟨.idle, none⟩ else s

/-- The warning of aperture `i`'s governing zone is judged again after a change of the aperture. -/
def refreshWarning (i : ApId) (s : State) : State :=
  match s.governing i with
  | some z => settleWarning z s
  | none => s

/-- A motion that calls for its zone's warning, in a zone with this warn time (R99, R126). -/
def Motion.needsWarning (m : Motion) (warn : Nat) : Bool :=
  (m.cls = .weather || m.cls = .supervisory) && m.dir = .closing && m.purpose = .normal && 0 < warn

/-- A WAITING aperture that calls for a warning starts it where its zone's warning is IDLE (R126). -/
def callWarning (i : ApId) (s : State) : State :=
  let a := s.ap i
  match s.governing i, a.motion with
  | some z, some m =>
    if a.state = .waiting && m.needsWarning (s.zones.desc[z]).warn
        && (s.zones.warnings[z]).state = .idle then
      s.setWarning z ⟨.running, some (s.ds + (s.zones.desc[z]).warn * 10)⟩
    else s
  | _, _ => s

/-! ### Passing from one motion state to another -/

/-- The changes of motion state that run an admission attempt on the aperture's branch: joining or
leaving the wait list (R96), and the releases of current that come with a change of state (R95).
Entry to OFFLINE keeps the commitment (R18). -/
def owesAttempt (old new : MotionState) : Bool :=
  (decide (old = .waiting) != decide (new = .waiting)) ||
  (old = .starting && (new = .running || new = .stopping)) ||
  (old.moving && !new.moving && new ≠ .offline)

/-- Leaving STARTING or RUNNING for any state other than OFFLINE withdraws the aperture's MOVE (R138). -/
def withdraws (old new : MotionState) : Bool :=
  old.driving && !new.driving && new ≠ .offline

/-- Aperture `i` passes to motion state `st`, with `f` the other fields the entry writes. Its queue
membership and its zone's warning are judged again (R85, R127), and the attempts and the withdrawal
that go with the change are made. -/
def enter (i : ApId) (st : MotionState) (f : Aperture → Aperture) (s : State) : State :=
  let old := (s.ap i).state
  let s := s.modAp i fun a => { f a with state := st }
  let s := if owesAttempt old st then s.owe (s.ap i).fix.branch else s
  let s := if withdraws old st then { s with link := s.link.withdrawMove i } else s
  refreshWarning i (refreshEntry i s)

/-- The motion field, start time, timers and marks are removed (R10, R93, R112). -/
def Aperture.still (a : Aperture) : Aperture :=
  { a with motion := none, startTime := none, mon := .stopped }

/-- Entry to WAITING with motion `m` (R10, R96). -/
def toWaiting (i : ApId) (m : Motion) (s : State) : State :=
  callWarning i (enter i .waiting
    (fun a => { a with motion := some m, waitSince := s.ds, mon := .stopped }) s)

/-- The motion derived from the effective target (R10). -/
def Aperture.derive (a : Aperture) (t p : Nat) : Motion :=
  { target := t, dir := if t < p then .closing else .opening
    cls := a.effClass.getD .room, purpose := .normal }

/-- An aperture at REST is judged by R9: off target, it enters WAITING. -/
def judge (i : ApId) (s : State) : State :=
  let a := s.ap i
  match a.effTarget, a.position with
  | some (.pos t), some p =>
    if a.state = .rest && a.offTarget then toWaiting i (a.derive t p) s else s
  | _, _ => s

/-- Entry to REST, followed by the judgement of R9. -/
def toRest (i : ApId) (s : State) : State :=
  judge i (enter i .rest (fun a => { a.still with fault := none }) s)

/-- Entry to SETTLING with its timer started for the governing zone's settle time (R120). -/
def toSettling (i : ApId) (c : SettleCause) (s : State) : State :=
  enter i .settling (fun a =>
    { a with mon := { Monitor.stopped with settle := some (s.ds + (s.zoneOf i).settle), settleCause := some c } }) s

/-- Entry to RETRY-WAIT with its timer started for 5.0 s (R123). -/
def toRetryWait (i : ApId) (s : State) : State :=
  enter i .retryWait (fun a =>
    { a with mon := { Monitor.stopped with retry := some (s.ds + Config.retryDs) } }) s

/-- Entry to FAULT (R13): the fault record is written, the motion removed, the current released, and
APERTURE-FAULT queued to Port S and Port L. -/
def toFault (i : ApId) (k : FaultKind) (s : State) : State :=
  (enter i .fault (fun a => { a.still with fault := some ⟨k, s.ds⟩ }) s).notify [.S, .L]
    (.apertureFault i k)

/-- A motion is halted (R117): STARTING or RUNNING passes to STOPPING with its halt cause, and a HALT is
handed on. An aperture in another state is not halted. Where the node's contact timer has already expired, no node
timeout is left to end the stop: it waits for a fresh status or the third miss, DESIGN CHOICE, assumption log 60. -/
def halt (i : ApId) (c : HaltCause) (s : State) : State :=
  if (s.ap i).state.driving then
    let s := enter i .stopping (fun a => { a with mon := { Monitor.stopped with haltCause := some c } }) s
    { s with link := s.link.listHalt i }
  else s

/-- A running motion in the same direction is retargeted (R118). -/
def retarget (i : ApId) (t : Nat) (s : State) : State :=
  let s := s.modAp i fun a => { a with motion := a.motion.map fun m => { m with target := t } }
  { s with link := s.link.relistMove i t }

/-- The motion of a WAITING aperture is derived again (R10); its zone's warning is judged again and
called for where the new motion needs it (R126). -/
def rederive (i : ApId) (m : Motion) (s : State) : State :=
  callWarning i (refreshWarning i (s.modAp i fun a => { a with motion := some m }))

/-! ### A changed effective target reaches the aperture (R24, R25, R118, R122, R123) -/

/-- R118 for an aperture in STARTING or RUNNING. -/
def steer (i : ApId) (s : State) : State :=
  let a := s.ap i
  match a.motion with
  | none => s
  | some m =>
    match m.purpose, a.effTarget with
    | .normal, some (.pos t) =>
      if t = m.target then s
      else if a.offTarget && decide (m.dir = if t < a.position.getD 0 then .closing else .opening) then
        retarget i t s
      else halt i .target s
    | .normal, _ => halt i .target s
    | .backoff, _ => if a.wantsClosing then s else halt i .target s

/-- A changed effective target reaches a WAITING aperture (R10, R24, R25, R122). -/
def rejudgeWaiting (i : ApId) (s : State) : State :=
  let a := s.ap i
  match a.motion, a.effTarget, a.position with
  | some m, some (.pos t), some p =>
    if m.purpose = .backoff && a.wantsClosing then rederive i { m with cls := a.effClass.getD m.cls } s
    else if a.offTarget then rederive i (a.derive t p) s
    else toRest i s
  | _, _, _ => toRest i s

/-- A changed effective target is handed on by the aperture's motion state (R24 steps 1 to 3, R25). -/
def handOn (i : ApId) (s : State) : State :=
  match (s.ap i).state with
  | .rest => judge i s
  | .waiting => rejudgeWaiting i s
  | .starting | .running => steer i s
  | .retryWait => toRest i s
  | .absent | .unknown | .stopping | .settling | .fault | .offline => s

/-! ### Stops, stalls and back-offs (R116, R119 to R123) -/

/-- A motion ends at REST by a fresh status: an arrival at 0 sets the stall count to 0 (R12, R116). -/
def arrive (i : ApId) (s : State) : State :=
  toRest i (s.modAp i fun a => if a.position = some 0 then { a with stallCount := 0 } else a)

/-- A STOPPING aperture leaves at the confirmation of its stop (R119); `fresh` says that a fresh status,
and not the node timeout, confirmed it. -/
def confirmStop (i : ApId) (fresh : Bool) (s : State) : State :=
  let a := s.ap i
  let completed := match a.motion, a.position with
    | some m, some p => decide (distance m.target p ≤ Config.offTargetPermille)
    | _, _ => false
  let shedBackoff := a.mon.haltCause = some .shed &&
    (match a.motion with | some m => decide (m.purpose = .backoff) | none => false)
  if a.mon.haltCause = some .timeout then
    if completed then (if fresh then arrive i s else toRest i s) else toFault i .timeout s
  else if shedBackoff then toSettling i .backoff s
  else toSettling i .stop s

/-- A fresh STALLED status reaches an aperture in STARTING or RUNNING (R121). -/
def stall (i : ApId) (s : State) : State :=
  match (s.ap i).motion with
  | some ⟨_, .closing, _, .normal⟩ =>
    let s := s.modAp i fun a => { a with stallCount := min 3 (a.stallCount + 1) }
    if (s.ap i).stallCount < 3 then toSettling i .stall s else toFault i .stall s
  | _ => toFault i .stall s

/-- The back-off to position `bp` is set up: the aperture enters WAITING with it, or RETRY-WAIT where
nothing more than 5 permille remains (R122). An aperture that stands more than 5 permille above the kept position of
a resumed back-off enters RETRY-WAIT too: DESIGN CHOICE, assumption log 64. -/
def orderBackoff (i : ApId) (bp : Nat) (s : State) : State :=
  let a := s.ap i
  if a.position.getD 0 + Config.offTargetPermille < bp then
    toWaiting i ⟨bp, .opening, (a.motion.map (·.cls)).getD (a.effClass.getD .room), .backoff⟩ s
  else toRetryWait i s

/-- What follows the settle (R120). -/
def settled (i : ApId) (s : State) : State :=
  let a := s.ap i
  match a.mon.settleCause, a.wantsClosing with
  | some .stall, true => orderBackoff i (min 1000 (a.position.getD 0 + Config.backoffPermille)) s
  | some .backoff, true =>
    orderBackoff i ((a.motion.map (·.target)).getD (min 1000 (a.position.getD 0 + Config.backoffPermille))) s
  | _, _ => toRest i s

/-! ### OFFLINE (R18, R140, R142) -/

/-- Entry to OFFLINE (R18). An aperture that was moving keeps its contribution while its contact timer
runs; a queue entry and a wait-list entry leave; NODE-OFFLINE is queued. -/
def toOffline (i : ApId) (s : State) : State :=
  let a := s.ap i
  let s := enter i .offline (fun a =>
    { a.still with
      position := none
      fault := none
      held := if a.state.moving then some (if a.node.contactTimer.isSome then a.contribution else 0)
        else none }) s
  let s := if a.state.moving && a.node.contactTimer.isNone then s.owe a.fix.branch else s
  s.notify [.S, .L] (.nodeOffline i a.state)

/-- The contribution with which an aperture entered OFFLINE is released. Where it is released already, the
figure stands and the attempt runs all the same (R95). -/
def releaseHeld (i : ApId) (s : State) : State :=
  if (s.ap i).held.isSome then (s.modAp i fun a => { a with held := some 0 }).owe (s.ap i).fix.branch else s

/-- The first valid reply from an OFFLINE aperture takes it to UNKNOWN (R18, R142). A MOVE or HALT kept on its list stays
there and is sent in its turn (R138), DESIGN CHOICE against R142, assumption log 61. -/
def toOnline (i : ApId) (s : State) : State :=
  (enter i .unknown (fun a => { a.still with position := none, held := none }) (releaseHeld i s)).notify [.S, .L]
    (.nodeOnline i)

end Sys2Proof.Machine
end

