-- ==== Sys2Proof/Machine/Branch.lean ====
section
/-! DEFINITION. Wait lists, eligibility, admission, shedding and reservation (R96 to R107), and the
end of an event, at which the projection, the change count and the owed admission attempts are dealt
with (R86, R101, R109). -/

namespace Sys2Proof.Machine

open Sys2Proof

/-! ### The wait list (R96, R97) -/

/-- A wait-list entry: the aperture, the class, direction and purpose of its motion, its order time,
and its place in the Closure Queue where it has one (R96, R97). -/
structure WaitEntry where
  ap        : ApId
  cls       : OrderClass
  dir       : Direction
  purpose   : Purpose
  orderTime : Nat
  place     : Option Nat
  deriving DecidableEq, Repr

/-- The order time of an entry (R96). -/
def Aperture.orderTime (a : Aperture) (m : Motion) : Nat :=
  match m.purpose, a.slate.get m.cls with
  | .normal, some x => x.posted
  | _, _ => a.waitSince

/-- The entry of aperture `i`, where it is in WAITING (R96). -/
def waitEntry (s : State) (i : ApId) : Option WaitEntry :=
  match (s.ap i).state, (s.ap i).motion with
  | .waiting, some m =>
    some ⟨i, m.cls, m.dir, m.purpose, (s.ap i).orderTime m, s.sup.queue.findIdx? fun e => e.ap = i⟩
  | _, _ => none

/-- Wait-list order (R97). -/
def WaitEntry.lt (x y : WaitEntry) : Bool :=
  if x.cls ≠ y.cls then x.cls.rank < y.cls.rank
  else
    match x.cls, x.place, y.place with
    | .weather, some p, some q => p < q
    | .weather, some _, none => true
    | .weather, none, some _ => false
    | _, _, _ => if x.orderTime ≠ y.orderTime then x.orderTime < y.orderTime else x.ap < y.ap

/-- An entry takes its place in a wait list (R97). -/
def insertWait (e : WaitEntry) : List WaitEntry → List WaitEntry
  | [] => [e]
  | x :: xs => if e.lt x then e :: x :: xs else x :: insertWait e xs

/-- A wait list in the order of its keys (R97). -/
def sortWait : List WaitEntry → List WaitEntry
  | [] => []
  | x :: xs => insertWait x (sortWait xs)

/-- The wait list of branch `b` (R96, R97). -/
def waitList (s : State) (b : Branch) : List WaitEntry :=
  sortWait ((s.onBranch b).filterMap (waitEntry s))

/-! ### Eligibility (R98 to R100, R104, R110) -/

/-- The entry waits for its zone's warning (R99). -/
def awaitsWarning (s : State) (e : WaitEntry) : Bool :=
  match s.governing e.ap, (s.ap e.ap).motion with
  | some z, some m => m.needsWarning (s.zones.desc[z]).warn && (s.zones.warnings[z]).state ≠ .done
  | _, _ => false

/-- The entry is kept waiting by the lateness of its branch (R100). -/
def awaitsPlan (r : BranchRec) (e : WaitEntry) : Bool :=
  r.late && (e.cls = .supervisory || e.cls = .room) && e.dir = .opening && e.purpose = .normal

/-- Standings of a wait-list entry, in the order of their codes (R110, R177). -/
inductive WaitStanding where
  | eligible | quiet | warning | planLate | unfit
  deriving DecidableEq, Repr

/-- The entry's inrush current alone exceeds the limit (R104). -/
def unfit (s : State) (r : BranchRec) (e : WaitEntry) : Bool := r.limit < (s.ap e.ap).fix.inrush

/-- The first of R98, R99, R100 and R104 that keeps the entry waiting (R110). -/
def standingOf (s : State) (b : Branch) (e : WaitEntry) : WaitStanding :=
  if (s.branch b).quiet.isSome then .quiet
  else if awaitsWarning s e then .warning
  else if awaitsPlan (s.branch b) e then .planLate
  else if unfit s (s.branch b) e then .unfit
  else .eligible

/-- The entries an attempt works on: eligible and not unfit, in wait-list order (R101, R104). -/
def candidatesOf (s : State) (b : Branch) : List WaitEntry :=
  (waitList s b).filter fun e => standingOf s b e = .eligible

/-! ### Admission (R101 to R103) -/

/-- The inrush gap has passed (R103). -/
def gapPassed (s : State) (b : Branch) : Bool :=
  (s.branch b).lastStart.getD s.loadEnd + (s.branch b).gap ≤ s.ds

/-- The entry fits within what remains of the limit (R102). -/
def fits (s : State) (b : Branch) (e : WaitEntry) : Bool :=
  s.committed b + (s.ap e.ap).fix.inrush ≤ (s.branch b).limit

/-- The admission of aperture `i` on branch `b` (R102, R113). -/
def admitMotion (b : Branch) (i : ApId) (s : State) : State :=
  let r := s.branch b
  let target := ((s.ap i).motion.map (·.target)).getD 0
  let s := enter i .starting (fun a =>
    { a with startTime := some s.ds, mon := { Monitor.stopped with inrush := some (s.ds + r.window) } }) s
  let s := s.modBranch b fun r =>
    { r with
      lastStart := some s.ds
      gapTimer := if r.gap = 0 then none else some (s.ds + r.gap)
      reservation := if r.reservation = some i then none else r.reservation }
  { s with link := s.link.listMove i target }

/-! ### Shedding (R105) -/

/-- A shedding candidate is preferred to another: lowest class first, then latest start time, then higher
index (R105). -/
def victimLt (s : State) (i j : ApId) : Bool :=
  let c := fun k => ((s.ap k).motion.map (·.cls.rank)).getD 0
  let t := fun k => (s.ap k).startTime.getD 0
  if c i ≠ c j then c j < c i else if t i ≠ t j then t j < t i else j < i

/-- A candidate takes its place in the order of R105. -/
def insertVictim (s : State) (i : ApId) : List ApId → List ApId
  | [] => [i]
  | j :: js => if victimLt s i j then i :: j :: js else j :: insertVictim s i js

/-- The candidates in the order of R105. -/
def sortVictims (s : State) : List ApId → List ApId
  | [] => []
  | i :: is => insertVictim s i (sortVictims s is)

/-- The candidates for an entry of class `c`: apertures of the branch in STARTING or RUNNING whose motion
class is lower (R105). -/
def sheddable (s : State) (b : Branch) (c : OrderClass) : List ApId :=
  sortVictims s ((s.onBranch b).filter fun i =>
    (s.ap i).state.driving &&
      match (s.ap i).motion with
      | some m => c.rank < m.cls.rank
      | none => false)

/-- The run current of the apertures of the branch already STOPPING (R105). -/
def stoppingCurrent (s : State) (b : Branch) : Nat :=
  (((s.onBranch b).filter fun i => (s.ap i).state = .stopping).map fun i => (s.ap i).fix.run).sum

/-- Candidates are taken until the free current reaches the need; `none` when all together do not reach
it (R105). -/
def takeVictims (s : State) (need : Nat) : Nat → List ApId → Option (List ApId)
  | free, [] => if need ≤ free then some [] else none
  | free, i :: is =>
    if need ≤ free then some []
    else (takeVictims s need (free + (s.ap i).contribution) is).map (i :: ·)

/-- The victims of a shedding for entry `e` (R105): none where the current already on its way back is
enough; no shedding at all (`none`) where all candidates together would not free enough. -/
def victims (s : State) (b : Branch) (e : WaitEntry) : Option (List ApId) :=
  takeVictims s (s.ap e.ap).fix.inrush
    ((s.branch b).limit + stoppingCurrent s b - s.committed b) (sheddable s b e.cls)

/-- The branch is reserved for aperture `i`, or for none (R107). -/
def State.reserve (s : State) (b : Branch) (r : Option ApId) : State :=
  s.modBranch b fun x => { x with reservation := r }

/-! ### The attempt (R102, R107) -/

/-- Steps 3 to 5 of R102 over the eligible entries `es`. The Bool says that something was admitted. -/
def admitFirst (b : Branch) (es : List WaitEntry) (s : State) : State × Bool :=
  match es.find? (fits s b) with
  | none => (s, false)
  | some e =>
    if es.any (fun x => !fits s b x && x.cls.rank < e.cls.rank) || !gapPassed s b then (s, false)
    else (admitMotion b e.ap s, true)

/-- Steps 1 to 5 of R102, with no reservation standing. The Bool says that the attempt changed the
branch, so that a further attempt has something to work on. The victims of one shedding are halted, and
their HALTs listed, in the order in which R105 takes them: DESIGN CHOICE, assumption log 55. -/
def attemptOpen (b : Branch) (es : List WaitEntry) (s : State) : State × Bool :=
  match es with
  | [] => (s, false)
  | e :: _ =>
    if (e.cls = .life || e.cls = .weather) && !fits s b e then
      match victims s b e with
      | some vs => ((vs.foldl (fun s' i => halt i .shed s') s).reserve b (some e.ap), true)
      | none => admitFirst b es s
    else admitFirst b es s

/-- One admission attempt on branch `b` (R101, R102, R107). -/
def attempt (b : Branch) (s : State) : State × Bool :=
  let es := candidatesOf s b
  match (s.branch b).reservation with
  | none => attemptOpen b es s
  | some i =>
    let isWeather := match (s.ap i).motion with
      | some m => decide (m.cls = .weather)
      | none => false
    if isWeather && es.any fun e => e.cls = .life then attemptOpen b es (s.reserve b none)
    else
      match es.find? fun e => e.ap = i with
      | some e => if fits s b e && gapPassed s b then (admitMotion b i s, true) else (s, false)
      | none => (s, false)

/-- Attempts follow one another on a branch while each changes it, up to `n` of them. -/
def runAttempts (b : Branch) : Nat → State → State
  | 0, s => s
  | n + 1, s =>
    match attempt b s with
    | (s', true) => runAttempts b n s'
    | (s', false) => s'

/-- A bound on the attempts of one event on a branch that can change it: with `n` entries waiting there
are at most `n` admissions and, between two admissions, at most two sheddings (for a WEATHER entry, then
for a LIFE entry ahead of it). -/
def attemptBound (s : State) (b : Branch) : Nat := 3 * (waitList s b).length + 3

/-- The owed attempts are run, branch by branch, and nothing is owed any more (R101). -/
def settleAttempts (s : State) : State :=
  let s := allBranches.foldl
    (fun s' b => if b ∈ s'.owed then runAttempts b (attemptBound s' b) s' else s') s
  { s with owed := [] }

/-! ### The end of an event -/

/-- A reservation whose entry has left the wait list, has passed to a lower class or has become
ineligible is removed, and an attempt is owed (R107). -/
def checkReservation (s : State) (b : Branch) : State :=
  match (s.branch b).reservation with
  | none => s
  | some i =>
    match (waitList s b).find? fun e => e.ap = i with
    | some e =>
      if (e.cls = .life || e.cls = .weather) && standingOf s b e = .eligible then s
      else (s.reserve b none).owe b
    | none => (s.reserve b none).owe b

/-- What a change of a wait list shows: the entries in order, with class, direction and purpose (R96). That a change
of these three counts where no entry joins, leaves or moves, and that of a target or an order time does not, is a
DESIGN CHOICE, assumption log 63. -/
def waitKeys (s : State) (b : Branch) : List (ApId × OrderClass × Direction × Purpose) :=
  (waitList s b).map fun e => (e.ap, e.cls, e.dir, e.purpose)

/-- A change of the wait list of branch `b` since `s0` runs an attempt: a join, a leave or a move (R96, R101), and an
entry rewritten in its place (DESIGN CHOICE, assumption log 63). -/
def oweMoves (s0 : State) (s : State) (b : Branch) : State :=
  if waitKeys s0 b = waitKeys s b then s else s.owe b

/-- The Closure Queue's change count is increased at an event that changed the queue (R86). -/
def countChange (s0 s : State) : State :=
  if s.sup.queue = s0.sup.queue then s
  else { s with sup.changeCount := s.sup.changeCount + 1 }

/-- The end of an event that began in state `s0`: the projection is recomputed where the queue changed or
the event was an exposure update (`update`), its notices coming after every other notice of the event
(R109); the change count advances (R86); and the admission attempts the event causes run, each seeing
every change it made (R101). The free values are drawn anew (assumption log 26). -/
def finish (update : Bool) (s0 s : State) : State :=
  let s := if update || decide (s.sup.queue ≠ s0.sup.queue) then project s else s
  let s := countChange s0 s
  let s := allBranches.foldl checkReservation s
  let s := allBranches.foldl (oweMoves s0) s
  settleAttempts s.draw

/-- The event `f`, taken whole. -/
def event (f : State → State) (s : State) : State := finish false s (f s)

end Sys2Proof.Machine
end

