-- ==== Sys2Proof/Machine/Resolver.lean ====
section
/-! DEFINITION. The Order Resolver and the Fire Interface's slots: deriving the effective target,
posting, releasing and removing orders, weather cancellation, room expiry, alarm-origin slots
(R9, R12, R22 to R35, R148, R149, R151, R153). -/

namespace Sys2Proof.Machine

open Sys2Proof

/-- A closing target: a position below the aperture's known position (R12, assumption log 16). -/
def closingTarget (t : Option Target) (p : Option Nat) : Bool :=
  match t, p with
  | some (.pos t), some p => t < p
  | _, _ => false

/-- The effective target and class are derived once after a change of aperture `i`'s slate, written
together, and handed on when changed (R24); the stall count follows R12; membership of the Closure
Queue is judged again (R24 step 4, R85). -/
def resolve (i : ApId) (s : State) : State :=
  let a := s.ap i
  let t := a.slate.top.map fun x => x.2.target
  let c := a.slate.top.map fun x => x.1
  if t = a.effTarget ∧ c = a.effClass then refreshEntry i s
  else
    let s := s.modAp i fun a => { a with effTarget := t, effClass := c }
    let s :=
      if closingTarget a.effTarget a.position && (s.ap i).wantsOpening then
        s.modAp i fun a => { a with stallCount := 0 }
      else s
    refreshEntry i (handOn i s)

/-- The slot of class `c` of aperture `i` is written or removed, without deriving yet. -/
def putSlot (i : ApId) (c : OrderClass) (x : Option Slot) (s : State) : State :=
  s.modAp i fun a => { a with slate := a.slate.put c x }

/-! ### Orders from the ports -/

/-- The expiry time of a slot that port `p` posts with target `t` (R34): an opening ROOM slot lives for
the room lifetime, unless that is 0. -/
def slotExpiry (s : State) (p : Port) (t : Target) : Option Nat :=
  match p with
  | .K => if t.opening && 0 < s.roomLifetime then some (s.ds + s.roomLifetime * 600) else none
  | .S | .L => none

/-- The slot that port `p` posts with target `t` at the present uptime (R27). -/
def portSlot (s : State) (p : Port) (t : Target) : Slot :=
  { target := t, origin := .port p, posted := s.ds, expiry := slotExpiry s p t }

/-- Port `p` posts target `t` on aperture `i` (R27). -/
def postOrder (p : Port) (i : ApId) (t : Target) (s : State) : State :=
  resolve i (putSlot i (portClass p) (some (portSlot s p t)) s)

/-- The weather check (R29): an opening post from Port S or Port K on a weather-held aperture. -/
def weatherHeld (s : State) (p : Port) (i : ApId) (t : Target) : Bool :=
  p ≠ .L && t.opening && (s.ap i).slate.weather.isSome

/-- The port's own slot on aperture `i` (R22): for Port L, the LIFE slot when its origin is Port L. -/
def ownSlot (s : State) (p : Port) (i : ApId) : Option Slot :=
  match (s.ap i).slate.get (portClass p) with
  | some x => if p = .L ∧ x.origin ≠ .port .L then none else some x
  | none => none

/-! ### Alarm-origin slots (R148, R149, R151) -/

/-- The target that the life role of its governing zone and its kind give aperture `i` in an alarm (R148). -/
def alarmTarget (s : State) (i : ApId) : Option Nat :=
  match s.governing i with
  | none => none
  | some z =>
    match (s.zones.desc[z]).role, (s.ap i).fix.kind with
    | .vent, .ventWindow | .vent, .ventSkylight => some (s.ap i).fix.vent
    | .compartment, _ => some 0
    | _, _ => none

/-- The alarm-origin slot of aperture `i`, where its role gives one (R148). -/
def alarmSlot (s : State) (i : ApId) : Option Slot :=
  (alarmTarget s i).map fun t => { target := .pos t, origin := .alarm, posted := s.ds, expiry := none }

/-- A RELEASE that passes its checks removes the port's own slot (R30); a Port L slot released in ALARM
or RESTORE-WAIT is replaced by the alarm-origin slot its role gives, in the same slate change (R31, R151). -/
def releaseOrder (p : Port) (i : ApId) (s : State) : State :=
  match ownSlot s p i with
  | none => s
  | some _ =>
    let back := if p = .L ∧ s.fire.state ≠ .normal then alarmSlot s i else none
    resolve i (putSlot i (portClass p) back s)

/-- At an entry to ALARM one aperture is posted to, where its role gives a slot: from NORMAL unless its
LIFE slot holds a Port L order (R148), from RESTORE-WAIT only where its LIFE slot is absent (R149). -/
def postAlarm (fromRestore : Bool) (s : State) (i : ApId) : State :=
  let free := match (s.ap i).slate.life with
    | none => true
    | some x => !fromRestore && decide (x.origin = .alarm)
  match (s.ap i).present && free, alarmSlot s i with
  | true, some x => resolve i (putSlot i .life (some x) s)
  | _, _ => s

/-- An alarm-origin slot stands on the aperture. -/
def Aperture.alarmHeld (a : Aperture) : Bool :=
  match a.slate.life with
  | some x => x.origin = .alarm
  | none => false

/-- The number of installed apertures holding an alarm-origin LIFE slot (R154). -/
def State.alarmSlots (s : State) : Nat := s.countAps Aperture.alarmHeld

/-- At the restore the alarm-origin slot of one aperture is removed (R153). -/
def dropAlarm (s : State) (i : ApId) : State :=
  if (s.ap i).present && (s.ap i).alarmHeld then resolve i (putSlot i .life none s) else s

/-! ### Weather slots (R32, R33) -/

/-- An opening slot of class `c` is cancelled by weather: it is removed and ORDER-CANCELLED goes to its
origin port (R32). -/
def cancelOpening (i : ApId) (c : OrderClass) (s : State) : State :=
  match (s.ap i).slate.get c with
  | some x =>
    if x.target.opening then
      (putSlot i c none s).notify x.origin.ports (.orderCancelled i c x.target .weather)
    else s
  | none => s

/-- A claim is posted on aperture `i` with its cause and deadline: WEATHER CLOSE, the cancellation of
supervisory and room openings, and one derivation (R32, R81). -/
def postClaim (i : ApId) (c : Claim) (s : State) : State :=
  let s := putSlot i .weather (some ⟨.pos 0, .weather, s.ds, none⟩) s
  let s := s.modAp i fun a => { a with claim := some c }
  resolve i (cancelOpening i .room (cancelOpening i .supervisory s))

/-- The WEATHER slot of one aperture is removed at the exit from HOLDING, its kept cause and deadline
with it (R33, R76). -/
def dropClaim (s : State) (i : ApId) : State :=
  if (s.ap i).slate.weather.isSome then
    resolve i (putSlot i .weather none (s.modAp i fun a => { a with claim := none }))
  else s

/-- The number of installed apertures holding a WEATHER slot (R77). -/
def State.claims (s : State) : Nat := s.countAps fun a => a.slate.weather.isSome

/-! ### Room expiry (R35) -/

/-- The ROOM slot of aperture `i` turns into ROOM CLOSE at its expiry time `e`. -/
def expireRoom (i : ApId) (x : Slot) (e : Nat) (s : State) : State :=
  let s := putSlot i .room (some ⟨.pos 0, .port .K, e, none⟩) s
  resolve i (s.notify [.K] (.orderCancelled i .room x.target .expired))

end Sys2Proof.Machine
end

