-- ==== Sys2Proof/Machine/LinkCtl.lean ====
section
/-! DEFINITION. The Link Controller: the arbiter at a slot start, frames, and the completion of an
exchange with all that follows from it (R7, R17, R19, R115, R116, R130 to R143, R181). -/

namespace Sys2Proof.Machine

open Sys2Proof

/-! ### Frames (R181) -/

/-- The address of an exchange's order frame (R130). -/
def Exchange.address : Exchange → Nat
  | .broadcastHalt => 63
  | .halt i | .move i _ | .poll i => i.val

/-- The kind code of an exchange's order frame (R181). -/
def Exchange.kindCode : Exchange → Nat
  | .poll _ => 0
  | .move _ _ => 1
  | .broadcastHalt | .halt _ => 2

/-- The argument of an exchange's order frame (R130). -/
def Exchange.argument : Exchange → Nat
  | .move _ t => t
  | _ => 0

/-- The node an exchange is addressed to; a broadcast is addressed to none (R130). -/
def Exchange.node? : Exchange → Option ApId
  | .broadcastHalt => none
  | .halt i | .move i _ | .poll i => some i

/-- The sum of some bytes. -/
def byteSum (bs : List Byte) : Nat := (bs.map BitVec.toNat).sum

/-- The check byte over bytes 0..4 (R181). -/
def checkByte (bs : List Byte) : Byte := BitVec.ofNat 8 (256 - byteSum bs % 256)

/-- The six bytes of the order frame that the part drives in a slot (R181). -/
def InFlight.frame (f : InFlight) : List Byte :=
  let body : List Byte :=
    [BitVec.ofNat 8 f.what.address, BitVec.ofNat 8 (f.what.kindCode * 16 + f.tag.toNat),
      BitVec.ofNat 8 (f.what.argument / 256), BitVec.ofNat 8 f.what.argument, 0]
  body ++ [checkByte body]

/-- A valid reply (R131): the LOCAL reply code, latched tag, position and the five flags. -/
structure LinkReply where
  refused  : Bool
  tag      : BitVec 4
  position : Nat
  moving   : Bool
  closed   : Bool
  opened   : Bool
  stalled  : Bool
  keyed    : Bool
  deriving DecidableEq, Repr

/-- The judgement of the first six bytes that arrived as the reply of node `i`; `none` is a miss (R131,
R178, R181). -/
def parseReply (i : ApId) : List Byte → Option LinkReply
  | b0 :: b1 :: b2 :: b3 :: b4 :: b5 :: _ =>
    if byteSum [b0, b1, b2, b3, b4, b5] % 256 = 0 ∧ b0.toNat = i.val ∧ b1.toNat / 16 < 2 then
      some
        { refused := b1.toNat / 16 = 1, tag := b1.setWidth 4, position := b2.toNat * 256 + b3.toNat
          moving := b4.getLsbD 0, closed := b4.getLsbD 1, opened := b4.getLsbD 2
          stalled := b4.getLsbD 3, keyed := b4.getLsbD 4 }
    else none
  | _ => none

/-! ### The arbiter (R139) -/

/-- The node of the next ring POLL: the first aperture not ABSENT from the ring pointer upward, wrapping
(R139). -/
def ringNext (s : State) : Option ApId :=
  (allAps.map fun k => s.link.ring + k).find? fun i => (s.ap i).present

/-- The run count after a broadcast, HALT or MOVE (R139); it is kept in 0..3 (R133). -/
def Link.counted (l : Link) : Link := { l with run := min 3 (l.run + 1) }

/-- The exchange of the slot is sent: it ends 5 ms after it starts, and the next slot begins there (R130). -/
def Link.send (l : Link) (now : Nat) (x : Exchange) (tag : BitVec 4) : Link :=
  { l with inFlight := some ⟨x, tag, true, now + Config.slotMs⟩ }

/-- The send count of node `i` advances and gives the tag of a MOVE or HALT (R134). -/
def nextTag (s : State) (i : ApId) : BitVec 4 := (s.ap i).node.sendCount.getD 0 + 1

/-- A MOVE or HALT frame is sent to node `i` (R134). -/
def sendOrder (i : ApId) (x : Exchange) (s : State) : State :=
  let tag := nextTag s i
  let s := s.modAp i fun a => { a with node := { a.node with sendCount := some tag } }
  { s with link := (s.link.counted).send s.clock.ms x tag }

/-- A POLL frame is sent to node `i` (R134, R137). While the send count is unknown the tag field is a
free value (assumption log 27). -/
def sendPoll (i : ApId) (s : State) : State :=
  let link := { s.link with run := 0, priority := s.link.priority.filter fun j => j ≠ i }
  match (s.ap i).node.sendCount with
  | some tag => { s with link := link.send s.clock.ms (.poll i) tag }
  | none =>
    { s with
      link := link.send s.clock.ms (.poll i) (Config.unknownPollTag s.freeDraws)
      freeDraws := s.freeDraws + 1 }

/-- Step 5 of R139: the head of the priority POLL list, or else the ring. -/
def pollNext (s : State) : State :=
  match s.link.priority, ringNext s with
  | i :: _, _ => sendPoll i s
  | [], some i => sendPoll i { s with link.ring := i + 1 }
  | [], none => s

/-- At least one aperture is not ABSENT (R139). -/
def State.anyPresent (s : State) : Bool := allAps.any fun i => (s.ap i).present

/-- The arbiter's choice at a slot start, with its frame sent (R139). -/
def arbitrate (s : State) : State :=
  if s.link.broadcast then
    { s with link := ({ s.link with broadcast := false }.counted).send s.clock.ms .broadcastHalt 0 }
  else if s.link.run = 3 && s.anyPresent then pollNext s
  else
    match s.link.haltList, s.link.moveList with
    | i :: rest, _ => sendOrder i (.halt i) { s with link.haltList := rest }
    | [], (i, t) :: rest => sendOrder i (.move i t) { s with link.moveList := rest }
    | [], [] => pollNext s

/-- A slot starts: at the end of the previous one, or later where its start is taken late (R130). -/
def startSlot (s : State) : State :=
  let s := s.advanceTo s.link.nextSlot
  arbitrate { s with link.nextSlot := s.clock.ms + Config.slotMs }

/-- LINK_SLOT_START (R139). While a slot is running no other begins (assumption log 34). -/
def execLinkSlotStart (s : State) : Host.Outcome State Fault Refusal :=
  match s.link.inFlight with
  | some _ => .next s
  | none => .next (startSlot s)

/-! ### A fresh status (R7, R17, R19, R116, R119 to R123) -/

/-- The position a fresh status writes (R7). -/
def LinkReply.writes (r : LinkReply) : Nat :=
  if r.closed && !r.opened then 0
  else if r.opened && !r.closed then 1000
  else min 1000 r.position

/-- A WAITING aperture whose new position puts it on target returns to REST (R9, assumption log 22). -/
def rejudgePosition (i : ApId) (s : State) : State := if (s.ap i).offTarget then s else toRest i s

/-- A fresh status reaches an aperture in STARTING or RUNNING, its position written (R116). -/
def driveStatus (i : ApId) (r : LinkReply) (s : State) : State :=
  if r.stalled then stall i s
  else if r.moving then s
  else
    match (s.ap i).motion with
    | some ⟨_, _, _, .backoff⟩ => toRetryWait i s
    | _ => arrive i s

/-- A fresh status reaches an aperture in FAULT, its position written (R19). -/
def faultStatus (i : ApId) (r : LinkReply) (s : State) : State :=
  match (s.ap i).fault with
  | some ⟨.localControl, _⟩ => if r.keyed then s else toRest i s
  | _ => s

/-- A fresh status is handed to the Aperture Table and the Motion Monitor (R7, R136). -/
def freshStatus (i : ApId) (r : LinkReply) (s : State) : State :=
  let wrote := writePosition i r.writes s
  match (s.ap i).state with
  | .absent | .offline => s
  | .unknown => if r.moving then s else toRest i wrote
  | .rest => judge i wrote
  | .waiting => rejudgePosition i wrote
  | .starting | .running => driveStatus i r wrote
  | .stopping => if r.moving then wrote else confirmStop i true wrote
  | .settling | .retryWait => wrote
  | .fault => faultStatus i r wrote

/-! ### Completion (R131, R133, R135, R136, R138, R140, R142, R143) -/

/-- After a miss the list entry whose frame was sent returns to its old place, at the head (R138). A HALT
always does, and one listed for the aperture meanwhile is then its second entry and leaves (assumption log
23); a MOVE does unless a newer entry was listed or the entry was withdrawn meanwhile. -/
def Link.takeBack (l : Link) (f : InFlight) : Link :=
  match f.what with
  | .halt i => { l with haltList := i :: l.haltList.filter fun j => j ≠ i }
  | .move i t =>
    if f.returns && !(l.moveList.any fun m => m.1 = i) then { l with moveList := (i, t) :: l.moveList } else l
  | .poll _ | .broadcastHalt => l

/-- A miss of node `i` (R18, R119, R131, R138, R140): the third takes the aperture to OFFLINE, but from FAULT. Whether
it does so from FAULT(TIMEOUT) entered at the node timeout is a free value, assumption log 56. -/
def missed (i : ApId) (f : InFlight) (s : State) : State :=
  let s := s.modAp i fun a => { a with node := { a.node with missCount := min 3 (a.node.missCount + 1) } }
  let s := if (s.ap i).node.missCount = 3 && (s.ap i).leavesByMiss then toOffline i s else s
  { s with link := s.link.takeBack f }

/-- The travel allowance of R115, in ds. -/
def travelTime (stroke dist : Nat) : Nat := ceilDiv (stroke * dist) 1000 * 3 / 2 + 20

/-- The travel allowance of an aperture's motion from its present position (R115). -/
def Aperture.allowance (a : Aperture) : Nat :=
  match a.motion with
  | some m =>
    travelTime (match m.dir with | .closing => a.fix.closeStroke | .opening => a.fix.openStroke)
      (distance m.target (a.position.getD 0))
  | none => 20

/-- An accepted MOVE or HALT: the order tag becomes the frame's, and the node is listed for a priority
POLL at the head of its list (R135, R137). -/
def acceptOrder (i : ApId) (tag : BitVec 4) (s : State) : State :=
  let s := s.modAp i fun a => { a with orderTag := some tag }
  { s with link.priority := i :: s.link.priority.filter fun j => j ≠ i }

/-- The acceptance of a MOVE starts the travel timer where the aperture is STARTING or RUNNING (R115). -/
def startTravel (i : ApId) (s : State) : State :=
  if (s.ap i).state.driving then
    s.modAp i fun a => { a with mon := { a.mon with travel := some (s.ds + a.allowance) } }
  else s

/-- A HALT is handed on for a node that is moving for an aperture without a motion (R143): it is listed
unless the aperture has one, and a MOVE of the aperture is withdrawn either way (R138). -/
def strayHalt (i : ApId) (s : State) : State := { s with link := s.link.listHalt i }

/-- Steps 5 and 7 of R133 for a MOVE: acceptance or refusal (R124, R135, R143). -/
def moveReplied (i : ApId) (f : InFlight) (r : LinkReply) (s : State) : State :=
  if r.refused then
    if (s.ap i).state.driving then toFault i .localControl s else s
  else
    let t := startTravel i (acceptOrder i f.tag s)
    if (s.ap i).state.driving then t else strayHalt i t

/-- The states in which a fresh status with MOVING set calls for a HALT (R143). -/
def MotionState.noMotion : MotionState → Bool
  | .unknown | .rest | .waiting | .settling | .retryWait | .fault => true
  | _ => false

/-- Steps 6 and 7 of R133 for a fresh status (R136, R143). -/
def pollReplied (i : ApId) (r : LinkReply) (s : State) : State :=
  let t := freshStatus i r s
  if (s.ap i).state.noMotion && r.moving && !r.keyed then strayHalt i t else t

/-- Step 2 of R133 for a valid reply (R140, R141). -/
def renewContact (i : ApId) (s : State) : State :=
  s.modAp i fun a => { a with node :=
    { a.node with missCount := 0, lastContact := some s.ds, contactTimer := some (s.ds + Config.contactDs) } }

/-- Step 4 of R133: while the order tag is unknown the reply teaches it and the send count (R136). -/
def learnTag (i : ApId) (tag : BitVec 4) (s : State) : State :=
  s.modAp i fun a => { a with orderTag := some tag, node := { a.node with sendCount := some tag } }

/-- The steps of R133 for a valid reply. A status is fresh only in the reply to a POLL, with the order tag
already known, not in the reply that ends OFFLINE, and with its tag equal to the order tag (R136, R142). That R136
and R142 stand against R11 for the reply that ends OFFLINE is a DESIGN CHOICE, assumption log 59. -/
def replied (i : ApId) (f : InFlight) (r : LinkReply) (s : State) : State :=
  let wasOffline := decide ((s.ap i).state = .offline)
  let taught := (s.ap i).orderTag.isNone
  let s := renewContact i s
  let s := if wasOffline then toOnline i s else s
  let s := if taught then learnTag i r.tag s else s
  match f.what with
  | .move _ _ => moveReplied i f r s
  | .halt _ => acceptOrder i f.tag s
  | .poll _ =>
    if !taught && !wasOffline && decide ((s.ap i).orderTag = some r.tag) then pollReplied i r s else s
  | .broadcastHalt => s

/-- The completion of exchange `f` (R130, R133). -/
def complete (f : InFlight) (reply : List Byte) (s : State) : State :=
  match f.what.node? with
  | none => { s with link.inFlight := none }
  | some i =>
    match parseReply i reply with
    | none => missed i f { s with link.inFlight := none }
    | some r => replied i f r { s with link.inFlight := none }

/-- EXCHANGE_COMPLETED (R133): the slot's end, with the bytes that arrived in the reply window. Where no
exchange is running there is none to complete (assumption log 34). -/
def execExchangeCompleted (reply : List Byte) (s : State) : Host.Outcome State Fault Refusal :=
  match s.link.inFlight with
  | some f => .next (event (complete f reply) (s.advanceTo f.ends))
  | none => .next s

end Sys2Proof.Machine
end

