-- ==== Sys2Proof/Machine/FireAlarm.lean ====
section
/-! DEFINITION. The Fire Interface: the ALARM line, its debounce, the fire states and the restore
(R146 to R155). -/

namespace Sys2Proof.Machine

open Sys2Proof

/-- ALARM_LINE_CHANGE: the line takes the other level and the debounce timer starts afresh, to expire 500 ms
later, so that a pulse shorter than 0.5 s leaves the debounced level as it was (R146, assumption log 57). -/
def execAlarmLineChange (s : State) : Host.Outcome State Fault Refusal :=
  .next { s with
    pins.alarm := !s.pins.alarm
    fire.debounce := some (s.clock.ms + Config.debounceMs) }

/-- A change of fire state with its FIRE-STATE notice, queued after the slots of the change (R154). -/
def announceFire (old new : FireState) (s : State) : State :=
  s.notify [.S, .L] (.fireState old new s.alarmSlots)

/-- The debounced level has taken the line's level, and the fire state acts on it (R147 to R149). -/
def fireLevel (s : State) : State :=
  match s.fire.state, s.fire.level with
  | .normal, true =>
    announceFire .normal .alarm (allAps.foldl (postAlarm false) { s with fire.state := .alarm })
  | .restoreWait, true =>
    announceFire .restoreWait .alarm (allAps.foldl (postAlarm true) { s with fire.state := .alarm })
  | .alarm, false => announceFire .alarm .restoreWait { s with fire.state := .restoreWait }
  | _, _ => s

/-- The expiry of the debounce timer: the line as it stands is compared with the debounced level (R146). -/
def debounced (s : State) : State :=
  let s := { s with fire.debounce := none }
  if s.pins.alarm = s.fire.level then s else fireLevel { s with fire.level := s.pins.alarm }

/-- DEBOUNCE_TIMER_EXPIRY (R146, R147). -/
def execDebounceTimerExpiry (s : State) : Host.Outcome State Fault Refusal :=
  match s.fire.debounce with
  | some t => .next (event debounced (s.advanceTo t))
  | none => .next s

/-- RESTORE-WAIT ends in NORMAL: every alarm-origin slot is removed, then the notice is queued (R153). -/
def restoreFire (s : State) : State :=
  announceFire .restoreWait .normal (allAps.foldl dropAlarm { s with fire.state := .normal })

end Sys2Proof.Machine
end

