-- ==== Sys2Proof/Machine/Formats.lean ====
section
/-! DEFINITION. The byte layouts of replies and notices (R177, R179, R180). -/

namespace Sys2Proof.Machine

open Sys2Proof

/-! ### Common encodings (R177) -/

/-- One byte. -/
def e1 (n : Nat) : List Byte := [BitVec.ofNat 8 n]

/-- Two bytes, most significant first. -/
def e2 (n : Nat) : List Byte := [BitVec.ofNat 8 (n / 256), BitVec.ofNat 8 n]

/-- Four bytes, most significant first. -/
def e4 (n : Nat) : List Byte :=
  [BitVec.ofNat 8 (n / 16777216), BitVec.ofNat 8 (n / 65536), BitVec.ofNat 8 (n / 256), BitVec.ofNat 8 n]

/-- Yes or no, set or clear. -/
def eBool (b : Bool) : List Byte := e1 (if b then 1 else 0)

/-- An aperture index, 0xFF for none. -/
def eIndex (i : Option ApId) : List Byte := e1 (match i with | some i => i.val | none => 0xFF)

/-- A target: form byte, then a 16-bit value. -/
def eTarget : Option Target → List Byte
  | some (.pos p) => e1 0 ++ e2 p
  | some .hold => e1 1 ++ e2 0
  | none => e1 2 ++ e2 0

/-- A class, 0xFF for none. -/
def eClass (c : Option OrderClass) : List Byte := e1 (match c with | some c => c.rank | none => 0xFF)

/-- Codes of the motion states. -/
def MotionState.code : MotionState → Nat
  | .absent => 0 | .unknown => 1 | .rest => 2 | .waiting => 3 | .starting => 4 | .running => 5
  | .stopping => 6 | .settling => 7 | .retryWait => 8 | .fault => 9 | .offline => 10

/-- A position, 0xFFFF for unknown; the same encoding serves a bearing or none. -/
def eOpt2 (p : Option Nat) : List Byte := e2 (p.getD 0xFFFF)

/-- An uptime, 0xFFFFFFFF for absent. -/
def eOpt4 (t : Option Nat) : List Byte := e4 (t.getD 0xFFFFFFFF)

/-- An order tag, 0xFF for unknown. -/
def eTag (t : Option (BitVec 4)) : List Byte := e1 (match t with | some t => t.toNat | none => 0xFF)

/-- A deadline: uptime ds, 0 for IMMEDIATE. -/
def eDeadline (d : Option Nat) : List Byte := e4 (d.getD 0)

/-- Codes of the aperture kinds. -/
def ApKind.code : ApKind → Nat
  | .window => 0 | .skylight => 1 | .ventWindow => 2 | .ventSkylight => 3

/-- Codes of the branches. -/
def branchCode : Branch → Nat
  | .A => 0 | .B => 1 | .C => 2 | .D => 3

/-- Codes of the directions. -/
def Direction.code : Direction → Nat
  | .closing => 0 | .opening => 1

/-- Codes of the purposes. -/
def Purpose.code : Purpose → Nat
  | .normal => 0 | .backoff => 1

/-- Codes of the fault kinds, 0 for none. -/
def faultCode : Option FaultKind → Nat
  | none => 0 | some .stall => 1 | some .timeout => 2 | some .localControl => 3

/-- Codes of the causes. -/
def Cause.code : Cause → Nat
  | .rain => 0 | .wind => 1 | .advisory => 2 | .sensor => 3

/-- Bits as a byte, the first in bit 0. -/
def bitsByte : List Bool → Nat
  | [] => 0
  | b :: bs => (if b then 1 else 0) + 2 * bitsByte bs

/-- A cause set: bit n for cause n. -/
def CauseSet.code (c : CauseSet) : Nat := bitsByte [c.rain, c.wind, c.advisory, c.sensor]

/-- Codes of the rights. -/
def Right.code : Right → Nat
  | .none => 0 | .observe => 1 | .order => 2

/-- Codes of the life roles. -/
def LifeRole.code : LifeRole → Nat
  | .none => 0 | .vent => 1 | .compartment => 2

/-- Codes of the weather states. -/
def Weather.code : Weather → Nat
  | .clear => 0 | .watch => 1 | .active => 2 | .holding => 3

/-- Codes of the fire states. -/
def FireState.code : FireState → Nat
  | .normal => 0 | .alarm => 1 | .restoreWait => 2

/-- Codes of the wait-list standings. -/
def WaitStanding.code : WaitStanding → Nat
  | .eligible => 0 | .quiet => 1 | .warning => 2 | .planLate => 3 | .unfit => 4

/-- Codes of the store modes. -/
def StoreMode.code : StoreMode → Nat
  | .none => 0 | .erase1 => 1 | .erase2 => 2 | .erase4 => 3 | .erase8 => 4 | .eraseAll => 5 | .write => 6

/-- The lock flags. -/
def eLocks (t : Store) : List Byte := e1 (bitsByte [t.plantLock, t.operLock])

/-- The summary bit: the OR of the four sticky bits (R54). -/
def CondWord.summary (w : CondWord) : Bool := w.sticky.any

/-- The condition word. -/
def eWord (w : CondWord) : List Byte :=
  e1 (bitsByte (w.live.bits ++ w.sticky.bits)) ++ e1 (bitsByte (w.enables.bits ++ [w.summary]))

/-! ### Notice records (R180) -/

/-- The bytes of a notice record from byte 5, before the unused bytes. -/
def NoticeBody.fields : NoticeBody → List Byte
  | .weatherState prev new claims causes => e1 prev.code ++ e1 new.code ++ e1 claims ++ e1 causes.code
  | .closureDone i cause => eIndex (some i) ++ e1 cause.code
  | .apertureFault i kind => eIndex (some i) ++ e1 (faultCode (some kind))
  | .nodeOffline i left => eIndex (some i) ++ e1 left.code
  | .nodeOnline i => eIndex (some i)
  | .orderCancelled i cls target reason =>
    eIndex (some i) ++ eClass (some cls) ++ eTarget (some target) ++
      e1 (match reason with | .weather => 0 | .expired => 1)
  | .planLate b n first => e1 (branchCode b) ++ e1 n ++ eIndex (some first)
  | .planRecovered b => e1 (branchCode b)
  | .fireState prev new n => e1 prev.code ++ e1 new.code ++ e1 n
  | .sensorCondition word changed set => eWord word ++ e1 (bitsByte changed.bits) ++ eBool set
  | .restarted kind reason =>
    e1 (match kind with | .por => 0 | .pin => 1 | .restart => 2) ++
      e1 (match reason with | .restart => 0 | .leaveCommissioning => 1)
  | .loadClamped n => e1 n

/-- Codes of the notices. -/
def NoticeBody.code : NoticeBody → Nat
  | .weatherState .. => 0x01 | .closureDone .. => 0x02 | .apertureFault .. => 0x03
  | .nodeOffline .. => 0x04 | .nodeOnline .. => 0x05 | .orderCancelled .. => 0x06
  | .planLate .. => 0x07 | .planRecovered .. => 0x08 | .fireState .. => 0x09
  | .sensorCondition .. => 0x0A | .restarted .. => 0x0B | .loadClamped .. => 0x0C

/-- A notice record of 12 bytes: kind, uptime second, fields, and unused bytes written as 0 (R177, R180). -/
def Notice.bytes (n : Notice) : List Byte :=
  let b := e1 n.body.code ++ e4 n.second ++ n.body.fields
  b ++ List.replicate (12 - b.length) 0

/-! ### Reply bodies (R179)

A field the manual states no content for is a free value of Config applied to `State.freeDraws`, encoded as
R177 has it (assumption log 26). -/

/-- The slot of a class as a target, form 2 for an absent slot. -/
def eSlot (x : Option Slot) : List Byte := eTarget (x.map (·.target))

/-- The static fields as the store lays them out in bytes 0..14 of the aperture record (R179, R182). -/
def eStatic (x : Static) : List Byte :=
  e1 (bitsByte [x.installed, x.rainExposed, x.failSafe] + 16 * x.rank) ++
  e1 (x.kind.code + 16 * branchCode x.branch) ++ e2 x.facade ++ e1 x.weight ++ e2 x.loadLimit ++
  e1 x.run ++ e1 x.inrush ++ e2 x.closeStroke ++ e2 x.openStroke ++ e2 x.vent

/-- The motion field of aperture `i`: present, motion target, direction, class, purpose. The fields of an
absent motion other than the class, which R177 encodes as 0xFF for none, are the free values of `n`. -/
def eMotion (n : Nat) (i : ApId) : Option Motion → List Byte
  | some m => e1 1 ++ e2 m.target ++ e1 m.dir.code ++ eClass (some m.cls) ++ e1 m.purpose.code
  | none =>
    e1 0 ++ eOpt2 ((Config.openMotionTarget i.val n).map Fin.val) ++
      eBool (Config.openMotionOpening i.val n) ++ eClass none ++ eBool (Config.openMotionBackoff i.val n)

/-- The body of a QUERY-APERTURE reply (R21, R179): 48 bytes. -/
def apertureBody (s : State) (i : ApId) : List Byte :=
  let a := s.ap i
  e1 a.state.code ++ eOpt2 a.position ++ eTarget a.effTarget ++ eClass a.effClass ++
  eMotion s.freeDraws i a.motion ++ eTag a.orderTag ++ e1 a.stallCount ++
  e1 (faultCode (a.fault.map (·.kind))) ++ eOpt4 (a.fault.map (·.entry)) ++ eBool (s.queued i) ++
  eSlot a.slate.life ++ eSlot a.slate.weather ++ eSlot a.slate.supervisory ++ eSlot a.slate.room ++
  eStatic a.fix

/-- One wait-list entry of a QUERY-BRANCH reply. -/
def eWait (s : State) (b : Branch) (e : WaitEntry) : List Byte :=
  eIndex (some e.ap) ++ eClass (some e.cls) ++ e1 e.dir.code ++ e1 e.purpose.code ++
  e1 (standingOf s b e).code

/-- The body of a QUERY-BRANCH reply (R110, R179). -/
def branchBody (s : State) (b : Branch) : List Byte :=
  let r := s.branch b
  let wl := waitList s b
  e2 r.limit ++ e1 r.window ++ e1 r.gap ++ e2 (s.committed b) ++ eOpt4 r.lastStart ++
  e2 (match r.quiet with | some t => t - s.ds | none => 0) ++ eIndex r.reservation ++
  eBool r.late ++ e1 ((s.entriesOf b).filter (·.late)).length ++ e4 (r.projection.getLastD 0) ++
  e1 wl.length ++ ((wl.take 8).map (eWait s b)).flatten

/-- The front end's part of a QUERY-WEATHER reply, as the latest completed boundary left it (R58). -/
def frontEndFigures (fe : FrontEnd) : List Byte :=
  e2 fe.speed ++ e1 fe.triple.length ++ e2 (fe.triple.getD 0 0) ++ e2 (fe.triple.getD 1 0) ++
  e2 (fe.triple.getD 2 0) ++ e1 fe.ring.length ++ e2 fe.gust ++ eOpt2 fe.bearing ++ eBool fe.wet ++
  eWord fe.boundaryWord ++ e1 (bitsByte fe.precaution.bits)

/-- The front end's and the evaluator's part of a QUERY-WEATHER reply (R58, R72). -/
def weatherFigures (s : State) : List Byte :=
  frontEndFigures s.fe ++ eOpt2 s.sup.advGust ++
  e1 (s.countAps fun a => a.fig.standing = .need) ++ e1 (s.countAps fun a => a.fig.standing = .band) ++
  e1 (s.countAps fun a => a.fig.standing = .clear) ++ e1 (s.countAps fun a => a.fig.standing = .unlimited)

/-- The advisory in a QUERY-WEATHER reply; of an absent one the predicted gust and the rain flag are the free
values of `n`. -/
def eAdvisory (n : Nat) : Option Advisory → List Byte
  | some d => e1 1 ++ e4 d.arrival ++ e4 d.expiry ++ e2 d.gust ++ eBool d.rain
  | none => e1 0 ++ eOpt4 none ++ eOpt4 none ++ e2 (Config.openAdvisoryGust n).toNat ++
      eBool (Config.openAdvisoryRain n)

/-- The seconds remaining on the hold timer in HOLDING, and 0 in the other states (R91): the expiry second
less the whole uptime second, a part of a second counting as one. DESIGN CHOICE, assumption log 54. -/
def holdRemaining (s : State) : Nat :=
  match s.sup.weather, s.sup.holdTimer with
  | .holding, some t => t - s.sec
  | _, _ => 0

/-- The body of a QUERY-WEATHER reply (R58, R72, R91, R155, R179): 53 bytes. -/
def weatherBody (s : State) : List Byte :=
  weatherFigures s ++ e1 s.sup.weather.code ++ e2 (holdRemaining s) ++
  eAdvisory s.freeDraws s.sup.advisory ++ e1 s.sup.needs ++ e1 s.claims ++ e1 s.sup.queue.length ++
  e2 s.sup.changeCount.toNat ++ e2 s.sup.watchGust ++ e2 s.sup.holdTime ++ e2 s.sup.guardLead ++
  e1 s.fire.state.code ++ eBool s.fire.level ++ e1 s.alarmSlots

/-- One entry of a QUERY-QUEUE reply. -/
def eEntry (e : Entry) : List Byte :=
  eIndex (some e.ap) ++ e1 e.cause.code ++ eDeadline e.deadline ++ e1 e.rank ++ e2 e.load ++ eBool e.late

/-- The body of a QUERY-QUEUE reply from position `first` (R90, R179). -/
def queueBody (s : State) (first : Nat) : List Byte :=
  let es := (s.sup.queue.drop first).take 8
  e1 s.sup.queue.length ++ e2 s.sup.changeCount.toNat ++ e1 es.length ++ (es.map eEntry).flatten

/-- The rights, life role, warn time and settle time of a QUERY-ZONE reply. -/
def eZoneCommon (z : Zone) : List Byte :=
  e1 z.rightS.code ++ e1 z.rightL.code ++ e1 z.rightK.code ++ e1 z.role.code ++ e1 z.warn ++ e1 z.settle

/-- The number of installed apertures a descriptor governs (R42). -/
def State.governs (s : State) (z : Option ZoneId) : Nat :=
  (allAps.filter fun i => (s.ap i).present && s.governing i == z).length

/-- The WARN line of zone `z` (R128): asserted while its warning is RUNNING or it has a closing. -/
def State.warnLine (s : State) (z : ZoneId) : Bool :=
  (s.zones.warnings[z]).state = .running || s.zoneCloses z

/-- The body of a QUERY-ZONE reply for a zone descriptor (R42, R179). -/
def zoneBody (s : State) (z : ZoneId) : List Byte :=
  let d := s.zones.desc[z]
  e1 z.val ++ eBool d.enabled ++ e1 d.base ++ e1 d.size ++ eZoneCommon d ++ e1 (s.governs (some z)) ++
  eBool (s.warnLine z) ++ eBool ((s.zones.warnings[z]).state = .running)

/-- The body of a QUERY-ZONE reply for the base descriptor (R42): enabled, base and size code are the free
values of `n`, the life role is NONE, and line and warning are deasserted and idle. -/
def baseBody (s : State) (n : Nat) : List Byte :=
  e1 8 ++ eBool (Config.openBaseEnabled n) ++ eIndex (Config.openBaseIndex n) ++ [Config.openBaseSize n] ++
  eZoneCommon s.zones.base ++ e1 (s.governs none) ++ eBool false ++ eBool false

/-- The body of a QUERY-TRIGGER reply (R83, R179). Of an empty record the fields that R177 gives no
encoding of absence are the free values of `n`, reserved bits written as 0 (R177). -/
def triggerBody (n : Nat) : Option Trigger → List Byte
  | some t =>
    eBool false ++ e4 t.second ++ e1 t.causes.code ++ e2 t.gust ++ eOpt2 t.bearing ++ eBool t.wet ++
      eWord t.word ++ e1 t.claims
  | none =>
    eBool true ++ eOpt4 none ++ e1 (Config.openTriggerCauses n).toNat ++
      e2 (Config.openTriggerGust n).toNat ++ eOpt2 none ++ eBool (Config.openTriggerRain n) ++
      e1 ((Config.openTriggerWord n).toNat % 256) ++ e1 ((Config.openTriggerWord n).toNat / 256) ++
      [Config.openTriggerClaims n]

end Sys2Proof.Machine
end

