-- ==== Sys2Proof/Machine/Flags.lean ====
section
/-! DEFINITION. The status byte and the output lines of a client port, and the WARN lines (R128, R156,
R159, R161). -/

namespace Sys2Proof.Machine

open Sys2Proof

/-- IBF (R161): the port is in ASSEMBLING. -/
def PortRec.ibf (r : PortRec) : Bool := r.state = .assembling

/-- OBE (R161): no unread reply byte is held. -/
def PortRec.obe (r : PortRec) : Bool := r.replyBuf.isEmpty

/-- RRDY (R161): a reply is held of which no byte has yet been read. -/
def PortRec.rrdy (r : PortRec) : Bool := r.unread && !r.replyBuf.isEmpty

/-- NPEND (R161): the notice queue holds at least one notice. -/
def PortRec.npend (r : PortRec) : Bool := !r.notices.isEmpty

/-- BUSY (R161): the port is in PENDING. -/
def PortRec.busy (r : PortRec) : Bool := r.state = .pending

/-- The port status byte, read by a read strobe with STSEL high (R156, R161, R179): IBF in bit 7 down to
NLOST in bit 0. The read changes nothing and meets no WAIT. -/
def PortRec.statusByte (r : PortRec) : Byte :=
  BitVec.ofNat 8 (bitsByte [r.nlost, r.frm, r.ovr, r.busy, r.npend, r.rrdy, r.obe, r.ibf])

/-- ATTN (R156): asserted while RRDY or NPEND is set. -/
def PortRec.attn (r : PortRec) : Bool := r.rrdy || r.npend

/-- WAIT (R159): asserted while a strobe is held. -/
def PortRec.wait (r : PortRec) : Bool := r.held.isSome

/-- The levels of WARN[7:0] (R128). -/
def State.warnLines (s : State) : List Bool := allZones.map s.warnLine

end Sys2Proof.Machine
end

