-- ==== Sys2Proof/Machine/Operands.lean ====
section
/-! DEFINITION. The requests of the client ports: their kinds and codes, the ports that may use them, the
lengths they require, the fields read from a request body, and the bytes a master writes for each
(section 10.3, R158, R178, R179). -/

namespace Sys2Proof.Machine

open Sys2Proof

/-- The request kinds (section 12.2). -/
inductive RequestKind where
  | order | orderZone | release | queryAperture | clearFault
  | advisory | advisoryCancel | clearConditions | restart | alarmRestore
  | queryBranch | queryWeather | queryQueue | queryZone | queryTrigger | nextNotice
  | storeMode | storeAct | storeRead | lock | leaveCommissioning
  deriving DecidableEq, Repr

/-- All request kinds, in the order of their codes. -/
def allKinds : List RequestKind :=
  [.order, .orderZone, .release, .queryAperture, .clearFault,
    .advisory, .advisoryCancel, .clearConditions, .restart, .alarmRestore,
    .queryBranch, .queryWeather, .queryQueue, .queryZone, .queryTrigger, .nextNotice,
    .storeMode, .storeAct, .storeRead, .lock, .leaveCommissioning]

/-- The code of a request kind (R179). -/
def RequestKind.code : RequestKind → Byte
  | .order => 0x01 | .orderZone => 0x02 | .release => 0x03 | .queryAperture => 0x04 | .clearFault => 0x05
  | .advisory => 0x10 | .advisoryCancel => 0x11 | .clearConditions => 0x12 | .restart => 0x13
  | .alarmRestore => 0x18
  | .queryBranch => 0x20 | .queryWeather => 0x21 | .queryQueue => 0x22 | .queryZone => 0x23
  | .queryTrigger => 0x24 | .nextNotice => 0x25
  | .storeMode => 0x30 | .storeAct => 0x31 | .storeRead => 0x32 | .lock => 0x33
  | .leaveCommissioning => 0x34

/-- The kind with a code, where the part knows one (R158 check 1). -/
def kindOf (b : Byte) : Option RequestKind := allKinds.find? fun k => k.code = b

/-- The port may use the kind (R158 check 2, section 10.3). -/
def RequestKind.allowedOn : RequestKind → Port → Bool
  | .clearFault, p | .storeRead, p => p = .S || p = .L
  | .alarmRestore, p => p = .L
  | .advisory, p | .advisoryCancel, p | .clearConditions, p | .restart, p | .storeMode, p | .storeAct, p
  | .lock, p | .leaveCommissioning, p => p = .S
  | .order, _ | .orderZone, _ | .release, _ | .queryAperture, _ | .queryBranch, _ | .queryWeather, _
  | .queryQueue, _ | .queryZone, _ | .queryTrigger, _ | .nextNotice, _ => true

/-- The body length the kind requires (R158 check 3, R179). -/
def RequestKind.lengthOk : RequestKind → Nat → Bool
  | .order, n | .orderZone, n => n = 4
  | .advisory, n => n = 5
  | .storeAct, n => n = 1 || n = 17
  | .release, n | .queryAperture, n | .clearFault, n | .queryBranch, n | .queryQueue, n | .queryZone, n
  | .storeMode, n | .storeRead, n | .lock, n => n = 1
  | .advisoryCancel, n | .clearConditions, n | .restart, n | .alarmRestore, n | .queryWeather, n
  | .queryTrigger, n | .nextNotice, n | .leaveCommissioning, n => n = 0

/-- Byte `k` of a request body, as a number. -/
def bodyAt (body : List Byte) (k : Nat) : Nat := (body.getD k 0).toNat

/-- The two-byte field at byte `k` of a request body, most significant byte first. -/
def bodyAt2 (body : List Byte) (k : Nat) : Nat := bodyAt body k * 256 + bodyAt body (k + 1)

/-- The bytes of a request: kind, length, body (R157, R179). -/
def requestBytes (kind : Byte) (body : List Byte) : List Byte :=
  kind :: BitVec.ofNat 8 body.length :: body

/-- A 16-bit field as a master writes it, most significant byte first. -/
def wordBytes (w : BitVec 16) : List Byte := [BitVec.ofNat 8 (w.toNat / 256), BitVec.ofNat 8 w.toNat]

end Sys2Proof.Machine
end

