-- ==== Sys2Proof/Machine/StoreCells.lean ====
section
/-! DEFINITION. The contents of the Commissioning Store: 66 records of 16 bytes as one canonical list of
cells, with reading, erasing and writing (R168, R172, R176). -/

namespace Sys2Proof.Machine

open Sys2Proof

/-- What an unlisted address reads as: a blank record reads 0xFF throughout (R168). -/
def blankByte : Byte := 0xFF

/-- The number of byte addresses of the store: 66 records of 16 bytes. -/
def storeSize : Nat := 1056

/-- Addresses strictly rising from `lo`, all below the store's size, and no cell equal to what an unlisted
address reads as. -/
def cellsFrom : Nat → List Host.Cell → Bool
  | _, [] => true
  | lo, c :: cs => decide (lo ≤ c.1) && decide (c.1 < storeSize) && decide (c.2 ≠ blankByte) && cellsFrom (c.1 + 1) cs

/-- The canonical form of the store's contents: equal contents are equal lists. -/
def Store.wf (t : Store) : Bool := cellsFrom 0 t.cells

/-- The byte at an address. -/
def readCell (cs : List Host.Cell) (a : Nat) : Byte :=
  match cs with
  | [] => blankByte
  | c :: cs => if c.1 = a then c.2 else readCell cs a

/-- The cells outside the addresses from `lo` up to, not including, `hi`. -/
def eraseCells (cs : List Host.Cell) (lo hi : Nat) : List Host.Cell :=
  cs.filter fun c => decide (c.1 < lo) || decide (hi ≤ c.1)

/-- A non-blank byte takes its place in the list. -/
def insertCell (a : Nat) (b : Byte) : List Host.Cell → List Host.Cell
  | [] => [(a, b)]
  | c :: cs => if a < c.1 then (a, b) :: c :: cs else if a = c.1 then (a, b) :: cs else c :: insertCell a b cs

/-- A byte is written at an address of the store; writing what an unlisted address reads as removes the
cell, and an address outside the store does not exist. -/
def writeCell (cs : List Host.Cell) (a : Nat) (b : Byte) : List Host.Cell :=
  if storeSize ≤ a then cs
  else if b = blankByte then eraseCells cs a (a + 1)
  else insertCell a b cs

/-- Bytes are written from address `a` upward. -/
def writeCells (cs : List Host.Cell) (a : Nat) : List Byte → List Host.Cell
  | [] => cs
  | b :: bs => writeCells (writeCell cs a b) (a + 1) bs

/-- Byte `k` of record `n`. -/
def recByte (t : Store) (n k : Nat) : Byte := readCell t.cells (16 * n + k)

/-- A record is complete while its byte 15 holds 0x00 (R168). -/
def Store.isComplete (t : Store) (n : Nat) : Bool := recByte t n 15 = 0

/-- The 16 bytes of record `n` as STORE-READ reports them (R168, R173). -/
def Store.bytesOf (t : Store) (n : Nat) : List Byte :=
  if t.isComplete n then (List.range 16).map (recByte t n) else List.replicate 16 blankByte

/-- Records `first` to `last` are made blank (R168, R172). -/
def Store.erase (t : Store) (first last : Nat) : Store :=
  { t with cells := eraseCells t.cells (16 * first) (16 * (last + 1)) }

/-- Record `n` is written with 16 bytes, the completion marker last: any other marker than 0x00 leaves the
record blank, with the same effect as an erase (R168). -/
def Store.program (t : Store) (n : Nat) (data : List Byte) : Store :=
  if data.getD 15 blankByte = 0 then { t.erase n n with cells := writeCells (t.erase n n).cells (16 * n) (data.take 16) }
  else t.erase n n

/-- The store's operation, if any, is completed (R172). -/
def Store.finishOp (t : Store) : Store :=
  match t.op with
  | some ⟨first, last, none, _⟩ => { t.erase first last with op := none }
  | some ⟨first, _, some data, _⟩ => { t.program first data with op := none }
  | none => t

/-- A POR or PIN reset aborts the store's operation: the records it touches are left blank (R176). -/
def Store.abortOp (t : Store) : Store :=
  match t.op with
  | some ⟨first, last, _, _⟩ => { t.erase first last with op := none }
  | none => t

end Sys2Proof.Machine
end

