-- ==== Sys2Proof/Machine/Load.lean ====
section
/-! DEFINITION. The load: every store record copied into the live tables, with the defaults of blank
records and the corrections of out-of-range fields (R2, R3, R6, R36, R37, R59, R93, R167, R182). -/

namespace Sys2Proof.Machine

open Sys2Proof

/-- A value at the nearest bound of a range (00_scope.md, "Arithmetic"). -/
def clampTo (lo hi v : Nat) : Nat := if v < lo then lo else if hi < v then hi else v

/-- Byte `k` of record `n`, as a number. -/
def field1 (t : Store) (n k : Nat) : Nat := (recByte t n k).toNat

/-- The two-byte field at byte `k` of record `n`, most significant byte first (chapter 12). -/
def field2 (t : Store) (n k : Nat) : Nat := field1 t n k * 256 + field1 t n (k + 1)

/-- Bit `j` of byte `k` of record `n`. -/
def fieldBit (t : Store) (n k j : Nat) : Bool := (recByte t n k).getLsbD j

/-! ### Codes (R177, R182) -/

/-- The kind with a code, the highest for any code above it (R6). -/
def kindOfCode : Nat → ApKind
  | 0 => .window
  | 1 => .skylight
  | 2 => .ventWindow
  | _ => .ventSkylight

/-- The branch with a code, D for any code above it (R6). -/
def branchOfCode : Nat → Branch
  | 0 => .A
  | 1 => .B
  | 2 => .C
  | _ => .D

/-- The right with a code, ORDER for any code above it (R36). -/
def rightOfCode : Nat → Right
  | 0 => .none
  | 1 => .observe
  | _ => .order

/-- The life role with a code, COMPARTMENT for any code above it (R36). -/
def roleOfCode : Nat → LifeRole
  | 0 => .none
  | 1 => .vent
  | _ => .compartment

/-! ### PLANT section: apertures (R2, R3, R6) -/

/-- Skylight kinds are rain-exposed whatever the store holds (R3). -/
def ApKind.isSkylight : ApKind → Bool
  | .skylight | .ventSkylight => true
  | .window | .ventWindow => false

/-- The static half of aperture `n` loaded from its record (R2, R6, R182). -/
def loadStatic (t : Store) (n : Nat) : Static :=
  if t.isComplete n then
    let kind := kindOfCode (field1 t n 1 % 16)
    let run := clampTo 1 100 (field1 t n 7)
    { installed := fieldBit t n 0 0
      kind := kind
      branch := branchOfCode (field1 t n 1 / 16)
      facade := clampTo 0 359 (field2 t n 2)
      weight := field1 t n 4
      loadLimit := clampTo 0 8600 (field2 t n 5)
      rainExposed := kind.isSkylight || fieldBit t n 0 1
      failSafe := fieldBit t n 0 2
      rank := clampTo 0 3 (field1 t n 0 / 16)
      run := run
      inrush := clampTo run 200 (field1 t n 8)
      closeStroke := clampTo 10 3000 (field2 t n 9)
      openStroke := clampTo 10 3000 (field2 t n 11)
      vent := clampTo 0 1000 (field2 t n 13) }
  else Static.blank

/-- A stored value lies outside its range. -/
def outside (lo hi v : Nat) : Bool := v < lo || hi < v

/-- A field of aperture record `n` is corrected at the load (R6). -/
def apertureClamped (t : Store) (n : Nat) : Bool :=
  outside 0 3 (field1 t n 1 % 16) || outside 0 3 (field1 t n 1 / 16) || outside 0 359 (field2 t n 2) ||
  outside 0 8600 (field2 t n 5) || outside 0 3 (field1 t n 0 / 16) || outside 1 100 (field1 t n 7) ||
  outside (clampTo 1 100 (field1 t n 7)) 200 (field1 t n 8) || outside 10 3000 (field2 t n 9) ||
  outside 10 3000 (field2 t n 11) || outside 0 1000 (field2 t n 13)

/-! ### PLANT section: branches (R93) -/

/-- The record number of a branch (R93). -/
def branchRecord : Branch → Nat
  | .A => 48
  | .B => 49
  | .C => 50
  | .D => 51

/-- The branch record loaded at a reset whose load ends at uptime `d` ds (R93, R111). -/
def loadBranch (t : Store) (d : Nat) (b : Branch) : BranchRec :=
  let n := branchRecord b
  if t.isComplete n then
    .reset (clampTo 10 400 (field2 t n 0)) (clampTo 1 20 (field1 t n 2)) (clampTo 0 50 (field1 t n 3)) d
  else .reset 40 10 20 d

/-- A field of branch record `n` is corrected at the load (R93). -/
def branchClamped (t : Store) (n : Nat) : Bool :=
  outside 10 400 (field2 t n 0) || outside 1 20 (field1 t n 2) || outside 0 50 (field1 t n 3)

/-! ### ZONE section (R36, R37) -/

/-- A zone descriptor loaded from record `n` (R36). -/
def loadZone (t : Store) (n : Nat) : Zone :=
  if t.isComplete n then
    { enabled := fieldBit t n 0 0
      base := clampTo 0 47 (field1 t n 1)
      size := clampTo 0 5 (field1 t n 2)
      rightS := rightOfCode (field1 t n 3)
      rightL := rightOfCode (field1 t n 4)
      rightK := rightOfCode (field1 t n 5)
      role := roleOfCode (field1 t n 6)
      warn := clampTo 0 60 (field1 t n 7)
      settle := clampTo 1 50 (field1 t n 8) }
  else Zone.blank

/-- The base descriptor loaded from record 60: rights, warn time and settle time, with the life role NONE
whatever the record holds (R37). -/
def loadBase (t : Store) : Zone :=
  if t.isComplete 60 then
    { loadZone t 60 with enabled := false, base := 0, size := 0, role := .none }
  else Zone.blankBase

/-- The fields common to every record of the ZONE section are corrected at the load (R36, R37). -/
def rightsClamped (t : Store) (n : Nat) : Bool :=
  outside 0 2 (field1 t n 3) || outside 0 2 (field1 t n 4) || outside 0 2 (field1 t n 5) ||
  outside 0 60 (field1 t n 7) || outside 1 50 (field1 t n 8)

/-- A field of zone record `n` is corrected at the load (R36, R37, R182). -/
def zoneClamped (t : Store) (n : Nat) : Bool :=
  rightsClamped t n ||
  (n ≠ 60 && (outside 0 47 (field1 t n 1) || outside 0 5 (field1 t n 2) || outside 0 2 (field1 t n 6)))

/-! ### OPERATING and SITE sections (R167) -/

/-- The supervisor's operating values (R73, R167). -/
def loadSupervisor (t : Store) (v : Supervisor) : Supervisor :=
  if t.isComplete 61 then
    { v with
      watchGust := clampTo 0 600 (field2 t 61 0)
      holdTime := clampTo 60 7200 (field2 t 61 2)
      guardLead := clampTo 0 1800 (field2 t 61 4) }
  else { v with watchGust := 150, holdTime := 1800, guardLead := 300 }

/-- The room lifetime (R34, R167). -/
def loadRoomLifetime (t : Store) : Nat :=
  if t.isComplete 62 then clampTo 0 240 (field1 t 62 0) else 60

/-- The front end's settings from record 62 (R59). -/
def loadDelays (t : Store) (fe : FrontEnd) : FrontEnd :=
  if t.isComplete 62 then
    { fe with dryDelay := clampTo 60 3600 (field2 t 62 1), silence := clampTo 60 7200 (field2 t 62 3) }
  else { fe with dryDelay := 600, silence := 3600 }

/-- The fail-safe enables from record 63 (R55, R59). -/
def loadEnables (t : Store) : Cond :=
  if t.isComplete 63 then
    ⟨fieldBit t 63 0 0, fieldBit t 63 0 1, fieldBit t 63 0 2, fieldBit t 63 0 3⟩
  else .defaultEnables

/-- The front end's settings from record 64 (R59). -/
def loadSite (t : Store) (fe : FrontEnd) : FrontEnd :=
  if t.isComplete 64 then
    { fe with
      constK := clampTo 1 2000 (field2 t 64 0)
      vaneOffset := clampTo 0 359 (field2 t 64 2)
      wetDelay := clampTo 1 60 (field1 t 64 4) }
  else { fe with constK := 250, vaneOffset := 0, wetDelay := 2 }

/-- All six settings of the front end (R59). -/
def loadFrontEnd (t : Store) (fe : FrontEnd) : FrontEnd :=
  let fe := loadSite t (loadDelays t fe)
  { fe with word := { fe.word with enables := loadEnables t } }

/-- A field of one of the records 61 to 64 is corrected at the load; records 63 and 65 have no such field
(R167). -/
def valuesClamped (t : Store) : Nat → Bool
  | 61 => outside 0 600 (field2 t 61 0) || outside 60 7200 (field2 t 61 2) || outside 0 1800 (field2 t 61 4)
  | 62 => outside 0 240 (field1 t 62 0) || outside 60 3600 (field2 t 62 1) || outside 60 7200 (field2 t 62 3)
  | 64 => outside 1 2000 (field2 t 64 0) || outside 0 359 (field2 t 64 2) || outside 1 60 (field1 t 64 4)
  | _ => false

/-- The load corrects a field of record `n` (R167): only complete records are loaded field by field. -/
def recordClamped (t : Store) (n : Nat) : Bool :=
  t.isComplete n &&
    (if n < 48 then apertureClamped t n
     else if n < 52 then branchClamped t n
     else if n < 61 then zoneClamped t n
     else valuesClamped t n)

/-- The records the load corrects, in ascending order (R167). -/
def clampedRecords (t : Store) : List Nat := (List.range 66).filter (recordClamped t)

/-! ### The live tables after a load -/

/-- Every block but the front end, the trigger record, the clock, the ports and the store takes the values
that all three kinds of reset give it, with the static fields loaded (R20, R43, R72, R92, R111, R129,
R144, R155, R167). The free values are drawn anew (assumption log 26). -/
def loadTables (s : State) : State :=
  let t := s.store
  { s with
    aps := Vector.ofFn fun i => Aperture.reset (loadStatic t i.val)
    zones :=
      { desc := Vector.ofFn fun z => loadZone t (52 + z.val)
        base := loadBase t
        warnings := Vector.replicate 8 Warning.reset }
    fe := loadFrontEnd t s.fe
    sup := loadSupervisor t { Supervisor.porDefault with trigger := s.sup.trigger }
    branches :=
      { a := loadBranch t s.ds .A, b := loadBranch t s.ds .B
        c := loadBranch t s.ds .C, d := loadBranch t s.ds .D }
    link := Link.reset s.clock.ms
    fire := ⟨.normal, false, if s.pins.alarm then some (s.clock.ms + Config.debounceMs) else none⟩
    roomLifetime := loadRoomLifetime t
    loadEnd := s.ds
    owed := []
    freeDraws := s.freeDraws + 1 }

/-- RESTARTED is queued on every port, then the LOAD-CLAMPED notices of the load on Port S in ascending
record number (R165, R166, R167). -/
def announceReset (kind : ResetKind) (reason : RestartReason) (s : State) : State :=
  let s' := s.notify allPorts (.restarted kind reason)
  (clampedRecords s.store).foldl (fun x n => x.notify [.S] (.loadClamped n)) s'

end Sys2Proof.Machine
end

