-- ==== Sys2Proof/Machine/Resets.lean ====
section
/-! DEFINITION. The three kinds of reset (R60, R92, R165, R166, R167, R175, R176). -/

namespace Sys2Proof.Machine

open Sys2Proof

/-- The front end after POR or PIN reset with the sticky bits and the enables given, before its other settings are
loaded (R60). QUERY-WEATHER reports this word until the first boundary: DESIGN CHOICE, assumption log 52. -/
def freshFrontEnd (sticky enables : Cond) : FrontEnd :=
  { FrontEnd.porDefault with word := ⟨.none, sticky, enables⟩, boundaryWord := ⟨.none, sticky, enables⟩ }

/-- The store after POR or PIN reset: contents kept, a running operation aborted with its records blank,
mode NONE, locks clear, commissioning mode from CMSN (R175, R176). -/
def resetStore (cmsn : Bool) (t : Store) : Store :=
  { t.abortOp with mode := .none, commissioning := cmsn, plantLock := false, operLock := false }

/-- POR and PIN reset, with what the two kinds keep differently: the sticky bits and the Trigger Record
(R60, R92, R165). -/
def hardReset (kind : ResetKind) (cmsn : Bool) (sticky : Cond) (trigger : Option Trigger) (s : State) : State :=
  announceReset kind .restart (loadTables
    { s with
      clock := ⟨0, 1⟩
      pins := { s.pins with cmsn := cmsn }
      fe := freshFrontEnd sticky (loadEnables (resetStore cmsn s.store))
      sup := { s.sup with trigger := trigger }
      ports := ⟨.reset [], .reset [], .reset []⟩
      store := resetStore cmsn s.store })

/-- POR (R165). -/
def execPor (cmsn : Bool) (s : State) : Host.Outcome State Fault Refusal :=
  .next (hardReset .por cmsn .none none s)

/-- PIN_RESET (R165): the sticky bits and the Trigger Record are kept (R60, R92). -/
def execPinReset (cmsn : Bool) (s : State) : Host.Outcome State Fault Refusal :=
  .next (hardReset .pin cmsn s.fe.word.sticky s.sup.trigger s)

/-- A restart (R166, R175): every block takes its RESTART values; the ports, the front end's figures, the
Trigger Record, the locks and the uptime are kept, and the store mode becomes NONE (R60, R92, R176). -/
def doRestart (reason : RestartReason) (s : State) : State :=
  announceReset .restart reason (loadTables { s with store := { s.store with mode := .none } })

end Sys2Proof.Machine
end

