-- ==== Sys2Proof/Machine/Exposure.lean ====
section
/-! DEFINITION. The Exposure Evaluator's arithmetic: facing factor, load index, wind standing, advisory
need, and a computation over every installed aperture (R61 to R71). -/

namespace Sys2Proof.Machine

open Sys2Proof

/-- The angle d between two bearings (R63). -/
def facingAngle (wind facade : Nat) : Nat :=
  let raw := distance wind facade
  if raw ≤ 180 then raw else 360 - raw

/-- The ramp of R63. -/
def facingRamp (d : Nat) : Nat := if d < 90 then (90 - d) * 364 else 0

/-- The facing factor F (R62). -/
def facing (k : ApKind) (facade : Nat) (vaneInvalid : Bool) (bearing : Option Nat) : Nat :=
  match k, vaneInvalid, bearing with
  | .skylight, _, _ | .ventSkylight, _, _ => 32760
  | _, true, _ | _, _, none => 32760
  | _, false, some w => facingRamp (facingAngle w facade)

/-- Stage 2 of R64: the dynamic pressure of gust `g`. -/
def dynamicPressure (g : Nat) : Nat := (g * g * 393 + 32768) / 65536

/-- Stage 3 of R64: the pressure acting on an aperture with facing factor `f`. -/
def actingPressure (q f : Nat) : Nat := (q * f + 16384) / 32768

/-- The load index of R64 from gust `g`, facing factor `f` and exposure weight `e`. -/
def loadIndex (g f e : Nat) : Nat := (actingPressure (dynamicPressure g) f * e + 32) / 64

/-- The release level L of R66. -/
def releaseLevel (limit : Nat) : Nat := limit * 3 / 4

/-- The wind standing of R66. -/
def standing (limit q : Nat) : Standing :=
  if limit = 0 then .unlimited
  else if limit ≤ q then .need
  else if releaseLevel limit ≤ q ∧ 0 < q then .band
  else .clear

/-- The facing factor of an aperture in the wind the front end reports. -/
def facingOf (fe : FrontEnd) (x : Static) : Nat :=
  facing x.kind x.facade fe.word.live.vaneInvalid fe.bearing

/-- The figures of one aperture from the front end's figures and the advisory gust (R64 to R67). -/
def figures (fe : FrontEnd) (advGust : Option Nat) (x : Static) : Figures :=
  let f := facingOf fe x
  let q := loadIndex fe.gust f x.weight
  { load := q
    standing := standing x.loadLimit q
    adv := advGust.map fun g =>
      (loadIndex g f x.weight, decide (0 < x.loadLimit ∧ x.loadLimit ≤ loadIndex g f x.weight)) }

/-- G_adv (R65): the larger of the gust and the advisory's prediction, while an advisory is held. -/
def gAdv (s : State) : Option Nat := s.sup.advisory.map fun d => max s.fe.gust d.gust

/-- A computation covers every installed aperture (R61, R68, R69). -/
def compute (s : State) : State :=
  let g := gAdv s
  { s with
    aps := s.aps.map fun a => if a.present then { a with fig := figures s.fe g a.fix } else a
    sup.advGust := g }

end Sys2Proof.Machine
end

