-- ==== Sys2Proof/Machine/Supervise.lean ====
section
/-! DEFINITION. The Weather Supervisor: closure need, stand-down, state judgement, claims, the Trigger
Record, and an exposure update taken whole (R73 to R83). -/

namespace Sys2Proof.Machine

open Sys2Proof

/-! ### Closure need (R80) -/

/-- An advisory that expects rain is held. -/
def State.rainExpected (s : State) : Bool :=
  match s.sup.advisory with
  | some d => d.rain
  | none => false

/-- The aperture has the cause (R80). -/
def hasCause (s : State) (a : Aperture) : Cause → Bool
  | .rain => s.fe.wet && a.fix.rainExposed
  | .wind => a.fig.standing = .need
  | .sensor => s.fe.precaution.any && a.fix.failSafe
  | .advisory =>
    s.sup.advisory.isSome &&
      ((s.rainExpected && a.fix.rainExposed) ||
        match a.fig.adv with
        | some (_, need) => need
        | none => false)

/-- The first cause the aperture has, in the order of R82; `none` when it has no closure need (R80). -/
def firstCause (s : State) (a : Aperture) : Option Cause :=
  [Cause.rain, .wind, .sensor, .advisory].find? (hasCause s a)

/-- Some installed aperture has the property. -/
def State.someAp (s : State) (f : Aperture → Bool) : Bool :=
  allAps.any fun i => (s.ap i).present && f (s.ap i)

/-- The number of installed apertures with a closure need (R80, R91). -/
def State.needCount (s : State) : Nat := s.countAps fun a => (firstCause s a).isSome

/-! ### State judgement (R74, R75) -/

/-- The stand-down test (R74). -/
def standDown (s : State) : Bool :=
  !s.fe.wet && !s.fe.word.live.rainSensor &&
  !s.someAp (fun a => a.fig.standing = .need || a.fig.standing = .band) &&
  !s.someAp (fun a => hasCause s a .advisory) && !s.fe.precaution.any

/-- The next weather state at an exposure update (R75). -/
def nextWeather (s : State) : Weather :=
  let need := s.someAp (fun a => (firstCause s a).isSome)
  let alert := need || s.fe.precaution.any
  let high := s.sup.watchGust ≤ s.fe.gust
  let low := s.fe.gust < s.sup.watchGust * 3 / 4
  let advisory := s.sup.advisory.isSome
  match s.sup.weather with
  | .clear => if alert then .active else if high || advisory then .watch else .clear
  | .watch => if alert then .active else if low && !advisory then .clear else .watch
  | .active => if standDown s then .holding else .active
  | .holding => if alert then .active else .holding

/-! ### Claims (R81, R82) -/

/-- The deadline that cause `c` gives at the present update (R82). -/
def claimDeadline (s : State) : Cause → Option Nat
  | .advisory =>
    match s.sup.advisory with
    | some d =>
      if s.ds < (d.arrival - s.sup.guardLead) * 10 then some ((d.arrival - s.sup.guardLead) * 10) else none
    | none => none
  | .rain | .wind | .sensor => none

/-- A claim is posted on one aperture that has a closure need and no WEATHER slot (R81). -/
def claimOn (s : State) (i : ApId) : State :=
  match (s.ap i).present && (s.ap i).slate.weather.isNone, firstCause s (s.ap i) with
  | true, some c => postClaim i ⟨c, claimDeadline s c⟩ s
  | _, _ => s

/-- The cause and deadline of a standing claim at an exposure update (R82). -/
def renewClaim (s : State) (a : Aperture) (c : Claim) : Claim :=
  match firstCause s a with
  | some k => ⟨k, claimDeadline s k⟩
  | none =>
    match c.deadline with
    | some d => if d ≤ s.ds then { c with deadline := none } else c
    | none => c

/-- The causes and deadlines of the claims that stand on the apertures of `old` are derived (R81, R82). -/
def renewClaims (old : List ApId) (s : State) : State :=
  old.foldl (fun s' i => s'.modAp i fun a => { a with claim := a.claim.map (renewClaim s a) }) s

/-! ### The Trigger Record (R83) -/

/-- The cause set of the update: every cause some installed aperture has, with SENSOR whenever the
precaution set is non-empty. -/
def causeSet (s : State) : CauseSet :=
  let has := fun c => s.someAp fun a => hasCause s a c
  ⟨has .rain, has .wind, has .advisory, has .sensor || s.fe.precaution.any⟩

/-- The Trigger Record of an entry to ACTIVE (R83). Its condition word is the one that the exposure update
passes on, that of the latest gust update (R71): DESIGN CHOICE where a CLEAR-CONDITIONS came since
(assumption log 53). -/
def triggerRecord (s : State) : Trigger :=
  { second := s.sec, causes := causeSet s, gust := s.fe.gust, bearing := s.fe.bearing
    wet := s.fe.wet, word := s.sup.gustWord, claims := s.claims }

/-! ### An exposure update -/

/-- The weather state and hold timer after the judgement (R75, R76). -/
def setWeather (w : Weather) (s : State) : State :=
  { s with
    sup.weather := w
    sup.holdTimer :=
      match s.sup.weather, w with
      | .active, .holding => some (s.sec + s.sup.holdTime)
      | .holding, .holding => s.sup.holdTimer
      | _, _ => none }

/-- The cause set a WEATHER-STATE notice carries: that of the Trigger Record on entry to ACTIVE, and
none otherwise (R77). -/
def noticeCauses (w : Weather) (s : State) : CauseSet :=
  match w with
  | .active => causeSet s
  | _ => ⟨false, false, false, false⟩

/-- The WEATHER-STATE notice of a change of weather state, to all three ports (R77). -/
def announceWeather (old w : Weather) (s : State) : State :=
  if old = w then s
  else s.notify [.S, .L, .K] (.weatherState old w s.claims (noticeCauses w s))

/-- The Weather Supervisor takes an exposure update (R75, R81 to R83, R86): judgement, claims in index
order, renewal of the older claims, the queue's new fields and order, the Trigger Record, the notice. -/
def exposureUpdate (s : State) : State :=
  let old := s.sup.weather
  let w := nextWeather s
  let standingClaims := allAps.filter fun i => (s.ap i).slate.weather.isSome
  let s := setWeather w { s with sup.needs := s.needCount }
  let s := if w = .active then allAps.foldl claimOn s else s
  let s := resortQueue (renewClaims standingClaims s)
  let s := if w = .active ∧ old ≠ .active then { s with sup.trigger := some (triggerRecord s) } else s
  announceWeather old w s

/-- A change of the advisory record makes the evaluator compute and hand on an exposure update, once a
gust update has been delivered since the last reset (R68, R69, assumption log 24). -/
def advisoryChanged (s : State) : State :=
  if s.sup.computed then exposureUpdate (compute s) else s

/-- The event in which the advisory record becomes `d` (R78, R79). -/
def changeAdvisory (d : Option Advisory) (s : State) : State :=
  finish s.sup.computed s (advisoryChanged { s with sup.advisory := d })

/-- The event of the hold timer's expiry (R76): every WEATHER slot is removed, then WATCH or CLEAR. -/
def endHolding (s : State) : State :=
  let s' := allAps.foldl dropClaim s
  let w := if s'.sup.watchGust ≤ s'.fe.gust || s'.sup.advisory.isSome then Weather.watch else .clear
  announceWeather s.sup.weather w (setWeather w s')

end Sys2Proof.Machine
end

