-- ==== Sys2Proof/Machine/Sensors.lean ====
section
/-! DEFINITION. The Sensor Front End: anemometer pulses and the second boundary with its stages
(R44 to R56), and CLEAR-CONDITIONS (R57). -/

namespace Sys2Proof.Machine

open Sys2Proof

/-! ### Stages 1 to 5: wind speed and gust -/

/-- The conversion of R46 before clamping: the count times K, rounded to 0.1 m/s. -/
def rawSpeed (n k : Nat) : Nat := (n * k + 50) / 100

/-- The speed used (R46): clamped at 600, flushed to 0 below 5. -/
def usedSpeed (raw : Nat) : Nat := if 600 < raw then 600 else if raw < 5 then 0 else raw

/-- The one-second mean of the speeds held, newest first (R47). -/
def mean3 : List Nat → Nat
  | [] => 0
  | [a] => a
  | [a, b] => (a + b + 1) / 2
  | a :: b :: c :: _ => (a + b + c + 1) / 3

/-- A mean written into the Gust Ring (R48). -/
def pushRing (ring : List Nat) (m : Nat) : List Nat :=
  (if ring.length < 120 then ring else ring.drop 1) ++ [m]

/-- The largest entry of the ring, 0 while it is empty (R48). -/
def ringMax (ring : List Nat) : Nat := ring.foldl max 0

/-- Stages 1 to 5 of R44: count taken, speed, WIND-OVER (R46), silence (R53), triple and ring. -/
def windStages (fe : FrontEnd) : FrontEnd :=
  let raw := rawSpeed fe.count fe.constK
  let v := usedSpeed raw
  let silent := if 0 < fe.count || fe.saturated then 0 else min 7200 (fe.silent + 1)
  let triple := (v :: fe.triple).take 3
  let ring := pushRing fe.ring (mean3 triple)
  { fe with
    count := 0
    saturated := false
    speed := v
    silent := silent
    triple := triple
    ring := ring
    gust := ringMax ring
    word := { fe.word with
      live := { fe.word.live with
        windOver := fe.saturated || decide (600 < raw)
        anemoSilent := decide (fe.silence ≤ silent) } } }

/-- Stage 6 (R50): the vane code, the bearing and VANE-INVALID. -/
def vaneStage (code : Nat) (fe : FrontEnd) : FrontEnd :=
  { fe with
    bearing := if code < 240 then some ((code * 3 / 2 + fe.vaneOffset) % 360) else fe.bearing
    word := { fe.word with live := { fe.word.live with vaneInvalid := decide (240 ≤ code) } } }

/-- The rain debounce of R51 with one sample. -/
def rainDebounce (rain : Bool) (fe : FrontEnd) : FrontEnd :=
  if rain then
    let wetRun := min 3600 (fe.wetRun + 1)
    { fe with wetRun := wetRun, dryRun := 0, wet := fe.wet || decide (fe.wetDelay ≤ wetRun) }
  else
    let dryRun := min 3600 (fe.dryRun + 1)
    { fe with wetRun := 0, dryRun := dryRun, wet := fe.wet && !decide (fe.dryDelay ≤ dryRun) }

/-- Stage 7 (R51, R52): RAINOK, RAIN-SENSOR and the debounce. -/
def rainStage (rain rainok : Bool) (fe : FrontEnd) : FrontEnd :=
  let fe := { fe with word := { fe.word with live := { fe.word.live with rainSensor := !rainok } } }
  if rainok then rainDebounce rain fe else { fe with wetRun := 0, dryRun := 0 }

/-- The sticky bits that stage 8 sets: live, and clear so far (R54). -/
def stickyRises (w : CondWord) : Cond := w.live.zip (fun a b => a && !b) w.sticky

/-- Stage 8 (R54, R55): sticky bits and precaution set, with the word that QUERY-WEATHER reports until the next
boundary (R58). -/
def conditionStage (fe : FrontEnd) : FrontEnd :=
  let word := { fe.word with sticky := fe.word.sticky.zip or fe.word.live }
  { fe with word := word, boundaryWord := word, precaution := fe.word.live.zip and fe.word.enables }

/-- Stages 1 to 7 of R44. -/
def measure (code : Nat) (rain rainok : Bool) (fe : FrontEnd) : FrontEnd :=
  rainStage rain rainok (vaneStage code (windStages fe))

/-! ### Commands -/

/-- ANEMO_PULSE (R45). -/
def execAnemoPulse (s : State) : Host.Outcome State Fault Refusal :=
  .next { s with fe := if s.fe.count < 2000 then { s.fe with count := s.fe.count + 1 }
                       else { s.fe with saturated := true } }

/-- The second boundary is due: the uptime stands at its whole second or later (R44, assumption logs 1
and 33), and the samples of the pins are taken. -/
def beginBoundary (vane : Byte) (rain rainok : Bool) (s : State) : State :=
  let s := s.advanceTo (s.clock.nextBoundary * 1000)
  { s with
    clock.nextBoundary := s.sec + 1
    pins := { s.pins with vane := vane, rain := rain, rainok := rainok } }

/-- Stages 1 to 8 of R44, with the SENSOR-CONDITION notice (R56). -/
def frontEndStages (vane : Byte) (rain rainok : Bool) (s : State) : State :=
  let fe := measure vane.toNat rain rainok s.fe
  let rises := stickyRises fe.word
  let s := { s with fe := conditionStage fe }
  if rises.any then s.notify [.S] (.sensorCondition s.fe.word rises true) else s

/-- Stage 9 of R44: the gust update, the computation and the exposure update (R49, R68, R71). -/
def gustUpdate (s : State) : State :=
  exposureUpdate (compute { s with sup := { s.sup with computed := true, gustWord := s.fe.word } })

/-- SECOND_BOUNDARY (R44). -/
def execSecondBoundary (vane : Byte) (rain rainok : Bool) (s : State) : Host.Outcome State Fault Refusal :=
  .next (finish true s (gustUpdate (frontEndStages vane rain rainok (beginBoundary vane rain rainok s))))

/-- CLEAR-CONDITIONS on Port S (R57): the sticky bits of conditions that are not live are cleared, with a
notice when at least one was. The word that QUERY-WEATHER reports changes at the next boundary (R58). -/
def clearSticky (s : State) : State :=
  let w := s.fe.word
  let falls := w.sticky.zip (fun a b => a && !b) w.live
  let s := { s with fe := { s.fe with word := { w with sticky := w.sticky.zip and w.live } } }
  if falls.any then s.notify [.S] (.sensorCondition s.fe.word falls false) else s

end Sys2Proof.Machine
end

