-- ==== Sys2Proof/Machine/Requests.lean ====
section
/-! DEFINITION. What each request does when it is served, and the reply it is answered with
(section 10.3, R179). Each server is given the requesting port, the request body and the state in which
the port has taken the request; it answers the state afterwards and the reply, or `none` while the
request stays in PENDING. -/

namespace Sys2Proof.Machine

open Sys2Proof

/-! ### Replies -/

/-- The reply codes (section 10.3). -/
inductive ReplyCode where
  | ok | okClamped
  | noRight | noAperture | weatherHeld | wrongPort | badFormat | alarmActive
  | storeLocked | storeCollision | notErased | notCommissioning | noMode
  deriving DecidableEq, Repr

/-- The value of a reply code (R179). -/
def ReplyCode.byte : ReplyCode → Byte
  | .ok => 0x00 | .okClamped => 0x01
  | .noRight => 0x10 | .noAperture => 0x11 | .weatherHeld => 0x12 | .wrongPort => 0x13
  | .badFormat => 0x14 | .alarmActive => 0x15
  | .storeLocked => 0x20 | .storeCollision => 0x21 | .notErased => 0x22 | .notCommissioning => 0x23
  | .noMode => 0x24

/-- A reply: its code, its body, and the NLOST flag that NEXT-NOTICE carries in the header (R164). -/
structure Reply where
  code  : ReplyCode
  body  : List Byte
  nlost : Bool
  deriving DecidableEq, Repr

/-- What serving answers: the state afterwards and the reply, or no reply yet. -/
abbrev Served := State × Option Reply

/-- The request is answered with a code and a body. -/
def answer (c : ReplyCode) (body : List Byte) (s : State) : Served := (s, some ⟨c, body, false⟩)

/-- The request is refused: a code, no body, and nothing changed (R158, R179). -/
def refuse (c : ReplyCode) (s : State) : Served := answer c [] s

/-- OK, or OK-CLAMPED where a field was clamped (section 10.3). -/
def okCode (clamped : Bool) : ReplyCode := if clamped then .okClamped else .ok

/-! ### Checks shared by several requests -/

/-- The installed aperture that an index names; `none` for 48..255 and for an ABSENT aperture. -/
def apNamed (s : State) (n : Nat) : Option ApId :=
  if h : n < 48 then if (s.ap ⟨n, h⟩).present then some ⟨n, h⟩ else none else none

/-- The port holds the ORDER right in the aperture's governing zone (R40). -/
def mayOrder (s : State) (p : Port) (i : ApId) : Bool := (s.zoneOf i).right p = .order

/-- The port holds OBSERVE or ORDER in the aperture's governing zone (R40). -/
def mayObserve (s : State) (p : Port) (i : ApId) : Bool := (s.zoneOf i).right p ≠ .none

/-- The target a request carries, clamped, with whether it was clamped; `none` for a form other than 0
or 1 (R28, R178). Form 1 is HOLD whatever its value: DESIGN CHOICE, assumption log 51. -/
def parseTarget (form value : Nat) : Option (Target × Bool) :=
  match form with
  | 0 => some (.pos (min 1000 value), decide (1000 < value))
  | 1 => some (.hold, false)
  | _ => none

/-! ### Orders (R26, R30, R41) -/

/-- ORDER (R26 to R29). -/
def serveOrder (p : Port) (body : List Byte) (s : State) : Served :=
  match apNamed s (bodyAt body 0) with
  | none => refuse .noAperture s
  | some i =>
    if !mayOrder s p i then refuse .noRight s
    else
      match parseTarget (bodyAt body 1) (bodyAt2 body 2) with
      | none => refuse .badFormat s
      | some (t, clamped) =>
        if weatherHeld s p i t then refuse .weatherHeld s
        else
          let s := event (postOrder p i t) s
          answer (okCode clamped)
            (eIndex (some i) ++ eTarget (some t) ++ eTarget (s.ap i).effTarget ++ eClass (s.ap i).effClass) s

/-- The descriptor that a zone number names: `some z` for 0..7, `none` inside for the base descriptor 8
(R41). -/
def zoneNamed (n : Nat) : Option (Option ZoneId) :=
  if h : n < 8 then some (some ⟨n, h⟩) else if n = 8 then some none else none

/-- The named descriptor. -/
def State.descriptor (s : State) : Option ZoneId → Zone
  | some z => s.zones.desc[z]
  | none => s.zones.base

/-- The installed apertures a descriptor governs, in index order (R41). -/
def State.members (s : State) (z : Option ZoneId) : List ApId :=
  allAps.filter fun i => (s.ap i).present && s.governing i == z

/-- ORDER-ZONE (R41). A clamped target for a descriptor that governs no installed aperture is answered OK-CLAMPED,
with both counts 0: DESIGN CHOICE, assumption log 62. -/
def serveOrderZone (p : Port) (body : List Byte) (s : State) : Served :=
  match zoneNamed (bodyAt body 0) with
  | none => refuse .badFormat s
  | some z =>
    if (s.descriptor z).right p ≠ .order then refuse .noRight s
    else
      match parseTarget (bodyAt body 1) (bodyAt2 body 2) with
      | none => refuse .badFormat s
      | some (t, clamped) =>
        let posted := (s.members z).filter fun i => !weatherHeld s p i t
        let refused := (s.members z).filter fun i => weatherHeld s p i t
        answer (okCode clamped) (e1 posted.length ++ e1 refused.length ++ eTarget (some t))
          (event (posted.foldl fun s' i => postOrder p i t s') s)

/-- RELEASE (R30, R31, R151). -/
def serveRelease (p : Port) (body : List Byte) (s : State) : Served :=
  match apNamed s (bodyAt body 0) with
  | none => refuse .noAperture s
  | some i =>
    if !mayOrder s p i then refuse .noRight s
    else
      let removed := (ownSlot s p i).isSome
      let s := event (releaseOrder p i) s
      answer .ok (eBool removed ++ eTarget (s.ap i).effTarget ++ eClass (s.ap i).effClass) s

/-! ### Apertures (R14, R21) -/

/-- QUERY-APERTURE (R21). -/
def serveQueryAperture (p : Port) (body : List Byte) (s : State) : Served :=
  match apNamed s (bodyAt body 0) with
  | none => refuse .noAperture s
  | some i => if mayObserve s p i then answer .ok (apertureBody s i) s else refuse .noRight s

/-- The effect of CLEAR-FAULT by the fault kind (R14). -/
def clearFaultOf (i : ApId) (s : State) : State :=
  match (s.ap i).state, (s.ap i).fault with
  | .fault, some ⟨.stall, _⟩ => toRest i (s.modAp i fun a => { a with stallCount := 0 })
  | .fault, some ⟨.timeout, _⟩ => toRest i s
  | _, _ => s

/-- CLEAR-FAULT (R14). -/
def serveClearFault (p : Port) (body : List Byte) (s : State) : Served :=
  match apNamed s (bodyAt body 0) with
  | none => refuse .noAperture s
  | some i =>
    if !mayOrder s p i then refuse .noRight s
    else
      let s := event (clearFaultOf i) s
      answer .ok (eIndex (some i) ++ e1 (s.ap i).state.code ++ e1 (faultCode ((s.ap i).fault.map (·.kind)))) s

/-! ### Weather (R57, R78, R79, R83, R90, R91) -/

/-- The advisory record that a request of this body writes (R78). -/
def advisoryOf (s : State) (body : List Byte) : Advisory :=
  let arrival := s.sec + min 7200 (bodyAt2 body 0)
  { arrival := arrival, expiry := arrival + 1800, gust := min 600 (bodyAt2 body 2)
    rain := (body.getD 4 0).getLsbD 0 }

/-- ADVISORY (R78). -/
def serveAdvisory (body : List Byte) (s : State) : Served :=
  let d := advisoryOf s body
  answer (okCode (decide (7200 < bodyAt2 body 0) || decide (600 < bodyAt2 body 2)))
    (e4 d.arrival ++ e4 d.expiry ++ eBool s.sup.advisory.isSome) (changeAdvisory (some d) s)

/-- ADVISORY-CANCEL (R79). -/
def serveAdvisoryCancel (s : State) : Served :=
  answer .ok (eBool s.sup.advisory.isSome) (if s.sup.advisory.isSome then changeAdvisory none s else s)

/-- CLEAR-CONDITIONS (R57). -/
def serveClearConditions (s : State) : Served :=
  let s := clearSticky s
  answer .ok (eWord s.fe.word) s

/-- QUERY-WEATHER (R58, R72, R91, R155). -/
def serveQueryWeather (s : State) : Served := answer .ok (weatherBody s) s

/-- QUERY-QUEUE (R90): a first position above 47 is malformed (R178). -/
def serveQueryQueue (body : List Byte) (s : State) : Served :=
  if 47 < bodyAt body 0 then refuse .badFormat s else answer .ok (queueBody s (bodyAt body 0)) s

/-- QUERY-TRIGGER (R83). -/
def serveQueryTrigger (s : State) : Served := answer .ok (triggerBody s.freeDraws s.sup.trigger) s

/-! ### Branches and zones (R42, R110) -/

/-- The branch that a code names (R177, R178). -/
def branchNamed : Nat → Option Branch
  | 0 => some .A
  | 1 => some .B
  | 2 => some .C
  | 3 => some .D
  | _ => none

/-- QUERY-BRANCH (R110). -/
def serveQueryBranch (body : List Byte) (s : State) : Served :=
  match branchNamed (bodyAt body 0) with
  | none => refuse .badFormat s
  | some b => answer .ok (branchBody s b) s

/-- QUERY-ZONE (R42). -/
def serveQueryZone (body : List Byte) (s : State) : Served :=
  match zoneNamed (bodyAt body 0) with
  | none => refuse .badFormat s
  | some (some z) => answer .ok (zoneBody s z) s
  | some none => answer .ok (baseBody s s.freeDraws) s

/-! ### Fire (R152) -/

/-- ALARM-RESTORE (R152). -/
def serveAlarmRestore (s : State) : Served :=
  match s.fire.state with
  | .alarm => refuse .alarmActive s
  | .normal => answer .ok (e1 FireState.normal.code ++ e1 0) s
  | .restoreWait =>
    let removed := s.alarmSlots
    let s := event restoreFire s
    answer .ok (e1 s.fire.state.code ++ e1 removed) s

/-! ### Notices (R164) -/

/-- NEXT-NOTICE (R164). -/
def serveNextNotice (p : Port) (s : State) : Served :=
  let r := s.port p
  let body := match r.notices with
    | n :: rest => eBool true ++ e1 rest.length ++ n.bytes
    | [] => eBool false ++ e1 0 ++ List.replicate 12 0
  (s.modPort p fun r => { r with notices := r.notices.drop 1, nlost := false }, some ⟨.ok, body, r.nlost⟩)

/-! ### The Commissioning Store (R166, R169 to R175) -/

/-- The store is busy (R172). -/
def State.busy (s : State) : Bool := s.store.op.isSome

/-- The mode that a code names (R170, R177). -/
def modeNamed : Nat → Option StoreMode
  | 0 => some .none
  | 1 => some .erase1
  | 2 => some .erase2
  | 3 => some .erase4
  | 4 => some .erase8
  | 5 => some .eraseAll
  | 6 => some .write
  | _ => none

/-- The body of a STORE-MODE reply: mode, commissioning mode and lock flags (R170). -/
def modeBody (t : Store) : List Byte := e1 t.mode.code ++ eBool t.commissioning ++ eLocks t

/-- STORE-MODE, served while the store is idle (R170). -/
def serveStoreMode (body : List Byte) (s : State) : Served :=
  if s.busy then (s, none)
  else
    match modeNamed (bodyAt body 0) with
    | none => refuse .badFormat s
    | some m =>
      if s.store.mode = .none ∨ m = .none ∨ m = s.store.mode then
        let t := { s.store with mode := m }
        answer .ok (modeBody t) { s with store := t }
      else refuse .storeCollision s

/-- The aligned block of `size` records that holds record `n`, cut at record 65 (R171). -/
def eraseBlock (size n : Nat) : Nat × Nat := (n / size * size, min 65 (n / size * size + size - 1))

/-- The first and last records an act in this mode touches (R171). -/
def touched (m : StoreMode) (n : Nat) : Nat × Nat :=
  match m with
  | .erase1 => eraseBlock 1 n
  | .erase2 => eraseBlock 2 n
  | .erase4 => eraseBlock 4 n
  | .erase8 => eraseBlock 8 n
  | .eraseAll => (0, 63)
  | .write | .none => (n, n)

/-- A record needs commissioning mode on (R169): every section but OPERATING. -/
def needsCommissioning (n : Nat) : Bool := n < 61 || 63 < n

/-- A lock that a record needs clear is set (R169). -/
def lockedRecord (t : Store) (n : Nat) : Bool :=
  if n < 61 then t.plantLock else if n < 64 then t.operLock else false

/-- The records from the first to the last. -/
def recordSpan (r : Nat × Nat) : List Nat := (List.range 66).filter fun n => decide (r.1 ≤ n ∧ n ≤ r.2)

/-- The rights over the records touched (R169): the refusal they give, if any. -/
def rightsRefusal (t : Store) (r : Nat × Nat) : Option ReplyCode :=
  if !t.commissioning && (recordSpan r).any needsCommissioning then some .notCommissioning
  else if (recordSpan r).any (lockedRecord t) then some .storeLocked
  else none

/-- The body length a mode requires of a STORE-ACT (R171). -/
def actLength (m : StoreMode) : Nat :=
  match m with
  | .write => 17
  | .none | .erase1 | .erase2 | .erase4 | .erase8 | .eraseAll => 1

/-- The checks of R171 on a STORE-ACT with this body: the refusal they give, if any. -/
def actRefusal (t : Store) (body : List Byte) : Option ReplyCode :=
  if t.mode = .none then some .noMode
  else if body.length ≠ actLength t.mode ∨ 65 < bodyAt body 0 then some .badFormat
  else
    match rightsRefusal t (touched t.mode (bodyAt body 0)) with
    | some c => some c
    | none => if t.mode = .write ∧ t.isComplete (bodyAt body 0) then some .notErased else none

/-- The operation that a STORE-ACT which passes its checks starts at uptime `now` ms (R172). -/
def actOp (t : Store) (body : List Byte) (now : Nat) : StoreOp :=
  let r := touched t.mode (bodyAt body 0)
  match t.mode with
  | .write => ⟨r.1, r.2, some (body.drop 1), now + Config.writeMs⟩
  | .none | .erase1 | .erase2 | .erase4 | .erase8 | .eraseAll => ⟨r.1, r.2, none, now + Config.eraseMs⟩

/-- STORE-ACT, served while the store is idle (R171, R172): a refusal, or an operation whose completion
places the reply. -/
def serveStoreAct (body : List Byte) (s : State) : Served :=
  if s.busy then (s, none)
  else
    match actRefusal s.store body with
    | some c => refuse c s
    | none => ({ s with store := { s.store with op := some (actOp s.store body s.clock.ms) } }, none)

/-- The body of a STORE-READ reply for record `n` (R173). -/
def readBody (t : Store) (n : Nat) : List Byte :=
  e1 n ++ eBool (t.isComplete n) ++ t.bytesOf n ++ modeBody t

/-- STORE-READ (R173): a record above 65 is refused, and any other read waits while the store is busy. -/
def serveStoreRead (body : List Byte) (s : State) : Served :=
  if 65 < bodyAt body 0 then refuse .badFormat s
  else if s.busy then (s, none)
  else answer .ok (readBody s.store (bodyAt body 0)) s

/-- LOCK (R174), served whether or not the store is busy. -/
def serveLock (body : List Byte) (s : State) : Served :=
  match bodyAt body 0 with
  | 1 | 2 | 3 =>
    let t := { s.store with
      plantLock := s.store.plantLock || (body.getD 0 0).getLsbD 0
      operLock := s.store.operLock || (body.getD 0 0).getLsbD 1 }
    answer .ok (eLocks t) { s with store := t }
  | _ => refuse .badFormat s

/-- The body of the reply to a restart: its uptime second and its reason (R166, R179). -/
def restartBody (s : State) (reason : RestartReason) : List Byte :=
  e4 s.sec ++ e1 (match reason with | .restart => 0 | .leaveCommissioning => 1)

/-- RESTART (R166). -/
def serveRestart (s : State) : Served :=
  if s.busy then (s, none) else answer .ok (restartBody s .restart) (doRestart .restart s)

/-- LEAVE-COMMISSIONING (R175). -/
def serveLeaveCommissioning (s : State) : Served :=
  if s.busy then (s, none)
  else if s.store.commissioning then
    answer .ok (restartBody s .leaveCommissioning)
      (doRestart .leaveCommissioning { s with store := { s.store with commissioning := false } })
  else refuse .notCommissioning s

/-! ### Serving -/

/-- A request that has passed the checks of R158 is served by its kind (section 10.3). -/
def serve (k : RequestKind) (p : Port) (body : List Byte) (s : State) : Served :=
  match k with
  | .order => serveOrder p body s
  | .orderZone => serveOrderZone p body s
  | .release => serveRelease p body s
  | .queryAperture => serveQueryAperture p body s
  | .clearFault => serveClearFault p body s
  | .advisory => serveAdvisory body s
  | .advisoryCancel => serveAdvisoryCancel s
  | .clearConditions => serveClearConditions s
  | .restart => serveRestart s
  | .alarmRestore => serveAlarmRestore s
  | .queryBranch => serveQueryBranch body s
  | .queryWeather => serveQueryWeather s
  | .queryQueue => serveQueryQueue body s
  | .queryZone => serveQueryZone body s
  | .queryTrigger => serveQueryTrigger s
  | .nextNotice => serveNextNotice p s
  | .storeMode => serveStoreMode body s
  | .storeAct => serveStoreAct body s
  | .storeRead => serveStoreRead body s
  | .lock => serveLock body s
  | .leaveCommissioning => serveLeaveCommissioning s

/-- The checks of R158 on a request of a port, in order: the kind it is served as, or the refusal. -/
def checkRequest (p : Port) (kind : Byte) (n : Nat) : RequestKind ⊕ ReplyCode :=
  match kindOf kind with
  | none => .inr .badFormat
  | some k => if !k.allowedOn p then .inr .wrongPort else if k.lengthOk n then .inl k else .inr .badFormat

/-- A taken request is checked and served (R158). -/
def serveRequest (p : Port) (kind : Byte) (body : List Byte) (s : State) : Served :=
  match checkRequest p kind body.length with
  | .inl k => serve k p body s
  | .inr c => refuse c s

end Sys2Proof.Machine
end

