-- ==== Sys2Proof/Machine/PortEngine.lean ====
section
/-! DEFINITION. The client ports: bytes written and read, requests assembled, taken, answered and read
back, held strobes, and the completion of a store operation (R156 to R160, R172), with one command for
every kind of request. -/

namespace Sys2Proof.Machine

open Sys2Proof

/-! ### Reading (R160) -/

/-- What a data read returns where no reply byte is given (R156, R159, R160). -/
def idleByte : Byte := 0xFF

/-- A data read outside PENDING (R160). -/
def PortRec.read (r : PortRec) : PortRec :=
  match r.state, r.replyBuf with
  | .replying, b :: rest =>
    { r with dOut := some b, replyBuf := rest, unread := false
             state := if rest.isEmpty then .idle else .replying }
  | _, _ => { r with dOut := some idleByte }

/-- A strobe meets WAIT (R159). While one is held no other strobe can be given (assumption log 11). -/
def PortRec.hold (r : PortRec) (x : Strobe) : PortRec :=
  match r.held with
  | none => { r with held := some x }
  | some _ => r

/-- A data read strobe (R156, R159, R160). -/
def readByte (p : Port) (s : State) : State :=
  s.modPort p fun r => if r.state = .pending then r.hold .read else r.read

/-! ### Writing (R157, R160) -/

/-- The gap timer is started or restarted at uptime `now` ms (R157). -/
def PortRec.startGap (r : PortRec) (now : Nat) : PortRec := { r with gapTimer := some (now + Config.portGapMs) }

/-- A byte starts a new request as its kind byte; in REPLYING it first discards the rest of the reply and
sets RDISC (R157, R160). -/
def PortRec.begin (r : PortRec) (now : Nat) (b : Byte) : PortRec :=
  ({ r with state := .assembling, reqBuf := [b], discarded := false, replyBuf := [], unread := false
            rdisc := r.rdisc || decide (r.state = PortState.replying) }).startGap now

/-- A byte is added to the request being assembled, or dropped while it is marked discarded (R157). -/
def PortRec.append (r : PortRec) (now : Nat) (b : Byte) : PortRec :=
  let r := r.startGap now
  if r.discarded then r
  else if r.reqBuf.length = 1 ∧ 30 < b.toNat then { r with reqBuf := [], frm := true, discarded := true }
  else { r with reqBuf := r.reqBuf ++ [b] }

/-- The request in the buffer is complete (R157). -/
def requestComplete : List Byte → Bool
  | _ :: n :: body => body.length = n.toNat
  | _ => false

/-- The taking of a request at its port: the gap timer stops, OVR, FRM and RDISC move to the reply header,
and the port enters PENDING (R157, R158). -/
def PortRec.take (r : PortRec) : PortRec :=
  { r with state := .pending, gapTimer := none, header := ⟨r.ovr, r.frm, r.rdisc⟩
           ovr := false, frm := false, rdisc := false }

/-! ### Placing a reply (R158, R179) -/

/-- The reply header and body (R179). -/
def replyBytes (kind : Byte) (h : HeaderFlags) (r : Reply) : List Byte :=
  [kind, r.code.byte, BitVec.ofNat 8 (bitsByte [h.ovr, h.frm, h.rdisc, r.nlost]),
    BitVec.ofNat 8 r.body.length] ++ r.body

/-- The reply is placed: the request buffer is emptied, and the port enters REPLYING with no byte read
(R158). -/
def PortRec.place (r : PortRec) (kind : Byte) (x : Reply) : PortRec :=
  { r with state := .replying, reqBuf := [], header := ⟨false, false, false⟩
           replyBuf := replyBytes kind r.header x, unread := true }

/-- A strobe held under WAIT is completed as a strobe in REPLYING, at uptime `now` ms (R159). -/
def PortRec.release (r : PortRec) (now : Nat) : PortRec :=
  match r.held with
  | none => r
  | some .read => { r with held := none }.read
  | some (.write b) => { r with held := none }.begin now b

/-- A served request's reply is placed at port `p` and WAIT falls; a request not yet answered stays in
PENDING (R158, R159). -/
def placeReply (p : Port) (kind : Byte) (x : Served) : State :=
  match x with
  | (s, some reply) => s.modPort p fun r => (r.place kind reply).release s.clock.ms
  | (s, none) => s

/-- The request in port `p`'s buffer is checked, served and answered (R158). -/
def servePending (p : Port) (s : State) : State :=
  match (s.port p).reqBuf with
  | kind :: _ :: body => placeReply p kind (serveRequest p kind body s)
  | _ => s

/-- A complete request is taken and, where nothing keeps it waiting, served and answered in the same
event (R158). -/
def takeRequest (p : Port) (s : State) : State := servePending p (s.modPort p PortRec.take)

/-- A byte is written in ASSEMBLING (R157). -/
def assemble (p : Port) (b : Byte) (s : State) : State :=
  let s := s.modPort p fun r => r.append s.clock.ms b
  if requestComplete (s.port p).reqBuf then takeRequest p s else s

/-- A write strobe's byte reaches the port (R156, R157, R159, R160). -/
def writeByte (p : Port) (b : Byte) (s : State) : State :=
  match (s.port p).state with
  | .idle | .replying => s.modPort p fun r => r.begin s.clock.ms b
  | .assembling => assemble p b s
  | .pending => s.modPort p fun r => r.hold (.write b)

/-! ### Commands: strobes and timers -/

/-- REQUEST_BYTE_WRITE (R156, R157): a strobe with CS_n high is not seen. -/
def execRequestByteWrite (p : Port) (csN : Bool) (b : Byte) (s : State) : Host.Outcome State Fault Refusal :=
  .next (if csN then s else writeByte p b s)

/-- STATUS_WRITE (R156): ignored in every port state. -/
def execStatusWrite (_p : Port) (_csN : Bool) (_b : Byte) (s : State) : Host.Outcome State Fault Refusal :=
  .next s

/-- REPLY_BYTE_READ (R156, R160): a strobe with CS_n high is not seen. -/
def execReplyByteRead (p : Port) (csN : Bool) (s : State) : Host.Outcome State Fault Refusal :=
  .next (if csN then s else readByte p s)

/-- WAIT_HOLD_OFF (R159): in PENDING the strobe is held. Outside PENDING there is no hold-off
(assumption log 11). -/
def execWaitHoldOff (p : Port) (x : Strobe) (s : State) : Host.Outcome State Fault Refusal :=
  .next (if (s.port p).state = .pending then s.modPort p fun r => r.hold x else s)

/-- A held strobe ends while WAIT is asserted (R159): a write's byte is dropped, a read returns 0xFF, and
OVR is set. -/
def PortRec.endHeld (r : PortRec) : PortRec :=
  match r.held with
  | none => r
  | some .read => { r with held := none, ovr := true, dOut := some idleByte }
  | some (.write _) => { r with held := none, ovr := true }

/-- HELD_STROBE_END (R159). -/
def execHeldStrobeEnd (p : Port) (s : State) : Host.Outcome State Fault Refusal :=
  .next (s.modPort p PortRec.endHeld)

/-- The gap timer expires in ASSEMBLING (R157): the request is discarded, with FRM unless it was already
marked discarded. -/
def PortRec.expireGap (r : PortRec) : PortRec :=
  { r with state := .idle, reqBuf := [], gapTimer := none, discarded := false, frm := r.frm || !r.discarded }

/-- PORT_GAP_TIMER_EXPIRY (R157). -/
def execPortGapTimerExpiry (p : Port) (s : State) : Host.Outcome State Fault Refusal :=
  match (s.port p).state, (s.port p).gapTimer with
  | .assembling, some t => .next ((s.advanceTo t).modPort p PortRec.expireGap)
  | _, _ => .next s

/-! ### Commands: whole requests

A request row is the master writing the request's bytes one after another with no pause (assumption
log 9), each byte as REQUEST_BYTE_WRITE has it. -/

/-- The master writes bytes at port `p`. -/
def writeBytes (p : Port) (bs : List Byte) (s : State) : State := bs.foldl (fun s' b => writeByte p b s') s

/-- The master writes a whole request at port `p`. -/
def submit (p : Port) (kind : Byte) (body : List Byte) (s : State) : Host.Outcome State Fault Refusal :=
  .next (writeBytes p (requestBytes kind body) s)

/-- UNKNOWN_REQUEST (R158). -/
def execUnknownRequest (p : Port) (kind : Byte) (body : List Byte) (s : State) :
    Host.Outcome State Fault Refusal :=
  submit p kind body s

/-- ORDER (R26). -/
def execOrder (p : Port) (index form : Byte) (value : BitVec 16) (s : State) :
    Host.Outcome State Fault Refusal :=
  submit p RequestKind.order.code ([index, form] ++ wordBytes value) s

/-- ORDER_ZONE (R41). -/
def execOrderZone (p : Port) (zone form : Byte) (value : BitVec 16) (s : State) :
    Host.Outcome State Fault Refusal :=
  submit p RequestKind.orderZone.code ([zone, form] ++ wordBytes value) s

/-- RELEASE (R30). -/
def execRelease (p : Port) (index : Byte) (s : State) : Host.Outcome State Fault Refusal :=
  submit p RequestKind.release.code [index] s

/-- QUERY_APERTURE (R21). -/
def execQueryAperture (p : Port) (index : Byte) (s : State) : Host.Outcome State Fault Refusal :=
  submit p RequestKind.queryAperture.code [index] s

/-- CLEAR_FAULT (R14). -/
def execClearFault (p : Port) (index : Byte) (s : State) : Host.Outcome State Fault Refusal :=
  submit p RequestKind.clearFault.code [index] s

/-- ADVISORY (R78). -/
def execAdvisory (p : Port) (offset gust : BitVec 16) (flags : Byte) (s : State) :
    Host.Outcome State Fault Refusal :=
  submit p RequestKind.advisory.code (wordBytes offset ++ wordBytes gust ++ [flags]) s

/-- ADVISORY_CANCEL (R79). -/
def execAdvisoryCancel (p : Port) (s : State) : Host.Outcome State Fault Refusal :=
  submit p RequestKind.advisoryCancel.code [] s

/-- CLEAR_CONDITIONS (R57). -/
def execClearConditions (p : Port) (s : State) : Host.Outcome State Fault Refusal :=
  submit p RequestKind.clearConditions.code [] s

/-- RESTART (R166). -/
def execRestart (p : Port) (s : State) : Host.Outcome State Fault Refusal :=
  submit p RequestKind.restart.code [] s

/-- ALARM_RESTORE (R152). -/
def execAlarmRestore (p : Port) (s : State) : Host.Outcome State Fault Refusal :=
  submit p RequestKind.alarmRestore.code [] s

/-- QUERY_BRANCH (R110). -/
def execQueryBranch (p : Port) (code : Byte) (s : State) : Host.Outcome State Fault Refusal :=
  submit p RequestKind.queryBranch.code [code] s

/-- QUERY_WEATHER (R91). -/
def execQueryWeather (p : Port) (s : State) : Host.Outcome State Fault Refusal :=
  submit p RequestKind.queryWeather.code [] s

/-- QUERY_QUEUE (R90). -/
def execQueryQueue (p : Port) (first : Byte) (s : State) : Host.Outcome State Fault Refusal :=
  submit p RequestKind.queryQueue.code [first] s

/-- QUERY_ZONE (R42). -/
def execQueryZone (p : Port) (zone : Byte) (s : State) : Host.Outcome State Fault Refusal :=
  submit p RequestKind.queryZone.code [zone] s

/-- QUERY_TRIGGER (R83). -/
def execQueryTrigger (p : Port) (s : State) : Host.Outcome State Fault Refusal :=
  submit p RequestKind.queryTrigger.code [] s

/-- NEXT_NOTICE (R164). -/
def execNextNotice (p : Port) (s : State) : Host.Outcome State Fault Refusal :=
  submit p RequestKind.nextNotice.code [] s

/-- STORE_MODE (R170). -/
def execStoreMode (p : Port) (mode : Byte) (s : State) : Host.Outcome State Fault Refusal :=
  submit p RequestKind.storeMode.code [mode] s

/-- STORE_ACT (R171). -/
def execStoreAct (p : Port) (record : Byte) (data : Option (List Byte)) (s : State) :
    Host.Outcome State Fault Refusal :=
  submit p RequestKind.storeAct.code (record :: data.getD []) s

/-- STORE_READ (R173). -/
def execStoreRead (p : Port) (record : Byte) (s : State) : Host.Outcome State Fault Refusal :=
  submit p RequestKind.storeRead.code [record] s

/-- LOCK (R174). -/
def execLock (p : Port) (code : Byte) (s : State) : Host.Outcome State Fault Refusal :=
  submit p RequestKind.lock.code [code] s

/-- LEAVE_COMMISSIONING (R175). -/
def execLeaveCommissioning (p : Port) (s : State) : Host.Outcome State Fault Refusal :=
  submit p RequestKind.leaveCommissioning.code [] s

/-! ### The completion of a store operation (R172) -/

/-- The reply to the STORE-ACT that started operation `op` (R172): OK, with the mode and the first and last
records touched. -/
def actReply (t : Store) (op : StoreOp) : Reply := ⟨.ok, e1 t.mode.code ++ e1 op.first ++ e1 op.last, false⟩

/-- Port S is in PENDING on a STORE-ACT. -/
def actPending (s : State) : Bool :=
  (s.port .S).state = .pending && (s.port .S).reqBuf.head? == some RequestKind.storeAct.code

/-- Step 3 of R172: the STORE-ACT that started `op` is answered. -/
def answerAct (op : StoreOp) (s : State) : State :=
  if actPending s then placeReply .S RequestKind.storeAct.code (s, some (actReply s.store op)) else s

/-- Step 4 of R172: a request that waited in PENDING is served. -/
def serveWaiting (s : State) (p : Port) : State :=
  if (s.port p).state = .pending then servePending p s else s

/-- The completion of operation `op` (R172): the records, idle, the reply, then the waiting requests. -/
def completeStore (op : StoreOp) (s : State) : State :=
  allPorts.foldl serveWaiting (answerAct op { s with store := s.store.finishOp })

/-- STORE_OPERATION_COMPLETE (R172). While the store is idle there is no operation to complete (assumption
log 4). -/
def execStoreOperationComplete (s : State) : Host.Outcome State Fault Refusal :=
  match s.store.op with
  | some op => .next (completeStore op (s.advanceTo op.due))
  | none => .next s

end Sys2Proof.Machine
end

