-- ==== Sys2Proof/Machine/Timers.lean ====
section
/-! DEFINITION. The expiries of the named timers of the Weather Supervisor, the Order Resolver, the
Branch Admission Unit, the Motion Monitor, the Zone Table and the Link Controller.

An expiry command of a timer that is not running is an expiry that does not occur: nothing changes
(assumption log 4). Otherwise the uptime stands at the expiry or later (assumption log 1). -/

namespace Sys2Proof.Machine

open Sys2Proof

/-- HOLD_TIMER_EXPIRY (R76). -/
def execHoldTimerExpiry (s : State) : Host.Outcome State Fault Refusal :=
  match s.sup.holdTimer with
  | some t => .next (event endHolding (s.advanceTo (t * 1000)))
  | none => .next s

/-- ADVISORY_EXPIRY (R79). -/
def execAdvisoryExpiry (s : State) : Host.Outcome State Fault Refusal :=
  match s.sup.advisory with
  | some d => .next (changeAdvisory none (s.advanceTo (d.expiry * 1000)))
  | none => .next s

/-- The ROOM slot of an aperture with its expiry time, while its room expiry timer runs (R34). -/
def roomTimer (s : State) (i : ApId) : Option (Slot × Nat) :=
  match (s.ap i).slate.room with
  | some x => x.expiry.map fun e => (x, e)
  | none => none

/-- ROOM_EXPIRY (R35). -/
def execRoomExpiry (i : ApId) (s : State) : Host.Outcome State Fault Refusal :=
  match roomTimer s i with
  | some (x, e) => .next (event (expireRoom i x e) (s.advanceTo (e * 100)))
  | none => .next s

/-- QUIET_TIMER_EXPIRY (R98). -/
def execQuietTimerExpiry (b : Branch) (s : State) : Host.Outcome State Fault Refusal :=
  match (s.branch b).quiet with
  | some t =>
    .next (event (fun s => (s.modBranch b fun r => { r with quiet := none }).owe b) (s.advanceTo (t * 100)))
  | none => .next s

/-- BRANCH_GAP_TIMER_EXPIRY (R103). -/
def execBranchGapTimerExpiry (b : Branch) (s : State) : Host.Outcome State Fault Refusal :=
  match (s.branch b).gapTimer with
  | some t =>
    .next (event (fun s => (s.modBranch b fun r => { r with gapTimer := none }).owe b) (s.advanceTo (t * 100)))
  | none => .next s

/-- A STARTING aperture whose inrush window is over enters RUNNING (R114). -/
def toRunning (i : ApId) (s : State) : State :=
  enter i .running (fun a => { a with mon := { a.mon with inrush := none } }) s

/-- INRUSH_TIMER_EXPIRY (R114). -/
def execInrushTimerExpiry (i : ApId) (s : State) : Host.Outcome State Fault Refusal :=
  match (s.ap i).state, (s.ap i).mon.inrush with
  | .starting, some t => .next (event (toRunning i) (s.advanceTo (t * 100)))
  | _, _ => .next s

/-- The travel timer of an aperture, while it runs: in STARTING and RUNNING (R112). -/
def travelTimer (s : State) (i : ApId) : Option Nat :=
  if (s.ap i).state.driving then (s.ap i).mon.travel else none

/-- TRAVEL_TIMER_EXPIRY (R115, R117). -/
def execTravelTimerExpiry (i : ApId) (s : State) : Host.Outcome State Fault Refusal :=
  match travelTimer s i with
  | some t => .next (event (halt i .timeout) (s.advanceTo (t * 100)))
  | none => .next s

/-- SETTLE_TIMER_EXPIRY (R120): it runs an admission attempt whether or not the aperture rejoins the list. -/
def execSettleTimerExpiry (i : ApId) (s : State) : Host.Outcome State Fault Refusal :=
  match (s.ap i).state, (s.ap i).mon.settle with
  | .settling, some t =>
    .next (event (fun s => (settled i s).owe (s.ap i).fix.branch) (s.advanceTo (t * 100)))
  | _, _ => .next s

/-- RETRY_TIMER_EXPIRY (R123). -/
def execRetryTimerExpiry (i : ApId) (s : State) : Host.Outcome State Fault Refusal :=
  match (s.ap i).state, (s.ap i).mon.retry with
  | .retryWait, some t => .next (event (toRest i) (s.advanceTo (t * 100)))
  | _, _ => .next s

/-- At the expiry of a zone's warn timer the warning ends in DONE or IDLE, and an attempt is owed on every
branch whose wait list holds an entry of the zone (R99, R127). -/
def endWarning (z : ZoneId) (s : State) : State :=
  let s := s.setWarning z ⟨if s.zoneCloses z then .done else .idle, none⟩
  allAps.foldl (fun s' i =>
    if (s.ap i).state = .waiting ∧ s.governing i = some z then s'.owe (s.ap i).fix.branch else s') s

/-- WARN_TIMER_EXPIRY (R127). -/
def execWarnTimerExpiry (z : ZoneId) (s : State) : Host.Outcome State Fault Refusal :=
  match (s.zones.warnings[z]).timer with
  | some t => .next (event (endWarning z) (s.advanceTo (t * 100)))
  | none => .next s

/-- The node timeout since last contact (R141): the current that an OFFLINE aperture still holds is released,
a STOPPING aperture leaves STOPPING, and in any other case nothing happens. -/
def nodeTimeout (i : ApId) (s : State) : State :=
  let s := s.modAp i fun a => { a with node := { a.node with contactTimer := none } }
  match (s.ap i).state with
  | .offline => if 0 < (s.ap i).contribution then releaseHeld i s else s
  | .stopping => confirmStop i false s
  | _ => s

/-- CONTACT_TIMER_EXPIRY (R141). -/
def execContactTimerExpiry (i : ApId) (s : State) : Host.Outcome State Fault Refusal :=
  match (s.ap i).node.contactTimer with
  | some t => .next (event (nodeTimeout i) (s.advanceTo (t * 100)))
  | none => .next s

end Sys2Proof.Machine
end

