-- ==== Sys2Proof/Machine/Dispatch.lean ====
section
/-! DEFINITION. The dispatch of a command to its meaning, one arm for each row of the opcode table. -/

namespace Sys2Proof.Machine

open Sys2Proof

/-- The effect of a command on everything but the queue of waiting commands. -/
def exec (i : Instr) (s : State) : Host.Outcome State Fault Refusal :=
  match i with
  | .por cmsn => Sys2Proof.Machine.execPor cmsn s
  | .pinReset cmsn => Sys2Proof.Machine.execPinReset cmsn s
  | .anemoPulse => Sys2Proof.Machine.execAnemoPulse s
  | .secondBoundary vane rain rainok => Sys2Proof.Machine.execSecondBoundary vane rain rainok s
  | .holdTimerExpiry => Sys2Proof.Machine.execHoldTimerExpiry s
  | .advisoryExpiry => Sys2Proof.Machine.execAdvisoryExpiry s
  | .roomExpiry a => Sys2Proof.Machine.execRoomExpiry a s
  | .quietTimerExpiry b => Sys2Proof.Machine.execQuietTimerExpiry b s
  | .branchGapTimerExpiry b => Sys2Proof.Machine.execBranchGapTimerExpiry b s
  | .inrushTimerExpiry a => Sys2Proof.Machine.execInrushTimerExpiry a s
  | .travelTimerExpiry a => Sys2Proof.Machine.execTravelTimerExpiry a s
  | .settleTimerExpiry a => Sys2Proof.Machine.execSettleTimerExpiry a s
  | .retryTimerExpiry a => Sys2Proof.Machine.execRetryTimerExpiry a s
  | .warnTimerExpiry z => Sys2Proof.Machine.execWarnTimerExpiry z s
  | .contactTimerExpiry a => Sys2Proof.Machine.execContactTimerExpiry a s
  | .linkSlotStart => Sys2Proof.Machine.execLinkSlotStart s
  | .exchangeCompleted reply => Sys2Proof.Machine.execExchangeCompleted reply s
  | .alarmLineChange => Sys2Proof.Machine.execAlarmLineChange s
  | .debounceTimerExpiry => Sys2Proof.Machine.execDebounceTimerExpiry s
  | .requestByteWrite p csN b => Sys2Proof.Machine.execRequestByteWrite p csN b s
  | .unknownRequest p kind body => Sys2Proof.Machine.execUnknownRequest p kind body s
  | .statusWrite p csN b => Sys2Proof.Machine.execStatusWrite p csN b s
  | .replyByteRead p csN => Sys2Proof.Machine.execReplyByteRead p csN s
  | .waitHoldOff p strobe => Sys2Proof.Machine.execWaitHoldOff p strobe s
  | .heldStrobeEnd p => Sys2Proof.Machine.execHeldStrobeEnd p s
  | .portGapTimerExpiry p => Sys2Proof.Machine.execPortGapTimerExpiry p s
  | .order p index form value => Sys2Proof.Machine.execOrder p index form value s
  | .orderZone p zone form value => Sys2Proof.Machine.execOrderZone p zone form value s
  | .release p index => Sys2Proof.Machine.execRelease p index s
  | .queryAperture p index => Sys2Proof.Machine.execQueryAperture p index s
  | .clearFault p index => Sys2Proof.Machine.execClearFault p index s
  | .advisory p offset gust flags => Sys2Proof.Machine.execAdvisory p offset gust flags s
  | .advisoryCancel p => Sys2Proof.Machine.execAdvisoryCancel p s
  | .clearConditions p => Sys2Proof.Machine.execClearConditions p s
  | .restart p => Sys2Proof.Machine.execRestart p s
  | .alarmRestore p => Sys2Proof.Machine.execAlarmRestore p s
  | .queryBranch p code => Sys2Proof.Machine.execQueryBranch p code s
  | .queryWeather p => Sys2Proof.Machine.execQueryWeather p s
  | .queryQueue p first => Sys2Proof.Machine.execQueryQueue p first s
  | .queryZone p zone => Sys2Proof.Machine.execQueryZone p zone s
  | .queryTrigger p => Sys2Proof.Machine.execQueryTrigger p s
  | .nextNotice p => Sys2Proof.Machine.execNextNotice p s
  | .storeMode p mode => Sys2Proof.Machine.execStoreMode p mode s
  | .storeAct p record data => Sys2Proof.Machine.execStoreAct p record data s
  | .storeRead p record => Sys2Proof.Machine.execStoreRead p record s
  | .lock p code => Sys2Proof.Machine.execLock p code s
  | .leaveCommissioning p => Sys2Proof.Machine.execLeaveCommissioning p s
  | .storeOperationComplete => Sys2Proof.Machine.execStoreOperationComplete s

end Sys2Proof.Machine
end

