-- ==== Sys2Proof/Machine/Step.lean ====
section
/-! DEFINITION. One step: the command at the front of the queue takes effect; with no command waiting, a
millisecond of uptime passes. -/

namespace Sys2Proof.Machine

open Sys2Proof

/-- With no command waiting one millisecond of uptime passes and nothing else happens (assumption log 2). -/
def State.tick (s : State) : State := { s with clock.ms := s.clock.ms + 1 }

/-- One step (assumption logs 2 and 3). -/
def step (s : State) : Host.Outcome State Fault Refusal :=
  match s.pending with
  | c :: rest => exec c { s with pending := rest }
  | [] => .next s.tick

/-- The state with the command that a word spells at the front of its queue. -/
def State.withFetchWord (s : State) (nbits w : Nat) : State :=
  match decodeTableWord nbits w with
  | some c => { s with pending := c :: s.pending }
  | none => s

end Sys2Proof.Machine
end

