-- ==== Sys2Proof/Safety.lean ====
section
/-! DEFINITION. What counts as a safe run, and the terms in which statements about the EW48 are made: the
invariants of the part, what an event at the apertures leaves alone, and how a request is answered. -/

namespace Sys2Proof.Machine

open Sys2Proof

/-! ### Invariants -/

/-- Every port's notice queue holds at most 16 notices (R162). -/
def State.NoticesBounded (s : State) : Prop := ∀ p, (s.port p).notices.length ≤ Config.noticeCapacity

/-- The committed current of every branch is at most its limit (R94), and no aperture's run current exceeds
its inrush current (R6), which keeps the first through an admission. -/
def State.CurrentBounded (s : State) : Prop :=
  (∀ b, s.committed b ≤ (s.branch b).limit) ∧ ∀ i, (s.ap i).fix.run ≤ (s.ap i).fix.inrush

/-- A slot holds an opening target. -/
def opens (x : Option Slot) : Bool :=
  match x with
  | some x => x.target.opening
  | none => false

/-- While an aperture's WEATHER slot is present, neither its SUPERVISORY nor its ROOM slot holds a numeric
target above 0 (R32). -/
def State.WeatherHolds (s : State) : Prop :=
  ∀ i, (s.ap i).slate.weather.isSome →
    opens (s.ap i).slate.supervisory = false ∧ opens (s.ap i).slate.room = false

/-- A WEATHER slot stands in ACTIVE and HOLDING alone, and its cause and deadline are kept exactly while it stands;
the hold timer runs exactly in HOLDING (R73, R76, R82). -/
def State.ClaimsHold (s : State) : Prop :=
  (s.sup.weather = .clear ∨ s.sup.weather = .watch → ∀ i, (s.ap i).slate.weather = none) ∧
    (s.sup.holdTimer.isSome ↔ s.sup.weather = .holding) ∧
    ∀ i, (s.ap i).claim.isSome ↔ (s.ap i).slate.weather.isSome

/-- Every aperture's effective target and class are those of its highest-ranked present slot (R9, R24). -/
def State.TargetsDerived (s : State) : Prop :=
  ∀ i, (s.ap i).effTarget = (s.ap i).slate.top.map (fun x => x.2.target) ∧
    (s.ap i).effClass = (s.ap i).slate.top.map (fun x => x.1)

/-- The Closure Queue holds an entry for exactly the apertures that are members (R85). -/
def State.QueueMatches (s : State) : Prop := ∀ i, s.queued i = (s.ap i).member

/-- The position of an aperture is known exactly outside ABSENT, UNKNOWN and OFFLINE (section 1.7). -/
def State.PositionsKnown (s : State) : Prop :=
  ∀ i, (s.ap i).position.isNone ↔
    (s.ap i).state = .absent ∨ (s.ap i).state = .unknown ∨ (s.ap i).state = .offline

/-- The HALT list, the MOVE list and the priority POLL list hold at most one entry per aperture (R137, R138),
and the run count stays in 0..3 (R133). -/
def State.ListsSingle (s : State) : Prop :=
  s.link.haltList.Nodup ∧ (s.link.moveList.map (·.1)).Nodup ∧ s.link.priority.Nodup ∧ s.link.run ≤ 3

/-- A strobe is held under WAIT only in PENDING (R156, R159). -/
def State.WaitOnlyPending (s : State) : Prop := ∀ p, (s.port p).wait → (s.port p).state = .pending

/-- The Gust Ring holds at most 120 means (R48). -/
def State.RingBounded (s : State) : Prop := s.fe.ring.length ≤ 120

/-- The Closure Queue holds no aperture twice and stands in the order of its keys (R85, R86), and a branch's late
flag is set exactly while one of its entries is LATE (R109). -/
def State.QueueOrdered (s : State) : Prop :=
  (s.sup.queue.map (·.ap)).Nodup ∧ s.sup.queue.Pairwise (fun x y => x.lt y = true) ∧
    ∀ b, (s.branch b).late = (s.entriesOf b).any (·.late)

/-- Between events no admission attempt is owed, and every reservation stands: its entry waits on its branch,
eligible, in class LIFE or WEATHER (R101, R107, assumption logs 12 and 39). -/
def State.Settled (s : State) : Prop :=
  s.owed = [] ∧ ∀ b i, (s.branch b).reservation = some i →
    ∃ e ∈ waitList s b, e.ap = i ∧ (e.cls = .life ∨ e.cls = .weather) ∧ standingOf s b e = .eligible

/-- Aperture `i` calls for a warning in zone `z` (R126). -/
def CallsWarning (s : State) (z : ZoneId) (i : ApId) : Prop :=
  s.governing i = some z ∧ (s.ap i).state = .waiting ∧ 0 < (s.zones.desc[z]).warn ∧
    ∃ m, (s.ap i).motion = some m ∧ m.dir = .closing ∧ m.purpose = .normal ∧
      (m.cls = .weather ∨ m.cls = .supervisory)

/-- Aperture `i` is a closing of zone `z` (R126). -/
def ClosingOf (s : State) (z : ZoneId) (i : ApId) : Prop :=
  s.governing i = some z ∧ ((s.ap i).state = .waiting ∨ (s.ap i).state = .starting ∨
    (s.ap i).state = .running ∨ (s.ap i).state = .stopping) ∧
    ∃ m, (s.ap i).motion = some m ∧ m.dir = .closing

/-- The warn timer of a zone runs exactly in RUNNING, a warning stands in DONE only while the zone has a closing,
a zone without warn time or installed aperture has no warning, and no aperture calls for a warning in a zone whose
warning is IDLE (R126, R127). -/
def State.WarningsHold (s : State) : Prop :=
  ∀ z : ZoneId,
    ((s.zones.warnings[z]).state = .running ↔ (s.zones.warnings[z]).timer.isSome) ∧
    ((s.zones.warnings[z]).state = .done → ∃ i, ClosingOf s z i) ∧
    ((s.zones.warnings[z]).state ≠ .idle → 0 < (s.zones.desc[z]).warn ∧
      ∃ i, (s.ap i).present ∧ s.governing i = some z) ∧
    ∀ i, CallsWarning s z i → (s.zones.warnings[z]).state ≠ .idle

/-- A run is safe in a state when no branch is over-committed, no master's opening stands under the
weather, and the part's tables are consistent. -/
def State.Safe (s : State) : Prop :=
  s.CurrentBounded ∧ s.WeatherHolds ∧ s.TargetsDerived ∧ s.NoticesBounded ∧ s.store.wf

/-! ### What an event leaves alone -/

/-- What the motion of an aperture cannot change: its record without the motion state and the fields that
belong to it. -/
def Aperture.keep (a : Aperture) : Aperture :=
  { a with
    state := .absent, motion := none, startTime := none, mon := .stopped, fault := none, stallCount := 0
    waitSince := 0, held := none }

/-- The record of an aperture without motion and position. -/
def Aperture.orders (a : Aperture) : Aperture := { a.keep with position := none }

/-- The record of an aperture without motion and effective target. -/
def Aperture.slates (a : Aperture) : Aperture := { a.keep with effTarget := none, effClass := none }

/-- The record of an aperture without motion and orders: static half, position, order tag, node record and
exposure figures. -/
def Aperture.stands (a : Aperture) : Aperture :=
  { a.keep with slate := .empty, effTarget := none, effClass := none, claim := none }

/-- The record of an aperture without motion, orders and position. -/
def Aperture.plant (a : Aperture) : Aperture := { a.stands with position := none }

/-- The record of an aperture without motion, position and what the link teaches: static half, orders and
exposure figures. -/
def Aperture.ordered (a : Aperture) : Aperture := { a.orders with orderTag := none, node := .reset }

/-- What an event elsewhere can do to a port: notices join its queue, or are lost with NLOST set (R162). -/
structure PortKept (r t : PortRec) : Prop where
  same   : t = { r with notices := t.notices, nlost := t.nlost }
  queued : r.notices <+: t.notices
  bound  : r.notices.length ≤ Config.noticeCapacity → t.notices.length ≤ Config.noticeCapacity
  lost   : r.nlost = true → t.nlost = true

/-- Between `s` and `t` nothing changed but motions, branch and queue bookkeeping, zone warnings, the order
lists, notices and the counter of the free values, and of every aperture's record nothing that `k` keeps. -/
structure Frame (k : Aperture → Aperture) (s t : State) : Prop where
  clock        : t.clock = s.clock
  pins         : t.pins = s.pins
  fe           : t.fe = s.fe
  fire         : t.fire = s.fire
  store        : t.store = s.store
  roomLifetime : t.roomLifetime = s.roomLifetime
  loadEnd      : t.loadEnd = s.loadEnd
  freeDraws    : s.freeDraws ≤ t.freeDraws
  pending      : t.pending = s.pending
  desc         : t.zones.desc = s.zones.desc
  base         : t.zones.base = s.zones.base
  sup          : t.sup = { s.sup with queue := t.sup.queue, changeCount := t.sup.changeCount }
  limit        : ∀ b, (t.branch b).limit = (s.branch b).limit
  window       : ∀ b, (t.branch b).window = (s.branch b).window
  gap          : ∀ b, (t.branch b).gap = (s.branch b).gap
  ports        : ∀ p, PortKept (s.port p) (t.port p)
  aps          : ∀ i, k (t.ap i) = k (s.ap i)

/-! ### Orders of the lists -/

/-- Class `c` goes before class `d`: LIFE, WEATHER, SUPERVISORY, ROOM (R22, R97). -/
def Outranks (c d : OrderClass) : Prop :=
  let order := [OrderClass.life, .weather, .supervisory, .room]
  order.idxOf c < order.idxOf d

/-- Wait-list entry `x` stands before `y` (R97): by class; within WEATHER by the place in the Closure Queue, entries
without one behind; otherwise by order time and index. -/
def WaitsBefore (x y : WaitEntry) : Prop :=
  Outranks x.cls y.cls ∨
  x.cls = y.cls ∧
    ((x.cls = .weather ∧ ∃ p q, x.place = some p ∧ y.place = some q ∧ p < q) ∨
      (x.cls = .weather ∧ x.place.isSome ∧ y.place = none) ∨
      ((x.cls ≠ .weather ∨ x.place = none ∧ y.place = none) ∧
        (x.orderTime < y.orderTime ∨ x.orderTime = y.orderTime ∧ x.ap < y.ap)))

/-- Entry `e` of branch `b` is eligible, and not unfit (R98 to R100, R104): the quiet time is over, it does not wait
for its zone's warning, the branch's lateness does not hold it back, and its inrush current is within the limit. -/
def Eligible (s : State) (b : Branch) (e : WaitEntry) : Prop :=
  (s.branch b).quiet = none ∧
  ¬ ((e.cls = .weather ∨ e.cls = .supervisory) ∧ e.dir = .closing ∧ e.purpose = .normal ∧
    ∃ z, s.governing e.ap = some z ∧ 0 < (s.zones.desc[z]).warn ∧ (s.zones.warnings[z]).state ≠ .done) ∧
  ¬ ((s.branch b).late = true ∧ (e.cls = .supervisory ∨ e.cls = .room) ∧ e.dir = .opening ∧
    e.purpose = .normal) ∧
  (s.ap e.ap).fix.inrush ≤ (s.branch b).limit

/-- Aperture `i` is a candidate for shedding for an entry of class `c` on branch `b`: STARTING or RUNNING there,
with a motion of a lower class (R105). -/
def Sheddable (s : State) (b : Branch) (c : OrderClass) (i : ApId) : Prop :=
  (s.ap i).fix.branch = b ∧ ((s.ap i).state = .starting ∨ (s.ap i).state = .running) ∧
    ∃ m, (s.ap i).motion = some m ∧ Outranks c m.cls

/-- Shedding candidate `i` is taken before `j`: lowest class first, then latest start time, then higher index
(R105). -/
def ShedBefore (s : State) (i j : ApId) : Prop :=
  ∀ m n, (s.ap i).motion = some m → (s.ap j).motion = some n →
    let start := fun k => (s.ap k).startTime.getD 0
    Outranks n.cls m.cls ∨ m.cls = n.cls ∧ (start j < start i ∨ start i = start j ∧ j < i)

/-! ### Admission -/

/-- Aperture `i` of branch `b` was started in an attempt on `s` that led to `t` (R102, R103, R113): it is STARTING with
its motion, its inrush current committed, the inrush timer running for the branch's window and the travel timer stopped;
start times and gap timer are those of this uptime (a gap of 0 leaves no timer, assumption log 40); a MOVE to the
motion's target is listed, and no reservation for it stands. -/
def Started (b : Branch) (i : ApId) (s t : State) : Prop :=
  (t.ap i).state = .starting ∧ (t.ap i).motion = (s.ap i).motion ∧
    (t.ap i).contribution = (s.ap i).fix.inrush ∧
    (t.ap i).mon = { Monitor.stopped with inrush := some (s.ds + (s.branch b).window) } ∧
    (t.ap i).startTime = some s.ds ∧ (t.branch b).lastStart = some s.ds ∧
    (t.branch b).gapTimer = (if (s.branch b).gap = 0 then none else some (s.ds + (s.branch b).gap)) ∧
    (∀ m, (s.ap i).motion = some m → (i, m.target) ∈ t.link.moveList) ∧
    (t.branch b).reservation ≠ some i

/-- The apertures of branch `b` are the same in both states. -/
def BranchStands (b : Branch) (s t : State) : Prop := ∀ j, (s.ap j).fix.branch = b → t.ap j = s.ap j

/-- Between `s` and `t` apertures were only admitted, or halted for a shedding. -/
def OnlyAttempts (s t : State) : Prop :=
  ∀ j, (t.ap j).state = (s.ap j).state ∨
    ((s.ap j).state = .waiting ∧ (t.ap j).state = .starting) ∨
    ((s.ap j).state.driving = true ∧ (t.ap j).state = .stopping ∧ (t.ap j).mon.haltCause = some .shed)

/-- What the attempt owed on branch `b` in state `s` leaves in `t` where no reservation stands and the first
eligible entry is `e` (R102, R103, R105). Where it fits it is started, if the gap has passed. Where it is a short
LIFE or WEATHER entry for which enough can be shed, its victims are halted and the branch is reserved for it until
it starts. Otherwise the first eligible entry that fits is started, if the gap has passed and no eligible entry
of a higher class stands short; and where nothing is to be started the branch stands. -/
def HeadAttempted (b : Branch) (e : WaitEntry) (s t : State) : Prop :=
  (fits s b e = true → gapPassed s b = true → Started b e.ap s t) ∧
  (fits s b e = true → gapPassed s b = false → BranchStands b s t) ∧
  (fits s b e = false → e.cls = .life ∨ e.cls = .weather → ∀ vs, victims s b e = some vs →
    (∀ v ∈ vs, (t.ap v).state = .stopping ∧ v ∈ t.link.haltList) ∧
      ((t.branch b).reservation = some e.ap ∨ Started b e.ap s t)) ∧
  (fits s b e = false → (e.cls ≠ .life ∧ e.cls ≠ .weather) ∨ victims s b e = none →
    ((∀ x ∈ candidatesOf s b, fits s b x = false) → BranchStands b s t) ∧
    ∀ x, (candidatesOf s b).find? (fits s b) = some x →
      let passed := ∃ y ∈ candidatesOf s b, fits s b y = false ∧ y.cls.rank < x.cls.rank
      (passed ∨ gapPassed s b = false → BranchStands b s t) ∧
      (¬ passed → gapPassed s b = true → Started b x.ap s t))

/-- An attempt ran on branch `b` in state `s` and led to `t` (R101, R102, R105, R107): with no reservation by
its first eligible entry, with one by the reserved entry alone. -/
def AttemptRan (b : Branch) (s t : State) : Prop :=
  OnlyAttempts s t ∧
  ((s.branch b).reservation = none → candidatesOf s b = [] → BranchStands b s t) ∧
  ((s.branch b).reservation = none → ∀ e rest, candidatesOf s b = e :: rest → HeadAttempted b e s t) ∧
  (∀ e, (s.branch b).reservation = some e.ap → e ∈ candidatesOf s b → e.cls = .life ∨ e.cls = .weather →
    (e.cls = .weather → ∀ x ∈ candidatesOf s b, x.cls ≠ .life) →
    (fits s b e = true → gapPassed s b = true → Started b e.ap s t) ∧
    (fits s b e = false ∨ gapPassed s b = false →
      BranchStands b s t ∧ (t.branch b).reservation = some e.ap))

/-- The FIRE-STATE notice of a change of fire state is queued on Port S and Port L where it has room, before
any other notice of the event, the PLAN notices coming last by assumption log 14, with the alarm-origin slots that
stand after the change (R154). -/
def FireAnnounced (old new : FireState) (s t : State) : Prop :=
  ∀ p, p = .S ∨ p = .L → (s.port p).notices.length < 16 →
    (s.port p).notices ++ [⟨t.sec, .fireState old new t.alarmSlots⟩] <+: (t.port p).notices

/-- Between `s` and `t` the notice `n` joined the queue of each of the ports `ps` that lost no notice (R162). -/
def NoticeQueued (ps : List Port) (n : Notice) (s t : State) : Prop :=
  ∀ p ∈ ps, (t.port p).nlost = false ∨ (t.port p).notices.length < 16 →
    ∃ more, (t.port p).notices = (s.port p).notices ++ more ∧ n ∈ more

/-! ### Misses -/

/-- The aperture entered FAULT(TIMEOUT) at the node timeout (R119) and its node has not answered since: its fault
began later than its last contact (R13, R133). -/
def SilentTimeout (a : Aperture) : Prop :=
  a.state = .fault ∧ ∃ t c, a.fault = some ⟨.timeout, t⟩ ∧ a.node.lastContact = some c ∧ c < t

/-- The third miss takes the aperture to OFFLINE: from every state but FAULT, OFFLINE and ABSENT (R18, R140), and,
where the free value of assumption log 56 has it so, from FAULT(TIMEOUT) entered at the node timeout (R119). -/
def LeavesByMiss (a : Aperture) : Prop :=
  (a.state ≠ .fault ∧ a.state ≠ .offline ∧ a.state ≠ .absent) ∨
    (SilentTimeout a ∧ Config.thirdMissEndsTimeout = true)

/-! ### Weather supervision -/

/-- Aperture `i` has the closure cause (R80). -/
def HasCause (t : State) (i : ApId) : Cause → Prop
  | .rain => t.fe.wet = true ∧ (t.ap i).fix.rainExposed = true
  | .wind => (t.ap i).fig.standing = .need
  | .sensor => t.fe.precaution ≠ Cond.none ∧ (t.ap i).fix.failSafe = true
  | .advisory => ∃ d, t.sup.advisory = some d ∧
      ((d.rain = true ∧ (t.ap i).fix.rainExposed = true) ∨ ∃ q, (t.ap i).fig.adv = some (q, true))

/-- Aperture `i` has a closure need (R80). -/
def HasNeed (t : State) (i : ApId) : Prop := ∃ c, HasCause t i c

/-- `c` is the first of RAIN, WIND, SENSOR and ADVISORY that aperture `i` has (R82). -/
def FirstCause (t : State) (i : ApId) (c : Cause) : Prop :=
  HasCause t i c ∧
  match c with
  | .rain => True
  | .wind => ¬ HasCause t i .rain
  | .sensor => ¬ HasCause t i .rain ∧ ¬ HasCause t i .wind
  | .advisory => ¬ HasCause t i .rain ∧ ¬ HasCause t i .wind ∧ ¬ HasCause t i .sensor

/-- `k` is the claim that the update gives aperture `i` (R82): its first cause, and for ADVISORY the arrival less the
guard lead while that is still to come, IMMEDIATE otherwise. -/
def ClaimDerived (t : State) (i : ApId) (k : Claim) : Prop :=
  FirstCause t i k.cause ∧
  (k.cause ≠ .advisory → k.deadline = none) ∧
  (k.cause = .advisory → ∀ d, t.sup.advisory = some d →
    let due := (d.arrival - t.sup.guardLead) * 10
    k.deadline = if t.sup.guardLead ≤ d.arrival ∧ t.ds < due then some due else none)

/-- The exposure update between `s` and `t` has judged the weather state (R73 to R77), with the hold timer started at
the entry to HOLDING, kept in HOLDING and stopped elsewhere. The notice of a change to a state other than ACTIVE
carries an empty cause set (assumption log 28). -/
def WeatherJudged (s t : State) : Prop :=
  let alert := (∃ i, (t.ap i).present ∧ HasNeed t i) ∨ t.fe.precaution ≠ Cond.none
  let high := t.sup.watchGust ≤ t.fe.gust
  let low := t.fe.gust < t.sup.watchGust * 3 / 4
  let held := t.sup.advisory.isSome = true
  let standDown := t.fe.wet = false ∧ t.fe.word.live.rainSensor = false ∧
    (∀ i, (t.ap i).present → (t.ap i).fig.standing = .unlimited ∨ (t.ap i).fig.standing = .clear) ∧
    (∀ i, (t.ap i).present → ¬ HasCause t i .advisory) ∧ t.fe.precaution = Cond.none
  let next := t.sup.weather
  (s.sup.weather = .clear → (alert → next = .active) ∧ (¬ alert → high ∨ held → next = .watch) ∧
    (¬ alert → ¬ (high ∨ held) → next = .clear)) ∧
  (s.sup.weather = .watch → (alert → next = .active) ∧ (¬ alert → low ∧ ¬ held → next = .clear) ∧
    (¬ alert → ¬ (low ∧ ¬ held) → next = .watch)) ∧
  (s.sup.weather = .active → (standDown → next = .holding ∧
      t.sup.holdTimer = some (t.sec + t.sup.holdTime)) ∧ (¬ standDown → next = .active)) ∧
  (s.sup.weather = .holding → (alert → next = .active) ∧
    (¬ alert → next = .holding ∧ t.sup.holdTimer = s.sup.holdTimer)) ∧
  (next ≠ .holding → t.sup.holdTimer = none) ∧
  (next ≠ s.sup.weather → next ≠ .active → NoticeQueued [.S, .L, .K]
    ⟨t.sec, .weatherState s.sup.weather next t.claims ⟨false, false, false, false⟩⟩ s t)

/-- The slate that a claim posted at the uptime of `t` leaves: WEATHER CLOSE, and no opening in SUPERVISORY or ROOM
(R32). -/
def claimedSlate (t : State) (x : Slate) : Slate :=
  { x with
    weather := some ⟨.pos 0, .weather, t.ds, none⟩
    supervisory := if opens x.supervisory then none else x.supervisory
    room := if opens x.room then none else x.room }

/-- The exposure update between `s` and `t` has posted and derived the claims (R32, R81, R82). In ACTIVE an installed
aperture with a need and no WEATHER slot is claimed, its opening SUPERVISORY and ROOM slots cancelled with a notice to
their port; no other slate changes. A claim that stood is derived again while its aperture has a need; without one it
keeps its cause, and its deadline until it has passed. -/
def ClaimsFollowNeeds (s t : State) : Prop :=
  ∀ i,
    let a := s.ap i
    let b := t.ap i
    let claimed := t.sup.weather = .active ∧ a.present ∧ a.slate.weather = none ∧ HasNeed t i
    (¬ claimed → b.slate = a.slate) ∧
    (claimed → b.slate = claimedSlate t a.slate ∧ (∃ k, b.claim = some k ∧ ClaimDerived t i k) ∧
      (∀ x p, a.slate.supervisory = some x → x.target.opening = true → x.origin = .port p →
        NoticeQueued [p] ⟨t.sec, .orderCancelled i .supervisory x.target .weather⟩ s t) ∧
      (∀ x p, a.slate.room = some x → x.target.opening = true → x.origin = .port p →
        NoticeQueued [p] ⟨t.sec, .orderCancelled i .room x.target .weather⟩ s t)) ∧
    (∀ k, a.present → a.slate.weather.isSome → a.claim = some k →
      (HasNeed t i → ∃ k', b.claim = some k' ∧ ClaimDerived t i k') ∧
      (¬ HasNeed t i → b.claim = some { k with deadline := k.deadline.filter fun d => t.ds < d }))

/-! ### What becomes of a motion -/

/-- Aperture `i` has been judged by R9: off target it waits, or was admitted in the same event (R101, assumption
log 12), with the motion of R10; on target it is at REST. -/
def Judged (i : ApId) (t : State) : Prop :=
  let b := t.ap i
  (b.offTarget = true → (b.state = .waiting ∨ b.state = .starting) ∧
    ∀ x p, b.effTarget = some (.pos x) → b.position = some p →
      b.motion = some ⟨x, if x < p then .closing else .opening, b.effClass.getD .room, .normal⟩) ∧
  (b.offTarget = false → b.state = .rest)

/-- Aperture `i` has passed through REST, its earlier motion, timers and fault gone, and has been judged there. -/
def Rested (i : ApId) (t : State) : Prop :=
  Judged i t ∧ (t.ap i).fault = none ∧
    ((t.ap i).offTarget = false → (t.ap i).motion = none ∧ (t.ap i).mon = .stopped)

/-- The moving aperture `i` went on as it was, unless an attempt of the same event shed it (R106). -/
def MotionStands (i : ApId) (s t : State) : Prop :=
  (t.ap i).motion = (s.ap i).motion ∧
    ((t.ap i).state = (s.ap i).state ∨
      (t.ap i).state = .stopping ∧ (t.ap i).mon.haltCause = some .shed)

/-- The motion of aperture `i` was retargeted to `x` and a MOVE to it listed, unless an attempt of the same event
shed it then (R118). -/
def Retargeted (i : ApId) (x : Nat) (s t : State) : Prop :=
  (t.ap i).motion = (s.ap i).motion.map (fun m => { m with target := x }) ∧
    ((t.ap i).state = (s.ap i).state ∧ (i, x) ∈ t.link.moveList ∨
      (t.ap i).state = .stopping ∧ (t.ap i).mon.haltCause = some .shed)

/-- The motion of aperture `i` was halted with cause `c` (R117): its timers stop, a HALT is listed, no MOVE for it
stays listed, the run current stays committed, and the motion field stands. -/
def Halted (i : ApId) (c : HaltCause) (s t : State) : Prop :=
  (t.ap i).state = .stopping ∧ (t.ap i).mon = { Monitor.stopped with haltCause := some c } ∧
    (t.ap i).motion = (s.ap i).motion ∧ (t.ap i).contribution = (s.ap i).fix.run ∧
    i ∈ t.link.haltList ∧ ∀ m ∈ t.link.moveList, m.1 ≠ i

/-- Aperture `i` entered SETTLING with cause `c`, its current released and its timer running for the settle time of
its zone; the motion field stands (R119 to R121). -/
def Settling (i : ApId) (c : SettleCause) (s t : State) : Prop :=
  (t.ap i).state = .settling ∧ (t.ap i).contribution = 0 ∧ (t.ap i).motion = (s.ap i).motion ∧
    (t.ap i).mon = { Monitor.stopped with
      settle := some (t.ds + (s.zoneOf i).settle), settleCause := some c }

/-- Aperture `i` entered FAULT with kind `k` (R13): the record is written, the motion removed, the current released
and APERTURE-FAULT queued. -/
def Faulted (i : ApId) (k : FaultKind) (s t : State) : Prop :=
  (t.ap i).state = .fault ∧ (t.ap i).fault = some ⟨k, t.ds⟩ ∧ (t.ap i).motion = none ∧
    (t.ap i).contribution = 0 ∧ NoticeQueued [.S, .L] ⟨t.sec, .apertureFault i k⟩ s t

/-- The stop of the STOPPING aperture `i` was confirmed (R119): by its halt cause, and for TIMEOUT by the distance
left to the motion's target, it has entered SETTLING, REST or FAULT. -/
def StopConfirmed (i : ApId) (s t : State) : Prop :=
  ∀ m p, (s.ap i).motion = some m → (t.ap i).position = some p →
    let cause := (s.ap i).mon.haltCause
    (cause = some .target ∨ (cause = some .shed ∧ m.purpose = .normal) → Settling i .stop s t) ∧
    (cause = some .shed → m.purpose = .backoff → Settling i .backoff s t) ∧
    (cause = some .timeout → distance m.target p ≤ 5 → Rested i t) ∧
    (cause = some .timeout → 5 < distance m.target p → Faulted i .timeout s t)

/-- The stall count of aperture `i` after a change of orders (R12): 0 where a target that closes became one off target in
the opening direction, unchanged otherwise. That a target closes where it lies below the position is assumption log
16. -/
def StallCounted (i : ApId) (s t : State) : Prop :=
  let turned := ∃ x y p, (s.ap i).effTarget = some (.pos x) ∧ (t.ap i).effTarget = some (.pos y) ∧
    (s.ap i).position = some p ∧ x < p ∧ p + 5 < y
  (turned → (t.ap i).stallCount = 0) ∧ (¬ turned → (t.ap i).stallCount = (s.ap i).stallCount)

/-- What a changed effective target or class does to aperture `i` (R9, R10, R24, R25, R118, R122, R123). At REST and
in RETRY-WAIT it is judged. WAITING, its motion is derived again where it is off target, but a back-off whose
closing is still wanted keeps its motion in the new class; on target it is at REST. Moving, it goes on, is
retargeted or is halted. In every other state nothing moves. The stall count follows `StallCounted`. -/
def HandedOn (i : ApId) (s t : State) : Prop :=
  StallCounted i s t ∧
  ((t.ap i).effTarget ≠ (s.ap i).effTarget ∨ (t.ap i).effClass ≠ (s.ap i).effClass →
  let a := s.ap i
  let b := t.ap i
  (a.state = .rest → Judged i t) ∧
  (a.state = .retryWait → Rested i t) ∧
  (∀ m, a.state = .waiting → a.motion = some m →
    (m.purpose = .normal ∨ b.wantsClosing = false → Judged i t ∧ (b.offTarget = false → b.motion = none)) ∧
    (m.purpose = .backoff → b.wantsClosing = true → (b.state = .waiting ∨ b.state = .starting) ∧
      b.motion = some { m with cls := b.effClass.getD m.cls })) ∧
  (∀ m, a.state = .starting ∨ a.state = .running → a.motion = some m → m.purpose = .normal →
    (b.effTarget = some (.pos m.target) → MotionStands i s t) ∧
    (∀ x p, b.effTarget = some (.pos x) → a.position = some p → x ≠ m.target →
      (5 < distance x p → m.dir = (if x < p then .closing else .opening) → Retargeted i x s t) ∧
      (distance x p ≤ 5 ∨ m.dir ≠ (if x < p then .closing else .opening) → Halted i .target s t)) ∧
    (b.effTarget = none ∨ b.effTarget = some .hold → Halted i .target s t)) ∧
  (∀ m, a.state = .starting ∨ a.state = .running → a.motion = some m → m.purpose = .backoff →
    (b.wantsClosing = true → MotionStands i s t) ∧
    (b.wantsClosing = false → Halted i .target s t)) ∧
  (a.state = .unknown ∨ a.state = .stopping ∨ a.state = .settling ∨ a.state = .fault ∨ a.state = .offline →
    b.state = a.state ∧ b.motion = a.motion ∧ b.mon = a.mon))

/-! ### Resets -/

/-- The ranged fields of record `n` as stored: value, lowest and highest (R6, R36, R37, R93, R167, R182). The inrush
current of an aperture is held between its run current as loaded and 200. -/
def storedFields (t : Store) (n : Nat) : List (Nat × Nat × Nat) :=
  let b := field1 t n
  let w := field2 t n
  let rights := [(b 3, 0, 2), (b 4, 0, 2), (b 5, 0, 2), (b 7, 0, 60), (b 8, 1, 50)]
  if n < 48 then
    [(b 0 / 16, 0, 3), (b 1 % 16, 0, 3), (b 1 / 16, 0, 3), (w 2, 0, 359), (w 5, 0, 8600), (b 7, 1, 100),
      (b 8, max 1 (min 100 (b 7)), 200), (w 9, 10, 3000), (w 11, 10, 3000), (w 13, 0, 1000)]
  else if n < 52 then [(w 0, 10, 400), (b 2, 1, 20), (b 3, 0, 50)]
  else if n < 60 then [(b 1, 0, 47), (b 2, 0, 5), (b 6, 0, 2)] ++ rights
  else if n = 60 then rights
  else if n = 61 then [(w 0, 0, 600), (w 2, 60, 7200), (w 4, 0, 1800)]
  else if n = 62 then [(b 0, 0, 240), (w 1, 60, 3600), (w 3, 60, 7200)]
  else if n = 64 then [(w 0, 1, 2000), (w 2, 0, 359), (b 4, 1, 60)]
  else []

/-- The complete records with a field outside its range, in ascending order: those that a load corrects (R167). -/
def correctedRecords (t : Store) : List Nat :=
  (List.range 66).filter fun n =>
    t.isComplete n && (storedFields t n).any fun f => f.1 < f.2.1 || f.2.2 < f.1

/-- A reset of kind `k` has announced itself (R162, R165 to R167): RESTARTED has joined the notices `old` of every
port, and behind it on Port S one LOAD-CLAMPED for each record that the load corrected, as far as there was room;
NLOST stands as in `lost`, and is set where there was too little. -/
def ResetAnnounced (k : ResetKind) (reason : RestartReason) (old : Port → List Notice) (lost : Port → Bool)
    (t : State) : Prop :=
  ∀ p,
    let new := ⟨t.sec, .restarted k reason⟩ ::
      if p = .S then (correctedRecords t.store).map fun n => ⟨t.sec, .loadClamped n⟩ else []
    (t.port p).notices = old p ++ new.take (16 - (old p).length) ∧
      (t.port p).nlost = (lost p || decide (16 < (old p).length + new.length))

/-- A loaded value: `v` itself within its range, and the nearest bound outside it (R6, R36, R167). -/
def near (lo hi v : Nat) : Nat := max lo (min hi v)

/-- `x` holds the static fields of aperture record `n` (R2, R3, R6, R182): of a complete record each field at the
nearest bound of its range, the inrush current not below the run current as loaded, and a skylight rain-exposed
whatever is stored; a blank record is not installed. -/
def StaticLoaded (r : Store) (n : Nat) (x : Static) : Prop :=
  (r.isComplete n = false → x.installed = false) ∧
  (r.isComplete n = true →
    x.installed = fieldBit r n 0 0 ∧ x.failSafe = fieldBit r n 0 2 ∧
    x.rainExposed = (fieldBit r n 0 1 || decide (x.kind = .skylight ∨ x.kind = .ventSkylight)) ∧
    x.rank = near 0 3 (field1 r n 0 / 16) ∧
    some x.kind = [ApKind.window, .skylight, .ventWindow, .ventSkylight][near 0 3 (field1 r n 1 % 16)]? ∧
    some x.branch = [Branch.A, .B, .C, .D][near 0 3 (field1 r n 1 / 16)]? ∧
    x.facade = near 0 359 (field2 r n 2) ∧ x.weight = field1 r n 4 ∧ x.loadLimit = near 0 8600 (field2 r n 5) ∧
    x.run = near 1 100 (field1 r n 7) ∧ x.inrush = near x.run 200 (field1 r n 8) ∧
    x.closeStroke = near 10 3000 (field2 r n 9) ∧ x.openStroke = near 10 3000 (field2 r n 11) ∧
    x.vent = near 0 1000 (field2 r n 13))

/-- `z` holds the rights, warn time and settle time of the complete zone record `n`, each at the nearest bound of its
range (R36, R37, R182). -/
def RightsLoaded (r : Store) (n : Nat) (z : Zone) : Prop :=
  let right := fun k => [Right.none, .observe, .order][near 0 2 (field1 r n k)]?
  some z.rightS = right 3 ∧ some z.rightL = right 4 ∧ some z.rightK = right 5 ∧
    z.warn = near 0 60 (field1 r n 7) ∧ z.settle = near 1 50 (field1 r n 8)

/-- `z` holds the fields of zone record `n`: those of a complete record, or the defaults of a disabled descriptor
(R36, R182). -/
def ZoneLoaded (r : Store) (n : Nat) (z : Zone) : Prop :=
  (r.isComplete n = false → z.enabled = false ∧ z.base = 0 ∧ z.size = 0 ∧ z.rightS = .none ∧ z.rightL = .none ∧
    z.rightK = .none ∧ z.role = .none ∧ z.warn = 0 ∧ z.settle = 10) ∧
  (r.isComplete n = true → z.enabled = fieldBit r n 0 0 ∧ z.base = near 0 47 (field1 r n 1) ∧
    z.size = near 0 5 (field1 r n 2) ∧
    some z.role = [LifeRole.none, .vent, .compartment][near 0 2 (field1 r n 6)]? ∧ RightsLoaded r n z)

/-- `z` holds the base descriptor of record 60, its life role NONE whatever the record holds (R37, R182). -/
def BaseLoaded (r : Store) (z : Zone) : Prop :=
  z.role = .none ∧
  (r.isComplete 60 = false →
    z.rightS = .order ∧ z.rightL = .order ∧ z.rightK = .observe ∧ z.warn = 0 ∧ z.settle = 10) ∧
  (r.isComplete 60 = true → RightsLoaded r 60 z)

/-- The static fields of the apertures (R3, R6), the zone descriptors and the base descriptor (R36, R37), the static
fields of the branches (R93, R111), the operating values of the supervisor (R73, R92) and the settings and enables of
the front end (R59, R60) are those of the store: of a complete record each field at the nearest bound of its range,
of a blank one the default (R167). -/
def SettingsLoaded (t : State) : Prop :=
  let r := t.store
  (∀ i, StaticLoaded r i.val (t.ap i).fix) ∧ (∀ z : ZoneId, ZoneLoaded r (52 + z.val) t.zones.desc[z]) ∧
  BaseLoaded r t.zones.base ∧
  (∀ b n, (b, n) ∈ [(Branch.A, 48), (.B, 49), (.C, 50), (.D, 51)] →
    ((t.branch b).limit, (t.branch b).window, (t.branch b).gap) =
      if r.isComplete n then (near 10 400 (field2 r n 0), near 1 20 (field1 r n 2), near 0 50 (field1 r n 3))
      else (40, 10, 20)) ∧
  (t.sup.watchGust, t.sup.holdTime, t.sup.guardLead) =
    (if r.isComplete 61 then
      (near 0 600 (field2 r 61 0), near 60 7200 (field2 r 61 2), near 0 1800 (field2 r 61 4))
    else (150, 1800, 300)) ∧
  (t.fe.dryDelay, t.fe.silence) =
    (if r.isComplete 62 then (near 60 3600 (field2 r 62 1), near 60 7200 (field2 r 62 3)) else (600, 3600)) ∧
  t.roomLifetime = (if r.isComplete 62 then near 0 240 (field1 r 62 0) else 60) ∧
  (t.fe.word.enables.windOver, t.fe.word.enables.vaneInvalid, t.fe.word.enables.rainSensor,
      t.fe.word.enables.anemoSilent) =
    (if r.isComplete 63 then (fieldBit r 63 0 0, fieldBit r 63 0 1, fieldBit r 63 0 2, fieldBit r 63 0 3)
    else (false, true, true, false)) ∧
  (t.fe.constK, t.fe.vaneOffset, t.fe.wetDelay) =
    (if r.isComplete 64 then (near 1 2000 (field2 r 64 0), near 0 359 (field2 r 64 2), near 1 60 (field1 r 64 4))
    else (250, 0, 2))

/-- Every block holds the values that its reset table gives alike for all kinds of reset, with the settings of
`SettingsLoaded`, the load ending at the uptime of `t` (R20, R43, R59, R60, R72, R92, R93, R111, R129, R144, R155).
That a gap of 0 leaves no timer running, that the debounce counts in ms, and what the other static fields of a blank
aperture record hold, are the model's (assumption logs 40, 57 and 7). -/
def BlocksReset (t : State) : Prop :=
  SettingsLoaded t ∧ t.loadEnd = t.ds ∧ (∀ z, t.warnLine z = false) ∧
  (∀ i, (t.ap i).fix = loadStatic t.store i.val ∧
    (t.ap i).state = (if (t.ap i).fix.installed then .unknown else .absent) ∧ (t.ap i).position = none ∧
    (t.ap i).motion = none ∧ (t.ap i).orderTag = none ∧ (t.ap i).stallCount = 0 ∧ (t.ap i).fault = none ∧
    (t.ap i).slate = .empty ∧ (t.ap i).effTarget = none ∧ (t.ap i).effClass = none ∧
    (t.ap i).startTime = none ∧ (t.ap i).claim = none ∧ (t.ap i).mon = ⟨none, none, none, none, none, none⟩ ∧
    (t.ap i).node = ⟨none, 0, none, none⟩ ∧ (t.ap i).fig.load = 0 ∧ (t.ap i).fig.adv = none ∧
    (t.ap i).fig.standing = (if (t.ap i).fix.loadLimit = 0 then .unlimited else .clear)) ∧
  (∀ z : ZoneId, t.zones.desc[z] = loadZone t.store (52 + z.val) ∧ t.zones.warnings[z] = ⟨.idle, none⟩) ∧
  t.zones.base = loadBase t.store ∧ t.roomLifetime = loadRoomLifetime t.store ∧
  (t.sup.weather = .clear ∧ t.sup.holdTimer = none ∧ t.sup.advisory = none ∧ t.sup.advGust = none ∧
    t.sup.queue = [] ∧ t.sup.changeCount = 0) ∧
  (∀ b, t.committed b = 0 ∧ waitList t b = [] ∧ (t.branch b).lastStart = none ∧
    (t.branch b).quiet = some (t.ds + 20) ∧
    (t.branch b).gapTimer = (if (t.branch b).gap = 0 then none else some (t.ds + (t.branch b).gap)) ∧
    (t.branch b).reservation = none ∧ (t.branch b).late = false ∧ (t.branch b).projection = []) ∧
  (t.link.broadcast = true ∧ t.link.haltList = [] ∧ t.link.moveList = [] ∧ t.link.priority = [] ∧
    t.link.run = 0 ∧ t.link.ring = 0 ∧ t.link.inFlight = none) ∧
  t.fire = ⟨.normal, false, if t.pins.alarm then some (t.clock.ms + 500) else none⟩

/-! ### Orders and requests -/

/-- A port at which a whole request can be written and taken: IDLE or REPLYING, with no strobe held. -/
def PortRec.ready (r : PortRec) : Prop := (r.state = .idle ∨ r.state = .replying) ∧ r.held = none

/-- The header flags of the request that a ready port takes next: RDISC also where the request cuts short
a reply (R158, R160). -/
def PortRec.nextHeader (r : PortRec) : HeaderFlags := ⟨r.ovr, r.frm, r.rdisc || decide (r.state = .replying)⟩

/-- The port while its request of the bytes `req` is served (R157, R158). -/
def PortRec.asked (r : PortRec) (req : List Byte) : PortRec :=
  { r with
    state := .pending, reqBuf := req, discarded := false, gapTimer := none, header := r.nextHeader
    replyBuf := [], unread := false, ovr := false, frm := false, rdisc := false }

/-- The port of a request of the bytes `req` answered with `x`, where serving changed nothing of it (R158). -/
def PortRec.answered (r : PortRec) (kind : Byte) (x : Reply) : PortRec :=
  { r with
    state := .replying, reqBuf := [], discarded := false, gapTimer := none, header := ⟨false, false, false⟩
    replyBuf := replyBytes kind r.nextHeader x, unread := true, ovr := false, frm := false, rdisc := false }

/-- The port has just been given a reply with this kind, header flags and content (R158, R179). -/
def PortRec.holdsReply (r : PortRec) (kind : Byte) (h : HeaderFlags) (x : Reply) : Prop :=
  r.state = .replying ∧ r.replyBuf = replyBytes kind h x ∧ r.unread = true ∧ r.reqBuf = [] ∧
    r.ovr = false ∧ r.frm = false ∧ r.rdisc = false

/-- A port that waited as `old` in PENDING has been answered at uptime `now` ms (R158, R159): the reply stands with
the header flags of its taking; a read held under WAIT has taken its first byte, and a held write has discarded it,
with RDISC set, and begun a new request; what ended a strobe meanwhile keeps its flag. -/
def PortRec.AnsweredAfterWait (old new : PortRec) (now : Nat) (kind : Byte) (x : Reply) : Prop :=
  new.held = none ∧ new.ovr = old.ovr ∧ new.frm = old.frm ∧ new.nlost = old.nlost ∧ new.notices = old.notices ∧
  (old.held = none → new.state = .replying ∧ new.replyBuf = replyBytes kind old.header x ∧
    new.unread = true ∧ new.reqBuf = [] ∧ new.rdisc = old.rdisc ∧ new.dOut = old.dOut) ∧
  (old.held = some .read → new.state = .replying ∧ new.dOut = some kind ∧ new.unread = false ∧
    new.reqBuf = [] ∧ new.rdisc = old.rdisc ∧ kind :: new.replyBuf = replyBytes kind old.header x) ∧
  (∀ b, old.held = some (.write b) → new.state = .assembling ∧ new.reqBuf = [b] ∧ new.replyBuf = [] ∧
    new.discarded = false ∧ new.rdisc = true ∧ new.gapTimer = some (now + 100))

/-- Port `p` of `s` is given the answer `x` to a request of this kind, and nothing else changes. -/
def State.answeredAt (s : State) (p : Port) (kind : RequestKind) (x : Reply) : State :=
  s.modPort p fun r => r.answered kind.code x

/-- A request at port `p` took `s` to `t` changing nothing outside that port but what `k` leaves free, and
that port's queued notices stand. -/
def RestKept (k : Aperture → Aperture) (p : Port) (s t : State) : Prop :=
  Frame k s (t.modPort p fun _ => s.port p) ∧ (s.port p).notices <+: (t.port p).notices

/-- The port, kind byte and body of a command that is a whole request; `none` for the other commands. -/
def requestOf : Instr → Option (Port × Byte × List Byte)
  | .unknownRequest p kind body => some (p, kind, body)
  | .order p index form value => some (p, RequestKind.order.code, [index, form] ++ wordBytes value)
  | .orderZone p zone form value => some (p, RequestKind.orderZone.code, [zone, form] ++ wordBytes value)
  | .release p index => some (p, RequestKind.release.code, [index])
  | .queryAperture p index => some (p, RequestKind.queryAperture.code, [index])
  | .clearFault p index => some (p, RequestKind.clearFault.code, [index])
  | .advisory p offset gust flags =>
    some (p, RequestKind.advisory.code, wordBytes offset ++ wordBytes gust ++ [flags])
  | .advisoryCancel p => some (p, RequestKind.advisoryCancel.code, [])
  | .clearConditions p => some (p, RequestKind.clearConditions.code, [])
  | .restart p => some (p, RequestKind.restart.code, [])
  | .alarmRestore p => some (p, RequestKind.alarmRestore.code, [])
  | .queryBranch p code => some (p, RequestKind.queryBranch.code, [code])
  | .queryWeather p => some (p, RequestKind.queryWeather.code, [])
  | .queryQueue p first => some (p, RequestKind.queryQueue.code, [first])
  | .queryZone p zone => some (p, RequestKind.queryZone.code, [zone])
  | .queryTrigger p => some (p, RequestKind.queryTrigger.code, [])
  | .nextNotice p => some (p, RequestKind.nextNotice.code, [])
  | .storeMode p mode => some (p, RequestKind.storeMode.code, [mode])
  | .storeAct p record data => some (p, RequestKind.storeAct.code, record :: data.getD [])
  | .storeRead p record => some (p, RequestKind.storeRead.code, [record])
  | .lock p code => some (p, RequestKind.lock.code, [code])
  | .leaveCommissioning p => some (p, RequestKind.leaveCommissioning.code, [])
  | .por _ | .pinReset _ | .anemoPulse | .secondBoundary _ _ _ | .holdTimerExpiry | .advisoryExpiry
  | .roomExpiry _ | .quietTimerExpiry _ | .branchGapTimerExpiry _ | .inrushTimerExpiry _
  | .travelTimerExpiry _ | .settleTimerExpiry _ | .retryTimerExpiry _ | .warnTimerExpiry _
  | .contactTimerExpiry _ | .linkSlotStart | .exchangeCompleted _ | .alarmLineChange
  | .debounceTimerExpiry | .requestByteWrite _ _ _ | .statusWrite _ _ _ | .replyByteRead _ _
  | .waitHoldOff _ _ | .heldStrobeEnd _ | .portGapTimerExpiry _ | .storeOperationComplete => none

/-- Port `p` of `s` while the request command `c` waits on it in PENDING, the rest of `s` unchanged. -/
def State.askedAt (s : State) (p : Port) (kind : RequestKind) (body : List Byte) : State :=
  s.modPort p fun r => r.asked (requestBytes kind.code body)

/-- Command `c` can bring port S to have a request of this kind served: it completes a store operation while
such a request waits, writes the request's last byte, or is a row whose bytes, with those already written,
hold the kind byte; at a ready port the row's own kind is then this one. -/
def servesAt (s : State) (c : Instr) (kind : RequestKind) : Prop :=
  (c = .storeOperationComplete ∧ (s.port .S).state = .pending ∧
    (s.port .S).reqBuf.head? = some kind.code) ∨
  (∃ b, c = .requestByteWrite .S false b ∧ (s.port .S).state = .assembling ∧
    (s.port .S).reqBuf.head? = some kind.code) ∨
  (∃ code body, requestOf c = some (.S, code, body) ∧
    kind.code ∈ (s.port .S).reqBuf ++ requestBytes code body ∧
    ((s.port .S).ready → body.length ≤ 30 → code = kind.code))

end Sys2Proof.Machine
end

