-- ==== Sys2Proof/WellFormed.lean ====
section
/-! DEFINITION. Well-formed commands: the operand ranges that the types of Instr do not already hold. -/

namespace Sys2Proof

/-- What a command's operands must satisfy to be that row's command: an unknown request has a kind the
part does not know and a body of at most 30 bytes (R157, R158), and a STORE-ACT that writes brings 16
bytes (R171). Every other operand is in range by its type; field values the part refuses as malformed
are well-formed commands that are answered with BAD-FORMAT. -/
def Instr.wf : Instr → Bool
  | .unknownRequest _ kind body => (Machine.kindOf kind).isNone && decide (body.length ≤ 30)
  | .storeAct _ _ (some data) => decide (data.length = 16)
  | .storeAct _ _ none => true
  | .por _ | .pinReset _ | .anemoPulse | .secondBoundary _ _ _ | .holdTimerExpiry | .advisoryExpiry
  | .roomExpiry _ | .quietTimerExpiry _ | .branchGapTimerExpiry _ | .inrushTimerExpiry _
  | .travelTimerExpiry _ | .settleTimerExpiry _ | .retryTimerExpiry _ | .warnTimerExpiry _
  | .contactTimerExpiry _ | .linkSlotStart | .exchangeCompleted _ | .alarmLineChange
  | .debounceTimerExpiry | .requestByteWrite _ _ _ | .statusWrite _ _ _ | .replyByteRead _ _
  | .waitHoldOff _ _ | .heldStrobeEnd _ | .portGapTimerExpiry _ | .order _ _ _ _ | .orderZone _ _ _ _
  | .release _ _ | .queryAperture _ _ | .clearFault _ _ | .advisory _ _ _ _ | .advisoryCancel _
  | .clearConditions _ | .restart _ | .alarmRestore _ | .queryBranch _ _ | .queryWeather _
  | .queryQueue _ _ | .queryZone _ _ | .queryTrigger _ | .nextNotice _ | .storeMode _ _
  | .storeRead _ _ | .lock _ _ | .leaveCommissioning _ | .storeOperationComplete => true

end Sys2Proof
end

