-- ==== Sys2Proof/Certificates/Slice0/Obligations.lean ====
section
/-! DEFINITION. The statements about the EW48 that are to be proved. Each says what a command, or the part as
a whole, does by the rules its docstring names. -/

open Sys2Proof Sys2Proof.Machine

/-! ### Steps and reset -/

/-- A step takes the command at the front of the queue and is that command's effect on the state with the
queue's rest. -/
def Obligations.StepRunsFrontCommand : Prop :=
  ∀ (c : Instr) (rest : List Instr) (s : State),
    step { s with pending := c :: rest } = exec c { s with pending := rest }

/-- The state after reset meets every invariant that a step keeps. -/
def Obligations.ResetMeetsInvariants : Prop :=
  State.reset.NoticesBounded ∧ State.reset.CurrentBounded ∧ State.reset.WeatherHolds ∧
    State.reset.TargetsDerived ∧ State.reset.QueueMatches ∧ State.reset.QueueOrdered ∧
    State.reset.PositionsKnown ∧ State.reset.ListsSingle ∧ State.reset.WaitOnlyPending ∧
    State.reset.RingBounded ∧ State.reset.ClaimsHold ∧ State.reset.Settled ∧ State.reset.WarningsHold ∧
    State.reset.store.wf

/-- What the reset tables give after a POR (R20, R43, R60, R92, R111, R144, R155, R165, R176). That every
aperture is ABSENT, where R20 has UNKNOWN for an installed one, holds because the model's reset store is blank
(assumption log 6), and that no alarm debounce runs because its ALARM line is low (log 5): both are the
model's choice. -/
def Obligations.ResetHoldsPorValues : Prop :=
  (∀ p, (State.reset.port p).state = .idle ∧ (State.reset.port p).reqBuf = [] ∧
      (State.reset.port p).replyBuf = [] ∧ (State.reset.port p).gapTimer = none ∧
      (State.reset.port p).ovr = false ∧ (State.reset.port p).frm = false ∧
      (State.reset.port p).rdisc = false ∧ (State.reset.port p).nlost = false ∧
      (State.reset.port p).wait = false ∧ (State.reset.port p).attn = true ∧
      (State.reset.port p).notices = [⟨0, .restarted .por .restart⟩]) ∧
  (∀ i, (State.reset.ap i).slate = .empty ∧ (State.reset.ap i).effTarget = none ∧
      (State.reset.ap i).effClass = none ∧ (State.reset.ap i).position = none ∧
      (State.reset.ap i).motion = none ∧ (State.reset.ap i).orderTag = none ∧
      (State.reset.ap i).stallCount = 0 ∧ (State.reset.ap i).fault = none ∧
      (State.reset.ap i).node.missCount = 0 ∧ (State.reset.ap i).state = .absent) ∧
  (State.reset.fe.count = 0 ∧ State.reset.fe.saturated = false ∧ State.reset.fe.triple = [] ∧
      State.reset.fe.ring = [] ∧ State.reset.fe.gust = 0 ∧ State.reset.fe.bearing = none ∧
      State.reset.fe.wet = false ∧ State.reset.fe.word.live = .none ∧ State.reset.fe.word.sticky = .none) ∧
  (State.reset.sup.weather = .clear ∧ State.reset.sup.holdTimer = none ∧ State.reset.sup.advisory = none ∧
      State.reset.sup.trigger = none ∧ State.reset.sup.queue = [] ∧ State.reset.sup.changeCount = 0) ∧
  (∀ b, State.reset.committed b = 0 ∧ (State.reset.branch b).lastStart = none ∧
      (State.reset.branch b).reservation = none ∧ (State.reset.branch b).late = false) ∧
  (State.reset.link.broadcast = true ∧ State.reset.link.haltList = [] ∧ State.reset.link.moveList = [] ∧
      State.reset.link.priority = [] ∧ State.reset.link.run = 0 ∧ State.reset.link.ring = 0) ∧
  (State.reset.fire.state = .normal ∧ State.reset.fire.level = false) ∧
  (State.reset.store.op = none ∧ State.reset.store.mode = .none ∧ State.reset.store.plantLock = false ∧
      State.reset.store.operLock = false)

/-- POR and PIN reset (R20, R43, R59, R60, R72, R92, R111, R129, R144, R155, R165, R167, R176): the uptime restarts;
every port is emptied and given RESTARTED, and Port S behind it a LOAD-CLAMPED for each record that the load
corrects; every block takes the values of its reset table, its settings loaded from the store, the quiet and gap
timers of the branches running from the load; the front end's figures start afresh, with the sticky bits kept by a
PIN reset alone, as the Trigger Record is; the locks are cleared, commissioning mode is taken from the strap, and
the store keeps its contents but for the records of an operation under way. That the load takes no uptime is the
model's choice (assumption log 42); that the corrections of an absent aperture's or a disabled zone's record are
announced too is its reading (log 46), and that QUERY-WEATHER reports the loaded word until the first boundary its
choice (log 52), as are, in `BlocksReset`, the fields of a blank aperture record, a gap of 0 and the debounce in ms
(logs 7, 40 and 57). -/
def Obligations.HardResetsRestartThePart : Prop :=
  ∀ (cmsn : Bool) (s : State) (c : Instr) (k : ResetKind),
    ((c = .por cmsn ∧ k = .por) ∨ (c = .pinReset cmsn ∧ k = .pin)) →
    ∃ t, exec c s = .next t ∧ t.clock = ⟨0, 1⟩ ∧ t.pins.cmsn = cmsn ∧
      (∀ p, (t.port p).state = .idle ∧ (t.port p).reqBuf = [] ∧ (t.port p).replyBuf = [] ∧
        (t.port p).held = none ∧ (t.port p).gapTimer = none ∧ (t.port p).ovr = false ∧
        (t.port p).frm = false ∧ (t.port p).rdisc = false) ∧
      ResetAnnounced k .restart (fun _ => []) (fun _ => false) t ∧ BlocksReset t ∧
      (t.fe.count = 0 ∧ t.fe.saturated = false ∧ t.fe.speed = 0 ∧ t.fe.triple = [] ∧ t.fe.ring = [] ∧
        t.fe.gust = 0 ∧ t.fe.bearing = none ∧ t.fe.wet = false ∧ t.fe.wetRun = 0 ∧ t.fe.dryRun = 0 ∧
        t.fe.silent = 0 ∧ t.fe.word.live = Cond.none ∧ t.fe.boundaryWord = t.fe.word) ∧
      t.store = { s.store.abortOp with
        mode := .none, commissioning := cmsn, plantLock := false, operLock := false } ∧
      t.fe.word.sticky = (match k with
        | .por => Cond.none
        | .pin | .restart => s.fe.word.sticky) ∧
      t.sup.trigger = (match k with
        | .por => none
        | .pin | .restart => s.sup.trigger)

/-! ### Invariants that every step keeps -/

/-- A port's notice queue never holds more than 16 notices (R162), a strobe is held under WAIT only in PENDING
(R156, R159), and the Gust Ring holds at most 120 means (R48); at most one HALT, one MOVE and one priority POLL
stand listed per aperture, and the run count is at most 3 (R133, R137, R138); the store's contents stay in canonical
form, so that equal contents are equal data (R168, R172). -/
def Obligations.BuffersListsAndStoreStayInForm : Prop :=
  ∀ s t : State, step s = .next t →
    (s.NoticesBounded → t.NoticesBounded) ∧ (s.WaitOnlyPending → t.WaitOnlyPending) ∧
      (s.RingBounded → t.RingBounded) ∧ (s.ListsSingle → t.ListsSingle) ∧ (s.store.wf → t.store.wf)

/-- Between commands no admission attempt is owed, and every reservation stands: the reserved entry waits on its
branch, eligible, in class LIFE or WEATHER (R101, R107). That attempts run at the end of their event, and that a
reservation is tested there, is the model's reading (assumption logs 12 and 39). -/
def Obligations.ReservationsStandBetweenCommands : Prop :=
  ∀ s t : State, s.Settled → step s = .next t → t.Settled

/-- The committed current of every branch is at most its limit (R94), with the run current of every aperture
at most its inrush current (R6). -/
def Obligations.BranchCurrentNeverExceedsLimit : Prop :=
  ∀ s t : State, s.CurrentBounded → step s = .next t → t.CurrentBounded

/-- While an aperture's WEATHER slot is present, neither its SUPERVISORY slot nor its ROOM slot holds a numeric
target above 0 (R32). In CLEAR and WATCH no aperture holds a WEATHER slot, a claim's cause and deadline are kept
exactly while its slot stands, and the hold timer runs exactly in HOLDING (R73, R76, R82). -/
def Obligations.NoOpeningStandsUnderWeather : Prop :=
  ∀ s t : State, step s = .next t →
    (s.WeatherHolds → t.WeatherHolds) ∧ (s.ClaimsHold → t.ClaimsHold)

/-- The effective target and class of every aperture are those of its highest-ranked present slot (R9, R24). -/
def Obligations.EffectiveTargetFollowsSlate : Prop :=
  ∀ s t : State, s.TargetsDerived → step s = .next t → t.TargetsDerived

/-- The Closure Queue holds an entry for exactly the apertures that R85 makes members. -/
def Obligations.ClosureQueueMatchesMembership : Prop :=
  ∀ s t : State, s.QueueMatches → step s = .next t → t.QueueMatches

/-- The Closure Queue holds no aperture twice and stays sorted by deadline, rank, load and index (R85, R86), and
the late flag of a branch is set exactly while at least one of its entries is LATE (R109), as long as the
queue also holds the members and no other aperture. -/
def Obligations.ClosureQueueStaysOrdered : Prop :=
  ∀ s t : State, s.QueueMatches → s.QueueOrdered → step s = .next t → t.QueueOrdered

/-- A position is known exactly outside ABSENT, UNKNOWN and OFFLINE (section 1.7, R8). -/
def Obligations.PositionKnownByMotionState : Prop :=
  ∀ s t : State, s.PositionsKnown → step s = .next t → t.PositionsKnown

/-- What the store keeps (R168, R174, R175): no command but POR and PIN_RESET clears a lock or begins commissioning
mode; a lock is set only where a LOCK is served on Port S, and commissioning mode ends only where a
LEAVE-COMMISSIONING is served there; a record's bytes change only at a store operation's completion or at a reset,
and a RESTART keeps them, the locks and the mode. That no command writes the queue of waiting commands is the
model's choice (assumption log 3). The rule of the held strobe (R156, R159), which every step keeps, is a premise.
-/
def Obligations.StoreAndLocksOutlastEverythingElse : Prop :=
  ∀ (s t : State) (c : Instr), s.WaitOnlyPending → exec c s = .next t →
    t.pending = s.pending ∧
    ((∀ b, c ≠ .por b ∧ c ≠ .pinReset b) →
      (s.store.plantLock = true → t.store.plantLock = true) ∧
      (s.store.operLock = true → t.store.operLock = true) ∧
      (s.store.plantLock = false → t.store.plantLock = true → servesAt s c .lock) ∧
      (s.store.operLock = false → t.store.operLock = true → servesAt s c .lock) ∧
      (t.store.commissioning = true → s.store.commissioning = true) ∧
      (s.store.commissioning = true → t.store.commissioning = false → servesAt s c .leaveCommissioning) ∧
      s.clock.ms ≤ t.clock.ms ∧
      (c ≠ .storeOperationComplete → t.store.cells = s.store.cells))

/-! ### Exposure arithmetic and encodings -/

/-- R62: the facing factor of a skylight is 32760, and so is that of a window while VANE-INVALID is live or the
bearing is none. R63: the angle between wind and facade lies between 0 and 180, is the same whichever bearing is the
larger, and gives the facing factor of a window; from 90 on the factor is 0, and with it the load index at any gust,
so that no wind need follows. R64: the stages from gust to load index as its table forms them, and their ranges: at a
gust of at most 600, a facing factor of at most 32760 and a weight of at most 255 the dynamic pressure is at most
2159, the pressure on an aperture at most the dynamic pressure and the index at most 8598; the index is 0 where gust,
facing factor or weight is 0, and the acting pressure itself at weight 64. -/
def Obligations.FacingAndLoadIndexStayInRange : Prop :=
  (∀ (k : ApKind) (f : Nat) (invalid : Bool) (bearing : Option Nat),
    (k = .skylight ∨ k = .ventSkylight → facing k f invalid bearing = 32760) ∧
    (k = .window ∨ k = .ventWindow → invalid = true ∨ bearing = none → facing k f invalid bearing = 32760)) ∧
  (∀ g q f e : Nat, dynamicPressure g = (g * g * 393 + 32768) / 65536 ∧
    actingPressure q f = (q * f + 16384) / 32768 ∧
    loadIndex g f e = ((((g * g * 393 + 32768) / 65536) * f + 16384) / 32768 * e + 32) / 64) ∧
  (∀ w f : Nat, w < 360 → f < 360 →
    facingAngle w f ≤ 180 ∧ facingAngle w f = facingAngle f w ∧
    (w ≤ f → facingAngle w f = if f - w ≤ 180 then f - w else 360 - (f - w)) ∧
    ∀ k : ApKind, k.isSkylight = false →
      facing k f false (some w) =
        (if facingAngle w f ≤ 89 then (90 - facingAngle w f) * 364 else 0) ∧
      (90 ≤ facingAngle w f → ∀ g e limit : Nat,
        loadIndex g (facing k f false (some w)) e = 0 ∧
        standing limit (loadIndex g (facing k f false (some w)) e) ≠ .need)) ∧
  ∀ g f e : Nat, g ≤ 600 → f ≤ 32760 → e ≤ 255 →
    dynamicPressure g ≤ 2159 ∧ actingPressure (dynamicPressure g) f ≤ dynamicPressure g ∧
    loadIndex g f e ≤ 8598 ∧ loadIndex 0 f e = 0 ∧ loadIndex g 0 e = 0 ∧ loadIndex g f 0 = 0 ∧
    loadIndex g f 64 = actingPressure (dynamicPressure g) f

/-- R66: the four wind standings at every load limit and load index; a computation gives every installed aperture
the standing of its own limit and index; an aperture has a wind need exactly when its standing is NEED, and is
below its release level exactly when it is UNLIMITED or CLEAR, a load index of 0 being below every level. -/
def Obligations.StandingFollowsLimitAndIndex : Prop :=
  (∀ (s : State) (i : ApId), (s.ap i).present →
    ((compute s).ap i).fig.standing = standing (s.ap i).fix.loadLimit ((compute s).ap i).fig.load) ∧
  (∀ (s : State) (a : Aperture), hasCause s a .wind = true ↔ a.fig.standing = .need) ∧
  ∀ limit q : Nat,
    (standing limit q = .unlimited ↔ limit = 0) ∧
    (standing limit q = .need ↔ 0 < limit ∧ limit ≤ q) ∧
    (standing limit q = .band ↔ 0 < limit ∧ limit * 3 / 4 ≤ q ∧ q < limit ∧ 0 < q) ∧
    (standing limit q = .clear ↔ (0 < limit ∧ q < limit * 3 / 4) ∨ (0 < limit ∧ q = 0)) ∧
    (standing limit q = .unlimited ∨ standing limit q = .clear ↔
      limit = 0 ∨ q = 0 ∨ q < releaseLevel limit) ∧
    (standing 1 q = if q = 0 then .clear else .need) ∧ (2 ≤ limit → 0 < releaseLevel limit)

/-- R38: a zone descriptor matches an aperture when it is enabled and the two indices agree in every bit from the
block size up, that is, floor(i / s) equals floor(base / s); the block starts at a multiple of s and has s
indices. The governing zone of an aperture is the lowest-numbered descriptor that matches it, or the base descriptor
where none does (R39). -/
def Obligations.DescriptorMatchesItsBlock : Prop :=
  (∀ (s : State) (i : ApId),
    (∀ z : ZoneId, s.governing i = some z ↔
      (s.zones.desc[z]).covers i = true ∧ ∀ y : ZoneId, y < z → (s.zones.desc[y]).covers i = false) ∧
    (s.governing i = none ↔ ∀ z : ZoneId, (s.zones.desc[z]).covers i = false) ∧
    (∀ z, s.governing i = some z → s.zoneOf i = s.zones.desc[z]) ∧
    (s.governing i = none → s.zoneOf i = s.zones.base)) ∧
  ∀ (z : Zone) (i : ApId),
    (z.covers i = true ↔ z.enabled = true ∧ ∀ k, z.size ≤ k → i.val.testBit k = z.base.testBit k) ∧
    (z.covers i = true ↔ z.enabled = true ∧ i.val / 2 ^ z.size = z.base / 2 ^ z.size) ∧
    (z.covers i = true ↔ z.enabled = true ∧ z.base / 2 ^ z.size * 2 ^ z.size ≤ i.val ∧
      i.val < z.base / 2 ^ z.size * 2 ^ z.size + 2 ^ z.size)

/-- R181: every order frame is six bytes, the address, the kind and tag, the argument, a reserved 0 and a check
byte that makes the sum 0 modulo 256; the reply frame with any tag, position and flags is read back whole, and
a frame from another address, or with any other check byte, is a miss. -/
def Obligations.LinkFramesCheckAndReadBack : Prop :=
  (∀ f : InFlight, f.frame.length = 6 ∧ byteSum f.frame % 256 = 0 ∧
    (f.frame.getD 0 0).toNat = (match f.what with
      | .broadcastHalt => 63
      | .halt i | .move i _ | .poll i => i.val) ∧
    (f.frame.getD 1 0).toNat = (match f.what with
      | .poll _ => 0
      | .move _ _ => 16
      | .halt _ | .broadcastHalt => 32) + f.tag.toNat ∧
    (∀ i t, f.what = .move i t → t < 65536 →
      (f.frame.getD 2 0).toNat * 256 + (f.frame.getD 3 0).toNat = t) ∧
    ((∀ i t, f.what ≠ .move i t) → f.frame.getD 2 0 = 0 ∧ f.frame.getD 3 0 = 0) ∧
    f.frame.getD 4 0 = 0) ∧
  ∀ (i j : ApId) (refused m c o st k : Bool) (tag : BitVec 4) (pos : Nat) (rest : List Byte) (b : Byte),
    pos < 65536 →
    let head : List Byte :=
      [BitVec.ofNat 8 i.val, BitVec.ofNat 8 ((if refused then 16 else 0) + tag.toNat),
        BitVec.ofNat 8 (pos / 256), BitVec.ofNat 8 pos, BitVec.ofNat 8 (bitsByte [m, c, o, st, k])]
    parseReply i (head ++ [checkByte head] ++ rest) =
        some ⟨refused, tag, pos, m, c, o, st, k⟩ ∧
      (j ≠ i → parseReply j (head ++ [checkByte head] ++ rest) = none) ∧
      (b ≠ checkByte head → parseReply i (head ++ [b] ++ rest) = none)

/-- The port status byte: IBF in bit 7, OBE 6, RRDY 5, NPEND 4, BUSY 3, OVR 2, FRM 1, NLOST 0, each by its
condition of R161; ATTN while RRDY or NPEND is set (R156). -/
def Obligations.StatusByteReportsPort : Prop :=
  ∀ r : PortRec,
    r.statusByte.getLsbD 7 = decide (r.state = .assembling) ∧
    r.statusByte.getLsbD 6 = r.replyBuf.isEmpty ∧
    r.statusByte.getLsbD 5 = (r.unread && !r.replyBuf.isEmpty) ∧
    r.statusByte.getLsbD 4 = !r.notices.isEmpty ∧
    r.statusByte.getLsbD 3 = decide (r.state = .pending) ∧
    r.statusByte.getLsbD 2 = r.ovr ∧ r.statusByte.getLsbD 1 = r.frm ∧ r.statusByte.getLsbD 0 = r.nlost ∧
    r.attn = (r.statusByte.getLsbD 5 || r.statusByte.getLsbD 4)

/-! ### Sensors and weather -/

/-- ANEMO_PULSE counts a pulse up to 2000, and marks the counter saturated there (R45); ALARM_LINE_CHANGE starts
the debounce timer afresh for 0.5 s (R146). Nothing else changes. That a line change is the line taking its
other level, and that the 0.5 s count in ms, are the model's choice (assumption logs 45 and 57). -/
def Obligations.PinEventsAreCounted : Prop :=
  ∀ s : State,
    (s.fe.count < 2000 → exec .anemoPulse s = .next { s with fe := { s.fe with count := s.fe.count + 1 } }) ∧
    (2000 ≤ s.fe.count → exec .anemoPulse s = .next { s with fe := { s.fe with saturated := true } }) ∧
    exec .alarmLineChange s = .next { s with
      pins := { s.pins with alarm := !s.pins.alarm }
      fire := { s.fire with debounce := some (s.clock.ms + 500) } }

/-- SECOND_BOUNDARY runs the front end's stages (R44 to R55): count taken, speed clamped and flushed (R46), silent
count, triple with its mean (R47), ring of at most 120 means with the gust as its largest (R48), bearing, wet and dry
run, rain state, the four live bits, sticky bits and precaution set, and the word that QUERY-WEATHER reports from then
on (R58); sticky bits that rise queue SENSOR-CONDITION on Port S (R56); positions, static fields, fire state and store
stand. When the boundary is taken, and that the next one is the next whole second after it, is the model's choice
(assumption logs 1 and 33). -/
def Obligations.SecondBoundaryMeasures : Prop :=
  ∀ (s : State) (vane : Byte) (rain rainok : Bool),
    ∃ t, exec (.secondBoundary vane rain rainok) s = .next t ∧
      t.fe.count = 0 ∧ t.fe.saturated = false ∧
      (let raw := (s.fe.count * s.fe.constK + 50) / 100;
        (600 < raw → t.fe.speed = 600) ∧ (5 ≤ raw → raw ≤ 600 → t.fe.speed = raw) ∧
        (raw < 5 → t.fe.speed = 0)) ∧
      t.fe.triple = (t.fe.speed :: s.fe.triple).take 3 ∧
      (∃ mean, t.fe.ring = (if s.fe.ring.length < 120 then s.fe.ring else s.fe.ring.drop 1) ++ [mean] ∧
        (s.fe.triple = [] → mean = t.fe.speed) ∧
        (∀ a, s.fe.triple = [a] → mean = (t.fe.speed + a + 1) / 2) ∧
        ∀ a b rest, s.fe.triple = a :: b :: rest → mean = (t.fe.speed + a + b + 1) / 3) ∧
      t.fe.gust ∈ t.fe.ring ∧ (∀ m ∈ t.fe.ring, m ≤ t.fe.gust) ∧
      t.fe.word.live.windOver =
        (s.fe.saturated || decide (600 < (s.fe.count * s.fe.constK + 50) / 100)) ∧
      t.fe.silent = (if 0 < s.fe.count ∨ s.fe.saturated = true then 0 else min 7200 (s.fe.silent + 1)) ∧
      (t.fe.word.live.anemoSilent = true ↔ s.fe.silence ≤ t.fe.silent) ∧
      (vane.toNat < 240 → t.fe.word.live.vaneInvalid = false ∧
        t.fe.bearing = some ((vane.toNat * 3 / 2 + s.fe.vaneOffset) % 360)) ∧
      (240 ≤ vane.toNat → t.fe.word.live.vaneInvalid = true ∧ t.fe.bearing = s.fe.bearing) ∧
      t.fe.word.live.rainSensor = !rainok ∧
      (rainok = false → t.fe.wet = s.fe.wet ∧ t.fe.wetRun = 0 ∧ t.fe.dryRun = 0) ∧
      (rainok = true → rain = true → t.fe.wetRun = min 3600 (s.fe.wetRun + 1) ∧ t.fe.dryRun = 0 ∧
        (t.fe.wet = true ↔ s.fe.wet = true ∨ s.fe.wetDelay ≤ t.fe.wetRun)) ∧
      (rainok = true → rain = false → t.fe.wetRun = 0 ∧ t.fe.dryRun = min 3600 (s.fe.dryRun + 1) ∧
        (t.fe.wet = false ↔ s.fe.wet = false ∨ s.fe.dryDelay ≤ t.fe.dryRun)) ∧
      t.fe.word.sticky = s.fe.word.sticky.zip or t.fe.word.live ∧
      t.fe.precaution = t.fe.word.live.zip and t.fe.word.enables ∧ t.fe.boundaryWord = t.fe.word ∧
      t.clock.ms = max s.clock.ms (s.clock.nextBoundary * 1000) ∧
      t.clock.nextBoundary = t.clock.ms / 1000 + 1 ∧
      (∀ i, (t.ap i).position = (s.ap i).position ∧ (t.ap i).fix = (s.ap i).fix) ∧
      (let rises := t.fe.word.live.zip (fun a b => a && !b) s.fe.word.sticky;
        rises.any = true →
          NoticeQueued [.S] ⟨t.sec, .sensorCondition t.fe.word rises true⟩ s t) ∧
      t.fire = s.fire ∧ t.store = s.store ∧ ∀ p, PortKept (s.port p) (t.port p)

/-- After a SECOND_BOUNDARY every installed aperture's figures are those of the front end as it then stands (R61,
R62, R64 to R68), and every installed aperture with a closure need holds a WEATHER slot (R80, R81); each target or
class that a claim changes is handed on to its aperture's motion and stall count (R12, R24, R118). That an admission
of the same event stands in the next state is the model's reading (assumption log 12). What a closing target is for
the stall count is read by assumption log 16. -/
def Obligations.EveryClosureNeedIsClaimed : Prop :=
  ∀ (s : State) (vane : Byte) (rain rainok : Bool),
    ∃ t, exec (.secondBoundary vane rain rainok) s = .next t ∧
      t.sup.advGust = t.sup.advisory.map (fun d => max t.fe.gust d.gust) ∧
      ∀ i, (s.ap i).present →
        (t.ap i).present ∧ (t.ap i).fig = figures t.fe t.sup.advGust (t.ap i).fix ∧
        (let x := (t.ap i).fix;
          let f := facing x.kind x.facade t.fe.word.live.vaneInvalid t.fe.bearing;
          (t.ap i).fig.load = loadIndex t.fe.gust f x.weight ∧
          (t.ap i).fig.standing = standing x.loadLimit (t.ap i).fig.load ∧
          (t.ap i).fig.adv = t.sup.advGust.map fun g =>
            (loadIndex g f x.weight, decide (0 < x.loadLimit ∧ x.loadLimit ≤ loadIndex g f x.weight))) ∧
        HandedOn i s t ∧
        (HasNeed t i → (t.ap i).slate.weather.isSome ∧ t.sup.weather = .active)

/-- The weather state that a SECOND_BOUNDARY leaves (R74 to R77): need or a non-empty precaution set takes it to
ACTIVE from every state but ACTIVE itself, the watch gust or a held advisory takes CLEAR to WATCH, a gust below
three quarters of it with no advisory WATCH to CLEAR, and the stand-down test ACTIVE to HOLDING, where the hold
timer starts for the hold time; HOLDING goes on with its timer. Each change to a state other than ACTIVE queues
WEATHER-STATE on every port, with a cause set that is empty by the model's choice (assumption log 28). -/
def Obligations.SecondBoundaryJudgesWeather : Prop :=
  ∀ (s : State) (vane : Byte) (rain rainok : Bool),
    ∃ t, exec (.secondBoundary vane rain rainok) s = .next t ∧ WeatherJudged s t ∧
      t.sup.watchGust = s.sup.watchGust ∧ t.sup.holdTime = s.sup.holdTime ∧ t.sup.guardLead = s.sup.guardLead ∧
      t.sup.advisory = s.sup.advisory

/-- The claims of a SECOND_BOUNDARY (R32, R81, R82): in ACTIVE every installed aperture with a closure need and no
WEATHER slot is claimed, with the first of its causes and the deadline that this gives; its opening SUPERVISORY and
ROOM slots are removed, each with ORDER-CANCELLED to its port; no other slate changes. The claims that stood are
derived again. -/
def Obligations.SecondBoundaryPostsClaims : Prop :=
  ∀ (s : State) (vane : Byte) (rain rainok : Bool),
    ∃ t, exec (.secondBoundary vane rain rainok) s = .next t ∧ ClaimsFollowNeeds s t

/-- The Closure Queue after a SECOND_BOUNDARY (R84, R86, R108, R109): every entry's fields are rewritten and the
queue is sorted; each branch's projection is that of R108 and marks LATE the entries whose numeric deadline it
passes, and the late flag follows the marks; a flag that was set or cleared has its PLAN notice on Port S and
Port L where none was lost. The change count rises by one where the queue changed, a LATE mark counting as part
of it: that reading is the model's (assumption log 13). -/
def Obligations.SecondBoundaryProjectsTheQueue : Prop :=
  ∀ (s : State) (vane : Byte) (rain rainok : Bool), s.QueueMatches → (s.sup.queue.map (·.ap)).Nodup →
    ∃ t, exec (.secondBoundary vane rain rainok) s = .next t ∧
      t.sup.queue.Pairwise (fun x y => x.lt y = true) ∧
      (∀ e ∈ t.sup.queue, e.cause = (t.ap e.ap).claimOr.cause ∧ e.deadline = (t.ap e.ap).claimOr.deadline ∧
        e.rank = (t.ap e.ap).fix.rank ∧
        (e.cause ≠ .advisory ∨ t.sup.advisory = none → e.load = (t.ap e.ap).fig.load) ∧
        (e.cause = .advisory → t.sup.advisory.isSome →
          ∀ q n, (t.ap e.ap).fig.adv = some (q, n) → e.load = q)) ∧
      t.sup.changeCount = s.sup.changeCount + (if t.sup.queue = s.sup.queue then 0 else 1) ∧
      ∀ b,
        (t.branch b).projection.length = (t.entriesOf b).length ∧
        (∀ k e, (t.entriesOf b)[k]? = some e →
          (t.branch b).projection[k]? = some (ceilDiv (((t.entriesOf b).take (k + 1)).map fun x =>
              (t.ap x.ap).fix.run * ceilDiv ((t.ap x.ap).fix.closeStroke * (t.ap x.ap).position.getD 0)
                1000).sum (t.branch b).limit + (k + 1) * (t.branch b).gap) ∧
          (e.late = true ↔ ∃ d, e.deadline = some d ∧ d < t.ds + (t.branch b).projection.getD k 0)) ∧
        ((t.branch b).late = true ↔ ∃ e ∈ t.entriesOf b, e.late = true) ∧
        ∀ p, p = .S ∨ p = .L → (t.port p).notices.length < 16 →
          ((s.branch b).late = false → (t.branch b).late = true → ∃ first,
            ((t.entriesOf b).filter (·.late)).head?.map (·.ap) = some first ∧
            ⟨t.sec, .planLate b ((t.entriesOf b).filter (·.late)).length first⟩ ∈ (t.port p).notices) ∧
          ((s.branch b).late = true → (t.branch b).late = false →
            ⟨t.sec, .planRecovered b⟩ ∈ (t.port p).notices)

/-- An entry to ACTIVE at a SECOND_BOUNDARY writes the Trigger Record with the second, the causes that installed
apertures have, the gust, bearing, rain state and condition word of the boundary, and the claims that stand then,
and queues WEATHER-STATE with its causes on every port (R77); any other boundary leaves it (R83). On an entry made
by an ADVISORY on Port S the figures are those of the latest gust update, passed on unchanged (R71); that this goes
for the condition word too where a CLEAR-CONDITIONS came since is the model's choice (assumption log 53). -/
def Obligations.EntryToActiveWritesTriggerRecord : Prop :=
  (∀ (s : State) (vane : Byte) (rain rainok : Bool),
    ∃ t, exec (.secondBoundary vane rain rainok) s = .next t ∧ t.sup.gustWord = t.fe.word ∧
      (s.sup.weather = .active ∨ t.sup.weather ≠ .active → t.sup.trigger = s.sup.trigger) ∧
      (s.sup.weather ≠ .active → t.sup.weather = .active → ∃ r, t.sup.trigger = some r ∧
        r.second = t.sec ∧ r.gust = t.fe.gust ∧ r.bearing = t.fe.bearing ∧ r.wet = t.fe.wet ∧
        r.word = t.fe.word ∧ r.claims = t.claims ∧
        (r.causes.rain = true ↔ ∃ i, (t.ap i).present ∧ HasCause t i .rain) ∧
        (r.causes.wind = true ↔ ∃ i, (t.ap i).present ∧ HasCause t i .wind) ∧
        (r.causes.advisory = true ↔ ∃ i, (t.ap i).present ∧ HasCause t i .advisory) ∧
        (r.causes.sensor = true ↔ t.fe.precaution.any = true) ∧
        NoticeQueued [.S, .L, .K] ⟨t.sec, .weatherState s.sup.weather .active t.claims r.causes⟩ s t)) ∧
  (∀ (s : State) (offset gust : BitVec 16) (flags : Byte), (s.port .S).ready → s.sup.computed = true →
    s.sup.weather ≠ .active → ∃ t, exec (.advisory .S offset gust flags) s = .next t ∧
      t.sup.gustWord = s.sup.gustWord ∧
      (t.sup.weather ≠ .active → t.sup.trigger = s.sup.trigger) ∧
      (t.sup.weather = .active → ∃ r, t.sup.trigger = some r ∧ r.second = s.sec ∧ r.gust = s.fe.gust ∧
        r.bearing = s.fe.bearing ∧ r.wet = s.fe.wet ∧ r.word = s.sup.gustWord ∧ r.claims = t.claims ∧
        NoticeQueued [.S, .L, .K] ⟨t.sec, .weatherState s.sup.weather .active t.claims r.causes⟩ s t))

/-- CLEAR_CONDITIONS on Port S clears the sticky bit of each condition that is not live, and answers OK with the
condition word after the request (R57); where a bit was cleared, SENSOR-CONDITION with the word after the change is
queued on Port S (R56). -/
def Obligations.ClearConditionsClearsStaleBits : Prop :=
  ∀ s : State, (s.port .S).ready →
    ∃ t, exec (.clearConditions .S) s = .next t ∧
      t.fe = { s.fe with word := { s.fe.word with
        sticky := s.fe.word.sticky.zip and s.fe.word.live } } ∧
      (t.port .S).holdsReply RequestKind.clearConditions.code (s.port .S).nextHeader
        ⟨.ok, eWord t.fe.word, false⟩ ∧
      { t with fe := s.fe, ports := s.ports } = s ∧ (t.port .L) = s.port .L ∧ (t.port .K) = s.port .K ∧
      (let falls := s.fe.word.sticky.zip (fun a b => a && !b) s.fe.word.live;
        (falls.any = true →
          NoticeQueued [.S] ⟨t.sec, .sensorCondition t.fe.word falls false⟩ s t) ∧
        (falls.any = false → (t.port .S).notices = (s.port .S).notices))

/-- HOLD_TIMER_EXPIRY (R33, R76): every WEATHER slot is removed and no other slot, the hold timer stops, and the
weather state passes to WATCH or CLEAR, with WEATHER-STATE queued on every port (R77); each target or class that
this changes is handed on to its aperture's motion and stall count (R12, R24, R118). The empty cause set of that
notice, the time of the expiry, and that an admission of the same event stands in the next state, are the model's
(assumption logs 28, 1 and 12). What a closing target is for the stall count is read by assumption log 16. -/
def Obligations.HoldExpiryRemovesClaims : Prop :=
  ∀ (s : State) (e : Nat), s.sup.holdTimer = some e →
    ∃ t, exec .holdTimerExpiry s = .next t ∧ t.clock.ms = max s.clock.ms (e * 1000) ∧
      (∀ i, (t.ap i).slate = { (s.ap i).slate with weather := none }) ∧ (∀ i, HandedOn i s t) ∧
      t.sup.holdTimer = none ∧
      t.sup.weather =
        (if s.sup.watchGust ≤ s.fe.gust ∨ s.sup.advisory.isSome then Weather.watch else .clear) ∧
      (s.sup.weather = .holding → NoticeQueued [.S, .L, .K]
        ⟨t.sec, .weatherState .holding t.sup.weather 0 ⟨false, false, false, false⟩⟩ s t) ∧
      t.sup.advisory = s.sup.advisory ∧ t.fe = s.fe ∧ t.fire = s.fire ∧ t.store = s.store ∧
      ∀ i, (t.ap i).position = (s.ap i).position ∧ (t.ap i).fix = (s.ap i).fix

/-- ADVISORY on Port S writes the advisory record from the clamped fields and answers with its arrival and expiry
times (R78). ADVISORY_EXPIRY, and ADVISORY_CANCEL on Port S, remove a held advisory with G_adv (R79); with no
advisory held, ADVISORY_CANCEL is answered OK and changes nothing else. No claim already posted goes; the
computation that follows each change judges the weather state and posts claims (R69, R75, R81, R82), and each target
or class that this changes is handed on to its aperture's motion and stall count (R12, R24, R118). That before the
first gust update after a reset no computation follows, the uptime at the expiry, its due time or later, and that an
admission of the same event stands in the next state, are the model's (assumption logs 24, 1 and 12). What a closing
target is for the stall count is read by assumption log 16. -/
def Obligations.AdvisoriesAreRecordedAndRemoved : Prop :=
  let updated := fun s t : State => (s.sup.computed = true → WeatherJudged s t ∧ ClaimsFollowNeeds s t) ∧
    (s.sup.computed = false → t.sup.weather = s.sup.weather ∧ ∀ i, (t.ap i).slate = (s.ap i).slate)
  (∀ s : State,
    (∀ d, s.sup.advisory = some d → ∃ t, exec .advisoryExpiry s = .next t ∧
      t.clock.ms = max s.clock.ms (d.expiry * 1000) ∧
      t.sup.advisory = none ∧ (s.sup.computed = true → t.sup.advGust = none) ∧ updated s t ∧
      (∀ i, (s.ap i).slate.weather.isSome → (t.ap i).slate.weather.isSome) ∧ (∀ i, HandedOn i s t) ∧
      (∀ i, (t.ap i).slate.life = (s.ap i).slate.life ∧ (t.ap i).position = (s.ap i).position) ∧
      t.fe = s.fe ∧ t.fire = s.fire ∧ t.store = s.store ∧ ∀ p, PortKept (s.port p) (t.port p)) ∧
    ((s.port .S).ready → s.sup.advisory = none → exec (.advisoryCancel .S) s =
      .next (s.answeredAt .S .advisoryCancel ⟨.ok, eBool false, false⟩)) ∧
    ((s.port .S).ready → s.sup.advisory.isSome → ∃ t, exec (.advisoryCancel .S) s = .next t ∧
      t.sup.advisory = none ∧ (s.sup.computed = true → t.sup.advGust = none) ∧
      (t.port .S).holdsReply RequestKind.advisoryCancel.code (s.port .S).nextHeader
        ⟨.ok, eBool true, false⟩ ∧ updated s t ∧
      (∀ i, (s.ap i).slate.weather.isSome → (t.ap i).slate.weather.isSome) ∧ (∀ i, HandedOn i s t) ∧
      (∀ i, (t.ap i).slate.life = (s.ap i).slate.life ∧ (t.ap i).position = (s.ap i).position) ∧
      t.clock = s.clock ∧ t.fe = s.fe ∧ t.fire = s.fire ∧ t.store = s.store)) ∧
  ∀ (s : State) (offset gust : BitVec 16) (flags : Byte), (s.port .S).ready →
    ∃ t, exec (.advisory .S offset gust flags) s = .next t ∧
      t.sup.advisory = some
        { arrival := s.sec + min 7200 offset.toNat, expiry := s.sec + min 7200 offset.toNat + 1800
          gust := min 600 gust.toNat, rain := flags.getLsbD 0 } ∧
      (t.port .S).holdsReply RequestKind.advisory.code (s.port .S).nextHeader
        ⟨okCode (decide (7200 < offset.toNat ∨ 600 < gust.toNat)),
          e4 (s.sec + min 7200 offset.toNat) ++ e4 (s.sec + min 7200 offset.toNat + 1800) ++
            eBool s.sup.advisory.isSome, false⟩ ∧
      (s.sup.computed = true → t.sup.advGust = some (max s.fe.gust (min 600 gust.toNat))) ∧ updated s t ∧
      (∀ i, (s.ap i).slate.weather.isSome → (t.ap i).slate.weather.isSome) ∧ (∀ i, HandedOn i s t) ∧
      (∀ i, (t.ap i).slate.life = (s.ap i).slate.life ∧ (t.ap i).position = (s.ap i).position) ∧
      t.clock = s.clock ∧ t.fe = s.fe ∧ t.fire = s.fire ∧ t.store = s.store

/-! ### Timers -/

/-- ROOM_EXPIRY (R35): the opening ROOM slot turns into ROOM CLOSE posted at the expiry time, with no expiry time;
the effective target follows and reaches the aperture's motion and stall count (R12, R24, R118); ORDER-CANCELLED is
queued to Port K where it has room, first of the event's notices (assumption log 14). That an admission of the same
event stands in the next state, and the uptime at the expiry, its due time or later, are the model's (assumption
logs 12 and 1). What a closing target is for the stall count is read by assumption log 16. -/
def Obligations.RoomExpiryTurnsOpeningIntoClose : Prop :=
  ∀ (s : State) (i : ApId) (x : Slot) (e : Nat), (s.ap i).slate.room = some x → x.expiry = some e →
    ∃ t, exec (.roomExpiry i) s = .next t ∧ t.clock.ms = max s.clock.ms (e * 100) ∧
      (t.ap i).slate = { (s.ap i).slate with room := some ⟨.pos 0, .port .K, e, none⟩ } ∧
      (t.ap i).effTarget = (t.ap i).slate.top.map (fun y => y.2.target) ∧
      HandedOn i s t ∧ (∀ j, j ≠ i → (t.ap j).slate = (s.ap j).slate) ∧
      ((s.port .K).notices.length < 16 →
        (s.port .K).notices ++ [⟨t.sec, .orderCancelled i .room x.target .expired⟩] <+:
          (t.port .K).notices) ∧
      Frame Aperture.stands (s.advanceTo (e * 100)) t

/-- The orders and conditions of the branches. R94: what an aperture contributes in each motion state, and the
committed current as their sum. R96: a branch's wait list holds its WAITING apertures with a motion, each once, with
class, direction, purpose and order time. R97: their order. R98 to R100, R104: which entries an attempt works on.
R102, R103: what fits, and when the gap has passed. R105: the candidates for a shedding in their order, and the
victims, the shortest run of them that frees enough current, if all together do. R86: the order of the Closure
Queue. -/
def Obligations.ListsAndVictimsFollowTheirOrders : Prop :=
  (∀ (s : State) (b : Branch),
    s.committed b = ((allAps.filter fun i => (s.ap i).fix.branch = b).map fun i => (s.ap i).contribution).sum ∧
    (∀ i, (s.ap i).contribution = match (s.ap i).state with
      | .starting => (s.ap i).fix.inrush
      | .running | .stopping => (s.ap i).fix.run
      | .offline => (s.ap i).held.getD 0
      | .fault | .rest | .waiting | .settling | .retryWait | .unknown | .absent => 0) ∧
    (∀ i, (∃ e ∈ waitList s b, e.ap = i) ↔
      (s.ap i).fix.branch = b ∧ (s.ap i).state = .waiting ∧ (s.ap i).motion.isSome) ∧
    ((waitList s b).map (·.ap)).Nodup ∧ (waitList s b).Pairwise WaitsBefore ∧
    (∀ e ∈ waitList s b, ∃ m, (s.ap e.ap).motion = some m ∧ e.cls = m.cls ∧ e.dir = m.dir ∧
      e.purpose = m.purpose ∧ e.place = s.sup.queue.findIdx? (fun x => x.ap = e.ap) ∧
      (∀ x, m.purpose = .normal → (s.ap e.ap).slate.get m.cls = some x → e.orderTime = x.posted) ∧
      (m.purpose = .backoff ∨ (s.ap e.ap).slate.get m.cls = none → e.orderTime = (s.ap e.ap).waitSince)) ∧
    (candidatesOf s b).Sublist (waitList s b) ∧
    (∀ e ∈ waitList s b, e ∈ candidatesOf s b ↔ Eligible s b e) ∧
    (∀ e, fits s b e = true ↔ s.committed b + (s.ap e.ap).fix.inrush ≤ (s.branch b).limit) ∧
    (gapPassed s b = true ↔ match (s.branch b).lastStart with
      | some start => start + (s.branch b).gap ≤ s.ds
      | none => s.loadEnd + (s.branch b).gap ≤ s.ds) ∧
    ∀ e, ∃ order : List ApId, order.Nodup ∧ (∀ i, i ∈ order ↔ Sheddable s b e.cls i) ∧
      order.Pairwise (ShedBefore s) ∧
      let stopping := ((allAps.filter fun i => (s.ap i).fix.branch = b ∧ (s.ap i).state = .stopping).map
        fun i => (s.ap i).fix.run).sum
      let freed := fun n => (s.branch b).limit + stopping - s.committed b +
        ((order.take n).map fun i => (s.ap i).contribution).sum
      (∀ n ≤ order.length, (s.ap e.ap).fix.inrush ≤ freed n →
        (∀ m < n, freed m < (s.ap e.ap).fix.inrush) → victims s b e = some (order.take n)) ∧
      (freed order.length < (s.ap e.ap).fix.inrush → victims s b e = none)) ∧
  ∀ x y : Entry, x.lt y = true ↔
    (x.deadline = none ∧ y.deadline.isSome) ∨
    (∃ d e, x.deadline = some d ∧ y.deadline = some e ∧ d < e) ∨
    (x.deadline = y.deadline ∧ (x.rank < y.rank ∨ x.rank = y.rank ∧
      (y.load < x.load ∨ x.load = y.load ∧ x.ap < y.ap)))

/-- QUIET_TIMER_EXPIRY and BRANCH_GAP_TIMER_EXPIRY (R98, R101 to R103, R105, R107): the timer stops, unless an
admission of the same event starts the gap timer again, and an admission attempt runs on the branch: the first
eligible entry is started where it fits and the gap has passed, with its inrush and gap timers running and a MOVE to
its target listed (R102, R113), victims are halted for a short LIFE or WEATHER entry, which is reserved, and a
reserved entry is considered alone. Nothing but admissions and sheddings happens, and no order, position or static
field changes. That a gap of 0 leaves no gap timer running is the model's reading (assumption log 40). The uptime at
the expiry, its due time or later, is the model's choice (assumption log 1). -/
def Obligations.BranchTimerExpiriesRunAnAttempt : Prop :=
  ∀ (s : State) (b : Branch) (e : Nat),
    ((s.branch b).quiet = some e → ∃ t, exec (.quietTimerExpiry b) s = .next t ∧
      (t.branch b).quiet = none ∧
      AttemptRan b ((s.advanceTo (e * 100)).modBranch b fun r => { r with quiet := none }) t ∧
      Frame Aperture.keep (s.advanceTo (e * 100)) t) ∧
    ((s.branch b).gapTimer = some e → ∃ t, exec (.branchGapTimerExpiry b) s = .next t ∧
      ((t.branch b).gapTimer = none ∨ (t.branch b).lastStart = some t.ds) ∧
      AttemptRan b ((s.advanceTo (e * 100)).modBranch b fun r => { r with gapTimer := none }) t ∧
      Frame Aperture.keep (s.advanceTo (e * 100)) t)

/-- INRUSH_TIMER_EXPIRY (R114): the commitment of a STARTING aperture falls to its run current and its motion
stands. TRAVEL_TIMER_EXPIRY (R117): the motion is halted with cause TIMEOUT, its timers stop, a HALT is listed,
no MOVE for it stays listed, and the motion field stands. The uptime at the expiry,
its due time or later, is the model's choice (assumption log 1). -/
def Obligations.InrushAndTravelExpiriesKeepTheMotion : Prop :=
  ∀ (s : State) (i : ApId) (e : Nat),
    ((s.ap i).state = .starting → (s.ap i).mon.inrush = some e →
      ∃ t, exec (.inrushTimerExpiry i) s = .next t ∧
        (t.ap i).contribution = (s.ap i).fix.run ∧
        ((t.ap i).state = .running ∨ (t.ap i).state = .stopping) ∧ (t.ap i).motion = (s.ap i).motion ∧
        Frame Aperture.keep (s.advanceTo (e * 100)) t) ∧
    ((s.ap i).state = .starting ∨ (s.ap i).state = .running → (s.ap i).mon.travel = some e →
      ∃ t, exec (.travelTimerExpiry i) s = .next t ∧ Halted i .timeout s t ∧
        Frame Aperture.keep (s.advanceTo (e * 100)) t)

/-- SETTLE_TIMER_EXPIRY and RETRY_TIMER_EXPIRY (R120, R122, R123): after a stop, after a stall or a back-off whose
closing is wanted no longer, and after the retry wait the aperture passes through REST and is judged by R9: on
target it rests, and off target it has a NORMAL motion to its effective target. With a closing still wanted the
back-off is set up, after a stall to the smaller of 1000 and 30 permille further open, after a back-off to its
kept position; with 5 permille or less to go the aperture waits for its retry instead, as it does, by the model's
choice (assumption log 64), where it stands more than 5 permille above the kept position. That the 30 permille are
measured from the position at the settle's expiry is the model's reading of R121 and R122 (assumption log 30).
The uptime at the expiry, its due time or later, is the model's choice (assumption log 1). -/
def Obligations.SettleAndRetryExpiriesJudgeAgain : Prop :=
  ∀ (s : State) (i : ApId) (c : Instr) (e : Nat),
    (c = .settleTimerExpiry i ∧ (s.ap i).state = .settling ∧ (s.ap i).mon.settle = some e) ∨
      (c = .retryTimerExpiry i ∧ (s.ap i).state = .retryWait ∧ (s.ap i).mon.retry = some e) →
    ((s.ap i).state = .retryWait ∨ (s.ap i).mon.settleCause = some .stop ∨ (s.ap i).wantsClosing = false →
      ((s.ap i).offTarget = false →
        ∃ t, exec c s = .next t ∧ (t.ap i).state = .rest ∧ (t.ap i).motion = none ∧
          (t.ap i).mon = .stopped ∧ (t.ap i).stallCount = (s.ap i).stallCount ∧
          Frame Aperture.keep (s.advanceTo (e * 100)) t) ∧
      (∀ x p, (s.ap i).offTarget = true → (s.ap i).effTarget = some (.pos x) →
        (s.ap i).position = some p →
        ∃ t, exec c s = .next t ∧ ((t.ap i).state = .waiting ∨ (t.ap i).state = .starting) ∧
          (t.ap i).motion = some ⟨x, if x < p then .closing else .opening,
            (s.ap i).effClass.getD .room, .normal⟩ ∧
          (t.ap i).stallCount = (s.ap i).stallCount ∧ Frame Aperture.keep (s.advanceTo (e * 100)) t)) ∧
    (∀ p m bp, (s.ap i).state = .settling → (s.ap i).wantsClosing = true → (s.ap i).position = some p →
      (s.ap i).motion = some m →
      ((s.ap i).mon.settleCause = some .stall ∧ bp = min 1000 (p + 30)) ∨
        ((s.ap i).mon.settleCause = some .backoff ∧ bp = m.target) →
      ∃ t, exec c s = .next t ∧ Frame Aperture.keep (s.advanceTo (e * 100)) t ∧
        (p + 5 < bp → ((t.ap i).state = .waiting ∨ (t.ap i).state = .starting) ∧
          (t.ap i).motion = some ⟨bp, .opening, m.cls, .backoff⟩) ∧
        (bp ≤ p + 5 → (t.ap i).state = .retryWait ∧ (t.ap i).mon.retry = some (t.ds + 50)))

/-- WARN_TIMER_EXPIRY (R127): the warning enters DONE when the zone has a closing and IDLE when it has none, and an
admission attempt runs on every branch whose wait list holds an entry of the zone (R99, R101), a start in it as R102
and R113 give (a gap of 0 leaves no timer, assumption log 40). The uptime at the expiry, its due time or later, is
the model's choice (assumption log 1). -/
def Obligations.WarnExpiryEndsWarning : Prop :=
  ∀ (s : State) (z : ZoneId) (e : Nat), (s.zones.warnings[z]).timer = some e →
    ∃ t, exec (.warnTimerExpiry z) s = .next t ∧
      t.zones.warnings[z] = ⟨if s.zoneCloses z then .done else .idle, none⟩ ∧
      (∀ i, (s.ap i).state = .waiting → s.governing i = some z → AttemptRan (s.ap i).fix.branch
        ((s.advanceTo (e * 100)).setWarning z ⟨if s.zoneCloses z then .done else .idle, none⟩) t) ∧
      Frame Aperture.keep (s.advanceTo (e * 100)) t

/-- Zone warnings and WARN lines (R126 to R128). Every command keeps their invariant: the timer runs exactly in
RUNNING, DONE stands only while the zone has a closing, and no aperture calls for a warning in a zone whose warning is
IDLE. Between resets, a command that writes at most one whole request, and is no store completion (which has a
statement of its own), starts a warning only where an aperture calls for it, with the full warn time; leaves a RUNNING
one alone but at its timer's expiry; and leaves one in DONE while a closing goes on waiting or being driven, or else
ends it, where no closing is left, or starts it anew. A zone's line is asserted exactly while its warning is RUNNING
or it has a closing, and never for a disabled descriptor or one without an installed aperture. That a warning is
judged at each change within an event is the model's reading (assumption log 15). -/
def Obligations.WarningsAndLinesFollowClosings : Prop :=
  ∀ (s t : State) (c : Instr), s.WarningsHold → exec c s = .next t →
    t.WarningsHold ∧
    (∀ z : ZoneId,
      (s.warnLine z = true ↔ (s.zones.warnings[z]).state = .running ∨ ∃ i, ClosingOf s z i) ∧
      (s.warnLine z = true →
        (s.zones.desc[z]).enabled = true ∧ ∃ i, (s.ap i).present ∧ s.governing i = some z)) ∧
    ((∀ b, c ≠ .por b ∧ c ≠ .pinReset b) → c ≠ .storeOperationComplete →
      ¬ servesAt s c .restart → ¬ servesAt s c .leaveCommissioning →
      (∀ p kind body, requestOf c = some (p, kind, body) → (s.port p).ready ∧ body.length ≤ 30) →
      ∀ z : ZoneId,
        let started := t.zones.warnings[z] = ⟨.running, some (t.ds + (s.zones.desc[z]).warn * 10)⟩ ∧
          ∃ i, CallsWarning t z i
        ((s.zones.warnings[z]).state = .idle → t.zones.warnings[z] = s.zones.warnings[z] ∨ started) ∧
        ((s.zones.warnings[z]).state = .running →
          (c ≠ .warnTimerExpiry z → t.zones.warnings[z] = s.zones.warnings[z]) ∧
          (c = .warnTimerExpiry z → t.zones.warnings[z] = ⟨if t.zoneCloses z then .done else .idle, none⟩)) ∧
        ((s.zones.warnings[z]).state = .done →
          (t.zones.warnings[z] = s.zones.warnings[z] ∨ t.zones.warnings[z] = ⟨.idle, none⟩ ∨ started) ∧
          ((∃ i, ClosingOf s z i ∧ ClosingOf t z i ∧
              ((s.ap i).state = .waiting ∧ (t.ap i).state = .waiting ∨
                (s.ap i).state.driving = true ∧ (t.ap i).state ≠ .waiting ∧
                  ∀ reply, c ≠ .exchangeCompleted reply)) →
            t.zones.warnings[z] = s.zones.warnings[z])))

/-- CONTACT_TIMER_EXPIRY (R119, R141): the current that an OFFLINE aperture holds is released; a STOPPING aperture
leaves by its halt cause for SETTLING, or after a TIMEOUT for REST where its position lies within 5 permille of the
motion's target and for FAULT(TIMEOUT) where it does not; in any other state, and where the current was released
before, nothing happens but that the timer stops; positions and orders stand in every case. That exact clause
supposes that no attempt is owed and reservations stand (assumption log 12), and it lets the free values be drawn
anew (log 26). The uptime at the expiry, its due time or later, is the model's choice (assumption log 1). -/
def Obligations.ContactExpiryReleasesCurrent : Prop :=
  ∀ (s : State) (i : ApId) (e : Nat), (s.ap i).node.contactTimer = some e →
    ∃ t, exec (.contactTimerExpiry i) s = .next t ∧ (t.ap i).node.contactTimer = none ∧
      ((s.ap i).state = .offline → (t.ap i).state = .offline ∧ (t.ap i).contribution = 0) ∧
      ((s.ap i).state = .stopping → StopConfirmed i s t) ∧
      (s.Settled → (s.ap i).state ≠ .stopping → (s.ap i).contribution = 0 ∨ (s.ap i).state ≠ .offline →
        t = ((s.advanceTo (e * 100)).modAp i fun a =>
          { a with node := { a.node with contactTimer := none } }).draw) ∧
      t.clock.ms = max s.clock.ms (e * 100) ∧ t.fe = s.fe ∧ t.fire = s.fire ∧ t.store = s.store ∧
      (∀ j, (t.ap j).slate = (s.ap j).slate ∧ (t.ap j).position = (s.ap j).position ∧
        (t.ap j).fix = (s.ap j).fix) ∧ ∀ p, PortKept (s.port p) (t.port p)

/-- The model's choice (assumption logs 4, 11 and 34): an expiry command of a timer that is not running, a store
completion with an idle store, a slot start while a slot runs, an exchange's completion while none runs, a
hold-off outside PENDING and the end of a strobe that is not held change nothing. -/
def Obligations.AbsentEventsChangeNothing : Prop :=
  ∀ (s : State) (i : ApId) (b : Branch) (z : ZoneId) (p : Port) (x : Strobe) (reply : List Byte),
    (s.link.inFlight.isSome → exec .linkSlotStart s = .next s) ∧
    (s.link.inFlight = none → exec (.exchangeCompleted reply) s = .next s) ∧
    ((s.port p).state ≠ .pending → exec (.waitHoldOff p x) s = .next s) ∧
    ((s.port p).held = none → exec (.heldStrobeEnd p) s = .next s) ∧
    (s.sup.holdTimer = none → exec .holdTimerExpiry s = .next s) ∧
    (s.sup.advisory = none → exec .advisoryExpiry s = .next s) ∧
    ((s.ap i).slate.room = none → exec (.roomExpiry i) s = .next s) ∧
    ((s.branch b).quiet = none → exec (.quietTimerExpiry b) s = .next s) ∧
    ((s.branch b).gapTimer = none → exec (.branchGapTimerExpiry b) s = .next s) ∧
    ((s.ap i).mon.inrush = none → exec (.inrushTimerExpiry i) s = .next s) ∧
    ((s.ap i).mon.travel = none → exec (.travelTimerExpiry i) s = .next s) ∧
    ((s.ap i).mon.settle = none → exec (.settleTimerExpiry i) s = .next s) ∧
    ((s.ap i).mon.retry = none → exec (.retryTimerExpiry i) s = .next s) ∧
    ((s.zones.warnings[z]).timer = none → exec (.warnTimerExpiry z) s = .next s) ∧
    ((s.ap i).node.contactTimer = none → exec (.contactTimerExpiry i) s = .next s) ∧
    (s.fire.debounce = none → exec .debounceTimerExpiry s = .next s) ∧
    ((s.port p).gapTimer = none → exec (.portGapTimerExpiry p) s = .next s) ∧
    (s.store.op = none → exec .storeOperationComplete s = .next s)

/-! ### The actuator link -/

/-- LINK_SLOT_START (R130, R134, R137, R139): the pending broadcast goes first; at a run count of 3 a POLL is forced;
otherwise the head of the HALT list, then the head of the MOVE list, each with the advanced send count as its tag, and
then a POLL. A POLL goes to the head of the priority list, or else to the first aperture not ABSENT from the ring
pointer upward, which then stands behind it; it carries the send count where that is known. With every aperture ABSENT
and nothing listed the line stays idle and the run count stands. That an order listed for an aperture that is UNKNOWN
is sent like any other is the model's choice against R142 (assumption log 61). That the slot starts at its due time or
later, and that an idle slot lasts 5 ms, is the model's choice (logs 1 and 34). -/
def Obligations.ArbiterFollowsItsOrder : Prop :=
  ∀ s : State, s.link.inFlight = none →
    ∃ t, exec .linkSlotStart s = .next t ∧ t.clock.ms = max s.clock.ms s.link.nextSlot ∧
      t.link.nextSlot = t.clock.ms + 5 ∧
      (s.link.broadcast = true →
        t.link.inFlight = some ⟨.broadcastHalt, 0, true, t.clock.ms + 5⟩ ∧ t.link.broadcast = false ∧
        t.link.run = min 3 (s.link.run + 1) ∧ t.aps = s.aps) ∧
      (s.link.broadcast = false →
        (s.link.run = 3 ∧ ∃ i, (s.ap i).present) ∨ (s.link.haltList = [] ∧ s.link.moveList = []) →
        (∀ i, s.link.priority.head? = some i ∨ (s.link.priority = [] ∧ (s.ap i).present ∧
            ∀ d : ApId, d < i - s.link.ring → ¬ (s.ap (s.link.ring + d)).present) →
          ∃ tag, t.link.inFlight = some ⟨.poll i, tag, true, t.clock.ms + 5⟩ ∧
            (∀ g, (s.ap i).node.sendCount = some g → tag = g) ∧ t.link.run = 0 ∧
            t.link.priority = s.link.priority.filter (fun j => j ≠ i) ∧
            t.link.ring = (if s.link.priority = [] then i + 1 else s.link.ring) ∧ t.aps = s.aps) ∧
        (s.link.priority = [] → (∀ i, ¬ (s.ap i).present) →
          t.link.inFlight = none ∧ t.link.run = s.link.run ∧ t.link.ring = s.link.ring ∧ t.aps = s.aps)) ∧
      (s.link.broadcast = false → s.link.run < 3 → ∀ i rest, s.link.haltList = i :: rest →
        t.link.inFlight =
            some ⟨.halt i, (s.ap i).node.sendCount.getD 0 + 1, true, t.clock.ms + 5⟩ ∧
          (t.ap i).node.sendCount = some ((s.ap i).node.sendCount.getD 0 + 1) ∧
          t.link.haltList = rest ∧ t.link.run = s.link.run + 1) ∧
      (s.link.broadcast = false → s.link.run < 3 → s.link.haltList = [] →
        ∀ i x rest, s.link.moveList = (i, x) :: rest →
          t.link.inFlight =
              some ⟨.move i x, (s.ap i).node.sendCount.getD 0 + 1, true, t.clock.ms + 5⟩ ∧
            (t.ap i).node.sendCount = some ((s.ap i).node.sendCount.getD 0 + 1) ∧
            t.link.moveList = rest ∧ t.link.run = s.link.run + 1) ∧
      (∀ i, (t.ap i).slate = (s.ap i).slate ∧ (t.ap i).state = (s.ap i).state ∧
        (t.ap i).position = (s.ap i).position) ∧ t.ports = s.ports ∧ t.store = s.store

/-- EXCHANGE_COMPLETED with a miss (R119, R131, R138, R140): the miss count rises to at most 3; below 3, and in
OFFLINE and, but for one case, FAULT at any count (R18, R140), it changes no motion state or position and queues no
notice. At 3, or at a later miss that finds the count there, an aperture in any other state enters OFFLINE with its
position unknown, its motion, timers and queue entry gone, and, where it was moving, with the current it contributed
kept until its contact timer expires (R18, R95; none where that has expired, assumption log 31); NODE-OFFLINE with the
state it left is queued on Port S and Port L. The one case is FAULT(TIMEOUT) entered at the node timeout, the node
silent since: whether it is left for OFFLINE at the third miss, with no commitment, as R119 says, or stays, as R18 and
R140 say, is a free value (assumption log 56), and the statement holds for either. A missed HALT returns to the head
of its list, in its old place, and so does a missed MOVE, unless it was withdrawn meanwhile or a newer one is listed,
which then stands; no order tag or slate changes. The slot of the broadcast HALT ends with no miss counted, no reply
read and no aperture changed (R130, R140). The MOVE's clauses and the exact ones suppose that no attempt is owed and
reservations stand (log 12), and let the free values be drawn anew (log 26). The uptime at the end of the slot is the
model's choice (logs 1 and 34). -/
def Obligations.MissedExchangeCounts : Prop :=
  (∀ (s : State) (f : InFlight) (reply : List Byte), s.link.inFlight = some f → f.what = .broadcastHalt →
    ∃ t, exec (.exchangeCompleted reply) s = .next t ∧ t.link.inFlight = none ∧ OnlyAttempts s t ∧
      t.clock.ms = max s.clock.ms f.ends ∧
      (∀ j, (t.ap j).node = (s.ap j).node ∧ (t.ap j).orderTag = (s.ap j).orderTag ∧
        (t.ap j).position = (s.ap j).position ∧ (t.ap j).slate = (s.ap j).slate) ∧
      (s.Settled → t = { s.advanceTo f.ends with link := { s.link with inFlight := none } }.draw)) ∧
  ∀ (s : State) (f : InFlight) (i : ApId) (reply : List Byte), s.link.inFlight = some f →
    f.what.node? = some i → parseReply i reply = none →
    ∃ t, exec (.exchangeCompleted reply) s = .next t ∧ t.link.inFlight = none ∧
      t.clock.ms = max s.clock.ms f.ends ∧
      (t.ap i).node.missCount = min 3 ((s.ap i).node.missCount + 1) ∧
      (2 ≤ (s.ap i).node.missCount → LeavesByMiss (s.ap i) →
        (t.ap i).state = .offline ∧ (t.ap i).position = none ∧ (t.ap i).motion = none ∧
          (t.ap i).mon = .stopped ∧ t.queued i = false ∧
          (t.ap i).contribution = (if (s.ap i).node.contactTimer.isSome then (s.ap i).contribution else 0) ∧
          NoticeQueued [.S, .L] ⟨t.sec, .nodeOffline i (s.ap i).state⟩ s t) ∧
      ((s.ap i).node.missCount < 2 ∨ ¬ LeavesByMiss (s.ap i) →
        OnlyAttempts s t ∧ (∀ j, (t.ap j).position = (s.ap j).position) ∧
        (s.Settled → t.ports = s.ports ∧ ∀ j, t.ap j = if j = i then
          { s.ap i with node := { (s.ap i).node with missCount := (t.ap i).node.missCount } } else s.ap j)) ∧
      ((s.ap i).state = .fault → ¬ SilentTimeout (s.ap i) ∨ (s.ap i).node.missCount < 2 →
        (t.ap i).state = .fault ∧ (t.ap i).fault = (s.ap i).fault) ∧
      (2 ≤ (s.ap i).node.missCount → SilentTimeout (s.ap i) → (t.ap i).contribution = 0 ∧
        if Config.thirdMissEndsTimeout then (t.ap i).state = .offline ∧ (t.ap i).fault = none
        else (t.ap i).state = .fault ∧ (t.ap i).fault = (s.ap i).fault) ∧
      (f.what = .halt i → t.link.haltList.head? = some i) ∧
      (∀ x, s.Settled → f.what = .move i x →
        (f.returns = true → (∀ m ∈ s.link.moveList, m.1 ≠ i) → t.link.moveList.head? = some (i, x)) ∧
        (f.returns = false ∨ (∃ m ∈ s.link.moveList, m.1 = i) →
          ∀ y, (i, y) ∈ t.link.moveList ↔ (i, y) ∈ s.link.moveList)) ∧
      (∀ j, (t.ap j).slate = (s.ap j).slate ∧ (t.ap j).orderTag = (s.ap j).orderTag ∧
        (t.ap j).fix = (s.ap j).fix) ∧
      t.fe = s.fe ∧ t.fire = s.fire ∧ t.store = s.store ∧ ∀ p, PortKept (s.port p) (t.port p)

/-- EXCHANGE_COMPLETED with a valid reply (R135, R136, R140, R141): the miss count is cleared and the contact timer
restarted; an accepted MOVE or HALT writes the order tag and puts the node at the head of the priority list; OFFLINE
ends in UNKNOWN, whatever the tag (R142; against R11, the model's choice, assumption log 59), with NODE-ONLINE queued
on Port S and Port L; no slate changes. The acceptance of a MOVE starts the travel timer of a STARTING or RUNNING
aperture by the formula of R115, unless an attempt of the same event sheds it; accepted in any other state, and on a
fresh status with MOVING set and LOCAL clear in a state without a motion, a HALT is listed and no MOVE stays listed
but that of an admission in the same event (R143). That the allowance is measured to the motion field's target, and
the uptime at the end of the slot, are the model's (assumption logs 37, 1 and 34). -/
def Obligations.ValidReplyRenewsContact : Prop :=
  ∀ (s : State) (f : InFlight) (i : ApId) (reply : List Byte) (r : LinkReply), s.link.inFlight = some f →
    f.what.node? = some i → parseReply i reply = some r →
    ∃ t, exec (.exchangeCompleted reply) s = .next t ∧ t.link.inFlight = none ∧
      t.clock.ms = max s.clock.ms f.ends ∧
      (t.ap i).node.missCount = 0 ∧ (t.ap i).node.lastContact = some t.ds ∧
      (t.ap i).node.contactTimer = some (t.ds + 20) ∧
      ((f.what = .halt i ∨ (∃ x, f.what = .move i x) ∧ r.refused = false) →
        (t.ap i).orderTag = some f.tag ∧ t.link.priority.head? = some i) ∧
      (f.what = .poll i → (s.ap i).orderTag = none → (t.ap i).orderTag = some r.tag ∧
        (t.ap i).node.sendCount = some r.tag) ∧
      ((s.ap i).state = .offline → (t.ap i).state = .unknown ∧ (t.ap i).position = none ∧
        NoticeQueued [.S, .L] ⟨t.sec, .nodeOnline i⟩ s t) ∧
      (∀ x m p, f.what = .move i x → r.refused = false →
        (s.ap i).state = .starting ∨ (s.ap i).state = .running → (s.ap i).motion = some m →
        (s.ap i).position = some p →
        (t.ap i).state = (s.ap i).state ∧ (t.ap i).mon.travel = some (t.ds +
            (ceilDiv ((match m.dir with
              | .closing => (s.ap i).fix.closeStroke
              | .opening => (s.ap i).fix.openStroke) * distance m.target p) 1000 * 3 / 2 + 20)) ∨
          (t.ap i).state = .stopping ∧ (t.ap i).mon.haltCause = some .shed) ∧
      ((∃ x, f.what = .move i x) ∧ r.refused = false ∧ (s.ap i).state ≠ .starting ∧
            (s.ap i).state ≠ .running ∨
          f.what = .poll i ∧ (s.ap i).orderTag = some r.tag ∧ r.moving = true ∧ r.keyed = false ∧
            (s.ap i).state.noMotion = true →
        i ∈ t.link.haltList ∧ ((∃ m ∈ t.link.moveList, m.1 = i) → (t.ap i).state = .starting)) ∧
      (∀ j, (t.ap j).slate = (s.ap j).slate ∧ (t.ap j).fix = (s.ap j).fix) ∧
      t.fe = s.fe ∧ t.fire = s.fire ∧ t.store = s.store ∧ ∀ p, PortKept (s.port p) (t.port p)

/-- A stale status (R136): the reply to a POLL with another tag than the order tag or before that is known, to a HALT,
and to a MOVE, but for a MOVE refused with LOCAL in STARTING or RUNNING (R124) and for the reply that ends OFFLINE
(R142). It writes no position and changes no motion state; where no attempt is owed and reservations stand (assumption
log 12), it changes of the apertures nothing but the node record and order tag of its own, and the travel timer that
an accepted MOVE starts, and neither supervision, branches, zones nor notices. -/
def Obligations.StaleStatusIsContactOnly : Prop :=
  ∀ (s : State) (f : InFlight) (i : ApId) (reply : List Byte) (r : LinkReply), s.link.inFlight = some f →
    f.what.node? = some i → parseReply i reply = some r → (s.ap i).state ≠ .offline →
    (f.what = .poll i → (s.ap i).orderTag ≠ some r.tag) →
    ((∃ x, f.what = .move i x) → r.refused = true →
      (s.ap i).state ≠ .starting ∧ (s.ap i).state ≠ .running) →
    ∃ t, exec (.exchangeCompleted reply) s = .next t ∧ OnlyAttempts s t ∧
      (∀ j, (t.ap j).position = (s.ap j).position) ∧
      (s.Settled →
        (∀ j, j ≠ i → t.ap j = s.ap j) ∧
        t.ap i = { s.ap i with
          node := (t.ap i).node, orderTag := (t.ap i).orderTag
          mon := { (s.ap i).mon with travel := (t.ap i).mon.travel } } ∧
        ((∀ x, f.what ≠ .move i x) ∨ r.refused = true ∨
            (s.ap i).state ≠ .starting ∧ (s.ap i).state ≠ .running →
          (t.ap i).mon.travel = (s.ap i).mon.travel) ∧
        t.sup = s.sup ∧ t.branches = s.branches ∧ t.zones = s.zones ∧ t.ports = s.ports)

/-- A fresh status (R7, R17, R19, R116, R119, R136): the reply to a POLL whose tag equals the known order tag writes
the position, 0 under CLOSED-LIMIT alone and 1000 under OPEN-LIMIT alone, clamped at 1000, and is then read by the
motion state. UNKNOWN ends in REST with MOVING clear, and with MOVING set stays UNKNOWN, its position not written; an
aperture at REST is judged; a WAITING one that is now on target is at REST (a back-off too, the model's reading,
assumption log 22). In STARTING and RUNNING without STALLED, MOVING set changes nothing more, and MOVING clear ends a
NORMAL motion at REST, with the stall count 0 at position 0, and a back-off in RETRY-WAIT. In STOPPING, MOVING clear
confirms the stop. SETTLING and RETRY-WAIT go on. FAULT(LOCAL) ends with LOCAL clear, and no other fault ends. A
member of the Closure Queue that is found at 0 leaves it with CLOSURE-DONE (R87). That an admission of the same event
stands in the next state is the model's reading (assumption log 12). -/
def Obligations.FreshStatusWritesPosition : Prop :=
  ∀ (s : State) (f : InFlight) (i : ApId) (reply : List Byte) (r : LinkReply), s.link.inFlight = some f →
    f.what = .poll i → parseReply i reply = some r → (s.ap i).orderTag = some r.tag →
    (s.ap i).state ≠ .absent → (s.ap i).state ≠ .offline →
    let p := if r.closed && !r.opened then 0
      else if r.opened && !r.closed then 1000 else min 1000 r.position
    let a := s.ap i
    ∃ t, exec (.exchangeCompleted reply) s = .next t ∧
      (a.state ≠ .unknown ∨ r.moving = false → (t.ap i).position = some p) ∧
      (a.state = .unknown → r.moving = true → (t.ap i).state = .unknown ∧ (t.ap i).position = a.position ∧
        (t.ap i).motion = a.motion ∧ (t.ap i).mon = a.mon) ∧
      (∀ j, j ≠ i → (t.ap j).position = (s.ap j).position) ∧ (∀ j, (t.ap j).slate = (s.ap j).slate) ∧
      (a.state = .unknown → r.moving = false → Rested i t) ∧
      (a.state = .rest → Judged i t) ∧
      (a.state = .waiting → ((t.ap i).offTarget = false → Rested i t) ∧ ((t.ap i).offTarget = true →
        ((t.ap i).state = .waiting ∨ (t.ap i).state = .starting) ∧ (t.ap i).motion = a.motion)) ∧
      (∀ m, a.state = .starting ∨ a.state = .running → r.stalled = false → a.motion = some m →
        (r.moving = true → MotionStands i s t) ∧
        (r.moving = false → m.purpose = .normal →
          Rested i t ∧ (t.ap i).stallCount = if p = 0 then 0 else a.stallCount) ∧
        (r.moving = false → m.purpose = .backoff → (t.ap i).state = .retryWait ∧
          (t.ap i).mon = { Monitor.stopped with retry := some (t.ds + 50) } ∧ (t.ap i).contribution = 0 ∧
          (t.ap i).motion = a.motion ∧ (t.ap i).stallCount = a.stallCount)) ∧
      (a.state = .stopping → (r.moving = false → StopConfirmed i s t) ∧
        (r.moving = true → (t.ap i).state = .stopping ∧ (t.ap i).motion = a.motion)) ∧
      (a.state = .settling ∨ a.state = .retryWait → (t.ap i).state = a.state ∧
        (t.ap i).motion = a.motion ∧ (t.ap i).mon = a.mon) ∧
      (∀ k e, a.state = .fault → a.fault = some ⟨k, e⟩ →
        (k = .localControl → r.keyed = false → Rested i t) ∧
        (k ≠ .localControl ∨ r.keyed = true → (t.ap i).state = .fault ∧ (t.ap i).fault = a.fault)) ∧
      ∀ e, s.sup.queue.find? (fun x => x.ap = i) = some e → p = 0 → (a.state ≠ .unknown ∨ r.moving = false) →
        t.queued i = false ∧ NoticeQueued [.S, .K] ⟨t.sec, .closureDone i e.cause⟩ s t

/-- A fresh STALLED status on a closing raises its stall count and releases its current: with the third stall the
aperture enters FAULT(STALL), with an earlier one SETTLING; on an opening or a back-off it enters FAULT(STALL) at
once with the count as it was (R121). A MOVE answered with LOCAL takes an aperture in STARTING or RUNNING to
FAULT(LOCAL), its order tag standing where it was known (R124). Each entry to FAULT queues APERTURE-FAULT on Port S
and Port L (R13). -/
def Obligations.StallsAndLocalRefusalsFault : Prop :=
  ∀ (s : State) (f : InFlight) (i : ApId) (reply : List Byte) (r : LinkReply) (x : Nat) (c : OrderClass),
    s.link.inFlight = some f → parseReply i reply = some r →
    ((s.ap i).state = .starting ∨ (s.ap i).state = .running) →
    (f.what = .poll i → (s.ap i).orderTag = some r.tag →
      (s.ap i).motion = some ⟨x, .closing, c, .normal⟩ → r.stalled = true →
      ∃ t, exec (.exchangeCompleted reply) s = .next t ∧
        (t.ap i).stallCount = min 3 ((s.ap i).stallCount + 1) ∧ (t.ap i).contribution = 0 ∧
        (2 ≤ (s.ap i).stallCount → Faulted i .stall s t) ∧
        ((s.ap i).stallCount < 2 → Settling i .stall s t)) ∧
    (∀ m, f.what = .poll i → (s.ap i).orderTag = some r.tag → (s.ap i).motion = some m →
      m.dir = .opening ∨ m.purpose = .backoff → r.stalled = true →
      ∃ t, exec (.exchangeCompleted reply) s = .next t ∧ Faulted i .stall s t ∧
        (t.ap i).stallCount = (s.ap i).stallCount) ∧
    (f.what = .move i x → r.refused = true → (s.ap i).orderTag.isSome →
      ∃ t, exec (.exchangeCompleted reply) s = .next t ∧ Faulted i .localControl s t ∧
        (t.ap i).orderTag = (s.ap i).orderTag ∧
        ∀ j, (t.ap j).slate = (s.ap j).slate)

/-! ### Fire -/

/-- DEBOUNCE_TIMER_EXPIRY (R146 to R150, R154): an asserted line takes NORMAL to ALARM and posts the slot that
R148's table gives by life role and kind on every installed aperture whose LIFE slot holds no Port L order; it takes
RESTORE-WAIT to ALARM and posts only where the LIFE slot is absent; each target or class that this changes is handed
on to its aperture's motion and stall count (R12, R24, R118), an admission of the same event standing in the next
state (log 12); a deasserted line takes ALARM to RESTORE-WAIT and leaves every slate; each change queues its
FIRE-STATE notice on Port S and Port L, before the event's other notices (assumption log 14 has the PLAN notices
last). A line that agrees with the debounced level changes no order, position or notice; where no attempt is owed
and every reservation stands (log 12) it changes nothing at all but the uptime, the timer and the counter of the
free values (log 26). The timer's count in ms and the uptime at the expiry are the model's choice (logs 57 and 1).
What a closing target is for the stall count is read by assumption log 16. -/
def Obligations.DebounceDrivesFireState : Prop :=
  (∀ (s : State) (i : ApId), (s.governing i = none → alarmTarget s i = none) ∧
    ∀ z, s.governing i = some z →
      let role := (s.zones.desc[z]).role
      let x := (s.ap i).fix
      (role = .none → alarmTarget s i = none) ∧ (role = .compartment → alarmTarget s i = some 0) ∧
      (role = .vent → x.kind = .ventWindow ∨ x.kind = .ventSkylight → alarmTarget s i = some x.vent) ∧
      (role = .vent → x.kind = .window ∨ x.kind = .skylight → alarmTarget s i = none)) ∧
  ∀ (s : State) (e : Nat), s.fire.debounce = some e →
    (s.pins.alarm = true → s.fire.level = false → s.fire.state = .normal →
      ∃ t, exec .debounceTimerExpiry s = .next t ∧ t.fire = ⟨.alarm, true, none⟩ ∧
        (∀ i, (t.ap i).slate =
          match alarmTarget s i with
          | some x =>
            if (s.ap i).present && ((s.ap i).slate.life.isNone || (s.ap i).alarmHeld) then
              { (s.ap i).slate with life := some ⟨.pos x, .alarm, t.ds, none⟩ }
            else (s.ap i).slate
          | none => (s.ap i).slate) ∧
        (∀ i, HandedOn i s t) ∧
        FireAnnounced .normal .alarm s t ∧ t.clock.ms = max s.clock.ms e ∧ t.fe = s.fe ∧
        t.store = s.store ∧ (∀ i, (t.ap i).position = (s.ap i).position) ∧
        ∀ p, PortKept (s.port p) (t.port p)) ∧
    (s.pins.alarm = true → s.fire.level = false → s.fire.state = .restoreWait →
      ∃ t, exec .debounceTimerExpiry s = .next t ∧ t.fire = ⟨.alarm, true, none⟩ ∧
        (∀ i, (t.ap i).slate =
          match alarmTarget s i with
          | some x =>
            if (s.ap i).present && (s.ap i).slate.life.isNone then
              { (s.ap i).slate with life := some ⟨.pos x, .alarm, t.ds, none⟩ }
            else (s.ap i).slate
          | none => (s.ap i).slate) ∧
        (∀ i, HandedOn i s t) ∧
        FireAnnounced .restoreWait .alarm s t ∧ t.clock.ms = max s.clock.ms e ∧ t.fe = s.fe ∧
        t.store = s.store ∧ (∀ i, (t.ap i).position = (s.ap i).position) ∧
        ∀ p, PortKept (s.port p) (t.port p)) ∧
    (s.pins.alarm = false → s.fire.level = true → s.fire.state = .alarm →
      ∃ t, exec .debounceTimerExpiry s = .next t ∧ t.fire = ⟨.restoreWait, false, none⟩ ∧
        FireAnnounced .alarm .restoreWait s t ∧ (∀ i, (t.ap i).slate = (s.ap i).slate) ∧
        ∀ p, PortKept (s.port p) (t.port p)) ∧
    (s.pins.alarm = s.fire.level →
      ∃ t, exec .debounceTimerExpiry s = .next t ∧ t.fire = { s.fire with debounce := none } ∧
        t.ports = s.ports ∧ t.clock.ms = max s.clock.ms e ∧ t.fe = s.fe ∧ t.store = s.store ∧
        (∀ i, (t.ap i).slate = (s.ap i).slate ∧ (t.ap i).position = (s.ap i).position) ∧
        (s.Settled → t = { s.advanceTo e with fire := { s.fire with debounce := none } }.draw))

/-- ALARM_RESTORE on Port L (R152, R153): refused with ALARM-ACTIVE in ALARM, answered OK in NORMAL, and in
RESTORE-WAIT it takes the fire state to NORMAL and removes every alarm-origin LIFE slot and no other slot, and
queues FIRE-STATE with 0 slots left on Port S and Port L (R154); each target or class that this changes is handed on
to its aperture's motion and stall count (R12, R24, R118). That an admission of the same event stands in the next
state is the model's reading (assumption log 12). What a closing target is for the stall count is read by assumption
log 16. -/
def Obligations.AlarmRestoreRemovesAlarmSlots : Prop :=
  ∀ s : State, (s.port .L).ready →
    (s.fire.state = .alarm → exec (.alarmRestore .L) s =
      .next (s.answeredAt .L .alarmRestore ⟨.alarmActive, [], false⟩)) ∧
    (s.fire.state = .normal → exec (.alarmRestore .L) s =
      .next (s.answeredAt .L .alarmRestore ⟨.ok, e1 0 ++ e1 0, false⟩)) ∧
    (s.fire.state = .restoreWait → ∃ t, exec (.alarmRestore .L) s = .next t ∧
      t.fire = { s.fire with state := .normal } ∧
      (∀ i, (t.ap i).slate = if (s.ap i).present && (s.ap i).alarmHeld then
        { (s.ap i).slate with life := none } else (s.ap i).slate) ∧
      (∀ i, HandedOn i s t) ∧
      (t.port .L).holdsReply RequestKind.alarmRestore.code (s.port .L).nextHeader
        ⟨.ok, e1 0 ++ e1 s.alarmSlots, false⟩ ∧
      NoticeQueued [.S, .L] ⟨s.sec, .fireState .restoreWait .normal 0⟩ s t ∧
      t.clock = s.clock ∧ t.fe = s.fe ∧ t.store = s.store ∧
      ∀ i, (t.ap i).position = (s.ap i).position ∧ (t.ap i).fix = (s.ap i).fix)

/-! ### Ports: strobes -/

/-- REQUEST_BYTE_WRITE (R157, R159, R160): a first byte starts a request, discarding an unread reply with RDISC;
in ASSEMBLING a length byte above 30 discards the request with FRM, a byte of a discarded request is dropped,
and any other byte that does not complete the request is added; in PENDING the strobe is held. The byte that
completes a request has it taken, its three checks made (R158), and then the effect of the row that writes the
whole request: a kind unknown is refused with BAD-FORMAT, one the port may not use with WRONG-PORT, a wrong length
with BAD-FORMAT. That a row is its bytes written one after another is the model's reading (assumption log 9). -/
def Obligations.WrittenBytesAssemble : Prop :=
  ∀ (s : State) (p : Port) (b : Byte),
    ((s.port p).state = .idle ∨ (s.port p).state = .replying →
      exec (.requestByteWrite p false b) s = .next (s.modPort p fun r =>
        { r with
          state := .assembling, reqBuf := [b], discarded := false, replyBuf := [], unread := false
          rdisc := r.rdisc || decide (r.state = .replying), gapTimer := some (s.clock.ms + 100) })) ∧
    ((s.port p).state = .assembling → (s.port p).discarded = true → (s.port p).reqBuf = [] →
      exec (.requestByteWrite p false b) s = .next (s.modPort p fun r =>
        { r with gapTimer := some (s.clock.ms + 100) })) ∧
    (∀ kind, (s.port p).state = .assembling → (s.port p).discarded = false → (s.port p).reqBuf = [kind] →
      30 < b.toNat → exec (.requestByteWrite p false b) s = .next (s.modPort p fun r =>
        { r with gapTimer := some (s.clock.ms + 100), reqBuf := [], frm := true, discarded := true })) ∧
    (∀ kind, (s.port p).state = .assembling → (s.port p).discarded = false → (s.port p).reqBuf = [kind] →
      0 < b.toNat → b.toNat ≤ 30 → exec (.requestByteWrite p false b) s = .next (s.modPort p fun r =>
        { r with gapTimer := some (s.clock.ms + 100), reqBuf := [kind, b] })) ∧
    (∀ kind n body, (s.port p).state = .assembling → (s.port p).discarded = false →
      (s.port p).reqBuf = kind :: n :: body → body.length + 1 < n.toNat →
      exec (.requestByteWrite p false b) s = .next (s.modPort p fun r =>
        { r with gapTimer := some (s.clock.ms + 100), reqBuf := kind :: n :: (body ++ [b]) })) ∧
    ((s.port p).state = .pending → (s.port p).held = none →
      exec (.requestByteWrite p false b) s = .next (s.modPort p fun r => { r with held := some (.write b) })) ∧
    (∀ kind body, (s.port p).state = .assembling → (s.port p).discarded = false → (s.port p).held = none →
      body.length ≤ 30 → (s.port p).reqBuf ++ [b] = requestBytes kind body →
      let refused := fun c => exec (.requestByteWrite p false b) s =
        .next (s.modPort p fun r => r.answered kind ⟨c, [], false⟩)
      (kindOf kind = none → refused .badFormat) ∧
      (∀ k, kindOf kind = some k → k.allowedOn p = false → refused .wrongPort) ∧
      (∀ k, kindOf kind = some k → k.allowedOn p = true → k.lengthOk body.length = false →
        refused .badFormat)) ∧
    ∀ (c : Instr) (kind : Byte) (body front : List Byte) (gap : Option Nat),
      requestOf c = some (p, kind, body) → body.length ≤ 30 → front ++ [b] = requestBytes kind body →
      (s.port p).state = .idle →
      exec (.requestByteWrite p false b) (s.modPort p fun r =>
        { r with
          state := .assembling, reqBuf := front, discarded := false, replyBuf := [], unread := false
          gapTimer := gap }) = exec c s

/-- REPLY_BYTE_READ (R159, R160): in REPLYING the next unread byte is returned, RRDY is cleared, and the last
byte returns the port to IDLE; in IDLE and ASSEMBLING it returns 0xFF; in PENDING it is held. A strobe with CS_n
high is not seen, and a write with STSEL high is ignored (R156). In PENDING a strobe is held under WAIT, and a whole
request is one held write strobe (the model's reading of a request row, assumption log 9); a held
strobe that ends sets OVR and releases WAIT, dropping a write's byte and returning 0xFF to a read (R159). The gap
timer's expiry in ASSEMBLING discards the request with FRM, unless it was marked discarded already, and returns
the port to IDLE (R157). The uptime at that expiry is the
model's choice (assumption log 1). -/
def Obligations.StrobesFollowPortState : Prop :=
  (∀ (s : State) (c : Instr) (p : Port) (kind : Byte) (body : List Byte),
    requestOf c = some (p, kind, body) → (s.port p).state = .pending →
    exec c s = .next (s.modPort p fun r =>
      { r with held := if r.held = none then some (.write kind) else r.held })) ∧
  ∀ (s : State) (p : Port) (x : Strobe) (csN : Bool) (b : Byte),
    (∀ c rest, (s.port p).state = .replying → (s.port p).replyBuf = c :: rest →
      exec (.replyByteRead p false) s = .next (s.modPort p fun r =>
        { r with
          dOut := some c, replyBuf := rest, unread := false
          state := if rest.isEmpty then .idle else .replying })) ∧
    ((s.port p).state = .idle ∨ (s.port p).state = .assembling →
      exec (.replyByteRead p false) s = .next (s.modPort p fun r => { r with dOut := some 0xFF })) ∧
    ((s.port p).state = .pending → (s.port p).held = none →
      exec (.replyByteRead p false) s = .next (s.modPort p fun r => { r with held := some .read })) ∧
    exec (.statusWrite p csN b) s = .next s ∧ exec (.requestByteWrite p true b) s = .next s ∧
    exec (.replyByteRead p true) s = .next s ∧
    ((s.port p).state = .pending → (s.port p).held = none →
      exec (.waitHoldOff p x) s = .next (s.modPort p fun r => { r with held := some x })) ∧
    ((s.port p).held = some (.write b) →
      exec (.heldStrobeEnd p) s = .next (s.modPort p fun r => { r with held := none, ovr := true })) ∧
    ((s.port p).held = some .read → exec (.heldStrobeEnd p) s =
      .next (s.modPort p fun r => { r with held := none, ovr := true, dOut := some 0xFF })) ∧
    (∀ e, (s.port p).state = .assembling → (s.port p).gapTimer = some e →
      exec (.portGapTimerExpiry p) s = .next ((s.advanceTo e).modPort p fun r =>
        { r with
          state := .idle, reqBuf := [], gapTimer := none, discarded := false
          frm := if r.discarded then r.frm else true }))

/-! ### Ports: requests -/

/-- The checks of R158 at the taking, in order: an unknown kind is refused with BAD-FORMAT, a kind the port may
not use with WRONG-PORT, a wrong length with BAD-FORMAT; nothing else changes. -/
def Obligations.TakingChecksRefuse : Prop :=
  ∀ (s : State) (c : Instr) (p : Port) (kind : Byte) (body : List Byte),
    requestOf c = some (p, kind, body) → (s.port p).ready → body.length ≤ 30 →
    (kindOf kind = none →
      exec c s = .next (s.modPort p fun r => r.answered kind ⟨.badFormat, [], false⟩)) ∧
    (∀ k, kindOf kind = some k → k.allowedOn p = false →
      exec c s = .next (s.answeredAt p k ⟨.wrongPort, [], false⟩)) ∧
    (∀ k, kindOf kind = some k → k.allowedOn p = true → k.lengthOk body.length = false →
      exec c s = .next (s.answeredAt p k ⟨.badFormat, [], false⟩))

/-- ORDER (R26 to R28, R34): an order that passes its checks is posted as the port's own slot with the clamped
target, the target and class are derived and, where they changed, reach the aperture's motion (R10, R24, R25, R118,
R122): at REST it is judged, moving it is retargeted or halted, and the stall count goes to 0 where a closing target
becomes an opening one off target, and stands otherwise (R12); the reply echoes them, and no other slate changes.
That an admission of the same event stands in the next state is the model's reading (assumption log 12), and that
form 1 with any value is taken as HOLD and answered OK its choice (log 51). What a closing target is for the stall
count is read by assumption log 16. -/
def Obligations.OrderPostsOwnSlot : Prop :=
  ∀ (s : State) (p : Port) (index form : Byte) (value : BitVec 16) (i : ApId) (x : Target) (clamped : Bool),
    (s.port p).ready → apNamed s index.toNat = some i → (s.zoneOf i).right p = .order →
    parseTarget form.toNat value.toNat = some (x, clamped) →
    ¬ (p ≠ .L ∧ x.opening = true ∧ (s.ap i).slate.weather.isSome = true) →
    ∃ t, exec (.order p index form value) s = .next t ∧
      (t.ap i).slate = (s.ap i).slate.put (portClass p)
        (some { target := x, origin := .port p, posted := s.ds
                expiry := if p = .K ∧ x.opening = true ∧ 0 < s.roomLifetime
                  then some (s.ds + s.roomLifetime * 600) else none }) ∧
      (t.ap i).effTarget = (t.ap i).slate.top.map (fun y => y.2.target) ∧
      (t.ap i).effClass = (t.ap i).slate.top.map (fun y => y.1) ∧
      HandedOn i s t ∧
      (∀ j, j ≠ i → (t.ap j).slate = (s.ap j).slate ∧ (t.ap j).effTarget = (s.ap j).effTarget) ∧
      (t.port p).holdsReply RequestKind.order.code (s.port p).nextHeader
        ⟨if clamped then .okClamped else .ok,
          eIndex (some i) ++ eTarget (some x) ++ eTarget (t.ap i).effTarget ++ eClass (t.ap i).effClass,
          false⟩ ∧
      RestKept Aperture.stands p s t

/-- The refusals of ORDER, ORDER_ZONE, RELEASE and CLEAR_FAULT (R14, R26, R28 to R30, R40, R41), each leaving
everything but the port's reply as it was. That a wrong target form is refused after the right check is the
model's choice (assumption log 18). -/
def Obligations.RefusedOrdersChangeNothing : Prop :=
  ∀ (s : State) (p : Port) (index form : Byte) (value : BitVec 16), (s.port p).ready →
    (apNamed s index.toNat = none → exec (.order p index form value) s =
      .next (s.answeredAt p .order ⟨.noAperture, [], false⟩)) ∧
    (∀ i, apNamed s index.toNat = some i → (s.zoneOf i).right p ≠ .order →
      exec (.order p index form value) s = .next (s.answeredAt p .order ⟨.noRight, [], false⟩)) ∧
    (∀ i, apNamed s index.toNat = some i → (s.zoneOf i).right p = .order → 1 < form.toNat →
      exec (.order p index form value) s = .next (s.answeredAt p .order ⟨.badFormat, [], false⟩)) ∧
    (∀ i, apNamed s index.toNat = some i → (s.zoneOf i).right p = .order → p ≠ .L → form.toNat = 0 →
      0 < value.toNat → (s.ap i).slate.weather.isSome → exec (.order p index form value) s =
        .next (s.answeredAt p .order ⟨.weatherHeld, [], false⟩)) ∧
    (8 < index.toNat → exec (.orderZone p index form value) s =
      .next (s.answeredAt p .orderZone ⟨.badFormat, [], false⟩)) ∧
    (∀ z, zoneNamed index.toNat = some z → (s.descriptor z).right p ≠ .order →
      exec (.orderZone p index form value) s = .next (s.answeredAt p .orderZone ⟨.noRight, [], false⟩)) ∧
    (∀ z, zoneNamed index.toNat = some z → (s.descriptor z).right p = .order → 1 < form.toNat →
      exec (.orderZone p index form value) s = .next (s.answeredAt p .orderZone ⟨.badFormat, [], false⟩)) ∧
    (apNamed s index.toNat = none → exec (.release p index) s =
      .next (s.answeredAt p .release ⟨.noAperture, [], false⟩)) ∧
    (∀ i, apNamed s index.toNat = some i → (s.zoneOf i).right p ≠ .order →
      exec (.release p index) s = .next (s.answeredAt p .release ⟨.noRight, [], false⟩)) ∧
    (p ≠ .K → apNamed s index.toNat = none → exec (.clearFault p index) s =
      .next (s.answeredAt p .clearFault ⟨.noAperture, [], false⟩)) ∧
    (∀ i, p ≠ .K → apNamed s index.toNat = some i → (s.zoneOf i).right p ≠ .order →
      exec (.clearFault p index) s = .next (s.answeredAt p .clearFault ⟨.noRight, [], false⟩))

/-- ORDER_ZONE (R41): the port's own slot is posted on every installed aperture that the named descriptor governs
and the weather does not hold, at one posting time, and on no other; each target that changes is handed on to its
aperture's motion and stall count (R12, R24); the reply counts both. That an admission of the same event stands in
the next state is the model's reading (assumption log 12); that a clamped target for a descriptor without an
installed aperture is answered OK-CLAMPED, and that form 1 with any value is taken as HOLD, are its choices (logs 62
and 51). What a closing target is for the stall count is read by assumption log 16. -/
def Obligations.OrderZonePostsOnItsMembers : Prop :=
  ∀ (s : State) (p : Port) (zone form : Byte) (value : BitVec 16) (z : Option ZoneId) (x : Target)
      (clamped : Bool),
    (s.port p).ready → zoneNamed zone.toNat = some z → (s.descriptor z).right p = .order →
    parseTarget form.toNat value.toNat = some (x, clamped) →
    ∃ t, exec (.orderZone p zone form value) s = .next t ∧
      (∀ i, (t.ap i).slate =
        if (s.ap i).present ∧ s.governing i = z ∧ weatherHeld s p i x = false then
          (s.ap i).slate.put (portClass p) (some (portSlot s p x))
        else (s.ap i).slate) ∧
      (t.port p).holdsReply RequestKind.orderZone.code (s.port p).nextHeader
        ⟨if clamped then .okClamped else .ok,
          e1 ((s.members z).filter fun i => !weatherHeld s p i x).length ++
            e1 ((s.members z).filter fun i => weatherHeld s p i x).length ++ eTarget (some x), false⟩ ∧
      (∀ i, (s.ap i).present → s.governing i = z → weatherHeld s p i x = false → HandedOn i s t) ∧
      RestKept Aperture.stands p s t

/-- RELEASE (R30, R31, R151): the port's own slot is removed, a Port L slot released in ALARM or RESTORE-WAIT is
replaced by the alarm-origin slot its role gives, and no other slot changes; a changed target reaches the aperture's
motion and stall count (R12, R24, R118). That an admission of the same event stands in the next state is the model's
reading (assumption log 12). What a closing target is for the stall count is read by assumption log 16. -/
def Obligations.ReleaseRemovesOwnSlot : Prop :=
  ∀ (s : State) (p : Port) (index : Byte) (i : ApId), (s.port p).ready →
    apNamed s index.toNat = some i → (s.zoneOf i).right p = .order →
    ∃ t, exec (.release p index) s = .next t ∧
      (t.ap i).slate = (if (ownSlot s p i).isSome then
        (s.ap i).slate.put (portClass p)
          (if p = .L ∧ s.fire.state ≠ .normal then alarmSlot s i else none)
        else (s.ap i).slate) ∧
      HandedOn i s t ∧ (∀ j, j ≠ i → (t.ap j).slate = (s.ap j).slate) ∧
      (t.port p).holdsReply RequestKind.release.code (s.port p).nextHeader
        ⟨.ok, eBool (ownSlot s p i).isSome ++ eTarget (t.ap i).effTarget ++ eClass (t.ap i).effClass,
          false⟩ ∧
      RestKept Aperture.stands p s t

/-- CLEAR_FAULT on Port S and Port L (R14): FAULT(STALL) is cleared with its stall count, FAULT(TIMEOUT) without, and
the aperture passes to REST and is judged there at once (R9); orders and positions stand. In FAULT(LOCAL), and in any
state but FAULT, nothing changes but the reply, and the free values may be drawn anew (assumption log 26); that exact
clause supposes that no attempt is owed and reservations stand (log 12). That an admission of the same event stands in
the next state, and in the motion state that the reply reports, is the model's reading (logs 12 and 20). -/
def Obligations.ClearFaultClearsStallAndTimeout : Prop :=
  ∀ (s : State) (p : Port) (index : Byte) (i : ApId), p = .S ∨ p = .L → (s.port p).ready →
    apNamed s index.toNat = some i → (s.zoneOf i).right p = .order →
    ∃ t, exec (.clearFault p index) s = .next t ∧
      (∀ e, (s.ap i).state = .fault → (s.ap i).fault = some ⟨.stall, e⟩ →
        Rested i t ∧ (t.ap i).stallCount = 0) ∧
      (∀ e, (s.ap i).state = .fault → (s.ap i).fault = some ⟨.timeout, e⟩ →
        Rested i t ∧ (t.ap i).stallCount = (s.ap i).stallCount) ∧
      (∀ e, (s.ap i).state = .fault → (s.ap i).fault = some ⟨.localControl, e⟩ →
        (t.ap i).state = .fault ∧ (t.ap i).fault = (s.ap i).fault) ∧
      (s.Settled → (s.ap i).state ≠ .fault ∨ (∃ e, (s.ap i).fault = some ⟨.localControl, e⟩) →
        t = s.draw.answeredAt p .clearFault ⟨.ok,
          eIndex (some i) ++ e1 (s.ap i).state.code ++ e1 (faultCode ((s.ap i).fault.map (·.kind))), false⟩) ∧
      (t.port p).holdsReply RequestKind.clearFault.code (s.port p).nextHeader
        ⟨.ok, eIndex (some i) ++ e1 (t.ap i).state.code ++ e1 (faultCode ((t.ap i).fault.map (·.kind))),
          false⟩ ∧
      RestKept Aperture.keep p s t

/-- The queries (R21, R42, R83, R90, R91, R110) answer OK on any port with the body of chapter Formats and
change nothing but the port's reply, so that two with no event between them report the same record, and what
QUERY-WEATHER reports of the front end stands from each boundary to the next (R58), whatever is commanded between
them but POR and PIN_RESET; an index that names no aperture is refused with NO-APERTURE, a port without right with
NO-RIGHT, and a branch, position or zone beyond its range with BAD-FORMAT. The model's choices are that a field the
manual does not state is a free value, the same until the next event (assumption log 26), that before the first
boundary after a POR or PIN reset the front end's figures stand too, a CLEAR-CONDITIONS not seen (log 52), and that
the seconds left on the hold timer are rounded up (log 54). -/
def Obligations.QueriesChangeNothing : Prop :=
  (∀ (s t : State) (c : Instr), exec c s = .next t →
    (∀ b, c ≠ .por b ∧ c ≠ .pinReset b) → (∀ vane rain rainok, c ≠ .secondBoundary vane rain rainok) →
    frontEndFigures t.fe = frontEndFigures s.fe) ∧
  ∀ (s : State) (p : Port) (n : Byte), (s.port p).ready →
    (∀ i, apNamed s n.toNat = some i → (s.zoneOf i).right p ≠ .none → exec (.queryAperture p n) s =
      .next (s.answeredAt p .queryAperture ⟨.ok, apertureBody s i, false⟩)) ∧
    (∀ i x, apertureBody (s.answeredAt p .queryAperture x) i = apertureBody s i) ∧
    (∀ i, apNamed s n.toNat = some i → (s.zoneOf i).right p = .none → exec (.queryAperture p n) s =
      .next (s.answeredAt p .queryAperture ⟨.noRight, [], false⟩)) ∧
    (apNamed s n.toNat = none → exec (.queryAperture p n) s =
      .next (s.answeredAt p .queryAperture ⟨.noAperture, [], false⟩)) ∧
    (∀ b, branchNamed n.toNat = some b → exec (.queryBranch p n) s =
      .next (s.answeredAt p .queryBranch ⟨.ok, branchBody s b, false⟩)) ∧
    (3 < n.toNat → exec (.queryBranch p n) s =
      .next (s.answeredAt p .queryBranch ⟨.badFormat, [], false⟩)) ∧
    (exec (.queryWeather p) s = .next (s.answeredAt p .queryWeather ⟨.ok, weatherBody s, false⟩)) ∧
    (n.toNat ≤ 47 → exec (.queryQueue p n) s =
      .next (s.answeredAt p .queryQueue ⟨.ok, queueBody s n.toNat, false⟩)) ∧
    (47 < n.toNat → exec (.queryQueue p n) s =
      .next (s.answeredAt p .queryQueue ⟨.badFormat, [], false⟩)) ∧
    (∀ z, zoneNamed n.toNat = some (some z) → exec (.queryZone p n) s =
      .next (s.answeredAt p .queryZone ⟨.ok, zoneBody s z, false⟩)) ∧
    (zoneNamed n.toNat = some none → exec (.queryZone p n) s =
      .next (s.answeredAt p .queryZone ⟨.ok, baseBody s s.freeDraws, false⟩)) ∧
    (8 < n.toNat → exec (.queryZone p n) s =
      .next (s.answeredAt p .queryZone ⟨.badFormat, [], false⟩)) ∧
    (exec (.queryTrigger p) s =
      .next (s.answeredAt p .queryTrigger ⟨.ok, triggerBody s.freeDraws s.sup.trigger, false⟩))

/-- NEXT_NOTICE (R164): the oldest notice is removed and carried with the number still queued, or its absence is
marked; the header carries NLOST, which is then cleared. -/
def Obligations.NextNoticeTakesOldest : Prop :=
  ∀ (s : State) (p : Port), (s.port p).ready →
    exec (.nextNotice p) s = .next (s.modPort p fun r =>
      { r.answered RequestKind.nextNotice.code
          ⟨.ok, (match r.notices with
            | n :: rest => e1 1 ++ e1 rest.length ++ n.bytes
            | [] => e1 0 ++ e1 0 ++ List.replicate 12 0), r.nlost⟩ with
        notices := r.notices.drop 1, nlost := false })

/-! ### Restart and the Commissioning Store -/

/-- RESTART on Port S (R166): while the store is busy the request waits in PENDING; otherwise every slate is
emptied, every aperture is UNKNOWN or ABSENT and every other block takes its reset values, with its settings loaded
anew, while of the front end all but the settings, the Trigger Record, the locks, the uptime and the other ports'
conversations are kept; RESTARTED is appended on every port, and on Port S a LOAD-CLAMPED for each record that the
load corrects (R167). That the precaution set is kept until the next boundary forms it is the model's reading
(assumption log 25), as are the corrections announced of an absent aperture's record (log 46); that the load takes no
uptime is its choice (log 42), as are, in `BlocksReset`, the fields of a blank aperture record, a gap of 0 and the
debounce in ms (logs 7, 40 and 57). -/
def Obligations.RestartKeepsPortsAndFigures : Prop :=
  ∀ s : State, (s.port .S).ready →
    (s.store.op.isSome → exec (.restart .S) s = .next (s.askedAt .S .restart [])) ∧
    (s.store.op = none → ∃ t, exec (.restart .S) s = .next t ∧
      BlocksReset t ∧
      ResetAnnounced .restart .restart (fun p => (s.port p).notices) (fun p => (s.port p).nlost) t ∧
      t.clock = s.clock ∧
      t.fe = { s.fe with
        constK := t.fe.constK, vaneOffset := t.fe.vaneOffset, wetDelay := t.fe.wetDelay
        dryDelay := t.fe.dryDelay, silence := t.fe.silence
        word := { s.fe.word with enables := t.fe.word.enables } } ∧
      t.sup.trigger = s.sup.trigger ∧ t.store = { s.store with mode := .none } ∧
      (t.port .S).holdsReply RequestKind.restart.code (s.port .S).nextHeader
        ⟨.ok, e4 s.sec ++ e1 0, false⟩ ∧
      ∀ q, q ≠ .S → PortKept (s.port q) (t.port q))

/-- LEAVE_COMMISSIONING on Port S (R175): while the store is busy the request waits in PENDING, as RESTART does; with
an idle store it is refused with NOT-COMMISSIONING while the mode is off; otherwise the
mode is turned off and the restart of R166 is made, with the locks kept: every block takes its reset values with its
settings loaded anew (R167), the front end keeps the rest, and RESTARTED with this reason is appended on every
port, before the LOAD-CLAMPED notices of Port S. The readings and choices of RESTART's statement stand here too
(assumption logs 25 and 46; 42 for the uptime of the load; 7, 40 and 57). -/
def Obligations.LeaveCommissioningRestarts : Prop :=
  ∀ s : State, (s.port .S).ready →
    (s.store.op.isSome → exec (.leaveCommissioning .S) s = .next (s.askedAt .S .leaveCommissioning [])) ∧
    (s.store.op = none → s.store.commissioning = false → exec (.leaveCommissioning .S) s =
      .next (s.answeredAt .S .leaveCommissioning ⟨.notCommissioning, [], false⟩)) ∧
    (s.store.op = none → s.store.commissioning = true → ∃ t, exec (.leaveCommissioning .S) s = .next t ∧
      t.store = { s.store with mode := .none, commissioning := false } ∧
      BlocksReset t ∧ (∀ i, (t.ap i).fix = loadStatic s.store i.val) ∧
      ResetAnnounced .restart .leaveCommissioning (fun p => (s.port p).notices)
        (fun p => (s.port p).nlost) t ∧
      t.clock = s.clock ∧ t.sup.trigger = s.sup.trigger ∧
      t.fe = { s.fe with
        constK := t.fe.constK, vaneOffset := t.fe.vaneOffset, wetDelay := t.fe.wetDelay
        dryDelay := t.fe.dryDelay, silence := t.fe.silence
        word := { s.fe.word with enables := t.fe.word.enables } } ∧
      (t.port .S).holdsReply RequestKind.leaveCommissioning.code (s.port .S).nextHeader
        ⟨.ok, e4 s.sec ++ e1 1, false⟩ ∧
      ∀ q, q ≠ .S → PortKept (s.port q) (t.port q))

/-- STORE_MODE on Port S with an idle store (R170): a code beyond the seven modes is refused; NONE, the present
mode, or any mode from NONE is taken; another is refused with STORE-COLLISION.
STORE_ACT on Port S with an idle store (R169, R171, R172). The first check that fails refuses it and leaves the
store: no mode; a length that is not the mode's, or a record above 65; a touched record outside OPERATING with
commissioning mode off; a touched record whose lock is set; a write to a complete record. Otherwise the store is
busy with the operation, 4 ms for a write of the record named and 20 ms for an erase of the mode's block, and the
port stays in PENDING. While the store is busy both wait in PENDING (R172), before any check of their fields, which is
the model's choice (assumption log 19). -/
def Obligations.StoreModeAndActFollowTheirChecks : Prop :=
  (∀ (s : State) (code : Byte) (record : Byte) (data : Option (List Byte)), (s.port .S).ready → s.store.op.isSome →
    exec (.storeMode .S code) s = .next (s.askedAt .S .storeMode [code]) ∧
    ((Instr.storeAct .S record data).wf = true →
      exec (.storeAct .S record data) s = .next (s.askedAt .S .storeAct (record :: data.getD [])))) ∧
  (∀ (s : State) (code : Byte), (s.port .S).ready → s.store.op = none →
    (6 < code.toNat → exec (.storeMode .S code) s =
      .next (s.answeredAt .S .storeMode ⟨.badFormat, [], false⟩)) ∧
    (∀ m, modeNamed code.toNat = some m → (s.store.mode = .none ∨ m = .none ∨ m = s.store.mode) →
      exec (.storeMode .S code) s =
        .next { s.answeredAt .S .storeMode
          ⟨.ok, e1 m.code ++ eBool s.store.commissioning ++ eLocks s.store, false⟩ with
          store := { s.store with mode := m } }) ∧
    (∀ m, modeNamed code.toNat = some m → s.store.mode ≠ .none → m ≠ .none → m ≠ s.store.mode →
      exec (.storeMode .S code) s = .next (s.answeredAt .S .storeMode ⟨.storeCollision, [], false⟩))) ∧
  ∀ (s : State) (record : Byte) (data : Option (List Byte)), (s.port .S).ready → s.store.op = none →
    (Instr.storeAct .S record data).wf = true →
    let n := record.toNat
    let refused := fun c => exec (.storeAct .S record data) s =
      .next (s.answeredAt .S .storeAct ⟨c, [], false⟩)
    (s.store.mode = .none → refused .noMode) ∧
    (s.store.mode ≠ .none → (s.store.mode = .write ↔ data = none) ∨ 65 < n → refused .badFormat) ∧
    (s.store.mode ≠ .none → (s.store.mode = .write ↔ data.isSome) → n ≤ 65 → ∀ first last,
      (first, last) = (match s.store.mode with
        | .erase1 | .write | .none => (n, n)
        | .erase2 => (n / 2 * 2, min 65 (n / 2 * 2 + 1))
        | .erase4 => (n / 4 * 4, min 65 (n / 4 * 4 + 3))
        | .erase8 => (n / 8 * 8, min 65 (n / 8 * 8 + 7))
        | .eraseAll => (0, 63)) →
      let needsMode := ∃ m, first ≤ m ∧ m ≤ last ∧ (m < 61 ∨ 63 < m)
      let locked := ∃ m, first ≤ m ∧ m ≤ last ∧
        (m < 61 ∧ s.store.plantLock = true ∨ 61 ≤ m ∧ m < 64 ∧ s.store.operLock = true)
      (s.store.commissioning = false → needsMode → refused .notCommissioning) ∧
      (s.store.commissioning = true ∨ ¬ needsMode → locked → refused .storeLocked) ∧
      (s.store.commissioning = true ∨ ¬ needsMode → ¬ locked →
        (s.store.mode = .write → s.store.isComplete n = true → refused .notErased) ∧
        (s.store.mode ≠ .write ∨ s.store.isComplete n = false → exec (.storeAct .S record data) s =
          .next { s.askedAt .S .storeAct (record :: data.getD []) with store := { s.store with
            op := some ⟨first, last, data, s.clock.ms + if s.store.mode = .write then 4 else 20⟩ } })))

/-- STORE_READ on Port S and Port L and LOCK on Port S (R173, R174): a record above 65 is refused at once; a read
waits while the store is busy and otherwise reports the record; LOCK sets the locks it names, busy or not. That the
refusal of a record above 65 does not wait for the store is the model's choice (assumption log 19). -/
def Obligations.StoreReadAndLock : Prop :=
  ∀ (s : State) (p : Port) (n : Byte), p = .S ∨ p = .L → (s.port p).ready →
    (65 < n.toNat → exec (.storeRead p n) s =
      .next (s.answeredAt p .storeRead ⟨.badFormat, [], false⟩)) ∧
    (n.toNat ≤ 65 → s.store.op = none → exec (.storeRead p n) s =
      .next (s.answeredAt p .storeRead
        ⟨.ok, e1 n.toNat ++ eBool (s.store.isComplete n.toNat) ++ s.store.bytesOf n.toNat ++
          e1 s.store.mode.code ++ eBool s.store.commissioning ++ eLocks s.store, false⟩)) ∧
    (n.toNat ≤ 65 → s.store.op.isSome → exec (.storeRead p n) s = .next (s.askedAt p .storeRead [n])) ∧
    (p = .S → n.toNat = 0 ∨ 3 < n.toNat → exec (.lock p n) s =
      .next (s.answeredAt p .lock ⟨.badFormat, [], false⟩)) ∧
    (p = .S → ∀ plant oper : Bool,
      (n.toNat = 1 ∧ plant = true ∧ oper = s.store.operLock) ∨
      (n.toNat = 2 ∧ plant = s.store.plantLock ∧ oper = true) ∨
      (n.toNat = 3 ∧ plant = true ∧ oper = true) →
      exec (.lock p n) s = .next { s.answeredAt p .lock
          ⟨.ok, e1 (bitsByte [plant, oper]), false⟩ with
        store := { s.store with plantLock := plant, operLock := oper } })

/-- STORE_OPERATION_COMPLETE (R168, R172): an erase leaves its records blank, a write whose last byte is 0x00 leaves
its record's bytes as sent, and a write with another last byte leaves the record blank, as an erase does (assumption
log 35); every other record stands; the store is idle; Port S's STORE-ACT is answered, and a STORE-READ that waited
on Port L is served with what the completion left. A strobe held at either port is completed as in REPLYING: a read
takes the reply's first byte, and a write starts a new request and discards the reply (R159); OVR of a strobe that
ended under WAIT meanwhile stays set for the next reply. The uptime at the completion, its due time or later, is the
model's choice (log 1). -/
def Obligations.StoreCompletionAnswersAndServes : Prop :=
  ∀ (s : State) (op : StoreOp), s.store.op = some op → op.first ≤ op.last → op.last < 66 →
    (∀ data, op.data = some data → op.first = op.last ∧ data.length = 16) →
    (s.port .S).state = .pending → (s.port .S).reqBuf.head? = some 0x31 → (s.port .K).state ≠ .pending →
    ∀ n : Byte, n.toNat ≤ 65 →
    ((s.port .L).state = .pending → (s.port .L).reqBuf = [0x32, 1, n]) →
    ∃ t, exec .storeOperationComplete s = .next t ∧ t.store.op = none ∧
      t.clock.ms = max s.clock.ms op.due ∧
      (∀ m k, k < 16 → recByte t.store m k =
        if op.first ≤ m ∧ m ≤ op.last then
          (match op.data with
          | some data => if data.getD 15 blankByte = 0 then data.getD k blankByte else blankByte
          | none => blankByte)
        else recByte s.store m k) ∧
      (s.port .S).AnsweredAfterWait (t.port .S) t.clock.ms 0x31
        ⟨.ok, e1 s.store.mode.code ++ e1 op.first ++ e1 op.last, false⟩ ∧
      ((s.port .L).state = .pending → (s.port .L).AnsweredAfterWait (t.port .L) t.clock.ms 0x32
        ⟨.ok, readBody t.store n.toNat, false⟩) ∧
      ((s.port .L).state ≠ .pending → t.port .L = s.port .L) ∧ t.port .K = s.port .K ∧
      t.aps = s.aps ∧ t.fe = s.fe ∧ t.sup = s.sup ∧ t.fire = s.fire ∧ t.link = s.link ∧
      t.zones = s.zones ∧ t.branches = s.branches
end

