-- ==== Sys2Proof/Laws/State.lean ====
section
/-! SUPPORT. One lemma per field per update of the state, so that no proof unfolds a record update, and
what reading a record after writing one gives. -/

namespace Sys2Proof.Machine

open Sys2Proof

variable (s : State) (i j : ApId) (b c : Branch) (p q : Port) (z y : ZoneId)


/-! ### The uptime moves on -/

@[simp] theorem State.advanceTo_ms (t : Nat) : (s.advanceTo t).clock.ms = max s.clock.ms t := rfl
@[simp] theorem State.advanceTo_nextBoundary (t : Nat) : (s.advanceTo t).clock.nextBoundary = s.clock.nextBoundary := rfl
@[simp] theorem State.advanceTo_pins (t : Nat) : (s.advanceTo t).pins = s.pins := rfl
@[simp] theorem State.advanceTo_aps (t : Nat) : (s.advanceTo t).aps = s.aps := rfl
@[simp] theorem State.advanceTo_zones (t : Nat) : (s.advanceTo t).zones = s.zones := rfl
@[simp] theorem State.advanceTo_fe (t : Nat) : (s.advanceTo t).fe = s.fe := rfl
@[simp] theorem State.advanceTo_sup (t : Nat) : (s.advanceTo t).sup = s.sup := rfl
@[simp] theorem State.advanceTo_branches (t : Nat) : (s.advanceTo t).branches = s.branches := rfl
@[simp] theorem State.advanceTo_link (t : Nat) : (s.advanceTo t).link = s.link := rfl
@[simp] theorem State.advanceTo_fire (t : Nat) : (s.advanceTo t).fire = s.fire := rfl
@[simp] theorem State.advanceTo_ports (t : Nat) : (s.advanceTo t).ports = s.ports := rfl
@[simp] theorem State.advanceTo_store (t : Nat) : (s.advanceTo t).store = s.store := rfl
@[simp] theorem State.advanceTo_roomLifetime (t : Nat) : (s.advanceTo t).roomLifetime = s.roomLifetime := rfl
@[simp] theorem State.advanceTo_loadEnd (t : Nat) : (s.advanceTo t).loadEnd = s.loadEnd := rfl
@[simp] theorem State.advanceTo_owed (t : Nat) : (s.advanceTo t).owed = s.owed := rfl
@[simp] theorem State.advanceTo_freeDraws (t : Nat) : (s.advanceTo t).freeDraws = s.freeDraws := rfl
@[simp] theorem State.advanceTo_pending (t : Nat) : (s.advanceTo t).pending = s.pending := rfl

/-! ### One aperture record is rewritten -/

@[simp] theorem State.setAp_clock (a : Aperture) : (s.setAp i a).clock = s.clock := rfl
@[simp] theorem State.setAp_pins (a : Aperture) : (s.setAp i a).pins = s.pins := rfl
@[simp] theorem State.setAp_zones (a : Aperture) : (s.setAp i a).zones = s.zones := rfl
@[simp] theorem State.setAp_fe (a : Aperture) : (s.setAp i a).fe = s.fe := rfl
@[simp] theorem State.setAp_sup (a : Aperture) : (s.setAp i a).sup = s.sup := rfl
@[simp] theorem State.setAp_branches (a : Aperture) : (s.setAp i a).branches = s.branches := rfl
@[simp] theorem State.setAp_link (a : Aperture) : (s.setAp i a).link = s.link := rfl
@[simp] theorem State.setAp_fire (a : Aperture) : (s.setAp i a).fire = s.fire := rfl
@[simp] theorem State.setAp_ports (a : Aperture) : (s.setAp i a).ports = s.ports := rfl
@[simp] theorem State.setAp_store (a : Aperture) : (s.setAp i a).store = s.store := rfl
@[simp] theorem State.setAp_roomLifetime (a : Aperture) : (s.setAp i a).roomLifetime = s.roomLifetime := rfl
@[simp] theorem State.setAp_loadEnd (a : Aperture) : (s.setAp i a).loadEnd = s.loadEnd := rfl
@[simp] theorem State.setAp_owed (a : Aperture) : (s.setAp i a).owed = s.owed := rfl
@[simp] theorem State.setAp_freeDraws (a : Aperture) : (s.setAp i a).freeDraws = s.freeDraws := rfl
@[simp] theorem State.setAp_pending (a : Aperture) : (s.setAp i a).pending = s.pending := rfl
@[simp] theorem State.modAp_clock (f : Aperture → Aperture) : (s.modAp i f).clock = s.clock := rfl
@[simp] theorem State.modAp_pins (f : Aperture → Aperture) : (s.modAp i f).pins = s.pins := rfl
@[simp] theorem State.modAp_zones (f : Aperture → Aperture) : (s.modAp i f).zones = s.zones := rfl
@[simp] theorem State.modAp_fe (f : Aperture → Aperture) : (s.modAp i f).fe = s.fe := rfl
@[simp] theorem State.modAp_sup (f : Aperture → Aperture) : (s.modAp i f).sup = s.sup := rfl
@[simp] theorem State.modAp_branches (f : Aperture → Aperture) : (s.modAp i f).branches = s.branches := rfl
@[simp] theorem State.modAp_link (f : Aperture → Aperture) : (s.modAp i f).link = s.link := rfl
@[simp] theorem State.modAp_fire (f : Aperture → Aperture) : (s.modAp i f).fire = s.fire := rfl
@[simp] theorem State.modAp_ports (f : Aperture → Aperture) : (s.modAp i f).ports = s.ports := rfl
@[simp] theorem State.modAp_store (f : Aperture → Aperture) : (s.modAp i f).store = s.store := rfl
@[simp] theorem State.modAp_roomLifetime (f : Aperture → Aperture) : (s.modAp i f).roomLifetime = s.roomLifetime := rfl
@[simp] theorem State.modAp_loadEnd (f : Aperture → Aperture) : (s.modAp i f).loadEnd = s.loadEnd := rfl
@[simp] theorem State.modAp_owed (f : Aperture → Aperture) : (s.modAp i f).owed = s.owed := rfl
@[simp] theorem State.modAp_freeDraws (f : Aperture → Aperture) : (s.modAp i f).freeDraws = s.freeDraws := rfl
@[simp] theorem State.modAp_pending (f : Aperture → Aperture) : (s.modAp i f).pending = s.pending := rfl

/-! ### One branch record is rewritten -/

@[simp] theorem State.modBranch_clock (f : BranchRec → BranchRec) : (s.modBranch b f).clock = s.clock := rfl
@[simp] theorem State.modBranch_pins (f : BranchRec → BranchRec) : (s.modBranch b f).pins = s.pins := rfl
@[simp] theorem State.modBranch_aps (f : BranchRec → BranchRec) : (s.modBranch b f).aps = s.aps := rfl
@[simp] theorem State.modBranch_zones (f : BranchRec → BranchRec) : (s.modBranch b f).zones = s.zones := rfl
@[simp] theorem State.modBranch_fe (f : BranchRec → BranchRec) : (s.modBranch b f).fe = s.fe := rfl
@[simp] theorem State.modBranch_sup (f : BranchRec → BranchRec) : (s.modBranch b f).sup = s.sup := rfl
@[simp] theorem State.modBranch_link (f : BranchRec → BranchRec) : (s.modBranch b f).link = s.link := rfl
@[simp] theorem State.modBranch_fire (f : BranchRec → BranchRec) : (s.modBranch b f).fire = s.fire := rfl
@[simp] theorem State.modBranch_ports (f : BranchRec → BranchRec) : (s.modBranch b f).ports = s.ports := rfl
@[simp] theorem State.modBranch_store (f : BranchRec → BranchRec) : (s.modBranch b f).store = s.store := rfl
@[simp] theorem State.modBranch_roomLifetime (f : BranchRec → BranchRec) : (s.modBranch b f).roomLifetime = s.roomLifetime := rfl
@[simp] theorem State.modBranch_loadEnd (f : BranchRec → BranchRec) : (s.modBranch b f).loadEnd = s.loadEnd := rfl
@[simp] theorem State.modBranch_owed (f : BranchRec → BranchRec) : (s.modBranch b f).owed = s.owed := rfl
@[simp] theorem State.modBranch_freeDraws (f : BranchRec → BranchRec) : (s.modBranch b f).freeDraws = s.freeDraws := rfl
@[simp] theorem State.modBranch_pending (f : BranchRec → BranchRec) : (s.modBranch b f).pending = s.pending := rfl
@[simp] theorem State.reserve_clock (r : Option ApId) : (s.reserve b r).clock = s.clock := rfl
@[simp] theorem State.reserve_pins (r : Option ApId) : (s.reserve b r).pins = s.pins := rfl
@[simp] theorem State.reserve_aps (r : Option ApId) : (s.reserve b r).aps = s.aps := rfl
@[simp] theorem State.reserve_zones (r : Option ApId) : (s.reserve b r).zones = s.zones := rfl
@[simp] theorem State.reserve_fe (r : Option ApId) : (s.reserve b r).fe = s.fe := rfl
@[simp] theorem State.reserve_sup (r : Option ApId) : (s.reserve b r).sup = s.sup := rfl
@[simp] theorem State.reserve_link (r : Option ApId) : (s.reserve b r).link = s.link := rfl
@[simp] theorem State.reserve_fire (r : Option ApId) : (s.reserve b r).fire = s.fire := rfl
@[simp] theorem State.reserve_ports (r : Option ApId) : (s.reserve b r).ports = s.ports := rfl
@[simp] theorem State.reserve_store (r : Option ApId) : (s.reserve b r).store = s.store := rfl
@[simp] theorem State.reserve_roomLifetime (r : Option ApId) : (s.reserve b r).roomLifetime = s.roomLifetime := rfl
@[simp] theorem State.reserve_loadEnd (r : Option ApId) : (s.reserve b r).loadEnd = s.loadEnd := rfl
@[simp] theorem State.reserve_owed (r : Option ApId) : (s.reserve b r).owed = s.owed := rfl
@[simp] theorem State.reserve_freeDraws (r : Option ApId) : (s.reserve b r).freeDraws = s.freeDraws := rfl
@[simp] theorem State.reserve_pending (r : Option ApId) : (s.reserve b r).pending = s.pending := rfl

/-! ### One port record is rewritten -/

@[simp] theorem State.modPort_clock (f : PortRec → PortRec) : (s.modPort p f).clock = s.clock := rfl
@[simp] theorem State.modPort_pins (f : PortRec → PortRec) : (s.modPort p f).pins = s.pins := rfl
@[simp] theorem State.modPort_aps (f : PortRec → PortRec) : (s.modPort p f).aps = s.aps := rfl
@[simp] theorem State.modPort_zones (f : PortRec → PortRec) : (s.modPort p f).zones = s.zones := rfl
@[simp] theorem State.modPort_fe (f : PortRec → PortRec) : (s.modPort p f).fe = s.fe := rfl
@[simp] theorem State.modPort_sup (f : PortRec → PortRec) : (s.modPort p f).sup = s.sup := rfl
@[simp] theorem State.modPort_branches (f : PortRec → PortRec) : (s.modPort p f).branches = s.branches := rfl
@[simp] theorem State.modPort_link (f : PortRec → PortRec) : (s.modPort p f).link = s.link := rfl
@[simp] theorem State.modPort_fire (f : PortRec → PortRec) : (s.modPort p f).fire = s.fire := rfl
@[simp] theorem State.modPort_store (f : PortRec → PortRec) : (s.modPort p f).store = s.store := rfl
@[simp] theorem State.modPort_roomLifetime (f : PortRec → PortRec) : (s.modPort p f).roomLifetime = s.roomLifetime := rfl
@[simp] theorem State.modPort_loadEnd (f : PortRec → PortRec) : (s.modPort p f).loadEnd = s.loadEnd := rfl
@[simp] theorem State.modPort_owed (f : PortRec → PortRec) : (s.modPort p f).owed = s.owed := rfl
@[simp] theorem State.modPort_freeDraws (f : PortRec → PortRec) : (s.modPort p f).freeDraws = s.freeDraws := rfl
@[simp] theorem State.modPort_pending (f : PortRec → PortRec) : (s.modPort p f).pending = s.pending := rfl

/-! ### The closure queue and the zone warnings -/

@[simp] theorem State.setQueue_clock (l : List Entry) : (s.setQueue l).clock = s.clock := rfl
@[simp] theorem State.setQueue_pins (l : List Entry) : (s.setQueue l).pins = s.pins := rfl
@[simp] theorem State.setQueue_aps (l : List Entry) : (s.setQueue l).aps = s.aps := rfl
@[simp] theorem State.setQueue_zones (l : List Entry) : (s.setQueue l).zones = s.zones := rfl
@[simp] theorem State.setQueue_fe (l : List Entry) : (s.setQueue l).fe = s.fe := rfl
@[simp] theorem State.setQueue_branches (l : List Entry) : (s.setQueue l).branches = s.branches := rfl
@[simp] theorem State.setQueue_link (l : List Entry) : (s.setQueue l).link = s.link := rfl
@[simp] theorem State.setQueue_fire (l : List Entry) : (s.setQueue l).fire = s.fire := rfl
@[simp] theorem State.setQueue_ports (l : List Entry) : (s.setQueue l).ports = s.ports := rfl
@[simp] theorem State.setQueue_store (l : List Entry) : (s.setQueue l).store = s.store := rfl
@[simp] theorem State.setQueue_roomLifetime (l : List Entry) : (s.setQueue l).roomLifetime = s.roomLifetime := rfl
@[simp] theorem State.setQueue_loadEnd (l : List Entry) : (s.setQueue l).loadEnd = s.loadEnd := rfl
@[simp] theorem State.setQueue_owed (l : List Entry) : (s.setQueue l).owed = s.owed := rfl
@[simp] theorem State.setQueue_freeDraws (l : List Entry) : (s.setQueue l).freeDraws = s.freeDraws := rfl
@[simp] theorem State.setQueue_pending (l : List Entry) : (s.setQueue l).pending = s.pending := rfl
@[simp] theorem State.setQueue_queue (l : List Entry) : (s.setQueue l).sup.queue = l := rfl
@[simp] theorem State.dropEntry_clock : (s.dropEntry i).clock = s.clock := rfl
@[simp] theorem State.dropEntry_pins : (s.dropEntry i).pins = s.pins := rfl
@[simp] theorem State.dropEntry_aps : (s.dropEntry i).aps = s.aps := rfl
@[simp] theorem State.dropEntry_zones : (s.dropEntry i).zones = s.zones := rfl
@[simp] theorem State.dropEntry_fe : (s.dropEntry i).fe = s.fe := rfl
@[simp] theorem State.dropEntry_branches : (s.dropEntry i).branches = s.branches := rfl
@[simp] theorem State.dropEntry_link : (s.dropEntry i).link = s.link := rfl
@[simp] theorem State.dropEntry_fire : (s.dropEntry i).fire = s.fire := rfl
@[simp] theorem State.dropEntry_ports : (s.dropEntry i).ports = s.ports := rfl
@[simp] theorem State.dropEntry_store : (s.dropEntry i).store = s.store := rfl
@[simp] theorem State.dropEntry_roomLifetime : (s.dropEntry i).roomLifetime = s.roomLifetime := rfl
@[simp] theorem State.dropEntry_loadEnd : (s.dropEntry i).loadEnd = s.loadEnd := rfl
@[simp] theorem State.dropEntry_owed : (s.dropEntry i).owed = s.owed := rfl
@[simp] theorem State.dropEntry_freeDraws : (s.dropEntry i).freeDraws = s.freeDraws := rfl
@[simp] theorem State.dropEntry_pending : (s.dropEntry i).pending = s.pending := rfl
@[simp] theorem State.setWarning_clock (w : Warning) : (s.setWarning z w).clock = s.clock := rfl
@[simp] theorem State.setWarning_pins (w : Warning) : (s.setWarning z w).pins = s.pins := rfl
@[simp] theorem State.setWarning_aps (w : Warning) : (s.setWarning z w).aps = s.aps := rfl
@[simp] theorem State.setWarning_fe (w : Warning) : (s.setWarning z w).fe = s.fe := rfl
@[simp] theorem State.setWarning_sup (w : Warning) : (s.setWarning z w).sup = s.sup := rfl
@[simp] theorem State.setWarning_branches (w : Warning) : (s.setWarning z w).branches = s.branches := rfl
@[simp] theorem State.setWarning_link (w : Warning) : (s.setWarning z w).link = s.link := rfl
@[simp] theorem State.setWarning_fire (w : Warning) : (s.setWarning z w).fire = s.fire := rfl
@[simp] theorem State.setWarning_ports (w : Warning) : (s.setWarning z w).ports = s.ports := rfl
@[simp] theorem State.setWarning_store (w : Warning) : (s.setWarning z w).store = s.store := rfl
@[simp] theorem State.setWarning_roomLifetime (w : Warning) : (s.setWarning z w).roomLifetime = s.roomLifetime := rfl
@[simp] theorem State.setWarning_loadEnd (w : Warning) : (s.setWarning z w).loadEnd = s.loadEnd := rfl
@[simp] theorem State.setWarning_owed (w : Warning) : (s.setWarning z w).owed = s.owed := rfl
@[simp] theorem State.setWarning_freeDraws (w : Warning) : (s.setWarning z w).freeDraws = s.freeDraws := rfl
@[simp] theorem State.setWarning_pending (w : Warning) : (s.setWarning z w).pending = s.pending := rfl
@[simp] theorem State.setWarning_desc (w : Warning) : (s.setWarning z w).zones.desc = s.zones.desc := rfl
@[simp] theorem State.setWarning_base (w : Warning) : (s.setWarning z w).zones.base = s.zones.base := rfl

/-! ### Attempts owed, free values drawn, and a millisecond -/

@[simp] theorem State.owe_clock : (s.owe b).clock = s.clock := by unfold State.owe; split <;> rfl
@[simp] theorem State.owe_pins : (s.owe b).pins = s.pins := by unfold State.owe; split <;> rfl
@[simp] theorem State.owe_aps : (s.owe b).aps = s.aps := by unfold State.owe; split <;> rfl
@[simp] theorem State.owe_zones : (s.owe b).zones = s.zones := by unfold State.owe; split <;> rfl
@[simp] theorem State.owe_fe : (s.owe b).fe = s.fe := by unfold State.owe; split <;> rfl
@[simp] theorem State.owe_sup : (s.owe b).sup = s.sup := by unfold State.owe; split <;> rfl
@[simp] theorem State.owe_branches : (s.owe b).branches = s.branches := by unfold State.owe; split <;> rfl
@[simp] theorem State.owe_link : (s.owe b).link = s.link := by unfold State.owe; split <;> rfl
@[simp] theorem State.owe_fire : (s.owe b).fire = s.fire := by unfold State.owe; split <;> rfl
@[simp] theorem State.owe_ports : (s.owe b).ports = s.ports := by unfold State.owe; split <;> rfl
@[simp] theorem State.owe_store : (s.owe b).store = s.store := by unfold State.owe; split <;> rfl
@[simp] theorem State.owe_roomLifetime : (s.owe b).roomLifetime = s.roomLifetime := by unfold State.owe; split <;> rfl
@[simp] theorem State.owe_loadEnd : (s.owe b).loadEnd = s.loadEnd := by unfold State.owe; split <;> rfl
@[simp] theorem State.owe_freeDraws : (s.owe b).freeDraws = s.freeDraws := by unfold State.owe; split <;> rfl
@[simp] theorem State.owe_pending : (s.owe b).pending = s.pending := by unfold State.owe; split <;> rfl
@[simp] theorem State.draw_clock : (s.draw).clock = s.clock := rfl
@[simp] theorem State.draw_pins : (s.draw).pins = s.pins := rfl
@[simp] theorem State.draw_aps : (s.draw).aps = s.aps := rfl
@[simp] theorem State.draw_zones : (s.draw).zones = s.zones := rfl
@[simp] theorem State.draw_fe : (s.draw).fe = s.fe := rfl
@[simp] theorem State.draw_sup : (s.draw).sup = s.sup := rfl
@[simp] theorem State.draw_branches : (s.draw).branches = s.branches := rfl
@[simp] theorem State.draw_link : (s.draw).link = s.link := rfl
@[simp] theorem State.draw_fire : (s.draw).fire = s.fire := rfl
@[simp] theorem State.draw_ports : (s.draw).ports = s.ports := rfl
@[simp] theorem State.draw_store : (s.draw).store = s.store := rfl
@[simp] theorem State.draw_roomLifetime : (s.draw).roomLifetime = s.roomLifetime := rfl
@[simp] theorem State.draw_loadEnd : (s.draw).loadEnd = s.loadEnd := rfl
@[simp] theorem State.draw_owed : (s.draw).owed = s.owed := rfl
@[simp] theorem State.draw_pending : (s.draw).pending = s.pending := rfl

/-! ### Reading a record after writing one -/


/-- Reading an aperture record after one was written. -/
theorem State.ap_setAp (a : Aperture) : (s.setAp i a).ap j = if i = j then a else s.ap j := by
  simp only [State.ap, State.setAp, Fin.getElem_fin, Vector.getElem_set, Fin.ext_iff]

@[simp] theorem State.ap_setAp_self (a : Aperture) : (s.setAp i a).ap i = a := by simp [State.ap_setAp]

theorem State.ap_setAp_of_ne (a : Aperture) (h : i ≠ j) : (s.setAp i a).ap j = s.ap j := by
  simp [State.ap_setAp, h]

/-- Reading an aperture record after one was changed. -/
theorem State.ap_modAp (f : Aperture → Aperture) :
    (s.modAp i f).ap j = if i = j then f (s.ap i) else s.ap j := State.ap_setAp s i j _

@[simp] theorem State.ap_modAp_self (f : Aperture → Aperture) : (s.modAp i f).ap i = f (s.ap i) := by
  simp [State.ap_modAp]

theorem State.ap_modAp_of_ne (f : Aperture → Aperture) (h : i ≠ j) : (s.modAp i f).ap j = s.ap j := by
  simp [State.ap_modAp, h]

/-- The aperture records are what reading them gives. -/
theorem State.ap_of_aps {s t : State} (h : t.aps = s.aps) (i : ApId) : t.ap i = s.ap i := by
  simp [State.ap, h]

/-- Reading a branch record after one was rewritten. -/
theorem Branches.get_put (t : Branches) (x : BranchRec) :
    (t.put b x).get c = if b = c then x else t.get c := by cases b <;> cases c <;> rfl

theorem State.branch_modBranch (f : BranchRec → BranchRec) :
    (s.modBranch b f).branch c = if b = c then f (s.branch b) else s.branch c :=
  Branches.get_put b c s.branches _

@[simp] theorem State.branch_modBranch_self (f : BranchRec → BranchRec) :
    (s.modBranch b f).branch b = f (s.branch b) := by simp [State.branch_modBranch]

/-- Reading a port record after one was rewritten. -/
theorem Ports.get_put (t : Ports) (x : PortRec) :
    (t.put p x).get q = if p = q then x else t.get q := by cases p <;> cases q <;> rfl

theorem Ports.put_put (t : Ports) (x y : PortRec) : (t.put p x).put p y = t.put p y := by cases p <;> rfl

theorem Ports.put_get (t : Ports) : t.put p (t.get p) = t := by cases p <;> rfl

theorem State.port_modPort (f : PortRec → PortRec) :
    (s.modPort p f).port q = if p = q then f (s.port p) else s.port q := Ports.get_put p q s.ports _

@[simp] theorem State.port_modPort_self (f : PortRec → PortRec) :
    (s.modPort p f).port p = f (s.port p) := by simp [State.port_modPort]

theorem State.port_modPort_of_ne (f : PortRec → PortRec) (h : p ≠ q) :
    (s.modPort p f).port q = s.port q := by simp [State.port_modPort, h]

/-- Two changes of one port record are one. -/
theorem State.modPort_modPort (f g : PortRec → PortRec) :
    (s.modPort p f).modPort p g = s.modPort p (g ∘ f) := by
  simp [State.modPort, State.port, Ports.get_put, Ports.put_put]

/-- A change of a port record that leaves it as it was changes nothing. -/
theorem State.modPort_eq_self (f : PortRec → PortRec) (h : f (s.port p) = s.port p) : s.modPort p f = s := by
  unfold State.modPort
  rw [h, State.port, Ports.put_get]

/-- Reading a slot after one was written (R22). -/
theorem Slate.get_put (t : Slate) (x : Option Slot) (c d : OrderClass) :
    (t.put c x).get d = if c = d then x else t.get d := by cases c <;> cases d <;> rfl

/-- Reading a warning after one was written. -/
theorem State.warnings_setWarning (w : Warning) :
    (s.setWarning z w).zones.warnings[y] = if z = y then w else s.zones.warnings[y] := by
  simp only [State.setWarning, Fin.getElem_fin, Vector.getElem_set, Fin.ext_iff]

end Sys2Proof.Machine
end

