-- ==== Sys2Proof/Laws/Frame.lean ====
section
/-! SUPPORT. Frames compose, and each update that an event makes keeps one. -/

namespace Sys2Proof.Machine

open Sys2Proof

variable {k : Aperture → Aperture} {s t u : State}

/-! ### Ports -/

theorem PortKept.refl (r : PortRec) : PortKept r r := ⟨rfl, List.prefix_rfl, id, id⟩

theorem PortKept.trans {r t u : PortRec} (h : PortKept r t) (g : PortKept t u) : PortKept r u where
  same := by
    rw [g.same, h.same]
  queued := h.queued.trans g.queued
  bound := g.bound ∘ h.bound
  lost := g.lost ∘ h.lost

/-- A notice joins a queue, or is lost (R162). -/
theorem PortKept.addNotice (r : PortRec) (n : Notice) : PortKept r (r.addNotice n) := by
  unfold PortRec.addNotice
  split
  · rename_i h
    exact ⟨rfl, List.prefix_append _ _, fun _ => by simp; omega, id⟩
  · exact ⟨rfl, List.prefix_rfl, id, fun _ => rfl⟩

/-- What stays of a port that only notices reached. -/
theorem PortKept.fields {r t : PortRec} (h : PortKept r t) :
    t.state = r.state ∧ t.reqBuf = r.reqBuf ∧ t.discarded = r.discarded ∧ t.gapTimer = r.gapTimer ∧
      t.header = r.header ∧ t.replyBuf = r.replyBuf ∧ t.unread = r.unread ∧ t.ovr = r.ovr ∧ t.frm = r.frm ∧
      t.rdisc = r.rdisc ∧ t.held = r.held ∧ t.dOut = r.dOut := by
  rw [h.same]; simp

/-! ### Composition -/

theorem Frame.refl (k : Aperture → Aperture) (s : State) : Frame k s s := by
  constructor <;> intros <;> first | rfl | exact PortKept.refl _

theorem Frame.trans (h : Frame k s t) (g : Frame k t u) : Frame k s u where
  clock := g.clock.trans h.clock
  pins := g.pins.trans h.pins
  fe := g.fe.trans h.fe
  fire := g.fire.trans h.fire
  store := g.store.trans h.store
  roomLifetime := g.roomLifetime.trans h.roomLifetime
  loadEnd := g.loadEnd.trans h.loadEnd
  freeDraws := h.freeDraws.trans g.freeDraws
  pending := g.pending.trans h.pending
  desc := g.desc.trans h.desc
  base := g.base.trans h.base
  sup := by rw [g.sup, h.sup]
  limit b := (g.limit b).trans (h.limit b)
  window b := (g.window b).trans (h.window b)
  gap b := (g.gap b).trans (h.gap b)
  ports p := (h.ports p).trans (g.ports p)
  aps i := (g.aps i).trans (h.aps i)

/-- A frame that keeps more of an aperture's record is a frame that keeps less. -/
theorem Frame.mono {k' : Aperture → Aperture} (hk : ∀ a b, k a = k b → k' a = k' b) (h : Frame k s t) :
    Frame k' s t :=
  { h with aps := fun i => hk _ _ (h.aps i) }

/-- Frames are kept along a fold. -/
theorem Frame.foldl {α : Type} {f : State → α → State} (h : ∀ s x, Frame k s (f s x)) (l : List α) (s : State) :
    Frame k s (l.foldl f s) := by
  induction l generalizing s with
  | nil => exact Frame.refl k s
  | cons x xs ih => exact (h s x).trans (ih (f s x))

theorem Frame.ite {c : Prop} [Decidable c] (h : c → Frame k s t) (g : ¬c → Frame k s u) :
    Frame k s (if c then t else u) := by
  split
  · exact h ‹_›
  · exact g ‹_›

/-! ### What the kept parts determine -/

theorem keep_orders (a b : Aperture) (h : a.keep = b.keep) : a.orders = b.orders := by
  simp only [Aperture.orders, h]

theorem keep_slates (a b : Aperture) (h : a.keep = b.keep) : a.slates = b.slates := by
  simp only [Aperture.slates, h]

theorem keep_stands (a b : Aperture) (h : a.keep = b.keep) : a.stands = b.stands := by
  simp only [Aperture.stands, h]

theorem stands_plant (a b : Aperture) (h : a.stands = b.stands) : a.plant = b.plant := by
  simp only [Aperture.plant, h]

theorem orders_ordered (a b : Aperture) (h : a.orders = b.orders) : a.ordered = b.ordered := by
  simp only [Aperture.ordered, h]

theorem keep_ordered (a b : Aperture) (h : a.keep = b.keep) : a.ordered = b.ordered :=
  orders_ordered a b (keep_orders a b h)

theorem slates_stands (a b : Aperture) (h : a.slates = b.slates) : a.stands = b.stands := by
  have : ∀ x : Aperture, x.stands = { x.slates with slate := .empty, claim := none } := fun _ => rfl
  rw [this, this, h]

theorem orders_plant (a b : Aperture) (h : a.orders = b.orders) : a.plant = b.plant := by
  have : ∀ x : Aperture, x.plant =
      { x.orders with slate := .empty, effTarget := none, effClass := none, claim := none } := fun _ => rfl
  rw [this, this, h]

/-- The fields that `stands` keeps. -/
theorem stands_fields {a b : Aperture} (h : a.stands = b.stands) :
    a.fix = b.fix ∧ a.position = b.position ∧ a.orderTag = b.orderTag ∧ a.node = b.node ∧ a.fig = b.fig := by
  simp [Aperture.stands, Aperture.keep] at h
  tauto

/-- The fields that `ordered` keeps. -/
theorem ordered_fields {a b : Aperture} (h : a.ordered = b.ordered) :
    a.fix = b.fix ∧ a.slate = b.slate ∧ a.effTarget = b.effTarget ∧ a.effClass = b.effClass ∧
      a.claim = b.claim ∧ a.fig = b.fig := by
  simp [Aperture.ordered, Aperture.orders, Aperture.keep] at h
  tauto

/-- The fields that `plant` keeps. -/
theorem plant_fields {a b : Aperture} (h : a.plant = b.plant) :
    a.fix = b.fix ∧ a.orderTag = b.orderTag ∧ a.node = b.node ∧ a.fig = b.fig := by
  simp [Aperture.plant, Aperture.stands, Aperture.keep] at h
  tauto

/-- The fields that `slates` keeps. -/
theorem slates_fields {a b : Aperture} (h : a.slates = b.slates) :
    a.fix = b.fix ∧ a.position = b.position ∧ a.slate = b.slate ∧ a.claim = b.claim := by
  simp [Aperture.slates, Aperture.keep] at h
  tauto

/-- The fields that `orders` keeps. -/
theorem orders_fields {a b : Aperture} (h : a.orders = b.orders) :
    a.fix = b.fix ∧ a.slate = b.slate ∧ a.effTarget = b.effTarget ∧ a.effClass = b.effClass ∧
      a.claim = b.claim ∧ a.orderTag = b.orderTag := by
  simp [Aperture.orders, Aperture.keep] at h
  tauto

/-- The fields that `keep` keeps. -/
theorem keep_fields {a b : Aperture} (h : a.keep = b.keep) :
    a.fix = b.fix ∧ a.position = b.position ∧ a.slate = b.slate ∧ a.effTarget = b.effTarget ∧
      a.effClass = b.effClass ∧ a.claim = b.claim ∧ a.orderTag = b.orderTag ∧ a.node = b.node ∧
      a.fig = b.fig := by
  simp [Aperture.keep] at h
  tauto

/-! ### Updates -/

/-- A change of one aperture's record keeps what `k` keeps when the change does. -/
theorem Frame.modAp (i : ApId) (f : Aperture → Aperture) (h : k (f (s.ap i)) = k (s.ap i)) :
    Frame k s (s.modAp i f) := by
  refine { Frame.refl k s with aps := fun j => ?_ }
  rw [State.ap_modAp]
  split
  · rename_i e; rw [← e, h]
  · rfl

/-- The free values are drawn anew. -/
theorem Frame.draw : Frame k s s.draw := { Frame.refl k s with freeDraws := Nat.le_succ _ }

theorem Frame.withLink (l : Link) : Frame k s { s with link := l } := { Frame.refl k s with }

theorem Frame.setQueue (q : List Entry) : Frame k s (s.setQueue q) := { Frame.refl k s with sup := rfl }

theorem Frame.dropEntry (i : ApId) : Frame k s (s.dropEntry i) := Frame.setQueue _

theorem Frame.setWarning (z : ZoneId) (w : Warning) : Frame k s (s.setWarning z w) :=
  { Frame.refl k s with }

theorem Frame.owe (b : Branch) : Frame k s (s.owe b) := by
  unfold State.owe; split
  · exact Frame.refl k s
  · exact { Frame.refl k s with }

/-- A branch record changes in the fields that events move. -/
theorem Frame.modBranch (b : Branch) (f : BranchRec → BranchRec)
    (h : (f (s.branch b)).limit = (s.branch b).limit ∧ (f (s.branch b)).window = (s.branch b).window ∧
      (f (s.branch b)).gap = (s.branch b).gap) : Frame k s (s.modBranch b f) := by
  have key : ∀ c, ((s.modBranch b f).branch c).limit = (s.branch c).limit ∧
      ((s.modBranch b f).branch c).window = (s.branch c).window ∧
      ((s.modBranch b f).branch c).gap = (s.branch c).gap := by
    intro c
    rw [State.branch_modBranch]
    split
    · rename_i e; rw [← e]; exact h
    · exact ⟨rfl, rfl, rfl⟩
  exact { Frame.refl k s with
    limit := fun c => (key c).1, window := fun c => (key c).2.1, gap := fun c => (key c).2.2 }

theorem Frame.reserve (b : Branch) (r : Option ApId) : Frame k s (s.reserve b r) :=
  Frame.modBranch b _ ⟨rfl, rfl, rfl⟩

/-- A notice reaches one port. -/
theorem Frame.addNotice (p : Port) (n : Notice) : Frame k s (s.modPort p fun r => r.addNotice n) := by
  refine { Frame.refl k s with ports := fun q => ?_ }
  rw [State.port_modPort]
  split
  · rename_i e; rw [← e]; exact PortKept.addNotice _ _
  · exact PortKept.refl _

/-- Notices are queued (R162). -/
theorem Frame.notify (ps : List Port) (b : NoticeBody) : Frame k s (s.notify ps b) :=
  Frame.foldl (fun _ p => Frame.addNotice p _) ps s

/-- A notice joins the queue of each port named that loses none (R162). -/
theorem NoticeQueued.addNotice {p : Port} {n : Notice} :
    NoticeQueued [p] n s (s.modPort p fun r => r.addNotice n) := by
  intro q hq h
  obtain rfl := List.mem_singleton.1 hq
  rw [State.port_modPort, if_pos rfl] at h ⊢
  unfold PortRec.addNotice at h ⊢
  by_cases room : (s.port q).notices.length < Config.noticeCapacity
  · rw [if_pos room]; exact ⟨[n], rfl, List.mem_singleton.2 rfl⟩
  · rw [if_neg room] at h
    rcases h with h | h
    · cases h
    · exact absurd h room

/-- A notice that has joined a queue is still there after everything that keeps a frame. -/
theorem NoticeQueued.kept {ps : List Port} {n : Notice} {t u : State} (h : NoticeQueued ps n s t)
    (f : Frame k t u) : NoticeQueued ps n s u := by
  intro p hp hu
  have kept := f.ports p
  obtain ⟨more, e, m⟩ := h p hp <| hu.imp
    (fun lost => Bool.eq_false_iff.2 fun l => by rw [kept.lost l] at lost; cases lost)
    (fun room => Nat.lt_of_le_of_lt kept.queued.length_le room)
  obtain ⟨rest, e'⟩ := kept.queued
  exact ⟨more ++ rest, by rw [← e', e, List.append_assoc], List.mem_append_left _ m⟩

/-- Nothing but port records changes at a notice. -/
theorem State.notify_rest (ps : List Port) (b : NoticeBody) :
    ∃ x, s.notify ps b = { s with ports := x } := by
  unfold State.notify
  generalize (⟨s.sec, b⟩ : Notice) = n
  have : ∀ (l : List Port) (v : State), (∃ x, v = { s with ports := x }) →
      ∃ x, l.foldl (fun s' p => s'.modPort p fun r => r.addNotice n) v = { s with ports := x } := by
    intro l
    induction l with
    | nil => exact fun v h => h
    | cons p l ih => rintro v ⟨x, rfl⟩; exact ih _ ⟨_, rfl⟩
  exact this ps s ⟨s.ports, rfl⟩

end Sys2Proof.Machine
end

