-- ==== Sys2Proof/Laws/Motion.lean ====
section
/-! SUPPORT. What the shared operations of Machine/Queue.lean, Motion.lean and Branch.lean leave alone:
one frame lemma per operation. -/

namespace Sys2Proof.Machine

open Sys2Proof

variable {k : Aperture → Aperture} (i : ApId) (b : Branch) (s : State)

/-! ### Queue and warnings -/

theorem refreshEntry_frame : Frame k s (refreshEntry i s) := by
  unfold refreshEntry; split
  · exact Frame.setQueue _
  · exact Frame.dropEntry i
  · exact Frame.refl k s

theorem settleWarning_frame (z : ZoneId) : Frame k s (settleWarning z s) := by
  unfold settleWarning; split
  · exact Frame.setWarning z _
  · exact Frame.refl k s

theorem refreshWarning_frame : Frame k s (refreshWarning i s) := by
  unfold refreshWarning; split
  · exact settleWarning_frame s _
  · exact Frame.refl k s

theorem callWarning_frame : Frame k s (callWarning i s) := by
  unfold callWarning; dsimp only; split
  · split
    · exact Frame.setWarning _ _
    · exact Frame.refl k s
  · exact Frame.refl k s

/-- A fresh status's position moves nothing but the aperture's position, its queue entry and notices (R7, R87). -/
theorem writePosition_frame (p : Nat) : Frame Aperture.orders s (writePosition i p s) := by
  have h : Frame Aperture.orders s (s.modAp i fun a => { a with position := some p }) :=
    Frame.modAp i _ rfl
  unfold writePosition; dsimp only; split
  · exact h.trans ((Frame.dropEntry i).trans (Frame.notify _ _))
  · exact h.trans (refreshEntry_frame i _)

theorem resortQueue_frame : Frame k s (resortQueue s) := Frame.setQueue _

theorem projectBranch_frame : Frame k s (projectBranch s b) := by
  unfold projectBranch; dsimp only
  split
  · refine Frame.trans ?_ (Frame.notify _ _)
    exact (Frame.setQueue _).trans (Frame.modBranch b _ (by simp))
  · refine Frame.trans (Frame.trans ?_ (Frame.notify _ _)) (Frame.owe b)
    exact (Frame.setQueue _).trans (Frame.modBranch b _ (by simp))
  · exact (Frame.setQueue _).trans (Frame.modBranch b _ (by simp))

theorem project_frame : Frame k s (project s) := Frame.foldl (fun s' c => projectBranch_frame c s') _ s

/-! ### Motion states -/

/-- Passing to another motion state moves only what the entry itself writes, the queue entry, the zone's
warning, the attempts owed and the order lists. -/
theorem enter_frame (st : MotionState) (f : Aperture → Aperture)
    (h : k { f (s.ap i) with state := st } = k (s.ap i)) : Frame k s (enter i st f s) := by
  have h1 : Frame k s (s.modAp i fun a => { f a with state := st }) := Frame.modAp i _ h
  unfold enter; dsimp only
  refine Frame.trans ?_ (refreshWarning_frame i _)
  refine Frame.trans ?_ (refreshEntry_frame i _)
  have h2 : Frame k s (if owesAttempt (s.ap i).state st then
      (s.modAp i fun a => { f a with state := st }).owe
        ((s.modAp i fun a => { f a with state := st }).ap i).fix.branch
      else s.modAp i fun a => { f a with state := st }) :=
    Frame.ite (fun _ => h1.trans (Frame.owe _)) fun _ => h1
  exact Frame.ite (fun _ => h2.trans (Frame.withLink _)) fun _ => h2

theorem toWaiting_frame (m : Motion) : Frame Aperture.keep s (toWaiting i m s) :=
  (enter_frame i s _ _ rfl).trans (callWarning_frame i _)

theorem judge_frame : Frame Aperture.keep s (judge i s) := by
  unfold judge; dsimp only; split
  · exact Frame.ite (fun _ => toWaiting_frame i s _) fun _ => Frame.refl _ s
  · exact Frame.refl _ s

theorem toRest_frame : Frame Aperture.keep s (toRest i s) :=
  (enter_frame i s _ _ rfl).trans (judge_frame i _)

theorem toSettling_frame (c : SettleCause) : Frame Aperture.keep s (toSettling i c s) :=
  enter_frame i s _ _ rfl

theorem toRetryWait_frame : Frame Aperture.keep s (toRetryWait i s) := enter_frame i s _ _ rfl

theorem toFault_frame (c : FaultKind) : Frame Aperture.keep s (toFault i c s) :=
  (enter_frame i s _ _ rfl).trans (Frame.notify _ _)

theorem halt_frame (c : HaltCause) : Frame Aperture.keep s (halt i c s) :=
  Frame.ite (fun _ => (enter_frame i s _ _ rfl).trans (Frame.withLink _)) fun _ => Frame.refl _ s

theorem retarget_frame (t : Nat) : Frame Aperture.keep s (retarget i t s) :=
  (Frame.modAp i _ rfl).trans (Frame.withLink _)

theorem rederive_frame (m : Motion) : Frame Aperture.keep s (rederive i m s) :=
  ((Frame.modAp i _ rfl).trans (refreshWarning_frame i _)).trans (callWarning_frame i _)

theorem steer_frame : Frame Aperture.keep s (steer i s) := by
  unfold steer; dsimp only; split
  · exact Frame.refl _ s
  · split
    · exact Frame.ite (fun _ => Frame.refl _ s) fun _ =>
        Frame.ite (fun _ => retarget_frame i s _) fun _ => halt_frame i s _
    · exact halt_frame i s _
    · exact Frame.ite (fun _ => Frame.refl _ s) fun _ => halt_frame i s _

theorem rejudgeWaiting_frame : Frame Aperture.keep s (rejudgeWaiting i s) := by
  unfold rejudgeWaiting; dsimp only; split
  · exact Frame.ite (fun _ => rederive_frame i s _) fun _ =>
      Frame.ite (fun _ => rederive_frame i s _) fun _ => toRest_frame i s
  · exact toRest_frame i s

theorem handOn_frame : Frame Aperture.keep s (handOn i s) := by
  unfold handOn; split
  · exact judge_frame i s
  · exact rejudgeWaiting_frame i s
  · exact steer_frame i s
  · exact steer_frame i s
  · exact toRest_frame i s
  all_goals exact Frame.refl _ s

theorem arrive_frame : Frame Aperture.keep s (arrive i s) :=
  (Frame.modAp i _ (by split <;> rfl)).trans (toRest_frame i _)

theorem confirmStop_frame (fresh : Bool) : Frame Aperture.keep s (confirmStop i fresh s) := by
  unfold confirmStop
  exact Frame.ite
    (fun _ => Frame.ite
      (fun _ => Frame.ite (fun _ => arrive_frame i s) fun _ => toRest_frame i s)
      fun _ => toFault_frame i s _)
    fun _ => Frame.ite (fun _ => toSettling_frame i s _) fun _ => toSettling_frame i s _

theorem stall_frame : Frame Aperture.keep s (stall i s) := by
  unfold stall; split
  · exact (Frame.modAp i _ rfl).trans
      (Frame.ite (fun _ => toSettling_frame i _ _) fun _ => toFault_frame i _ _)
  · exact toFault_frame i s _

theorem orderBackoff_frame (bp : Nat) : Frame Aperture.keep s (orderBackoff i bp s) :=
  Frame.ite (fun _ => toWaiting_frame i s _) fun _ => toRetryWait_frame i s

theorem settled_frame : Frame Aperture.keep s (settled i s) := by
  unfold settled; dsimp only; split
  · exact orderBackoff_frame i s _
  · exact orderBackoff_frame i s _
  · exact toRest_frame i s

theorem toOffline_frame : Frame Aperture.orders s (toOffline i s) := by
  unfold toOffline; dsimp only
  refine Frame.trans ?_ (Frame.notify _ _)
  exact Frame.ite (fun _ => (enter_frame i s _ _ rfl).trans (Frame.owe _)) fun _ => enter_frame i s _ _ rfl

theorem releaseHeld_frame : Frame Aperture.keep s (releaseHeld i s) :=
  Frame.ite (fun _ => (Frame.modAp i _ rfl).trans (Frame.owe _)) fun _ => Frame.refl _ s

theorem toOnline_frame : Frame Aperture.orders s (toOnline i s) :=
  ((releaseHeld_frame i s).mono keep_orders).trans ((enter_frame i _ _ _ rfl).trans (Frame.notify _ _))

/-! ### Admission and the end of an event -/

theorem admit_frame : Frame Aperture.keep s (admitMotion b i s) := by
  unfold admitMotion; dsimp only
  exact ((enter_frame i s _ _ rfl).trans (Frame.modBranch b _ ⟨rfl, rfl, rfl⟩)).trans (Frame.withLink _)

theorem admitFirst_frame (es : List WaitEntry) : Frame Aperture.keep s (admitFirst b es s).1 := by
  unfold admitFirst; split
  · exact Frame.refl _ s
  · split
    · exact Frame.refl _ s
    · exact admit_frame _ b s

theorem attemptOpen_frame (es : List WaitEntry) : Frame Aperture.keep s (attemptOpen b es s).1 := by
  unfold attemptOpen; split
  · exact Frame.refl _ s
  · split
    · split
      · exact (Frame.foldl (fun s' i => halt_frame i s' _) _ s).trans (Frame.reserve b _)
      · exact admitFirst_frame b s _
    · exact admitFirst_frame b s _

theorem attempt_frame : Frame Aperture.keep s (attempt b s).1 := by
  unfold attempt; dsimp only; split
  · exact attemptOpen_frame b s _
  · split
    all_goals
      split
      · exact (Frame.reserve b none).trans (attemptOpen_frame b _ _)
      · split
        · split
          · exact admit_frame _ b s
          · exact Frame.refl _ s
        · exact Frame.refl _ s

theorem runAttempts_frame (n : Nat) : Frame Aperture.keep s (runAttempts b n s) := by
  induction n generalizing s with
  | zero => exact Frame.refl _ s
  | succ n ih =>
    have h := attempt_frame b s
    unfold runAttempts; split
    · rename_i s' e; rw [e] at h; exact h.trans (ih s')
    · rename_i s' e; rw [e] at h; exact h

theorem settleAttempts_frame : Frame Aperture.keep s (settleAttempts s) := by
  unfold settleAttempts; dsimp only
  refine Frame.trans (t := allBranches.foldl
    (fun s' b => if b ∈ s'.owed then runAttempts b (attemptBound s' b) s' else s') s) ?_ { Frame.refl _ _ with }
  exact Frame.foldl
    (fun s' c => Frame.ite (fun _ => runAttempts_frame c s' _) fun _ => Frame.refl _ s') _ s

theorem checkReservation_frame : Frame k s (checkReservation s b) := by
  unfold checkReservation; split
  · exact Frame.refl k s
  · split
    · exact Frame.ite (fun _ => Frame.refl k s) fun _ => (Frame.reserve b none).trans (Frame.owe b)
    · exact (Frame.reserve b none).trans (Frame.owe b)

/-- A reservation removed is owed an attempt, and none stands (R107). -/
theorem reserve_none_owe : (((s.reserve b none).owe b).branch b).reservation = none := by
  have h : ((s.reserve b none).branch b).reservation = none := by
    rw [State.reserve, State.branch_modBranch, if_pos rfl]
  unfold State.owe; split <;> exact h

/-- A reservation that stands after its test is that of an entry that waits, eligible, in class LIFE or WEATHER
(R107), and the test changed nothing. -/
theorem checkReservation_stands (h : ((checkReservation s b).branch b).reservation = some i) :
    checkReservation s b = s ∧ ∃ e ∈ waitList s b,
      e.ap = i ∧ (e.cls = .life ∨ e.cls = .weather) ∧ standingOf s b e = .eligible := by
  unfold checkReservation at h ⊢
  split at h
  · rename_i none; rw [none] at h; cases h
  · rename_i j held
    split at h
    · rename_i e found
      split at h
      · rename_i ok
        rw [held] at h; cases h
        rw [if_pos ok]
        simp only [Bool.and_eq_true, Bool.or_eq_true, decide_eq_true_eq] at ok
        exact ⟨rfl, e, List.mem_of_find?_eq_some found, by simpa using List.find?_some found, ok.1, ok.2⟩
      · rw [reserve_none_owe] at h; cases h
    · rw [reserve_none_owe] at h; cases h

/-- The end of an event moves only motions, queue, branch and warning bookkeeping and notices: no position,
no slate, no target and nothing of the plant. -/
theorem finish_frame (update : Bool) (s0 : State) : Frame Aperture.keep s (finish update s0 s) := by
  unfold finish; dsimp only
  refine Frame.trans ?_ (settleAttempts_frame _)
  refine Frame.trans ?_ Frame.draw
  refine Frame.trans ?_ (Frame.foldl
    (fun s' c => Frame.ite (fun _ => Frame.refl _ s') fun _ => Frame.owe c) _ _)
  refine Frame.trans ?_ (Frame.foldl (fun s' c => checkReservation_frame c s') _ _)
  have h : ∀ t, Frame Aperture.keep t (countChange s0 t) := fun t =>
    Frame.ite (fun _ => Frame.refl _ t) fun _ => { Frame.refl _ t with sup := rfl }
  exact Frame.trans (Frame.ite (fun _ => project_frame s) fun _ => Frame.refl _ s) (h _)

/-- An event keeps what its own effect keeps. -/
theorem event_frame (f : State → State) (h : Frame k s (f s))
    (hk : ∀ a b : Aperture, a.keep = b.keep → k a = k b) : Frame k s (event f s) :=
  h.trans ((finish_frame (f s) false s).mono hk)

/-- Nothing is owed once an event has ended. -/
@[simp] theorem finish_owed (update : Bool) (s0 : State) : (finish update s0 s).owed = [] := rfl

end Sys2Proof.Machine
end

