-- ==== Sys2Proof/Laws/Link.lean ====
section
/-! SUPPORT. What the end of an exchange can do: the link's lists and tags, the motion and position of the
aperture it was addressed to, and nothing of any order. -/

namespace Sys2Proof.Machine

open Sys2Proof

variable {k : Aperture → Aperture} (i : ApId) (s : State)

/-! ### The order lists (R138) -/

/-- A HALT handed on leaves the aperture listed for one. -/
theorem Link.mem_listHalt (l : Link) : i ∈ (l.listHalt i).haltList := by
  unfold Link.listHalt; dsimp only
  split <;> simp_all

/-- A HALT handed on withdraws the aperture's MOVE, and no other. -/
@[simp] theorem Link.listHalt_moveList (l : Link) :
    (l.listHalt i).moveList = l.moveList.filter fun m => m.1 ≠ i := rfl

/-- A MOVE handed on at an admission stands at the tail. -/
@[simp] theorem Link.listMove_moveList (l : Link) (t : Nat) :
    (l.listMove i t).moveList = (l.moveList.filter fun m => m.1 ≠ i) ++ [(i, t)] := rfl

/-- A missed HALT returns to the head of its list, which then holds it once. -/
theorem Link.takeBack_halt (l : Link) (f : InFlight) (h : f.what = .halt i) :
    l.takeBack f = { l with haltList := i :: l.haltList.filter fun j => j ≠ i } := by
  simp [Link.takeBack, h]

/-- What a miss can do to the lists: its entry returns to the head of its own, and nothing else changes. -/
theorem Link.takeBack_cases (l : Link) (f : InFlight) :
    l.takeBack f = l ∨
      (∃ j, f.what = .halt j ∧ l.takeBack f = { l with haltList := j :: l.haltList.filter fun x => x ≠ j }) ∨
      ∃ j t, f.what = .move j t ∧ (∀ m ∈ l.moveList, m.1 ≠ j) ∧
        l.takeBack f = { l with moveList := (j, t) :: l.moveList } := by
  unfold Link.takeBack
  split
  · next j h => exact .inr (.inl ⟨j, h, rfl⟩)
  · next j t h =>
    split
    · next g =>
      simp only [Bool.and_eq_true, Bool.not_eq_true', List.any_eq_false, decide_eq_true_eq] at g
      exact .inr (.inr ⟨j, t, h, g.2, rfl⟩)
    · exact .inl rfl
  · exact .inl rfl
  · exact .inl rfl

/-! ### Frames -/

theorem strayHalt_frame : Frame k s (strayHalt i s) := Frame.withLink _

theorem rejudgePosition_frame : Frame Aperture.keep s (rejudgePosition i s) :=
  Frame.ite (fun _ => Frame.refl _ s) fun _ => toRest_frame i s

theorem driveStatus_frame (r : LinkReply) : Frame Aperture.keep s (driveStatus i r s) := by
  refine Frame.ite (fun _ => stall_frame i s) fun _ => Frame.ite (fun _ => Frame.refl _ s) fun _ => ?_
  split
  · exact toRetryWait_frame i s
  · exact arrive_frame i s

theorem faultStatus_frame (r : LinkReply) : Frame Aperture.keep s (faultStatus i r s) := by
  unfold faultStatus; split
  · exact Frame.ite (fun _ => Frame.refl _ s) fun _ => toRest_frame i s
  · exact Frame.refl _ s

/-- A fresh status moves an aperture's motion and position and no order (R7, R136). -/
theorem freshStatus_frame (r : LinkReply) : Frame Aperture.orders s (freshStatus i r s) := by
  have w := writePosition_frame i s r.writes
  have go : ∀ {t}, Frame Aperture.keep (writePosition i r.writes s) t → Frame Aperture.orders s t :=
    fun h => w.trans (h.mono keep_orders)
  unfold freshStatus; dsimp only; split
  · exact Frame.refl _ s
  · exact Frame.refl _ s
  · exact Frame.ite (fun _ => Frame.refl _ s) fun _ => go (toRest_frame i _)
  · exact go (judge_frame i _)
  · exact go (rejudgePosition_frame i _)
  · exact go (driveStatus_frame i _ r)
  · exact go (driveStatus_frame i _ r)
  · exact Frame.ite (fun _ => w) fun _ => go (confirmStop_frame i _ true)
  · exact w
  · exact w
  · exact go (faultStatus_frame i _ r)

/-- R18 and R140 name every state but FAULT, OFFLINE and ABSENT. -/
theorem MotionState.mayGoOffline_iff (x : MotionState) :
    x.mayGoOffline = true ↔ x ≠ .fault ∧ x ≠ .offline ∧ x ≠ .absent := by
  cases x <;> decide

/-- FAULT(TIMEOUT) of a node silent since the node timeout, in the terms of the statements (R119). -/
theorem Aperture.silentTimeout_iff (a : Aperture) : a.silentTimeout = true ↔ SilentTimeout a := by
  unfold Aperture.silentTimeout SilentTimeout
  split
  · next t c hs hf hc => simp [hs, hf, hc]
  · next h =>
    refine ⟨nofun, fun ⟨hs, t, c, hf, hc, _⟩ => (h t c hs hf hc).elim⟩

/-- The third miss leads to OFFLINE exactly from the states of `LeavesByMiss` (R18, R119, R140). -/
theorem Aperture.leavesByMiss_iff (a : Aperture) : a.leavesByMiss = true ↔ LeavesByMiss a := by
  simp [Aperture.leavesByMiss, LeavesByMiss, MotionState.mayGoOffline_iff, Aperture.silentTimeout_iff]

/-- A miss moves motion, position and link bookkeeping (R131, R138, R140). -/
theorem missed_frame (f : InFlight) : Frame Aperture.ordered s (missed i f s) := by
  have h : Frame Aperture.ordered s (s.modAp i fun a =>
      { a with node := { a.node with missCount := min 3 (a.node.missCount + 1) } }) := Frame.modAp i _ rfl
  unfold missed; dsimp only
  refine Frame.trans ?_ (Frame.withLink _)
  exact h.trans (Frame.ite (fun _ => (toOffline_frame i _).mono orders_ordered) fun _ => Frame.refl _ _)

theorem acceptOrder_frame (tag : BitVec 4) : Frame Aperture.ordered s (acceptOrder i tag s) :=
  Frame.trans (t := s.modAp i fun a => { a with orderTag := some tag }) (Frame.modAp i _ rfl) (Frame.withLink _)

theorem startTravel_frame : Frame Aperture.keep s (startTravel i s) :=
  Frame.ite (fun _ => Frame.modAp i _ rfl) fun _ => Frame.refl _ s

theorem moveReplied_frame (f : InFlight) (r : LinkReply) : Frame Aperture.ordered s (moveReplied i f r s) := by
  refine Frame.ite (fun _ => ?_) fun _ => ?_
  · exact Frame.ite (fun _ => (toFault_frame i s _).mono keep_ordered) fun _ => Frame.refl _ s
  · have h := (acceptOrder_frame i s f.tag).trans ((startTravel_frame i _).mono keep_ordered)
    exact Frame.ite (fun _ => h) fun _ => h.trans (strayHalt_frame i _)

theorem pollReplied_frame (r : LinkReply) : Frame Aperture.ordered s (pollReplied i r s) := by
  have h := (freshStatus_frame i s r).mono orders_ordered
  exact Frame.ite (fun _ => h.trans (strayHalt_frame i _)) fun _ => h

/-- A valid reply moves motion, position and what the link learns (R133). -/
theorem replied_frame (f : InFlight) (r : LinkReply) : Frame Aperture.ordered s (replied i f r s) := by
  have h1 : Frame Aperture.ordered s (renewContact i s) := Frame.modAp i _ rfl
  have h2 : ∀ (c : Prop) [Decidable c], Frame Aperture.ordered s
      (if c then toOnline i (renewContact i s) else renewContact i s) := fun c _ =>
    Frame.ite (fun _ => h1.trans ((toOnline_frame i _).mono orders_ordered)) fun _ => h1
  have h3 : ∀ (c d : Prop) [Decidable c] [Decidable d], Frame Aperture.ordered s
      (if d then learnTag i r.tag (if c then toOnline i (renewContact i s) else renewContact i s)
        else if c then toOnline i (renewContact i s) else renewContact i s) := fun c d _ _ =>
    Frame.ite (fun _ => (h2 c).trans (Frame.modAp i _ rfl)) fun _ => h2 c
  unfold replied; dsimp only
  split
  · exact (h3 _ _).trans (moveReplied_frame i _ f r)
  · exact (h3 _ _).trans (acceptOrder_frame i _ f.tag)
  · exact (h3 _ _).trans (Frame.ite (fun _ => pollReplied_frame i _ r) fun _ => Frame.refl _ _)
  · exact h3 _ _

/-- The completion of an exchange changes no order of any aperture (R133). -/
theorem complete_frame (f : InFlight) (reply : List Byte) : Frame Aperture.ordered s (complete f reply s) := by
  have h : Frame Aperture.ordered s { s with link := { s.link with inFlight := none } } := Frame.withLink _
  unfold complete; split
  · exact h
  · split
    · exact h.trans (missed_frame _ _ f)
    · exact h.trans (replied_frame _ _ f _)

end Sys2Proof.Machine
end

