-- ==== Sys2Proof/Laws/Orders.lean ====
section
/-! SUPPORT. What the Order Resolver's shared operations do to slates and effective targets, and what they
leave alone (R22 to R35, R148 to R153). -/

namespace Sys2Proof.Machine

open Sys2Proof

variable (i j : ApId) (s : State)

/-! ### Deriving (R24) -/

theorem resolve_frame : Frame Aperture.slates s (resolve i s) := by
  unfold resolve; dsimp only
  refine Frame.ite (fun _ => refreshEntry_frame i s) fun _ => ?_
  refine Frame.trans ?_ (refreshEntry_frame i _)
  refine Frame.trans ?_ ((handOn_frame i _).mono keep_slates)
  have h : Frame Aperture.slates s (s.modAp i fun a =>
      { a with
        effTarget := (s.ap i).slate.top.map fun x => x.2.target
        effClass := (s.ap i).slate.top.map fun x => x.1 }) := Frame.modAp i _ rfl
  exact Frame.ite (fun _ => h.trans (Frame.modAp i _ rfl)) fun _ => h

/-- After deriving, aperture `i` has the target and class of its highest-ranked present slot, and every other
aperture's stand (R9, R24). -/
theorem resolve_eff :
    ((resolve i s).ap j).effTarget =
        (if i = j then (s.ap i).slate.top.map fun x => x.2.target else (s.ap j).effTarget) ∧
      ((resolve i s).ap j).effClass =
        (if i = j then (s.ap i).slate.top.map fun x => x.1 else (s.ap j).effClass) := by
  unfold resolve; dsimp only
  split
  · rename_i h
    have e := keep_fields ((refreshEntry_frame (k := Aperture.keep) i s).aps j)
    rw [e.2.2.2.1, e.2.2.2.2.1]
    split
    · rename_i ij; subst ij; exact ⟨h.1.symm, h.2.symm⟩
    · exact ⟨rfl, rfl⟩
  · generalize hu : s.modAp i (fun a =>
      { a with
        effTarget := (s.ap i).slate.top.map fun x => x.2.target
        effClass := (s.ap i).slate.top.map fun x => x.1 }) = u
    have hv : Frame Aperture.keep u
        (if closingTarget (s.ap i).effTarget (s.ap i).position && (u.ap i).wantsOpening then
          u.modAp i fun a => { a with stallCount := 0 } else u) :=
      Frame.ite (fun _ => Frame.modAp i _ rfl) fun _ => Frame.refl _ u
    have e := keep_fields (((hv.trans (handOn_frame i _)).trans (refreshEntry_frame i _)).aps j)
    rw [e.2.2.2.1, e.2.2.2.2.1, ← hu, State.ap_modAp]
    split
    · exact ⟨rfl, rfl⟩
    · exact ⟨rfl, rfl⟩

/-- Deriving changes no slate and no kept claim. -/
theorem resolve_slate :
    ((resolve i s).ap j).slate = (s.ap j).slate ∧ ((resolve i s).ap j).claim = (s.ap j).claim :=
  ⟨(slates_fields ((resolve_frame i s).aps j)).2.2.1, (slates_fields ((resolve_frame i s).aps j)).2.2.2⟩

/-! ### Slots -/

theorem putSlot_frame (c : OrderClass) (x : Option Slot) : Frame Aperture.stands s (putSlot i c x s) :=
  Frame.modAp i _ rfl

theorem putSlot_slate (c : OrderClass) (x : Option Slot) :
    ((putSlot i c x s).ap j).slate = if i = j then (s.ap i).slate.put c x else (s.ap j).slate := by
  rw [putSlot, State.ap_modAp]; split <;> rfl

theorem putSlot_eff (c : OrderClass) (x : Option Slot) :
    ((putSlot i c x s).ap j).effTarget = (s.ap j).effTarget ∧
      ((putSlot i c x s).ap j).effClass = (s.ap j).effClass ∧
      ((putSlot i c x s).ap j).claim = (s.ap j).claim := by
  rw [putSlot, State.ap_modAp]
  split
  · rename_i e; subst e; exact ⟨rfl, rfl, rfl⟩
  · exact ⟨rfl, rfl, rfl⟩

/-- A slot written and derived: the one slot of the one aperture, its target and class, and nothing else of
any slate or target (R22, R24). -/
theorem putResolve_spec (c : OrderClass) (x : Option Slot) :
    ((resolve i (putSlot i c x s)).ap j).slate =
        (if i = j then (s.ap i).slate.put c x else (s.ap j).slate) ∧
      ((resolve i (putSlot i c x s)).ap j).effTarget =
        (if i = j then ((s.ap i).slate.put c x).top.map fun x => x.2.target else (s.ap j).effTarget) ∧
      ((resolve i (putSlot i c x s)).ap j).effClass =
        (if i = j then ((s.ap i).slate.put c x).top.map fun x => x.1 else (s.ap j).effClass) ∧
      ((resolve i (putSlot i c x s)).ap j).claim = (s.ap j).claim := by
  have e := putSlot_eff i j s c x
  rw [(resolve_slate i j _).1, (resolve_slate i j _).2, (resolve_eff i j _).1, (resolve_eff i j _).2,
    putSlot_slate, putSlot_slate, e.1, e.2.1, e.2.2]
  simp

theorem putResolve_frame (c : OrderClass) (x : Option Slot) :
    Frame Aperture.stands s (resolve i (putSlot i c x s)) :=
  (putSlot_frame i s c x).trans ((resolve_frame i _).mono slates_stands)

/-! ### Ports' orders and alarm-origin slots -/

theorem postOrder_frame (p : Port) (t : Target) : Frame Aperture.stands s (postOrder p i t s) :=
  putResolve_frame i s _ _

theorem releaseOrder_frame (p : Port) : Frame Aperture.stands s (releaseOrder p i s) := by
  unfold releaseOrder; split
  · exact Frame.refl _ s
  · exact putResolve_frame i s _ _

theorem postAlarm_frame (r : Bool) : Frame Aperture.stands s (postAlarm r s i) := by
  unfold postAlarm; dsimp only; split
  · exact putResolve_frame i s _ _
  · exact Frame.refl _ s

theorem dropAlarm_frame : Frame Aperture.stands s (dropAlarm s i) :=
  Frame.ite (fun _ => putResolve_frame i s _ _) fun _ => Frame.refl _ s

/-! ### Weather slots and room expiry -/

theorem cancelOpening_frame (c : OrderClass) : Frame Aperture.stands s (cancelOpening i c s) := by
  unfold cancelOpening; split
  · exact Frame.ite (fun _ => (putSlot_frame i s _ _).trans (Frame.notify _ _)) fun _ => Frame.refl _ s
  · exact Frame.refl _ s

/-- Records read alike after a notice. -/
@[simp] theorem State.notify_ap (ps : List Port) (b : NoticeBody) : (s.notify ps b).ap j = s.ap j := by
  obtain ⟨x, h⟩ := State.notify_rest (s := s) ps b
  rw [h]; rfl

/-- A cancellation takes an opening slot of the one class off the one aperture, and nothing else (R32). -/
theorem cancelOpening_ap (c : OrderClass) :
    (cancelOpening i c s).ap j =
      if i = j ∧ opens ((s.ap i).slate.get c) then { s.ap i with slate := (s.ap i).slate.put c none }
      else s.ap j := by
  unfold cancelOpening
  split
  · rename_i x hx
    split
    · rename_i ho
      rw [State.notify_ap, putSlot, State.ap_modAp]
      simp [hx, opens, ho]
    · rename_i ho
      simp [hx, opens, ho]
  · rename_i hx
    simp [hx, opens]

theorem postClaim_frame (c : Claim) : Frame Aperture.stands s (postClaim i c s) := by
  unfold postClaim; dsimp only
  refine Frame.trans ?_ ((resolve_frame i _).mono slates_stands)
  refine Frame.trans ?_ (cancelOpening_frame i _ _)
  refine Frame.trans ?_ (cancelOpening_frame i _ _)
  exact (putSlot_frame i s _ _).trans (Frame.modAp i _ rfl)

theorem postClaim_slate (c : Claim) :
    ((postClaim i c s).ap j).slate = if i = j then claimedSlate s (s.ap i).slate else (s.ap j).slate := by
  unfold postClaim; dsimp only
  rw [(resolve_slate i j _).1, cancelOpening_ap]
  simp only [cancelOpening_ap, putSlot, State.ap_modAp]
  by_cases e : i = j
  · subst e
    simp only [if_true, true_and, Slate.put, Slate.get, claimedSlate]
    by_cases h1 : opens (s.ap i).slate.supervisory <;> by_cases h2 : opens (s.ap i).slate.room <;>
      simp [h1, h2]
  · simp [e]

theorem dropClaim_frame : Frame Aperture.stands s (dropClaim s i) := by
  refine Frame.ite (fun _ => ?_) fun _ => Frame.refl _ s
  have h : Frame Aperture.stands s (s.modAp i fun a => { a with claim := none }) := Frame.modAp i _ rfl
  exact h.trans (putResolve_frame i _ _ _)

theorem dropClaim_slate : ((dropClaim s i).ap j).slate =
    if i = j then { (s.ap i).slate with weather := none } else (s.ap j).slate := by
  unfold dropClaim
  split
  · rw [(putResolve_spec i j _ _ _).1]
    simp only [State.ap_modAp]
    by_cases e : i = j
    · simp [e, Slate.put]
    · simp [e]
  · rename_i h
    by_cases e : i = j
    · subst e
      simp only [if_true]
      cases hs : (s.ap i).slate
      simp_all
    · simp [e]

theorem expireRoom_frame (x : Slot) (e : Nat) : Frame Aperture.stands s (expireRoom i x e s) :=
  (putSlot_frame i s _ _).trans ((Frame.notify _ _).trans ((resolve_frame i _).mono slates_stands))

theorem expireRoom_slate (x : Slot) (e : Nat) : ((expireRoom i x e s).ap j).slate =
    if i = j then { (s.ap i).slate with room := some ⟨.pos 0, .port .K, e, none⟩ } else (s.ap j).slate := by
  unfold expireRoom; dsimp only
  rw [(resolve_slate i j _).1, State.notify_ap, putSlot_slate]
  rfl

end Sys2Proof.Machine
end

