-- ==== Sys2Proof/Laws/Port.lean ====
section
/-! SUPPORT. Requests at a port: what writing a whole request at a ready port comes to, and what each server
that touches nothing but its own port answers (R157, R158). -/

namespace Sys2Proof.Machine

open Sys2Proof

variable {s : State} {p : Port}

/-- A change of a port record depends on what it makes of that record alone. -/
theorem State.modPort_congr {f g : PortRec → PortRec} (h : f (s.port p) = g (s.port p)) :
    s.modPort p f = s.modPort p g := by
  unfold State.modPort; rw [h]

/-- The bytes after the first of a well-formed request reach the port, and the last one takes it (R157). -/
theorem writeBytes_rest (p : Port) (kind n : Byte) :
    ∀ (rest pre : List Byte) (s : State), rest ≠ [] → (s.port p).state = .assembling →
      (s.port p).discarded = false → (s.port p).reqBuf = kind :: n :: pre →
      n.toNat = pre.length + rest.length →
      writeBytes p rest s = takeRequest p (s.modPort p fun r =>
        { r with reqBuf := kind :: n :: (pre ++ rest), gapTimer := some (s.clock.ms + Config.portGapMs) }) := by
  intro rest
  induction rest with
  | nil => intro _ _ h; exact absurd rfl h
  | cons b rest ih =>
    intro pre s _ hs hd hq hn
    rw [List.length_cons] at hn
    have e1 : writeBytes p (b :: rest) s = writeBytes p rest (assemble p b s) := by
      simp [writeBytes, writeByte, hs]
    have e2 : s.modPort p (fun r => r.append s.clock.ms b) = s.modPort p fun r =>
        { r with reqBuf := kind :: n :: (pre ++ [b]), gapTimer := some (s.clock.ms + Config.portGapMs) } := by
      apply State.modPort_congr
      simp [PortRec.append, PortRec.startGap, hd, hq]
    rw [e1, assemble, e2]
    simp only [State.port_modPort_self, requestComplete, List.length_append, List.length_cons,
      List.length_nil, hn]
    by_cases hr : rest = []
    · subst hr
      simp [writeBytes]
    · have hlen : 0 < rest.length := List.length_pos_iff.mpr hr
      rw [if_neg (by rw [decide_eq_true_eq]; omega), ih (pre ++ [b]) _ hr (by simpa using hs) (by simpa using hd) (by simp)
        (by simp; omega), State.modPort_modPort]
      congr 1
      apply State.modPort_congr
      simp

/-- A whole request written at a ready port is taken, checked, served and, where nothing keeps it waiting,
answered (R157, R158). -/
theorem submit_ready (h : (s.port p).ready) (kind : Byte) (body : List Byte) (hb : body.length ≤ 30) :
    submit p kind body s = .next (placeReply p kind (serveRequest p kind body
      (s.modPort p fun r => r.asked (requestBytes kind body)))) := by
  obtain ⟨hs, hh⟩ := h
  have hlen : (BitVec.ofNat 8 body.length).toNat = body.length := by simp; omega
  have e1 : writeBytes p (requestBytes kind body) s =
      writeBytes p (BitVec.ofNat 8 body.length :: body) (s.modPort p fun r => r.begin s.clock.ms kind) := by
    rcases hs with hs | hs <;> simp [requestBytes, writeBytes, writeByte, hs]
  have e2 : takeRequest p ((s.modPort p fun r => r.begin s.clock.ms kind).modPort p fun r =>
      { r with reqBuf := requestBytes kind body, gapTimer := some (s.clock.ms + Config.portGapMs) }) =
      placeReply p kind (serveRequest p kind body
        (s.modPort p fun r => r.asked (requestBytes kind body))) := by
    rw [takeRequest, State.modPort_modPort, State.modPort_modPort]
    have : s.modPort p ((PortRec.take ∘ fun r =>
        { r with reqBuf := requestBytes kind body, gapTimer := some (s.clock.ms + Config.portGapMs) }) ∘
        fun r => r.begin s.clock.ms kind) = s.modPort p fun r => r.asked (requestBytes kind body) := by
      apply State.modPort_congr
      simp [PortRec.take, PortRec.begin, PortRec.startGap, PortRec.asked, PortRec.nextHeader]
    rw [this, servePending]
    simp [PortRec.asked, requestBytes]
  rw [submit, e1, ← e2]
  congr 1
  generalize hv : (s.modPort p fun r => r.begin s.clock.ms kind) = v
  have v1 : (v.port p).state = .assembling := by rw [← hv]; simp [PortRec.begin, PortRec.startGap]
  have v2 : (v.port p).discarded = false := by rw [← hv]; simp [PortRec.begin, PortRec.startGap]
  have v3 : (v.port p).reqBuf = [kind] := by rw [← hv]; simp [PortRec.begin, PortRec.startGap]
  have v4 : v.clock.ms = s.clock.ms := by rw [← hv]; simp
  have e3 : writeBytes p (BitVec.ofNat 8 body.length :: body) v =
      writeBytes p body (assemble p (BitVec.ofNat 8 body.length) v) := by
    simp [writeBytes, writeByte, v1]
  have e4 : v.modPort p (fun r => r.append v.clock.ms (BitVec.ofNat 8 body.length)) = v.modPort p fun r =>
      { r with
        reqBuf := [kind, BitVec.ofNat 8 body.length]
        gapTimer := some (s.clock.ms + Config.portGapMs) } := by
    apply State.modPort_congr
    have : ¬ 30 < body.length % 256 := by omega
    simp [PortRec.append, PortRec.startGap, v2, v3, v4, this]
  rw [e3, assemble, e4]
  simp only [State.port_modPort_self, requestComplete, hlen]
  by_cases hbody : body = []
  · subst hbody
    simp [writeBytes, requestBytes]
  · have hl : 0 < body.length := List.length_pos_iff.mpr hbody
    rw [if_neg (by simp; omega), writeBytes_rest p kind (BitVec.ofNat 8 body.length) body [] _ hbody (by simpa using v1)
      (by simpa using v2) (by simp) (by rw [hlen]; simp), State.modPort_modPort]
    congr 1
    apply State.modPort_congr
    simp [requestBytes, v4]

/-- In PENDING a whole request is one write strobe held under WAIT; its other bytes never reach the port
(R159, assumption logs 9 and 11). -/
theorem submit_pending (h : (s.port p).state = .pending) (kind : Byte) (body : List Byte) :
    submit p kind body s = .next (s.modPort p fun r => r.hold (.write kind)) := by
  have stays : ∀ (bs : List Byte) (v : State), (v.port p).state = .pending → (v.port p).held ≠ none →
      writeBytes p bs v = v := by
    intro bs
    induction bs with
    | nil => intro v _ _; rfl
    | cons b bs ih =>
      intro v hp hh
      have e : writeByte p b v = v := by
        simp only [writeByte, hp]
        apply State.modPort_eq_self
        unfold PortRec.hold
        split
        · rename_i hn; exact absurd hn hh
        · rfl
      show writeBytes p bs (writeByte p b v) = v
      rw [e]; exact ih v hp hh
  unfold submit requestBytes
  congr 1
  show writeBytes p _ (writeByte p kind s) = _
  have e : writeByte p kind s = s.modPort p fun r => r.hold (.write kind) := by
    simp [writeByte, h]
  rw [e]
  apply stays
  · simp only [State.port_modPort_self, PortRec.hold]; split <;> simp [h]
  · simp only [State.port_modPort_self, PortRec.hold]; split <;> simp [*]

/-- A reply placed at a port whose request left the rest of the part, and the port, as they were when it was
asked: the port is answered, and nothing else changes (R158). -/
theorem placeReply_asked (h : (s.port p).held = none) (kind : RequestKind) (req : List Byte) (x : Reply) :
    placeReply p kind.code (s.modPort p (fun r => r.asked req), some x) = s.answeredAt p kind x := by
  simp only [placeReply, State.answeredAt, State.modPort_modPort]
  apply State.modPort_congr
  simp [PortRec.asked, PortRec.place, PortRec.release, PortRec.answered, h]

/-- A placed reply, where no strobe is held: the port holds it (R158). -/
theorem placeReply_holds {t : State} (h : (t.port p).held = none) (hf : (t.port p).ovr = false ∧
      (t.port p).frm = false ∧ (t.port p).rdisc = false) (kind : Byte) (x : Reply) :
    ((placeReply p kind (t, some x)).port p).holdsReply kind (t.port p).header x := by
  simp [placeReply, PortRec.place, PortRec.release, h, PortRec.holdsReply, hf]

/-- A placed reply changes its own port only. -/
theorem placeReply_rest {t : State} (kind : Byte) (x : Reply) :
    ∃ y, placeReply p kind (t, some x) = { t with ports := y } ∧
      ∀ q, q ≠ p → (placeReply p kind (t, some x)).port q = t.port q :=
  ⟨_, rfl, fun q hq => State.port_modPort_of_ne t p q _ (Ne.symm hq)⟩

end Sys2Proof.Machine
end

