-- ==== Sys2Proof/Laws/Resets.lean ====
section
/-! SUPPORT. What the load and the notices of a reset leave (R20, R43, R165 to R167). -/

namespace Sys2Proof.Machine

open Sys2Proof

variable (s : State)

/-- A load keeps the clock, the pins, the ports, the store and the queue of commands (R166, R167). -/
theorem loadTables_rest : (loadTables s).clock = s.clock ∧ (loadTables s).pins = s.pins ∧
    (loadTables s).ports = s.ports ∧ (loadTables s).store = s.store ∧
    (loadTables s).freeDraws = s.freeDraws + 1 ∧ (loadTables s).pending = s.pending :=
  by unfold loadTables; dsimp only; exact ⟨rfl, rfl, rfl, rfl, rfl, rfl⟩

/-- A load keeps every figure of the front end but its settings (R59, R60). -/
theorem loadFrontEnd_rest (t : Store) (fe : FrontEnd) :
    (loadFrontEnd t fe).count = fe.count ∧ (loadFrontEnd t fe).saturated = fe.saturated ∧
      (loadFrontEnd t fe).speed = fe.speed ∧ (loadFrontEnd t fe).triple = fe.triple ∧
      (loadFrontEnd t fe).ring = fe.ring ∧ (loadFrontEnd t fe).gust = fe.gust ∧
      (loadFrontEnd t fe).bearing = fe.bearing ∧ (loadFrontEnd t fe).wet = fe.wet ∧
      (loadFrontEnd t fe).word.live = fe.word.live ∧ (loadFrontEnd t fe).word.sticky = fe.word.sticky ∧
      (loadFrontEnd t fe).precaution = fe.precaution := by
  unfold loadFrontEnd loadSite loadDelays; dsimp only
  split <;> split <;> exact ⟨rfl, rfl, rfl, rfl, rfl, rfl, rfl, rfl, rfl, rfl, rfl⟩

/-- A load changes nothing that QUERY-WEATHER reports of the front end (R58, R59). -/
theorem loadFrontEnd_figures (t : Store) (fe : FrontEnd) :
    frontEndFigures (loadFrontEnd t fe) = frontEndFigures fe := by
  unfold loadFrontEnd loadSite loadDelays; dsimp only
  split <;> split <;> rfl

/-- After a POR or PIN reset QUERY-WEATHER reports the word that the reset and its load leave (assumption log 52). -/
theorem freshFrontEnd_boundaryWord (t : Store) (sticky : Cond) :
    (loadFrontEnd t (freshFrontEnd sticky (loadEnables t))).boundaryWord =
      (loadFrontEnd t (freshFrontEnd sticky (loadEnables t))).word := by
  unfold loadFrontEnd loadSite loadDelays; dsimp only
  split <;> split <;> rfl

/-- The load's clamp is the nearest bound. -/
theorem clampTo_near (lo hi v : Nat) (h : lo ≤ hi) : clampTo lo hi v = near lo hi v := by
  unfold clampTo near; split <;> (try split) <;> omega

/-- The codes of R177, each code above the highest read as the highest (R6, R36). -/
theorem kindOfCode_listed (n : Nat) :
    some (kindOfCode n) = [ApKind.window, .skylight, .ventWindow, .ventSkylight][near 0 3 n]? := by
  match n with
  | 0 | 1 | 2 => rfl
  | n + 3 => rw [show near 0 3 (n + 3) = 3 by unfold near; omega]; rfl

theorem branchOfCode_listed (n : Nat) : some (branchOfCode n) = [Branch.A, .B, .C, .D][near 0 3 n]? := by
  match n with
  | 0 | 1 | 2 => rfl
  | n + 3 => rw [show near 0 3 (n + 3) = 3 by unfold near; omega]; rfl

theorem rightOfCode_listed (n : Nat) : some (rightOfCode n) = [Right.none, .observe, .order][near 0 2 n]? := by
  match n with
  | 0 | 1 => rfl
  | n + 2 => rw [show near 0 2 (n + 2) = 2 by unfold near; omega]; rfl

theorem roleOfCode_listed (n : Nat) : some (roleOfCode n) = [LifeRole.none, .vent, .compartment][near 0 2 n]? := by
  match n with
  | 0 | 1 => rfl
  | n + 2 => rw [show near 0 2 (n + 2) = 2 by unfold near; omega]; rfl

/-- What the load gives an aperture, field by field (R3, R6). -/
theorem loadStatic_loaded (t : Store) (n : Nat) : StaticLoaded t n (loadStatic t n) := by
  unfold loadStatic
  split <;> rename_i h
  · have run : clampTo 1 100 (field1 t n 7) ≤ 200 := by unfold clampTo; split <;> (try split) <;> omega
    refine ⟨fun e => absurd (h.symm.trans e) (by decide), fun _ => ⟨rfl, rfl, ?_, ?_⟩⟩
    · dsimp only
      rw [Bool.or_comm]
      cases kindOfCode (field1 t n 1 % 16) <;> rfl
    · refine ⟨?_, kindOfCode_listed _, branchOfCode_listed _, ?_, rfl, ?_, ?_, clampTo_near _ _ _ run, ?_, ?_, ?_⟩ <;>
        (dsimp only; refine clampTo_near _ _ _ ?_; omega)
  · exact ⟨fun _ => rfl, fun e => absurd e h⟩

/-- What the load gives a zone descriptor, field by field (R36). -/
theorem loadZone_loaded (t : Store) (n : Nat) : ZoneLoaded t n (loadZone t n) := by
  unfold loadZone
  split <;> rename_i h
  · refine ⟨fun e => absurd (h.symm.trans e) (by decide), fun _ => ⟨rfl, ?_, ?_, roleOfCode_listed _,
      rightOfCode_listed _, rightOfCode_listed _, rightOfCode_listed _, ?_, ?_⟩⟩ <;>
      (dsimp only; refine clampTo_near _ _ _ ?_; omega)
  · exact ⟨fun _ => ⟨rfl, rfl, rfl, rfl, rfl, rfl, rfl, rfl, rfl⟩, fun e => absurd e h⟩

/-- What the load gives the base descriptor, field by field (R37). -/
theorem loadBase_loaded (t : Store) : BaseLoaded t (loadBase t) := by
  unfold loadBase
  split <;> rename_i h
  · exact ⟨rfl, fun e => absurd (h.symm.trans e) (by decide), fun _ => ((loadZone_loaded t 60).2 h).2.2.2.2⟩
  · exact ⟨rfl, fun _ => ⟨rfl, rfl, rfl, rfl, rfl⟩, fun e => absurd e h⟩

/-- A load leaves the supervisor at its reset values, but for the Trigger Record (R92). -/
theorem loadTables_sup : (loadTables s).sup.weather = .clear ∧ (loadTables s).sup.queue = [] ∧
    (loadTables s).sup.holdTimer = none ∧ (loadTables s).sup.advisory = none ∧
    (loadTables s).sup.trigger = s.sup.trigger ∧ (loadTables s).sup.changeCount = 0 := by
  unfold loadTables loadSupervisor; dsimp only
  split <;> exact ⟨rfl, rfl, rfl, rfl, rfl, rfl⟩

/-- A loaded aperture's limits: facade, load limit, vent position (R6). -/
theorem loadStatic_ranges (t : Store) (n : Nat) : (loadStatic t n).facade ≤ 359 ∧
    (loadStatic t n).loadLimit ≤ 8600 ∧ (loadStatic t n).vent ≤ 1000 ∧ (loadStatic t n).rank ≤ 3 := by
  unfold loadStatic
  split
  · dsimp only; unfold clampTo
    refine ⟨?_, ?_, ?_, ?_⟩ <;> (split <;> (try split) <;> omega)
  · decide

/-- The notices of a reset change ports only, and join what stands queued there (R165 to R167). -/
theorem announceReset_frame {k : Aperture → Aperture} (kind : ResetKind) (reason : RestartReason) :
    Frame k s (announceReset kind reason s) :=
  (Frame.notify _ _).trans (Frame.foldl (fun _ _ => Frame.notify _ _) _ _)

/-- Nothing but the ports changes at the notices of a reset. -/
theorem announceReset_rest (kind : ResetKind) (reason : RestartReason) :
    ∃ x, announceReset kind reason s = { s with ports := x } := by
  unfold announceReset; dsimp only
  generalize clampedRecords s.store = l
  obtain ⟨x, h⟩ := State.notify_rest (s := s) allPorts (.restarted kind reason)
  rw [h]
  clear h
  induction l generalizing x with
  | nil => exact ⟨x, rfl⟩
  | cons n l ih =>
    obtain ⟨y, g⟩ := State.notify_rest (s := { s with ports := x }) [.S] (.loadClamped n)
    rw [List.foldl_cons, g]
    exact ih y

/-- Notices that join one queue in turn: as many as there is room for stand behind the old ones, and NLOST is set where
one was lost (R162). -/
theorem PortRec.addNotices (l : List Notice) (r : PortRec) :
    l.foldl PortRec.addNotice r = { r with
      notices := r.notices ++ l.take (16 - r.notices.length)
      nlost := r.nlost || decide (l ≠ [] ∧ 16 < r.notices.length + l.length) } := by
  induction l generalizing r with
  | nil => simp
  | cons n l ih =>
    rw [List.foldl_cons, ih]
    unfold PortRec.addNotice Config.noticeCapacity
    by_cases room : r.notices.length < 16
    · obtain ⟨k, e⟩ : ∃ k, 16 - r.notices.length = k + 1 := ⟨15 - r.notices.length, by omega⟩
      have e' : 16 - (r.notices.length + 1) = k := by omega
      have full : (l ≠ [] ∧ 16 < r.notices.length + 1 + l.length) ↔ 16 < r.notices.length + (l.length + 1) := by
        cases l with
        | nil => simp; omega
        | cons m l => simp; omega
      simp [room, e, e', full]
    · have e : 16 - r.notices.length = 0 := by omega
      have lost : 16 < r.notices.length + (l.length + 1) := by omega
      simp [room, e, lost]

end Sys2Proof.Machine
end

