-- ==== Sys2Proof/Laws/Store.lean ====
section
/-! SUPPORT. The Commissioning Store's contents: every operation keeps the canonical form, and what a byte
reads as after an erase or a write (R168, R172, R176). -/

namespace Sys2Proof.Machine

open Sys2Proof

/-! ### The canonical form -/

theorem cellsFrom_mono {lo lo' : Nat} {cs : List Host.Cell} (h : cellsFrom lo cs) (hl : lo' ≤ lo) :
    cellsFrom lo' cs := by
  cases cs with
  | nil => rfl
  | cons c cs =>
    simp only [cellsFrom, Bool.and_eq_true, decide_eq_true_eq] at h ⊢
    exact ⟨⟨⟨by omega, h.1.1.2⟩, h.1.2⟩, h.2⟩

theorem cellsFrom_eraseCells {lo : Nat} {cs : List Host.Cell} (a b : Nat) (h : cellsFrom lo cs) :
    cellsFrom lo (eraseCells cs a b) := by
  induction cs generalizing lo with
  | nil => rfl
  | cons c cs ih =>
    simp only [cellsFrom, Bool.and_eq_true, decide_eq_true_eq] at h
    unfold eraseCells
    rw [List.filter_cons]
    split
    · simp only [cellsFrom, Bool.and_eq_true, decide_eq_true_eq]
      exact ⟨h.1, ih h.2⟩
    · exact cellsFrom_mono (ih h.2) (by omega)

theorem cellsFrom_insertCell {lo a : Nat} {b : Byte} {cs : List Host.Cell} (ha : lo ≤ a) (hs : a < storeSize)
    (hb : b ≠ blankByte) (h : cellsFrom lo cs) : cellsFrom lo (insertCell a b cs) := by
  induction cs generalizing lo with
  | nil => simp [insertCell, cellsFrom, ha, hs, hb]
  | cons c cs ih =>
    simp only [cellsFrom, Bool.and_eq_true, decide_eq_true_eq] at h
    unfold insertCell
    split
    · rename_i hc
      simp only [cellsFrom, Bool.and_eq_true, decide_eq_true_eq]
      exact ⟨⟨⟨ha, hs⟩, hb⟩, ⟨⟨by omega, h.1.1.2⟩, h.1.2⟩, h.2⟩
    · split
      · rename_i hc
        simp only [cellsFrom, Bool.and_eq_true, decide_eq_true_eq]
        exact ⟨⟨⟨ha, hs⟩, hb⟩, by rw [hc]; exact h.2⟩
      · rename_i h1 h2
        simp only [cellsFrom, Bool.and_eq_true, decide_eq_true_eq]
        exact ⟨h.1, ih (by omega) h.2⟩

theorem cellsFrom_writeCell {cs : List Host.Cell} (a : Nat) (b : Byte) (h : cellsFrom 0 cs) :
    cellsFrom 0 (writeCell cs a b) := by
  unfold writeCell
  split
  · exact h
  · split
    · exact cellsFrom_eraseCells _ _ h
    · exact cellsFrom_insertCell (Nat.zero_le _) (by omega) ‹_› h

theorem cellsFrom_writeCells {cs : List Host.Cell} (a : Nat) (bs : List Byte) (h : cellsFrom 0 cs) :
    cellsFrom 0 (writeCells cs a bs) := by
  induction bs generalizing cs a with
  | nil => exact h
  | cons b bs ih => exact ih (a + 1) (cellsFrom_writeCell a b h)

/-- An erase keeps the canonical form. -/
theorem Store.erase_wf {t : Store} (first last : Nat) (h : t.wf) : (t.erase first last).wf :=
  cellsFrom_eraseCells _ _ h

/-- A write keeps the canonical form. -/
theorem Store.program_wf {t : Store} (n : Nat) (data : List Byte) (h : t.wf) : (t.program n data).wf := by
  unfold Store.program
  split
  · exact cellsFrom_writeCells _ _ (Store.erase_wf n n h)
  · exact Store.erase_wf n n h

/-- The completion of an operation keeps the canonical form. -/
theorem Store.finishOp_wf {t : Store} (h : t.wf) : t.finishOp.wf := by
  unfold Store.finishOp
  split
  · exact Store.erase_wf _ _ h
  · exact Store.program_wf _ _ h
  · exact h

/-- The abort of an operation keeps the canonical form. -/
theorem Store.abortOp_wf {t : Store} (h : t.wf) : t.abortOp.wf := by
  unfold Store.abortOp
  split
  · exact Store.erase_wf _ _ h
  · exact h

/-! ### Reading -/

theorem readCell_eraseCells (cs : List Host.Cell) (lo hi a : Nat) :
    readCell (eraseCells cs lo hi) a = if lo ≤ a ∧ a < hi then blankByte else readCell cs a := by
  induction cs with
  | nil => simp [eraseCells, readCell]
  | cons c cs ih =>
    unfold eraseCells at ih ⊢
    rw [List.filter_cons]
    by_cases hc : c.1 = a
    · by_cases hr : lo ≤ a ∧ a < hi
      · rw [if_neg (by simp [hc]; omega), ih, if_pos hr, if_pos hr]
      · rw [if_pos (by simp [hc]; omega), if_neg hr]; simp [readCell, hc]
    · split
      · simp only [readCell, hc, if_false]; exact ih
      · rw [ih]; simp only [readCell, hc, if_false]

theorem readCell_insertCell (cs : List Host.Cell) (a : Nat) (b : Byte) (x : Nat) :
    readCell (insertCell a b cs) x = if x = a then b else readCell cs x := by
  induction cs with
  | nil => simp [insertCell, readCell, eq_comm]
  | cons c cs ih =>
    unfold insertCell
    split
    · simp [readCell, eq_comm]
    · split
      · rename_i h
        by_cases hx : x = a
        · simp [readCell, hx]
        · simp [readCell, hx, ← h, Ne.symm hx]
      · by_cases hx : x = a
        · subst hx
          have : c.1 ≠ x := fun e => by simp_all
          simp [readCell, this, ih]
        · simp [readCell, hx, ih]

/-- A byte written at an address of the store reads back there, and every other byte reads as before. -/
theorem readCell_writeCell (cs : List Host.Cell) {a : Nat} (ha : a < storeSize) (b : Byte) (x : Nat) :
    readCell (writeCell cs a b) x = if x = a then b else readCell cs x := by
  unfold writeCell
  rw [if_neg (by omega)]
  split
  · rename_i hb
    rw [readCell_eraseCells]
    by_cases hx : x = a
    · simp [hx, hb]
    · rw [if_neg (by omega), if_neg hx]
  · exact readCell_insertCell cs a b x

/-- Bytes written from an address upward read back there, and every other byte reads as before. -/
theorem readCell_writeCells (bs : List Byte) (cs : List Host.Cell) (a : Nat) (ha : a + bs.length ≤ storeSize)
    (x : Nat) : readCell (writeCells cs a bs) x =
      if a ≤ x ∧ x < a + bs.length then bs.getD (x - a) blankByte else readCell cs x := by
  induction bs generalizing cs a with
  | nil => simp [writeCells]
  | cons b bs ih =>
    simp only [List.length_cons] at ha ⊢
    rw [writeCells, ih _ (a + 1) (by omega), readCell_writeCell cs (by omega)]
    by_cases h1 : a + 1 ≤ x ∧ x < a + 1 + bs.length
    · rw [if_pos h1, if_pos (by omega)]
      obtain ⟨k, hk⟩ : ∃ k, x - a = k + 1 := ⟨x - a - 1, by omega⟩
      rw [hk, List.getD_cons_succ]
      congr 1; omega
    · rw [if_neg h1]
      by_cases hx : x = a
      · subst hx; simp
      · rw [if_neg hx, if_neg (by omega)]

/-- Every byte of an erased record reads 0xFF, and every other record's bytes read as before (R172). -/
theorem recByte_erase (t : Store) (first last n k : Nat) (hk : k < 16) :
    recByte (t.erase first last) n k = if first ≤ n ∧ n ≤ last then blankByte else recByte t n k := by
  unfold recByte Store.erase
  rw [readCell_eraseCells]
  by_cases h : first ≤ n ∧ n ≤ last
  · rw [if_pos (by omega), if_pos h]
  · rw [if_neg (by omega), if_neg h]

/-- A write with completion marker 0x00 leaves the record's bytes as sent and every other record as it was
(R168). -/
theorem recByte_program (t : Store) (r : Nat) (hr : r < 66) (data : List Byte) (hd : data.length = 16)
    (hm : data.getD 15 blankByte = 0) (n k : Nat) (hk : k < 16) :
    recByte (t.program r data) n k = if n = r then data.getD k blankByte else recByte t n k := by
  unfold Store.program
  rw [if_pos hm]
  unfold recByte
  have hs : storeSize = 1056 := rfl
  have ht : data.take 16 = data := List.take_of_length_le (by omega)
  rw [ht, readCell_writeCells _ _ _ (by omega)]
  by_cases h : n = r
  · subst h
    rw [if_pos (by omega), if_pos rfl]
    congr 1; omega
  · rw [if_neg (by omega), if_neg h]
    have := recByte_erase t r r n k hk
    rw [if_neg (by omega)] at this
    exact this

/-- A write with any other completion marker has the effect of an erase (R168). -/
theorem program_unmarked (t : Store) (n : Nat) (data : List Byte) (h : data.getD 15 blankByte ≠ 0) :
    t.program n data = t.erase n n := by
  unfold Store.program
  rw [if_neg h]

/-- Equal contents in canonical form are equal lists. -/
theorem cells_ext {lo lo' : Nat} {cs ds : List Host.Cell} (hc : cellsFrom lo cs) (hd : cellsFrom lo' ds)
    (h : ∀ a, readCell cs a = readCell ds a) : cs = ds := by
  have outside : ∀ (l : List Host.Cell) (m a : Nat), cellsFrom m l → a < m → readCell l a = blankByte := by
    intro l
    induction l with
    | nil => intros; rfl
    | cons c l ih =>
      intro m a hl ha
      simp only [cellsFrom, Bool.and_eq_true, decide_eq_true_eq] at hl
      have : c.1 ≠ a := by omega
      simp [readCell, this, ih (c.1 + 1) a hl.2 (by omega)]
  induction cs generalizing lo lo' ds with
  | nil =>
    cases ds with
    | nil => rfl
    | cons d ds =>
      simp only [cellsFrom, Bool.and_eq_true, decide_eq_true_eq] at hd
      have := h d.1
      simp [readCell] at this
      exact absurd this.symm hd.1.2
  | cons c cs ih =>
    have hc' := hc
    simp only [cellsFrom, Bool.and_eq_true, decide_eq_true_eq] at hc
    cases ds with
    | nil =>
      have := h c.1
      simp [readCell] at this
      exact absurd this hc.1.2
    | cons d ds =>
      have hd' := hd
      simp only [cellsFrom, Bool.and_eq_true, decide_eq_true_eq] at hd
      have first : c.1 = d.1 := by
        rcases Nat.lt_trichotomy c.1 d.1 with hlt | heq | hgt
        · have h1 : readCell (d :: ds) c.1 = blankByte :=
            outside _ d.1 _ (by simp [cellsFrom, hd]) hlt
          rw [← h c.1] at h1; simp [readCell] at h1
          exact absurd h1 hc.1.2
        · exact heq
        · have h1 : readCell (c :: cs) d.1 = blankByte :=
            outside _ c.1 _ (by simp [cellsFrom, hc]) hgt
          rw [h d.1] at h1; simp [readCell] at h1
          exact absurd h1 hd.1.2
      have second : c.2 = d.2 := by
        have := h c.1
        simpa [readCell, first] using this
      have rest : cs = ds := by
        apply ih hc.2 hd.2
        intro a
        by_cases ha : a = c.1
        · rw [ha, outside cs (c.1 + 1) _ hc.2 (by omega), outside ds (d.1 + 1) _ hd.2 (by omega)]
        · have := h a
          simpa [readCell, Ne.symm ha, ← first] using this
      rw [rest, Prod.ext first second]

end Sys2Proof.Machine
end

