-- ==== Sys2Proof/Laws/Weather.lean ====
section
/-! SUPPORT. What a computation and an exposure update can do, what the fire states do to slates, and the
stages of the front end. -/

namespace Sys2Proof.Machine

open Sys2Proof

variable {k : Aperture → Aperture} (i j : ApId) (s : State)

/-! ### Computation (R61, R68, R69) -/

/-- A computation rewrites the figures of every installed aperture, and no other field. -/
theorem compute_ap : (compute s).ap i =
    if (s.ap i).present then { s.ap i with fig := figures s.fe (gAdv s) (s.ap i).fix } else s.ap i := by
  simp only [compute, State.ap, Fin.getElem_fin, Vector.getElem_map]
  rfl

/-- Outside the figures a computation writes G_adv alone. -/
theorem compute_rest : { compute s with aps := s.aps, sup := s.sup } = s ∧
    (compute s).sup = { s.sup with advGust := gAdv s } := ⟨rfl, rfl⟩

/-! ### Causes and needs (R80) -/

theorem Cond.any_eq_true (c : Cond) : c.any = true ↔ c ≠ Cond.none := by
  rcases c with ⟨_ | _, _ | _, _ | _, _ | _⟩ <;> decide

/-- The machine's test of a cause says that the aperture has it. -/
theorem hasCause_eq_true (c : Cause) : hasCause s (s.ap i) c = true ↔ HasCause s i c := by
  cases c with
  | rain => simp [hasCause, HasCause]
  | wind => simp [hasCause, HasCause]
  | sensor => simp [hasCause, HasCause, Cond.any_eq_true]
  | advisory =>
    simp only [hasCause, HasCause, State.rainExpected]
    rcases s.sup.advisory with _ | d <;> rcases (s.ap i).fig.adv with _ | ⟨q, _ | _⟩ <;> simp

/-- An aperture has a first cause exactly where it has a closure need. -/
theorem firstCause_isSome : (firstCause s (s.ap i)).isSome = true ↔ HasNeed s i := by
  simp only [firstCause, List.find?_isSome, hasCause_eq_true, HasNeed]
  exact ⟨fun ⟨c, _, h⟩ => ⟨c, h⟩, fun ⟨c, h⟩ => ⟨c, by cases c <;> decide, h⟩⟩

/-! ### Frames of events that also write the supervisor's record -/

/-- A frame whose supervisor's record may differ. -/
theorem Frame.exceptSup {s t : State} (h : Frame k s t) : Frame k { s with sup := t.sup } t :=
  { h with sup := rfl }

theorem Frame.exceptSup_trans {s t u : State} (h : Frame k { s with sup := t.sup } t)
    (g : Frame k { t with sup := u.sup } u) : Frame k { s with sup := u.sup } u := by
  have h' : Frame k { s with sup := u.sup } { t with sup := u.sup } := { h with sup := rfl }
  exact h'.trans g

theorem announceWeather_frame (old w : Weather) : Frame k s (announceWeather old w s) :=
  Frame.ite (fun _ => Frame.refl k s) fun _ => Frame.notify _ _

theorem claimOn_frame : Frame Aperture.stands s (claimOn s i) := by
  unfold claimOn; split
  · exact postClaim_frame i s _
  · exact Frame.refl _ s

theorem renewClaims_frame (l : List ApId) : Frame Aperture.stands s (renewClaims l s) :=
  Frame.foldl (fun s' i => Frame.modAp (s := s') i _ rfl) l s

theorem setWeather_frame (w : Weather) : Frame k { s with sup := (setWeather w s).sup } (setWeather w s) :=
  Frame.refl k _

/-- An exposure update writes the supervisor's record and the orders of apertures, and queues notices; it
changes no position, static field, order tag or figure (R75, R81 to R83). -/
theorem exposureUpdate_frame :
    Frame Aperture.stands { s with sup := (exposureUpdate s).sup } (exposureUpdate s) := by
  unfold exposureUpdate; dsimp only
  generalize nextWeather s = w
  generalize allAps.filter (fun i => (s.ap i).slate.weather.isSome) = old
  have h1 : ∀ v : State, Frame Aperture.stands v (if w = .active then allAps.foldl claimOn v else v) := fun v =>
    Frame.ite (fun _ => Frame.foldl (fun s' i => claimOn_frame i s') _ v) fun _ => Frame.refl _ v
  have h2 : ∀ v : State, Frame Aperture.stands v (resortQueue (renewClaims old v)) := fun v =>
    (renewClaims_frame v old).trans (resortQueue_frame _)
  have h3 : ∀ (v : State) (c : Prop) [Decidable c] (x : Trigger), Frame Aperture.stands
      { v with sup := (if c then { v with sup := { v.sup with trigger := some x } } else v).sup }
      (if c then { v with sup := { v.sup with trigger := some x } } else v) := by
    intro v c _ x
    split
    · exact Frame.refl _ _
    · exact Frame.refl _ v
  refine Frame.exceptSup_trans ?_ (announceWeather_frame _ _ w).exceptSup
  refine Frame.exceptSup_trans ?_ (h3 _ _ _)
  refine Frame.exceptSup_trans ?_ (h2 _).exceptSup
  refine Frame.exceptSup_trans ?_ (h1 _).exceptSup
  exact Frame.refl _ _

/-! ### Claims (R81, R82) -/

/-- A claim is posted exactly where there is a closure need and no WEATHER slot (R81). -/
theorem claimOn_slate : ((claimOn s i).ap j).slate =
    if i = j ∧ (s.ap i).present ∧ (s.ap i).slate.weather = none ∧ (firstCause s (s.ap i)).isSome then
      claimedSlate s (s.ap i).slate
    else (s.ap j).slate := by
  unfold claimOn
  split
  · rename_i c h1 h2
    rw [postClaim_slate]
    simp only [Bool.and_eq_true, Option.isNone_iff_eq_none] at h1
    simp [h1.1, h1.2, h2]
  · rename_i h
    split
    · rename_i g
      obtain ⟨rfl, g1, g2, g3⟩ := g
      obtain ⟨c, hc⟩ := Option.isSome_iff_exists.mp g3
      exact absurd hc (h c (by simp [g1, g2]))
    · rfl

/-- The renewal of claims rewrites causes and deadlines, and no slot. -/
theorem renewClaims_slate (l : List ApId) : ((renewClaims l s).ap j).slate = (s.ap j).slate := by
  induction l generalizing s with
  | nil => rfl
  | cons x xs ih =>
    have h := ih (s.modAp x fun a => { a with claim := a.claim.map (renewClaim s a) })
    rw [State.ap_modAp] at h
    refine Eq.trans h ?_
    split
    · rename_i e; rw [e]
    · rfl

/-! ### The front end (R44 to R55) -/

/-- What the stages of a second boundary leave of the front end's settings (R59). -/
theorem measure_settings (code : Nat) (rain rainok : Bool) (fe : FrontEnd) :
    let t := conditionStage (measure code rain rainok fe)
    t.constK = fe.constK ∧ t.vaneOffset = fe.vaneOffset ∧ t.wetDelay = fe.wetDelay ∧
      t.dryDelay = fe.dryDelay ∧ t.silence = fe.silence ∧ t.word.enables = fe.word.enables := by
  cases rain <;> cases rainok <;> exact ⟨rfl, rfl, rfl, rfl, rfl, rfl⟩

/-- A second boundary has QUERY-WEATHER report its word (R58). -/
@[simp] theorem conditionStage_boundaryWord (fe : FrontEnd) :
    (conditionStage fe).boundaryWord = (conditionStage fe).word := rfl

/-- The wind figures of a second boundary (R45 to R49). -/
theorem measure_wind (code : Nat) (rain rainok : Bool) (fe : FrontEnd) :
    let t := conditionStage (measure code rain rainok fe)
    t.count = 0 ∧ t.saturated = false ∧ t.speed = usedSpeed (rawSpeed fe.count fe.constK) ∧
      t.triple = (t.speed :: fe.triple).take 3 ∧ t.ring = pushRing fe.ring (mean3 t.triple) ∧
      t.gust = ringMax t.ring := by
  cases rain <;> cases rainok <;> exact ⟨rfl, rfl, rfl, rfl, rfl, rfl⟩

/-- A ring that holds at most 120 means still does after another (R48). -/
theorem pushRing_length (ring : List Nat) (m : Nat) (h : ring.length ≤ 120) : (pushRing ring m).length ≤ 120 := by
  unfold pushRing
  split
  · simp; omega
  · simp; omega

/-! ### Fire states (R147 to R153) -/

theorem announceFire_frame (old new : FireState) : Frame k s (announceFire old new s) := Frame.notify _ _

/-- At an entry to ALARM one aperture's LIFE slot may be written, and nothing else of any slate (R148, R149). -/
theorem postAlarm_slate (r : Bool) : ((postAlarm r s i).ap j).slate = (s.ap j).slate ∨
    i = j ∧ ∃ x, alarmSlot s i = some x ∧ ((postAlarm r s i).ap j).slate = { (s.ap j).slate with life := some x } := by
  unfold postAlarm; dsimp only
  split
  · rename_i x _ hx
    rw [(putResolve_spec i j _ _ _).1]
    by_cases e : i = j
    · exact .inr ⟨e, x, hx, by simp [e, Slate.put]⟩
    · exact .inl (by simp [e])
  · exact .inl rfl

/-- The restore takes the alarm-origin slot off one aperture, and nothing else of any slate (R153). -/
theorem dropAlarm_slate : ((dropAlarm s i).ap j).slate =
    if i = j ∧ (s.ap i).present ∧ (s.ap i).alarmHeld then { (s.ap i).slate with life := none }
    else (s.ap j).slate := by
  unfold dropAlarm
  split
  · rename_i h
    simp only [Bool.and_eq_true] at h
    rw [(putResolve_spec i j _ _ _).1]
    simp [h, Slate.put]
  · rename_i h
    simp only [Bool.and_eq_true] at h
    rw [if_neg fun g => h g.2]

end Sys2Proof.Machine
end

