-- ==== Sys2Proof/Tests/Slice0.lean ====
section
/-! SUPPORT. Tests of the model against the manual's own tables and worked sequences, the smoke test of
WellFormed, and, for every statement of Certificates/Slice0/Obligations.lean that has hypotheses, a state and
operands that meet them (`witness_…`). Expected values are the manual's, or worked out by hand from its rules. -/

namespace Sys2Proof.Tests

open Sys2Proof Sys2Proof.Machine

set_option Elab.async false

/-! ### WellFormed -/

/-- An unknown request may not carry a known kind. -/
theorem test_wf_known_kind : (Instr.unknownRequest .S 0x25 []).wf = false := by decide

/-- A request body has at most 30 bytes (R157). -/
theorem test_wf_long_body : (Instr.unknownRequest .S 0x77 (List.replicate 31 0)).wf = false := by decide

/-- A writing STORE-ACT brings 16 bytes (R171). -/
theorem test_wf_short_record : (Instr.storeAct .S 3 (some (List.replicate 15 0))).wf = false := by decide

/-- Well-formed commands pass. -/
theorem test_wf_passes :
    (Instr.unknownRequest .S 0x77 (List.replicate 30 0)).wf = true ∧
      (Instr.storeAct .S 3 (some (List.replicate 16 0))).wf = true ∧ (Instr.order .K 255 9 65535).wf = true := by
  decide

/-! ### Arithmetic and encodings -/

/-- R46: the count times K, rounded, flushed below 5 and clamped above 600. -/
theorem test_speed : rawSpeed 60 250 = 150 ∧ usedSpeed 4 = 0 ∧ usedSpeed 5 = 5 ∧ usedSpeed 601 = 600 := by decide

/-- R47: the one-second mean over one, two and three speeds. -/
theorem test_mean : mean3 [7] = 7 ∧ mean3 [3, 4] = 4 ∧ mean3 [600, 600, 600] = 600 ∧ mean3 [1, 1, 2] = 1 := by decide

/-- R63: the angle across north, and the ramp at 0, 89 and 90 degrees. -/
theorem test_facing :
    facingAngle 350 10 = 20 ∧ facingRamp 0 = 32760 ∧ facingRamp 89 = 364 ∧ facingRamp 90 = 0 := by decide

/-- R66: with a load limit of 4 the band is 3 alone; with a limit of 1 there is none. -/
theorem test_standing :
    standing 4 3 = .band ∧ standing 4 2 = .clear ∧ standing 4 4 = .need ∧ standing 1 0 = .clear ∧
      standing 1 1 = .need ∧ standing 0 8598 = .unlimited := by decide

/-- R38: the blocks of the coverage table, base 22 with size code 2 and base 40 with size code 5. -/
theorem test_coverage :
    let z := fun base size => ({ Zone.blank with enabled := true, base := base, size := size } : Zone)
    (allAps.filter (z 22 2).covers).map Fin.val = [20, 21, 22, 23] ∧
      (allAps.filter (z 40 5).covers).map Fin.val = [32, 33, 34, 35, 36, 37, 38, 39, 40, 41, 42, 43, 44, 45, 46, 47] := by
  decide

/-- R171: the blocks of an erase, the last cut at record 65. -/
theorem test_erase_blocks :
    touched .erase8 13 = (8, 15) ∧ touched .erase4 65 = (64, 65) ∧ touched .erase8 65 = (64, 65) ∧
      touched .erase2 7 = (6, 7) ∧ touched .eraseAll 65 = (0, 63) := by decide

/-- R181: the MOVE to 600 for node 12 with tag 5. -/
theorem test_move_frame :
    (InFlight.mk (.move 12 600) 5 true 0).frame = [0x0C, 0x15, 0x02, 0x58, 0x00, 0x85] := by decide

/-- No row of the opcode table has bits, so no word spells a command. -/
theorem test_no_word : decodeTableWord 16 0x25 = none := by decide

/-! ### A small machine

Eleven installed apertures on branch A, each in another state, with every timer running. -/

/-- An installed aperture at `p`, weighing 64, limited at 100 Pa. -/
def plain (st : MotionState) (p : Option Nat) : Aperture :=
  { Aperture.reset { Static.blank with
      installed := true, rainExposed := true, weight := 64, loadLimit := 100, run := 4, inrush := 9 } with
    state := st, position := p, orderTag := some 3, node := ⟨some 3, 2, some 0, some 20⟩ }

/-- A motion closing to 0 in class SUPERVISORY. -/
def closingMotion : Motion := ⟨0, .closing, .supervisory, .normal⟩

/-- A SUPERVISORY CLOSE, with its target and class derived. -/
def wantClosed (a : Aperture) : Aperture :=
  { a with
    slate := { Slate.empty with supervisory := some ⟨.pos 0, .port .S, 0, none⟩ }
    effTarget := some (.pos 0), effClass := some .supervisory }

/-- The apertures of the small machine. -/
def someAps : List Aperture :=
  [ { wantClosed (plain .starting (some 500)) with
      motion := some closingMotion, stallCount := 2, startTime := some 0
      mon := { Monitor.stopped with inrush := some 10, travel := some 90 } },
    { plain .settling (some 500) with
      motion := some closingMotion
      mon := { Monitor.stopped with settle := some 10, settleCause := some .stop } },
    { wantClosed (plain .settling (some 500)) with
      motion := some closingMotion
      mon := { Monitor.stopped with settle := some 10, settleCause := some .stall } },
    { plain .retryWait (some 500) with mon := { Monitor.stopped with retry := some 50 } },
    { wantClosed (plain .retryWait (some 500)) with mon := { Monitor.stopped with retry := some 50 } },
    { plain .stopping (some 500) with
      motion := some closingMotion, mon := { Monitor.stopped with haltCause := some .target } },
    { plain .offline none with held := some 4 },
    { plain .fault (some 500) with fault := some ⟨.stall, 0⟩, stallCount := 3 },
    { plain .fault (some 500) with fault := some ⟨.timeout, 0⟩ },
    { plain .fault (some 500) with fault := some ⟨.localControl, 0⟩ },
    { plain .rest (some 500) with
      slate := ⟨none, some ⟨.pos 0, .weather, 0, none⟩, none, some ⟨.pos 0, .port .K, 0, some 30⟩⟩
      claim := some ⟨.rain, none⟩ } ]

/-- The small machine. -/
def demo : State :=
  { State.reset with
    aps := Vector.ofFn fun i => someAps.getD i.val (Aperture.reset Static.blank)
    zones := { State.reset.zones with
      desc := State.reset.zones.desc.set 0 ⟨true, 0, 1, .order, .none, .order, .compartment, 5, 10⟩
      warnings := State.reset.zones.warnings.set 0 ⟨.running, some 40⟩ }
    fe := { State.reset.fe with wet := true }
    sup := { State.reset.sup with
      weather := .holding, holdTimer := some 5, advisory := some ⟨3, 1803, 200, true⟩, computed := true }
    branches := { State.reset.branches with a := { State.reset.branches.a with gapTimer := some 20 } }
    link := { State.reset.link with broadcast := false }
    fire := ⟨.normal, false, some 500⟩
    pins := { State.reset.pins with alarm := true } }

/-- The small machine with an exchange running. -/
def sending (x : Exchange) : State :=
  { demo with link := { demo.link with inFlight := some ⟨x, 3, true, 5⟩ } }

/-- The small machine with an operation of the store running. -/
def storing (m : StoreMode) (op : Option StoreOp) : State :=
  { demo with store := { demo.store with mode := m, op := op, commissioning := true } }

/-- The small machine with port `p`'s record changed. -/
def atPort (p : Port) (f : PortRec → PortRec) : State := demo.modPort p f

/-- Aperture `i` of the small machine is changed. -/
def changed (i : ApId) (f : Aperture → Aperture) : State := demo.modAp i f

/-- The reply frame of node `i`: tag 3, position 500, with this reply code nibble and these flags. -/
def reply (i : ApId) (code flags : Byte) : List Byte :=
  let head : List Byte := [BitVec.ofNat 8 i.val, code, 1, 0xF4, flags]
  head ++ [checkByte head]

/-! ### Effects on the small machine -/

/-- R181: a reply from node 0 with the STALLED flag is read as the manual lays it out. -/
theorem test_reply_read :
    parseReply 0 (reply 0 0x13 8) = some ⟨true, 3, 500, false, false, false, true, false⟩ := by decide

/-- R45: a pulse that finds the counter at 2000 marks it saturated. -/
theorem test_pulse_saturates :
    exec .anemoPulse { demo with fe := { demo.fe with count := 2000 } } =
      .next { demo with fe := { demo.fe with count := 2000, saturated := true } } := rfl

/-- R139: the ring POLL goes to the first aperture not ABSENT, with its send count. -/
theorem test_ring_poll :
    (arbitrate demo).link.inFlight = some ⟨.poll 0, 3, true, 5⟩ ∧ (arbitrate demo).link.ring = 1 := by
  decide +kernel

/-- R94: two moving apertures on branch A commit 9 and 4, and the OFFLINE one holds its 4. -/
theorem test_committed : demo.committed .A = 17 := by decide +kernel

/-- R138: a missed HALT returns to the head of its list, before a HALT listed since. -/
theorem test_missed_halt :
    (({ demo.link with haltList := [7] } : Link).takeBack ⟨.halt 5, 3, true, 5⟩).haltList = [5, 7] := by decide +kernel

/-- R95: a release that finds the held current released already runs the attempt all the same. -/
theorem test_release_runs_attempt :
    (releaseHeld 6 (demo.modAp 6 fun a => { a with held := some 0 })).owed = [.A] ∧
      (releaseHeld 6 (demo.modAp 6 fun a => { a with held := none })).owed = [] := by decide +kernel

/-- R24: WEATHER CLOSE governs over the ROOM slot. -/
theorem test_weather_governs : (demo.ap 10).slate.top.map (·.1) = some .weather := by decide +kernel

/-- R121: the third stall of a closing is a fault. -/
theorem test_third_stall : ((stall 0 demo).ap 0).fault = some ⟨.stall, 0⟩ := by decide +kernel

/-- R30: with no slot of its own the port's RELEASE is answered OK with nothing removed. -/
theorem test_release_nothing :
    ((serveRelease .S [3] demo).2).map (fun r => (r.code, r.body.head?)) = some (.ok, some 0) := by decide +kernel

/-- R161 after reset: OBE and NPEND. -/
theorem test_status_byte : (State.reset.port .S).statusByte = 0x50 := by decide +kernel

/-- The state a command leaves. -/
def after (c : Instr) (s : State) : State :=
  match exec c s with
  | .next t => t
  | .fault _ | .refused _ => s

/-- R164, R179, R180: the first NEXT-NOTICE after a POR carries RESTARTED, and nothing more is queued. -/
theorem test_first_notice :
    ((after (.nextNotice .S) State.reset).port .S).replyBuf =
      [0x25, 0x00, 0x00, 14, 1, 0, 0x0B, 0, 0, 0, 0, 0, 0, 0, 0, 0, 0, 0] := by decide +kernel

/-- R28, R34: an ORDER of 1200 on Port K is clamped to 1000, answered OK-CLAMPED, and lives 60 minutes. -/
theorem test_clamped_order :
    ((after (.order .K 1 0 1200) demo).port .K).replyBuf =
      [0x01, 0x01, 0x00, 8, 1, 0, 0x03, 0xE8, 0, 0x03, 0xE8, 3] ∧
    ((after (.order .K 1 0 1200) demo).ap 1).slate.room =
      some ⟨.pos 1000, .port .K, 0, some 36000⟩ := by decide +kernel

/-- R29: Port S may not open a weather-held aperture. -/
theorem test_weather_held_order :
    ((after (.order .S 10 0 300) demo).port .S).replyBuf = [0x01, 0x12, 0x00, 0] := by decide +kernel

/-- R173: a blank record reads 0xFF throughout; mode NONE, commissioning off, no lock set. -/
theorem test_read_blank :
    ((after (.storeRead .L 65) demo).port .L).replyBuf =
      [0x32, 0x00, 0x00, 21, 65, 0] ++ List.replicate 16 0xFF ++ [0, 0, 0] := by decide +kernel

/-- R157, R158: an unknown kind written byte by byte is answered BAD-FORMAT at its taking. -/
theorem test_unknown_bytes :
    ((after (.requestByteWrite .K false 0) (after (.requestByteWrite .K false 0x77) demo)).port .K).replyBuf =
      [0x77, 0x14, 0x00, 0] := by decide +kernel

/-- R148: at the alarm the aperture under the COMPARTMENT role is ordered closed in class LIFE, posted at the
debounce's expiry; one under the base descriptor is not. -/
theorem test_alarm_slot :
    ((after .debounceTimerExpiry demo).ap 0).slate.life = some ⟨.pos 0, .alarm, 5, none⟩ ∧
      ((after .debounceTimerExpiry demo).ap 3).slate.life = none := by decide +kernel

/-- R71, R83: the Trigger Record's word is that of the latest gust update. -/
theorem test_trigger_word :
    let w : CondWord := ⟨⟨true, false, false, false⟩, ⟨true, true, false, false⟩, .defaultEnables⟩
    (triggerRecord { demo with sup := { demo.sup with gustWord := w } }).word = w := by decide +kernel

/-- R146: 500 ms after the change of the line, and not earlier. -/
theorem test_debounce_due :
    (after .alarmLineChange { demo with clock := ⟨1234, 2⟩ }).fire.debounce = some 1734 := by decide +kernel

/-- R172: an erase of record 3 completes at its due time with the STORE-ACT answered. -/
theorem test_erase_completes :
    let t := after .storeOperationComplete (storing .erase1 (some ⟨3, 3, none, 20⟩))
    t.store.op = none ∧ t.clock.ms = 20 := by decide +kernel

/-! ### Witnesses of the statements' hypotheses -/

theorem witness_HardResetsRestartThePart :
    (Instr.por true = .por true ∧ ResetKind.por = .por) ∧ (Instr.pinReset false = .pinReset false ∧ ResetKind.pin = .pin) :=
  ⟨⟨rfl, rfl⟩, rfl, rfl⟩

theorem witness_BuffersListsAndStoreStayInForm :
    let s : State := { demo with
      link := { demo.link with haltList := [5], moveList := [(0, 0)], run := 3 }
      store := demo.store.program 65 (List.replicate 16 0) }
    s.WaitOnlyPending ∧ s.NoticesBounded ∧ s.RingBounded ∧ s.ListsSingle ∧ s.store.wf = true ∧
      s.store.cells.length = 16 ∧ step s = .next s.tick := by
  refine ⟨?_, ?_, ?_, ?_, by decide +kernel, by decide +kernel, rfl⟩
  · intro p; cases p <;> decide +kernel
  · intro p; cases p <;> decide +kernel
  · unfold State.RingBounded; decide +kernel
  · unfold State.ListsSingle; decide +kernel

theorem witness_BranchCurrentNeverExceedsLimit : demo.CurrentBounded ∧ step demo = .next demo.tick := by
  refine ⟨⟨?_, by decide +kernel⟩, rfl⟩
  intro b; cases b <;> decide +kernel

theorem witness_NoOpeningStandsUnderWeather :
    demo.WeatherHolds ∧ demo.ClaimsHold ∧ (demo.ap 10).slate.weather.isSome ∧ step demo = .next demo.tick := by
  refine ⟨?_, ?_, by decide +kernel, rfl⟩
  · unfold State.WeatherHolds; decide +kernel
  · unfold State.ClaimsHold; decide +kernel

/-- The small machine with every aperture but 0 ABSENT. -/
def lone : State := { State.reset with aps := State.reset.aps.set 0 (someAps.getD 0 (plain .rest none)) }

theorem witness_EffectiveTargetFollowsSlate :
    lone.TargetsDerived ∧ (lone.ap 0).effTarget = some (.pos 0) ∧ step lone = .next lone.tick := by
  refine ⟨?_, by decide +kernel, rfl⟩
  unfold State.TargetsDerived; decide +kernel

/-- One aperture at REST at 500 under a WEATHER slot, with its queue entry. -/
def claimed : State :=
  let s : State := { State.reset with aps := State.reset.aps.set 0 (someAps.getD 10 (plain .rest none)) }
  s.setQueue [mkEntry s 0 false]

theorem witness_ClosureQueueMatchesMembership :
    claimed.QueueMatches ∧ claimed.queued 0 = true ∧ step claimed = .next claimed.tick := by
  refine ⟨?_, by decide +kernel, rfl⟩
  unfold State.QueueMatches; decide +kernel

theorem witness_ClosureQueueStaysOrdered :
    claimed.QueueMatches ∧ claimed.QueueOrdered ∧ claimed.queued 0 = true ∧ step claimed = .next claimed.tick := by
  refine ⟨?_, ⟨by decide +kernel, by decide +kernel, ?_⟩, by decide +kernel, rfl⟩
  · unfold State.QueueMatches; decide +kernel
  · intro b; cases b <;> decide +kernel

theorem witness_PositionKnownByMotionState : demo.PositionsKnown ∧ step demo = .next demo.tick := by
  refine ⟨?_, rfl⟩
  unfold State.PositionsKnown; decide +kernel

theorem witness_StoreAndLocksOutlastEverythingElse :
    demo.WaitOnlyPending ∧ exec .anemoPulse { demo with store := { demo.store with plantLock := true, operLock := true, commissioning := true } } =
      .next { demo with
        store := { demo.store with plantLock := true, operLock := true, commissioning := true }
        fe := { demo.fe with count := 1 } } := by
  refine ⟨?_, rfl⟩
  intro p; cases p <;> decide +kernel

theorem witness_StoreAndLocksOutlastEverythingElse_served :
    ((after (.lock .S 3) demo).store.plantLock = true ∧ (after (.lock .S 3) demo).store.operLock = true ∧
      demo.store.plantLock = false ∧ demo.store.operLock = false) ∧
    (storing .none none).store.commissioning = true ∧
      (after (.leaveCommissioning .S) (storing .none none)).store.commissioning = false := by decide +kernel

theorem witness_FacingAndLoadIndexStayInRange :
    ((0 : Nat) < 360 ∧ (359 : Nat) < 360 ∧ ApKind.window.isSkylight = false ∧ facingAngle 0 359 = 1 ∧
      90 ≤ facingAngle 0 90 ∧ 90 ≤ facingAngle 180 0) ∧
    (loadIndex 600 32760 255 = 8598 ∧ (600 : Nat) ≤ 600 ∧ (32760 : Nat) ≤ 32760 ∧ (255 : Nat) ≤ 255) := by decide

theorem witness_StandingFollowsLimitAndIndex : (demo.ap 0).present = true ∧ 2 ≤ releaseLevel 3 := by decide +kernel

theorem witness_LinkFramesCheckAndReadBack :
    (65535 : Nat) < 65536 ∧ (46 : ApId) ≠ 47 ∧ (0 : Byte) ≠ checkByte [47, 0x1F, 0xFF, 0xFF, 31] := by decide

theorem witness_PinEventsAreCounted :
    demo.fe.count < 2000 ∧ 2000 ≤ ({ demo.fe with count := 2000 } : FrontEnd).count := by decide +kernel

theorem witness_SecondBoundaryMeasures :
    (0xEF : Byte).toNat < 240 ∧ 240 ≤ (0xF0 : Byte).toNat ∧
      ((after (.secondBoundary 0xF0 false true) demo).fe.word.live.zip (fun a b => a && !b)
        demo.fe.word.sticky).any = true := by decide +kernel

theorem witness_EveryClosureNeedIsClaimed :
    let t := finish true demo (gustUpdate (frontEndStages 0xF0 false true (beginBoundary 0xF0 false true demo)))
    exec (.secondBoundary 0xF0 false true) demo = .next t ∧ (demo.ap 0).present = true ∧
      (firstCause t (t.ap 0)).isSome := by
  refine ⟨rfl, ?_, ?_⟩ <;> decide +kernel

theorem witness_SecondBoundaryProjectsTheQueue :
    claimed.QueueMatches ∧ (claimed.sup.queue.map (·.ap)).Nodup ∧ claimed.sup.queue.length = 1 ∧
      (claimed.branch .A).late = false ∧ (claimed.port .S).notices.length < 16 := by
  refine ⟨?_, by decide +kernel, by decide +kernel, by decide +kernel, by decide +kernel⟩
  unfold State.QueueMatches; decide +kernel

/-- The small machine in CLEAR, with no advisory held. -/
def calm : State := { demo with sup := { demo.sup with weather := .clear, advisory := none } }

theorem witness_ready_ports : ∀ p, (demo.port p).ready := by
  intro p; cases p <;> exact ⟨.inl rfl, rfl⟩

theorem witness_EntryToActiveWritesTriggerRecord :
    (calm.sup.weather ≠ .active ∧ (after (.secondBoundary 0xF0 false true) calm).sup.weather = .active) ∧
    (State.reset.sup.weather ≠ .active ∧
      (after (.secondBoundary 0 false true) State.reset).sup.weather ≠ .active) ∧
    (calm.port .S).ready ∧ calm.sup.computed = true ∧
      (after (.advisory .S 0 0 1) calm).sup.weather = .active := by
  refine ⟨⟨?_, ?_⟩, ⟨?_, ?_⟩, witness_ready_ports .S, rfl, ?_⟩ <;> decide +kernel

/-- The part after reset, no aperture installed, in a weather state with this advisory held. -/
def judging (w : Weather) (d : Option Advisory) : State :=
  { State.reset with sup := { State.reset.sup with
      weather := w, holdTimer := if w = .holding then some 5 else none, advisory := d } }

/-- Each row of R75 and of R76's entry to HOLDING is reached at a boundary; 0xF0 makes the precaution set non-empty.
-/
theorem witness_SecondBoundaryJudgesWeather :
    let dry : Option Advisory := some ⟨3, 1803, 200, false⟩;
    let left := fun (vane : Byte) (w : Weather) (d : Option Advisory) =>
      let t := after (.secondBoundary vane false true) (judging w d);
      (t.sup.weather, t.sup.holdTimer);
    left 0 .clear none = (.clear, none) ∧ left 0 .clear dry = (.watch, none) ∧
      left 0xF0 .clear none = (.active, none) ∧ left 0 .watch none = (.clear, none) ∧
      left 0 .watch dry = (.watch, none) ∧ left 0 .active none = (.holding, some 1801) ∧
      left 0xF0 .active none = (.active, none) ∧ left 0 .holding none = (.holding, some 5) ∧
      left 0xF0 .holding none = (.active, none) := by decide +kernel

/-- A boundary claims aperture 3 with RAIN, whose openings of Port S and Port K are cancelled, derives the claim of
aperture 10 again, and keeps the claim of aperture 10 where it has no need. -/
theorem witness_SecondBoundaryPostsClaims :
    (let s := changed 3 fun a => { a with
        slate := ⟨none, none, some ⟨.pos 900, .port .S, 0, none⟩, some ⟨.pos 800, .port .K, 0, none⟩⟩ };
      let t := after (.secondBoundary 0xF0 false true) s;
      (t.ap 3).slate.weather.isSome ∧ (t.ap 3).slate.supervisory = none ∧ (t.ap 3).slate.room = none ∧
        (t.ap 3).claim = some ⟨.rain, none⟩ ∧
        ⟨1, .orderCancelled 3 .supervisory (.pos 900) .weather⟩ ∈ (t.port .S).notices ∧
        ⟨1, .orderCancelled 3 .room (.pos 800) .weather⟩ ∈ (t.port .K).notices ∧
        (demo.ap 10).present = true ∧ (demo.ap 10).claim = some ⟨.rain, none⟩ ∧
        (t.ap 10).claim = some ⟨.rain, none⟩) ∧
    (let s := changed 10 fun a => { a with
        fix := { a.fix with rainExposed := false, loadLimit := 0 }, claim := some ⟨.advisory, some 10⟩ };
      ((after (.secondBoundary 0 false true) s).ap 10).claim = some ⟨.advisory, none⟩) := by
  refine ⟨?_, ?_⟩ <;> decide +kernel

theorem witness_ClearConditionsClearsStaleBits :
    (demo.port .S).ready ∧
      (demo.fe.word.sticky.zip (fun a b => a && !b) demo.fe.word.live).any = false ∧
      (let w : CondWord := { demo.fe.word with sticky := { Cond.none with vaneInvalid := true } };
        (w.sticky.zip (fun a b => a && !b) w.live).any = true) :=
  ⟨witness_ready_ports .S, by decide +kernel, by decide +kernel⟩

theorem witness_HoldExpiryRemovesClaims : demo.sup.holdTimer = some 5 ∧ demo.sup.weather = .holding := ⟨rfl, rfl⟩

theorem witness_AdvisoriesAreRecordedAndRemoved :
    demo.sup.advisory = some ⟨3, 1803, 200, true⟩ ∧ demo.sup.computed = true ∧ (demo.port .S).ready ∧
      State.reset.sup.advisory = none ∧ (State.reset.port .S).ready :=
  ⟨rfl, rfl, witness_ready_ports .S, rfl, .inl rfl, rfl⟩

theorem witness_RoomExpiryTurnsOpeningIntoClose :
    (demo.ap 10).slate.room = some ⟨.pos 0, .port .K, 0, some 30⟩ ∧ (demo.port .K).notices.length < 16 := by
  decide +kernel

/-- Apertures 0 and 1 of branch A waiting in class SUPERVISORY and in class `c`, 2 running in class ROOM, with the
quiet time over, a limit of `limit`, a gap of `gap` and the reservation `r`. -/
def queueing (c : OrderClass) (limit gap : Nat) (r : Option ApId) : State :=
  let waits := fun k => { plain .waiting (some 500) with motion := some ⟨0, .closing, k, .normal⟩ }
  let runs := { plain .running (some 500) with motion := some ⟨0, .closing, .room, .normal⟩, startTime := some 0 }
  { State.reset with
    aps := ((State.reset.aps.set 0 (waits .supervisory)).set 1 (waits c)).set 2 runs
    branches := { State.reset.branches with a := { State.reset.branches.a with
      quiet := none, limit := limit, gap := gap, reservation := r, gapTimer := some 20 } } }

/-- The entries that `queueing` gives apertures 0 and 1. -/
def queueEntry (i : ApId) (c : OrderClass) : WaitEntry := ⟨i, c, .closing, .normal, 0, none⟩

theorem witness_BranchTimerExpiriesRunAnAttempt :
    ((demo.branch .A).quiet = some 20 ∧ (demo.branch .A).gapTimer = some 20 ∧
      (candidatesOf State.reset .A = [] ∧ (State.reset.branch .A).reservation = none)) ∧
    (let s := queueing .life 40 0 none;
      candidatesOf s .A = [queueEntry 1 .life, queueEntry 0 .supervisory] ∧
        fits s .A (queueEntry 1 .life) = true ∧ gapPassed s .A = true ∧
        gapPassed (queueing .life 40 20 none) .A = false) ∧
    (let s := queueing .life 10 0 none;
      fits s .A (queueEntry 1 .life) = false ∧ victims s .A (queueEntry 1 .life) = some [2]) ∧
    (let s := queueing .supervisory 10 0 none;
      fits s .A (queueEntry 0 .supervisory) = false ∧
        (candidatesOf s .A).all (fun x => !fits s .A x) = true) ∧
    (let s := (queueing .supervisory 10 0 none).modAp 1 fun a => { a with fix := { a.fix with inrush := 6 } };
      fits s .A (queueEntry 0 .supervisory) = false ∧
        (candidatesOf s .A).find? (fits s .A) = some (queueEntry 1 .supervisory)) ∧
    (let t := after (.branchGapTimerExpiry .A) (queueing .life 40 7 none);
      (t.ap 1).state = .starting ∧ (t.ap 1).mon = { Monitor.stopped with inrush := some (t.ds + 10) } ∧
        (t.branch .A).gapTimer = some (t.ds + 7) ∧ (1, 0) ∈ t.link.moveList) ∧
    (let s := (queueing .life 40 0 (some 1));
      (s.branch .A).reservation = some 1 ∧ queueEntry 1 .life ∈ candidatesOf s .A ∧
        (queueEntry 1 .life).cls ≠ .weather) := by decide +kernel

theorem witness_ReservationsStandBetweenCommands :
    let s := queueing .life 40 0 (some 1);
    s.Settled ∧ (s.branch .A).reservation = some 1 ∧ step s = .next s.tick := by
  refine ⟨⟨rfl, fun b i h => ?_⟩, rfl, rfl⟩
  cases b with
  | A =>
    cases h
    exact ⟨queueEntry 1 .life, by decide +kernel, rfl, .inl rfl, by decide +kernel⟩
  | B => cases h
  | C => cases h
  | D => cases h

/-- No reservation stands in the small machine, whatever the fire state. -/
theorem demo_settled (f : Fire) : ({ demo with fire := f } : State).Settled :=
  ⟨rfl, fun b i h => by cases b <;> cases h⟩

/-- The orders and conditions over a branch with a LIFE and a SUPERVISORY entry and one ROOM motion running. -/
theorem witness_ListsAndVictimsFollowTheirOrders :
    let s := queueing .life 10 0 none;
    ((s.ap 0).fix.branch = .A ∧ (s.ap 0).state = .waiting ∧ (s.ap 0).motion.isSome) ∧
      waitList s .A = [queueEntry 1 .life, queueEntry 0 .supervisory] ∧
      ((s.ap 1).slate.get .life = none ∧ (wantClosed (s.ap 0)).slate.get .supervisory = some ⟨.pos 0, .port .S, 0, none⟩) ∧
      (s.committed .A = 4 ∧ (s.ap 2).contribution = 4 ∧ (s.ap 1).fix.inrush = 9) ∧
      victims s .A (queueEntry 1 .life) = some [2] ∧ victims s .A (queueEntry 1 .room) = none := by
  decide +kernel

theorem witness_InrushAndTravelExpiriesKeepTheMotion :
    (demo.ap 0).state = .starting ∧ (demo.ap 0).mon.inrush = some 10 ∧ (demo.ap 0).mon.travel = some 90 := by
  decide +kernel

theorem witness_SettleAndRetryExpiriesJudgeAgain :
    ((demo.ap 1).state = .settling ∧ (demo.ap 1).mon.settle = some 10 ∧
      (demo.ap 1).mon.settleCause = some .stop ∧ (demo.ap 1).offTarget = false ∧
      ((changed 1 wantClosed).ap 1).offTarget = true ∧
      ((changed 1 wantClosed).ap 1).effTarget = some (.pos 0)) ∧
    ((demo.ap 2).state = .settling ∧ (demo.ap 2).mon.settle = some 10 ∧
      (demo.ap 2).mon.settleCause = some .stall ∧ (demo.ap 2).wantsClosing = true ∧
      (demo.ap 2).position = some 500 ∧ (demo.ap 2).motion = some closingMotion ∧
      ((changed 2 fun a => { a with position := some 996 }).ap 2).wantsClosing = true ∧
      min 1000 (996 + 30) ≤ 996 + 5) ∧
    (let s := changed 2 fun a =>
        { a with
          motion := some ⟨530, .opening, .supervisory, .backoff⟩
          mon := { a.mon with settleCause := some .backoff } };
      (s.ap 2).mon.settleCause = some .backoff ∧ (s.ap 2).wantsClosing = true ∧ 500 + 5 < 530) ∧
    ((demo.ap 3).state = .retryWait ∧ (demo.ap 3).mon.retry = some 50 ∧ (demo.ap 3).offTarget = false) ∧
    ((demo.ap 4).state = .retryWait ∧ (demo.ap 4).mon.retry = some 50 ∧ (demo.ap 4).offTarget = true ∧
      (demo.ap 4).effTarget = some (.pos 0) ∧ (demo.ap 4).position = some 500) := by decide +kernel

theorem witness_WarnExpiryEndsWarning :
    (demo.zones.warnings[(0 : ZoneId)]).timer = some 40 ∧
      ((changed 0 fun a => { a with state := .waiting }).ap 0).state = .waiting ∧
      (changed 0 fun a => { a with state := .waiting }).governing 0 = some 0 := by decide +kernel

/-- The small machine with another warning in zone 0, which governs aperture 0, STARTING to close, and aperture 1. -/
def warned (w : Warning) : State := demo.setWarning 0 w

/-- Zone 0 governs aperture 0 of the small machine. -/
theorem warned_governing (w : Warning) : (warned w).governing 0 = some 0 :=
  (by decide +kernel : demo.governing 0 = some 0)

/-- Aperture 0 is a closing of zone 0. -/
theorem warned_closing (w : Warning) : ClosingOf (warned w) 0 0 :=
  ⟨warned_governing w, .inr (.inl rfl), closingMotion, rfl, rfl⟩

/-- In IDLE, RUNNING and DONE alike the invariant of the warnings holds there. -/
theorem warned_holds (w : Warning) (h : w.state = .running ↔ w.timer.isSome) : (warned w).WarningsHold := by
  have zero : ∀ (i : ApId) (z : ZoneId), demo.governing i = some z → z = 0 := by decide +kernel
  have waits : ∀ i : ApId, demo.governing i = some 0 → (demo.ap i).state ≠ .waiting := by decide +kernel
  have other : ∀ z : ZoneId, z ≠ 0 → demo.zones.warnings[z] = ⟨.idle, none⟩ := by decide +kernel
  intro z
  by_cases e : z = 0
  · subst e
    have at0 : (warned w).zones.warnings[(0 : ZoneId)] = w := rfl
    rw [at0]
    exact ⟨h, fun _ => ⟨0, warned_closing w⟩, fun _ => ⟨(by decide : 0 < 5), 0, rfl, warned_governing w⟩,
      fun i calls => absurd calls.2.1 (waits i calls.1)⟩
  · have idle : (warned w).zones.warnings[z] = ⟨.idle, none⟩ := by
      rw [← other z e]
      exact Vector.getElem_set_ne (by decide) z.isLt (fun k => e (Fin.ext k.symm))
    rw [idle]
    exact ⟨⟨nofun, nofun⟩, nofun, fun k => absurd rfl k, fun i calls => absurd (zero i z calls.1) e⟩

theorem witness_WarningsAndLinesFollowClosings :
    ((warned ⟨.idle, none⟩).WarningsHold ∧ (warned ⟨.running, some 40⟩).WarningsHold ∧
      (warned ⟨.done, none⟩).WarningsHold) ∧
    (requestOf (.inrushTimerExpiry 0) = none ∧ requestOf (.warnTimerExpiry 0) = none ∧
      requestOf (.order .S 1 0 0) = some (.S, 0x01, [1, 0, 0, 0]) ∧ ((warned ⟨.idle, none⟩).port .S).ready ∧
      ¬ servesAt (warned ⟨.done, none⟩) (.inrushTimerExpiry 0) .restart ∧
      ¬ servesAt (warned ⟨.done, none⟩) (.inrushTimerExpiry 0) .leaveCommissioning) ∧
    (ClosingOf (warned ⟨.done, none⟩) 0 0 ∧
      ClosingOf (after (.inrushTimerExpiry 0) (warned ⟨.done, none⟩)) 0 0 ∧
      ((warned ⟨.done, none⟩).ap 0).state.driving = true ∧
      ((after (.inrushTimerExpiry 0) (warned ⟨.done, none⟩)).ap 0).state ≠ .waiting) := by
  refine ⟨⟨warned_holds _ (by decide), warned_holds _ (by decide), warned_holds _ (by decide)⟩,
    ⟨rfl, rfl, rfl, ⟨.inl rfl, rfl⟩, ?_, ?_⟩, warned_closing _, ?_, rfl, by decide +kernel⟩
  · rintro (⟨c, -⟩ | ⟨b, c, -⟩ | ⟨k, b, c, -⟩) <;> cases c
  · rintro (⟨c, -⟩ | ⟨b, c, -⟩ | ⟨k, b, c, -⟩) <;> cases c
  · exact ⟨by decide +kernel, .inr (.inr (.inl (by decide +kernel))), closingMotion, by decide +kernel, rfl⟩

/-- R126: an aperture at REST in the zone, ordered closed by Port S, starts the zone's warning with its 5 s; the
line of a zone with nothing to close is deasserted. -/
theorem test_warning_starts :
    let s := (changed 0 fun a => { a.still with state := .rest }).setWarning 0 ⟨.idle, none⟩;
    s.warnLine 0 = false ∧ (after (.order .S 0 0 300) s).zones.warnings[(0 : ZoneId)] = ⟨.running, some 50⟩ ∧
      (after (.order .S 0 0 300) s).warnLine 0 = true := by decide +kernel

theorem witness_ContactExpiryReleasesCurrent :
    ((demo.ap 6).node.contactTimer = some 20 ∧ (demo.ap 6).state = .offline) ∧
    ((demo.ap 5).node.contactTimer = some 20 ∧ (demo.ap 5).state = .stopping ∧
      (demo.ap 5).mon.haltCause = some .target ∧ (demo.ap 5).motion = some closingMotion) ∧
    (∀ c : HaltCause, ∀ k : Purpose, ∀ p : Nat, p = 5 ∨ p = 6 →
      let s := changed 5 fun a =>
        { a with
          position := some p, motion := some { closingMotion with purpose := k }
          mon := { a.mon with haltCause := some c } };
      (s.ap 5).state = .stopping ∧ (s.ap 5).mon.haltCause = some c ∧
        (s.ap 5).motion = some { closingMotion with purpose := k } ∧ (s.ap 5).position = some p) ∧
    (demo.Settled ∧ (demo.ap 3).node.contactTimer = some 20 ∧ (demo.ap 3).state ≠ .stopping ∧
      (demo.ap 3).state ≠ .offline) := by
  refine ⟨by decide +kernel, by decide +kernel, fun _ _ _ _ => ⟨rfl, rfl, rfl, rfl⟩, demo_settled _, ?_⟩
  decide +kernel

theorem witness_AbsentEventsChangeNothing :
    (sending (.poll 0)).link.inFlight.isSome ∧ demo.link.inFlight = none ∧ (demo.port .S).state ≠ .pending ∧
      (demo.port .S).held = none ∧ State.reset.sup.holdTimer = none ∧ State.reset.sup.advisory = none ∧
      (demo.ap 0).slate.room = none ∧
      ((demo.branch .A).quiet = some 20 ∧ ({ demo.branch .A with quiet := none } : BranchRec).quiet = none) ∧
      (State.reset.ap 0).mon = .stopped ∧ (State.reset.ap 0).node.contactTimer = none ∧
      (State.reset.zones.warnings[(0 : ZoneId)]).timer = none ∧ State.reset.fire.debounce = none ∧
      (State.reset.port .S).gapTimer = none ∧ State.reset.store.op = none := by decide +kernel

theorem witness_ArbiterFollowsItsOrder :
    (State.reset.link.inFlight = none ∧ State.reset.link.broadcast = true) ∧
    (demo.link.inFlight = none ∧ demo.link.broadcast = false ∧ (demo.ap 0).present = true ∧
      demo.link.haltList = [] ∧ demo.link.moveList = [] ∧ demo.link.priority = [] ∧
      ∀ d : ApId, ¬ d < 0 - demo.link.ring) ∧
    ({ demo.link with run := 3, priority := [4, 5] } : Link).priority.head? = some 4 ∧
    (({ demo.link with run := 2, haltList := [5] } : Link).run < 3) ∧
    (({ demo.link with run := 0, moveList := [(0, 0)] } : Link).haltList = []) ∧
    ({ State.reset.link with broadcast := false } : Link).priority = [] ∧
      ∀ i, ¬ (State.reset.ap i).present = true := by decide +kernel

theorem witness_MissedExchangeCounts :
    (sending (.halt 5)).link.inFlight = some ⟨.halt 5, 3, true, 5⟩ ∧ (Exchange.halt 5).node? = some 5 ∧
      parseReply 5 [] = none ∧ 2 ≤ ((sending (.halt 5)).ap 5).node.missCount ∧
      ((sending (.halt 5)).ap 5).state = .stopping ∧
      ((sending (.poll 7)).link.inFlight = some ⟨.poll 7, 3, true, 5⟩ ∧ parseReply 7 [] = none ∧
        (demo.ap 7).state = .fault) ∧
      ((sending (.move 0 0)).link.inFlight = some ⟨.move 0 0, 3, true, 5⟩ ∧ parseReply 0 [] = none ∧
        (sending (.move 0 0)).link.moveList = []) := by decide +kernel

/-- R18, R140: aperture 8 in FAULT(TIMEOUT), entered at a stop that a fresh status confirmed, stays there at the third
miss, and goes OFFLINE by the next miss once it has left FAULT. -/
theorem witness_MissedExchangeCounts_fault :
    let s := sending (.poll 8);
    let left := s.modAp 8 fun a => { a with state := .rest, fault := none, node := { a.node with missCount := 3 } };
      s.link.inFlight = some ⟨.poll 8, 3, true, 5⟩ ∧ parseReply 8 [] = none ∧ (s.ap 8).state = .fault ∧
        (s.ap 8).silentTimeout = false ∧
        2 ≤ (s.ap 8).node.missCount ∧ ((after (.exchangeCompleted []) s).ap 8).state = .fault ∧
        ((after (.exchangeCompleted []) left).ap 8).state = .offline := by decide +kernel

/-- R119: aperture 5, halted at its travel timeout, leaves STOPPING for FAULT(TIMEOUT) at the node timeout, its run
current released, with the third miss still to come. -/
theorem test_node_timeout_first :
    let s := (sending (.poll 5)).modAp 5 fun a => { a with mon := { a.mon with haltCause := some .timeout } };
    let t := after (.contactTimerExpiry 5) s;
      (t.ap 5).fault = some ⟨.timeout, 20⟩ ∧ (t.ap 5).contribution = 0 ∧ (t.ap 5).silentTimeout = true ∧
        (t.ap 5).node.missCount = 2 := by decide +kernel

/-- R119 against R18 and R140: at its third miss such an aperture goes OFFLINE or stays, as the free value has it. -/
theorem witness_MissedExchangeCounts_silent :
    let s := (sending (.poll 8)).modAp 8 fun a => { a with fault := some ⟨.timeout, 20⟩ };
      SilentTimeout (s.ap 8) ∧ 2 ≤ (s.ap 8).node.missCount ∧ ((after (.exchangeCompleted []) s).ap 8).state =
        if Config.thirdMissEndsTimeout then .offline else .fault := by
  refine ⟨⟨rfl, 20, 0, rfl, rfl, by decide⟩, by decide +kernel, ?_⟩
  delta after exec execExchangeCompleted complete missed Aperture.leavesByMiss
  generalize Config.thirdMissEndsTimeout = b
  cases b <;> decide +kernel

theorem sending_settled (x : Exchange) : (sending x).Settled :=
  ⟨rfl, fun b i h => by cases b <;> cases h⟩

/-- The broadcast's slot; aperture 5 moving with its contact timer running and without it; a first miss; OFFLINE. -/
theorem witness_MissedExchangeCounts_others :
    ((sending .broadcastHalt).link.inFlight = some ⟨.broadcastHalt, 3, true, 5⟩ ∧ (sending .broadcastHalt).Settled) ∧
    (((sending (.halt 5)).ap 5).node.contactTimer = some 20 ∧ ((sending (.halt 5)).ap 5).contribution = 4 ∧
      ((after (.exchangeCompleted []) (sending (.halt 5))).ap 5).contribution = 4) ∧
    (let s := (sending (.halt 5)).modAp 5 fun a => { a with node := { a.node with contactTimer := none } };
      (s.ap 5).node.contactTimer = none ∧ ((after (.exchangeCompleted []) s).ap 5).contribution = 0) ∧
    (let s := (sending (.poll 0)).modAp 0 fun a => { a with node := { a.node with missCount := 0 } };
      s.link.inFlight = some ⟨.poll 0, 3, true, 5⟩ ∧ (s.ap 0).node.missCount < 2 ∧
        ((after (.exchangeCompleted []) s).ap 0).state = .starting) ∧
    ((sending (.poll 6)).ap 6).state = .offline := by
  refine ⟨⟨rfl, sending_settled _⟩, ?_, ?_, ?_, ?_⟩ <;> decide +kernel

/-- A HALT's reply, a POLL with another tag, an accepted MOVE of a driving aperture and a refused one of another. -/
theorem witness_StaleStatusIsContactOnly :
    (∀ x : Exchange, (sending x).Settled ∧ (sending x).link.inFlight = some ⟨x, 3, true, 5⟩) ∧
    ((demo.ap 5).state ≠ .offline ∧ (parseReply 5 (reply 5 3 0)).isSome) ∧
    ((demo.ap 0).state = .starting ∧ (demo.ap 0).orderTag = some 3 ∧
      (∃ r, parseReply 0 (reply 0 2 2) = some r ∧ r.tag = 2 ∧ r.refused = false) ∧
      ((after (.exchangeCompleted (reply 0 2 2)) (sending (.poll 0))).ap 0).position = some 500) ∧
    ((demo.ap 10).state ≠ .starting ∧ (demo.ap 10).state ≠ .running ∧
      ∃ r, parseReply 10 (reply 10 0x13 0) = some r ∧ r.refused = true) := by
  refine ⟨fun x => ⟨sending_settled x, rfl⟩, ?_, ⟨?_, ?_, ⟨_, rfl, ?_, ?_⟩, ?_⟩, ?_, ?_, _, rfl, ?_⟩ <;> decide +kernel

theorem witness_ValidReplyRenewsContact :
    (sending (.move 0 0)).link.inFlight = some ⟨.move 0 0, 3, true, 5⟩ ∧
      parseReply 0 (reply 0 3 0) = some ⟨false, 3, 500, false, false, false, false, false⟩ ∧
      ((sending (.halt 6)).ap 6).state = .offline ∧
      parseReply 6 (reply 6 3 0) = some ⟨false, 3, 500, false, false, false, false, false⟩ ∧
      ((sending (.poll 47)).ap 47).orderTag = none ∧ (parseReply 47 (reply 47 3 0)).isSome ∧
      ((demo.ap 0).state = .starting ∧ (demo.ap 0).motion = some closingMotion ∧
        (demo.ap 0).position = some 500) ∧
      ((sending (.move 5 0)).link.inFlight = some ⟨.move 5 0, 3, true, 5⟩ ∧ (demo.ap 5).state = .stopping ∧
        parseReply 5 (reply 5 3 0) = some ⟨false, 3, 500, false, false, false, false, false⟩) ∧
      ((sending (.poll 10)).link.inFlight = some ⟨.poll 10, 3, true, 5⟩ ∧
        (demo.ap 10).state.noMotion = true ∧ (demo.ap 10).orderTag = some 3 ∧
        parseReply 10 (reply 10 3 1) = some ⟨false, 3, 500, true, false, false, false, false⟩) := by decide +kernel

theorem witness_FreshStatusWritesPosition :
    (sending (.poll 0)).link.inFlight = some ⟨.poll 0, 3, true, 5⟩ ∧ (demo.ap 0).orderTag = some 3 ∧
      parseReply 0 (reply 0 3 2) = some ⟨false, 3, 500, false, true, false, false, false⟩ ∧
      (demo.ap 0).state ≠ .absent ∧ (demo.ap 0).state ≠ .offline ∧ (demo.ap 0).state ≠ .unknown := by decide +kernel

/-- For each motion state an aperture of the small machine that a fresh status reaches in it, MOVING clear or set,
the aperture on target and off it where the state asks. -/
theorem witness_FreshStatusWritesPosition_states :
    (∀ i : ApId, i.val ≤ 10 → (demo.ap i).orderTag = some 3 ∧
      parseReply i (reply i 3 0) = some ⟨false, 3, 500, false, false, false, false, false⟩ ∧
      parseReply i (reply i 3 1) = some ⟨false, 3, 500, true, false, false, false, false⟩ ∧
      parseReply i (reply i 3 16) = some ⟨false, 3, 500, false, false, false, false, true⟩) ∧
    ((demo.ap 0).state = .starting ∧ (demo.ap 0).motion = some closingMotion ∧
      closingMotion.purpose = .normal ∧ ({ closingMotion with purpose := .backoff } : Motion).purpose ≠ .normal) ∧
    ((demo.ap 5).state = .stopping ∧ (demo.ap 1).state = .settling ∧ (demo.ap 3).state = .retryWait ∧
      (demo.ap 10).state = .rest ∧ (changed 3 fun a => { a with state := .unknown }).ap 3 ≠ demo.ap 3) ∧
    ((demo.ap 9).fault = some ⟨.localControl, 0⟩ ∧ (demo.ap 7).fault = some ⟨.stall, 0⟩) ∧
    (let s := queueing .life 40 0 none;
      (s.ap 0).state = .waiting ∧ (s.ap 0).offTarget = false ∧
        (wantClosed (s.ap 0)).state = .waiting ∧ (wantClosed (s.ap 0)).offTarget = true) ∧
    (claimed.sup.queue.find? (fun x => x.ap = 0) = some (mkEntry claimed 0 false) ∧
      (claimed.ap 0).orderTag = some 3 ∧
      parseReply 0 (reply 0 3 2) = some ⟨false, 3, 500, false, true, false, false, false⟩) := by
  refine ⟨?_, ?_, ?_, ?_, ?_, ?_⟩ <;> decide +kernel

/-- R17: a fresh status with MOVING set reaches an aperture in UNKNOWN. -/
theorem witness_FreshStatusWritesPosition_unknown :
    let s := (sending (.poll 3)).modAp 3 fun a => { a with state := .unknown, position := none };
      s.link.inFlight = some ⟨.poll 3, 3, true, 5⟩ ∧ (s.ap 3).orderTag = some 3 ∧ (s.ap 3).state = .unknown ∧
        (∃ r, parseReply 3 (reply 3 3 1) = some r ∧ r.tag = 3 ∧ r.moving = true) ∧
        ((after (.exchangeCompleted (reply 3 3 1)) s).ap 3).position = none := by
  refine ⟨?_, ?_, ?_, ⟨_, rfl, ?_, ?_⟩, ?_⟩ <;> decide +kernel

theorem witness_StallsAndLocalRefusalsFault :
    ((sending (.poll 0)).link.inFlight = some ⟨.poll 0, 3, true, 5⟩ ∧ (demo.ap 0).state = .starting ∧
      (demo.ap 0).orderTag = some 3 ∧ (demo.ap 0).motion = some ⟨0, .closing, .supervisory, .normal⟩ ∧
      parseReply 0 (reply 0 3 8) = some ⟨false, 3, 500, false, false, false, true, false⟩ ∧
      2 ≤ (demo.ap 0).stallCount ∧ (0 : Nat) < 2) ∧
    ((sending (.move 0 0)).link.inFlight = some ⟨.move 0 0, 3, true, 5⟩ ∧
      parseReply 0 (reply 0 0x13 16) = some ⟨true, 3, 500, false, false, false, false, true⟩) ∧
    (let s := changed 0 fun a => { a with motion := some ⟨1000, .opening, .room, .normal⟩ };
      (s.ap 0).state = .starting ∧ (s.ap 0).motion = some ⟨1000, .opening, .room, .normal⟩) ∧
    (let s := changed 0 fun a => { a with motion := some ⟨530, .opening, .supervisory, .backoff⟩ };
      (s.ap 0).motion = some ⟨530, .opening, .supervisory, .backoff⟩) := by decide +kernel

theorem witness_DebounceDrivesFireState :
    (demo.fire.debounce = some 500 ∧ demo.pins.alarm = true ∧ demo.fire.level = false ∧
      demo.fire.state = .normal ∧ (demo.port .S).notices.length < 16) ∧
    (State.reset.pins.alarm = false ∧ (Fire.mk .alarm true (some 500)).level = true ∧
      (Fire.mk .restoreWait false (some 500)).level = false ∧
      State.reset.pins.alarm = (Fire.mk .restoreWait false (some 500)).level) ∧
    (let s : State := { demo with fire := ⟨.alarm, true, some 500⟩ };
      s.Settled ∧ s.fire.debounce = some 500 ∧ s.pins.alarm = s.fire.level) := by
  refine ⟨by decide +kernel, by decide +kernel, demo_settled _, rfl, rfl⟩

/-- R24: a claim of a second boundary, the end of the hold, an entry to ALARM and its restore change the effective
target of an aperture at REST, in RETRY-WAIT, in STARTING and in SETTLING. -/
theorem witness_HandedOn_events :
    let alarmed : State := changed 4 fun a =>
      { a with slate := { a.slate with life := some ⟨.pos 500, .alarm, 0, none⟩ } };
    ((demo.ap 3).present = true ∧
      ((after (.secondBoundary 0xF0 true true) demo).ap 3).effTarget ≠ (demo.ap 3).effTarget) ∧
    ((demo.ap 10).state = .rest ∧ ((after .holdTimerExpiry demo).ap 10).effTarget ≠ (demo.ap 10).effTarget) ∧
    ((demo.ap 0).state = .starting ∧ (demo.governing 0 = some 0 ∧ (demo.zones.desc[0]).role = .compartment) ∧
      ((after .debounceTimerExpiry demo).ap 0).effClass = some .life ∧
      ((after .debounceTimerExpiry demo).ap 1).effTarget ≠ (demo.ap 1).effTarget) ∧
    ((alarmed.ap 4).alarmHeld = true ∧ demo.governing 4 = none ∧
      ((after (.alarmRestore .L) { alarmed with fire := ⟨.restoreWait, false, none⟩ }).ap 4).effTarget =
        some (.pos 0)) := by
  refine ⟨?_, ?_, ?_, ?_⟩ <;> decide +kernel

theorem witness_AlarmRestoreRemovesAlarmSlots :
    ∀ f : FireState, ({ demo with fire := { demo.fire with state := f } } : State).fire.state = f ∧
      (({ demo with fire := { demo.fire with state := f } } : State).port .L).ready :=
  fun _ => ⟨rfl, .inl rfl, rfl⟩

theorem witness_WrittenBytesAssemble :
    (demo.port .S).state = .idle ∧
    (let r := (atPort .S fun r => { r with state := .assembling, discarded := true }).port .S;
      r.state = .assembling ∧ r.discarded = true ∧ r.reqBuf = []) ∧
    (let r := (atPort .S fun r => { r with state := .assembling, reqBuf := [1] }).port .S;
      r.state = .assembling ∧ r.discarded = false ∧ r.reqBuf = [1] ∧ 30 < (31 : Byte).toNat ∧
        0 < (1 : Byte).toNat ∧ (30 : Byte).toNat ≤ 30) ∧
    (let r := (atPort .S fun r => { r with state := .assembling, reqBuf := [1, 4, 0] }).port .S;
      r.state = .assembling ∧ r.discarded = false ∧ r.reqBuf = [1, 4, 0] ∧ [(0 : Byte)].length + 1 < (4 : Byte).toNat) ∧
    (let r := (atPort .S fun r => { r with state := .pending }).port .S;
      r.state = .pending ∧ r.held = none) ∧
    (let r := (atPort .K fun r => { r with state := .assembling, reqBuf := [0x33, 1] }).port .K;
      r.state = .assembling ∧ r.discarded = false ∧ r.held = none ∧ r.reqBuf ++ [1] = requestBytes 0x33 [1] ∧
        kindOf 0x33 = some .lock ∧ RequestKind.lock.allowedOn .K = false) ∧
    ([0x77] ++ [0] = requestBytes 0x77 [] ∧ kindOf 0x77 = none ∧
      [0x33, 0] ++ [1] ≠ requestBytes 0x33 [1] ∧ RequestKind.lock.allowedOn .S = true ∧
      RequestKind.lock.lengthOk 0 = false ∧ [0x33] ++ [0] = requestBytes 0x33 []) ∧
    (requestOf (.release .S 4) = some (.S, RequestKind.release.code, [4]) ∧
      [RequestKind.release.code, 1] ++ [4] = requestBytes RequestKind.release.code [4]) := by decide +kernel

theorem witness_StrobesFollowPortState :
    (let r := (atPort .K fun r => { r with state := .replying, replyBuf := [9] }).port .K;
      r.state = .replying ∧ r.replyBuf = [9]) ∧
    (demo.port .K).state = .idle ∧
    (let r := (atPort .S fun r => { r with state := .pending }).port .S;
      r.state = .pending ∧ r.held = none) ∧
    ((atPort .S fun r => { r with held := some (.write 1) }).port .S).held = some (.write 1) ∧
    ((atPort .S fun r => { r with held := some .read }).port .S).held = some .read ∧
    (let r := (atPort .S fun r => { r with state := .assembling, gapTimer := some 100 }).port .S;
      r.state = .assembling ∧ r.gapTimer = some 100) := by decide +kernel

theorem witness_StrobesFollowPortState_requests :
    requestOf (.nextNotice .K) = some (.K, 0x25, []) ∧
      ((atPort .K fun r => { r with state := .pending }).port .K).state = .pending := by decide +kernel

theorem witness_TakingChecksRefuse :
    requestOf (.unknownRequest .K 0x77 []) = some (.K, 0x77, []) ∧ (demo.port .K).ready ∧ kindOf 0x77 = none ∧
      requestOf (.lock .K 1) = some (.K, 0x33, [1]) ∧ kindOf 0x33 = some .lock ∧
      RequestKind.lock.allowedOn .K = false ∧
      requestOf (.storeAct .S 3 (some [])) = some (.S, 0x31, [3]) ∧
      requestOf (.storeAct .S 3 (some [1])) = some (.S, 0x31, [3, 1]) ∧ kindOf 0x31 = some .storeAct ∧
      RequestKind.storeAct.allowedOn .S = true ∧ RequestKind.storeAct.lengthOk 2 = false :=
  ⟨rfl, witness_ready_ports .K, by decide, rfl, by decide, rfl, rfl, rfl, by decide, rfl, rfl⟩

theorem witness_OrderPostsOwnSlot :
    (demo.port .K).ready ∧ apNamed demo 1 = some 1 ∧ (demo.zoneOf 1).right .K = .order ∧
      parseTarget 0 1200 = some (.pos 1000, true) ∧ (demo.ap 1).slate.weather.isSome = false ∧
      0 < demo.roomLifetime :=
  ⟨witness_ready_ports .K, by decide +kernel, by decide +kernel, by decide, by decide +kernel, by decide +kernel⟩

/-- R12: two stalls of aperture 0, closing to 0 from 500, are forgotten by an ORDER to 700, and stand by one to 300. -/
theorem witness_HandedOn_stalls :
    (demo.ap 0).effTarget = some (.pos 0) ∧ (demo.ap 0).position = some 500 ∧ (demo.ap 0).stallCount = 2 ∧
      ((after (.order .S 0 0 700) demo).ap 0).stallCount = 0 ∧
      ((after (.order .S 0 0 300) demo).ap 0).stallCount = 2 := by decide +kernel

/-- An ORDER on Port S that the small machine takes changes the effective target of an aperture at REST, in
RETRY-WAIT, STOPPING and STARTING there: retargeted, halted for the far side, halted by HOLD. One on Port L changes
the class alone. -/
theorem witness_HandedOn :
    ((demo.ap 10).state = .rest ∧ ((after (.order .L 10 0 300) demo).ap 10).effTarget ≠ (demo.ap 10).effTarget) ∧
    ((demo.ap 3).state = .retryWait ∧ ((after (.order .S 3 0 0) demo).ap 3).effTarget ≠ (demo.ap 3).effTarget) ∧
    ((demo.ap 5).state = .stopping ∧ ((after (.order .S 5 0 0) demo).ap 5).effTarget ≠ (demo.ap 5).effTarget) ∧
    ((demo.ap 0).state = .starting ∧ (demo.ap 0).motion = some closingMotion ∧ (demo.ap 0).position = some 500 ∧
      ((after (.order .S 0 0 300) demo).ap 0).effTarget = some (.pos 300) ∧ 5 < distance 300 500 ∧
      ((after (.order .S 0 0 700) demo).ap 0).effTarget = some (.pos 700) ∧
      ((after (.order .S 0 1 0) demo).ap 0).effTarget = some .hold ∧
      ((after (.release .S 0) demo).ap 0).effTarget = none) ∧
    (let s := queueing .life 40 0 none;
      (s.ap 0).state = .waiting ∧ ((after (.order .S 0 0 0) s).ap 0).effTarget ≠ (s.ap 0).effTarget ∧
        ((after (.order .S 0 0 500) s).ap 0).offTarget = false) ∧
    (let s := changed 0 fun a => { a with motion := some ⟨530, .opening, .supervisory, .backoff⟩ };
      ((after (.order .S 0 0 300) s).ap 0).wantsClosing = true ∧
        ((after (.order .S 0 0 700) s).ap 0).wantsClosing = false) := by
  refine ⟨?_, ?_, ?_, ?_, ?_, ?_⟩ <;> decide +kernel

theorem witness_RefusedOrdersChangeNothing :
    apNamed demo 47 = none ∧ apNamed demo 48 = none ∧
      (apNamed demo 0 = some 0 ∧ (demo.zoneOf 0).right .L ≠ .order) ∧
      (apNamed demo 10 = some 10 ∧ (demo.zoneOf 10).right .S = .order ∧ 1 < (2 : Byte).toNat ∧
        0 < (1 : BitVec 16).toNat ∧ (demo.ap 10).slate.weather.isSome) ∧
      8 < (9 : Byte).toNat ∧ (zoneNamed 0 = some (some 0) ∧ (demo.descriptor (some 0)).right .L ≠ .order) ∧
      (zoneNamed 8 = some none ∧ (demo.descriptor none).right .K ≠ .order) := by decide +kernel

theorem witness_OrderZonePostsOnItsMembers :
    (demo.port .S).ready ∧ zoneNamed 8 = some none ∧ (demo.descriptor none).right .S = .order ∧
      parseTarget 0 1001 = some (.pos 1000, true) ∧ weatherHeld demo .S 10 (.pos 1000) = true ∧
      weatherHeld demo .S 3 (.pos 1000) = false ∧ demo.governing 10 = none ∧
      (demo.governing 3 = none ∧ (demo.ap 3).present = true ∧
        ((after (.orderZone .S 8 0 1001) demo).ap 3).effTarget ≠ (demo.ap 3).effTarget) :=
  ⟨witness_ready_ports .S, by decide, by decide +kernel, by decide, by decide +kernel, by decide +kernel,
    by decide +kernel, by decide +kernel⟩

theorem witness_ReleaseRemovesOwnSlot :
    (demo.port .S).ready ∧ apNamed demo 4 = some 4 ∧ (demo.zoneOf 4).right .S = .order ∧
      (ownSlot demo .S 4).isSome :=
  ⟨witness_ready_ports .S, by decide +kernel, by decide +kernel, by decide +kernel⟩

theorem witness_ClearFaultClearsStallAndTimeout :
    (demo.port .L).ready ∧
      (apNamed demo 7 = some 7 ∧ (demo.zoneOf 7).right .L = .order ∧ (demo.ap 7).fault = some ⟨.stall, 0⟩) ∧
      (apNamed demo 8 = some 8 ∧ (demo.zoneOf 8).right .L = .order ∧ (demo.ap 8).fault = some ⟨.timeout, 0⟩) ∧
      (apNamed demo 9 = some 9 ∧ (demo.zoneOf 9).right .L = .order ∧
        (demo.ap 9).fault = some ⟨.localControl, 0⟩) ∧
      (demo.Settled ∧ apNamed demo 3 = some 3 ∧ (demo.zoneOf 3).right .L = .order ∧
        (demo.ap 3).state ≠ .fault) :=
  ⟨witness_ready_ports .L, by decide +kernel, by decide +kernel, by decide +kernel, demo_settled _,
    by decide +kernel, by decide +kernel, by decide +kernel⟩

theorem witness_QueriesChangeNothing :
    (demo.port .K).ready ∧ (apNamed demo 3 = some 3 ∧ (demo.zoneOf 3).right .K ≠ .none) ∧
      (apNamed demo 0 = some 0 ∧ (demo.zoneOf 0).right .L = .none) ∧ apNamed demo 47 = none ∧
      branchNamed 3 = some .D ∧ 3 < (4 : Byte).toNat ∧ (47 : Byte).toNat ≤ 47 ∧ 47 < (48 : Byte).toNat ∧
      zoneNamed 7 = some (some 7) ∧ zoneNamed 8 = some none ∧ 8 < (9 : Byte).toNat :=
  ⟨witness_ready_ports .K, by decide +kernel, by decide +kernel, by decide +kernel, rfl, by decide, by decide,
    by decide, by decide, by decide, by decide⟩

/-- The small machine with WIND-OVER live and sticky and a stale sticky bit, as a boundary left them. -/
def conditions : State :=
  let w : CondWord := ⟨{ Cond.none with windOver := true },
    { Cond.none with windOver := true, vaneInvalid := true }, .defaultEnables⟩
  { demo with fe := { demo.fe with word := w, boundaryWord := w } }

/-- R57, R58: CLEAR-CONDITIONS clears the stale bit, and QUERY-WEATHER reports the word of the latest boundary. -/
theorem test_conditions_reported :
    (after (.clearConditions .S) conditions).fe.word ≠ conditions.fe.word ∧
      frontEndFigures (after (.clearConditions .S) conditions).fe = frontEndFigures conditions.fe := by
  decide +kernel

theorem witness_restarts :
    ((storing .write (some ⟨3, 3, none, 20⟩)).port .S).ready ∧
      (storing .write (some ⟨3, 3, none, 20⟩)).store.op.isSome ∧ (storing .write none).store.op = none ∧
      (storing .write none).store.commissioning = true ∧ demo.store.commissioning = false :=
  ⟨⟨.inl rfl, rfl⟩, rfl, rfl, rfl, rfl⟩

theorem witness_StoreModeAndActFollowTheirChecks_mode :
    ((storing .write none).port .S).ready ∧ (storing .write none).store.op = none ∧ 6 < (7 : Byte).toNat ∧
      modeNamed 6 = some .write ∧ (storing .write none).store.mode = .write ∧ modeNamed 1 = some .erase1 :=
  ⟨⟨.inl rfl, rfl⟩, rfl, by decide, rfl, rfl, rfl⟩

theorem witness_StoreModeAndActFollowTheirChecks_act :
    (((storing .write none).port .S).ready ∧ (storing .write none).store.op = none ∧
      (Instr.storeAct .S 65 (some (List.replicate 16 0))).wf = true ∧ (Instr.storeAct .S 3 none).wf = true) ∧
    ((storing .none none).store.mode = .none ∧ (storing .write none).store.mode = .write ∧
      (storing .erase1 none).store.mode ≠ .write ∧ 65 < (66 : Byte).toNat ∧ (65 : Byte).toNat ≤ 65) ∧
    (demo.store.commissioning = false ∧ (storing .write none).store.commissioning = true ∧
      ({ demo.store with plantLock := true } : Store).plantLock = true ∧
      ({ demo.store with operLock := true } : Store).operLock = true ∧ demo.store.plantLock = false ∧
      demo.store.operLock = false) ∧
    ((storing .write none).store.isComplete 65 = false ∧
      (demo.store.program 65 (List.replicate 16 0)).isComplete 65 = true) := by
  refine ⟨⟨⟨.inl rfl, rfl⟩, ?_⟩, ?_⟩ <;> decide +kernel

theorem witness_StoreModeAndActFollowTheirChecks_busy :
    let s := storing .write (some ⟨3, 3, none, 20⟩);
    (s.port .S).ready ∧ s.store.op.isSome ∧ (Instr.storeAct .S 3 none).wf = true :=
  ⟨⟨.inl rfl, rfl⟩, rfl, by decide⟩

theorem witness_StoreReadAndLock :
    (demo.port .S).ready ∧ 65 < (66 : Byte).toNat ∧ (65 : Byte).toNat ≤ 65 ∧ demo.store.op = none ∧
      (storing .erase1 (some ⟨3, 3, none, 20⟩)).store.op.isSome ∧ 3 < (4 : Byte).toNat ∧ (3 : Byte).toNat = 3 :=
  ⟨witness_ready_ports .S, by decide, by decide, rfl, rfl, by decide, by decide⟩

/-- A store erasing record 3, with its STORE-ACT pending on Port S and a STORE-READ of it on Port L. -/
def erasing : State :=
  ((storing .erase1 (some ⟨3, 3, none, 20⟩)).modPort .S fun r =>
    { r with state := .pending, reqBuf := [0x31, 1, 3] }).modPort .L fun r =>
    { r with state := .pending, reqBuf := [0x32, 1, 3] }

theorem witness_StoreCompletionAnswersAndServes :
    erasing.store.op = some ⟨3, 3, none, 20⟩ ∧ (erasing.port .S).state = .pending ∧
      (erasing.port .S).reqBuf.head? = some 0x31 ∧ (erasing.port .S).held = none ∧
      ((erasing.modPort .S fun r => { r with held := some .read }).port .S).held = some .read ∧
      ((erasing.modPort .S fun r => { r with held := some (.write 1) }).port .S).held = some (.write 1) ∧
      ((after (.heldStrobeEnd .L) (erasing.modPort .L fun r => { r with held := some .read })).port .L).ovr = true ∧
      (erasing.port .K).state ≠ .pending ∧ (3 : Byte).toNat ≤ 65 ∧
      (erasing.port .L).state = .pending ∧ (erasing.port .L).reqBuf = [0x32, 1, 3] ∧
      ((List.replicate 16 (0 : Byte)).length = 16 ∧ (List.replicate 16 (1 : Byte)).getD 15 blankByte ≠ 0) := by
  decide +kernel

/-- R168: a write whose last byte is not 0x00 leaves its record reading 0xFF; R159: the read that ended under WAIT
sets OVR, which the reply to the request served since does not carry. -/
theorem test_unmarked_write_and_late_ovr :
    recByte (after .storeOperationComplete
      (storing .write (some ⟨3, 3, some (List.replicate 16 1), 20⟩))).store 3 0 = 0xFF ∧
    (let t := after .storeOperationComplete
        (after (.heldStrobeEnd .L) (erasing.modPort .L fun r => { r with held := some .read }));
      (t.port .L).ovr = true ∧ (t.port .L).replyBuf.getD 2 9 = 0) := by decide +kernel

/-- R167: a branch record with a limit of 500 is loaded at 400, and LOAD-CLAMPED of record 48 stands behind
RESTARTED. -/
theorem test_load_clamps :
    let r := demo.store.program 48 ([1, 0xF4, 5, 50] ++ List.replicate 12 0);
    let t := after (.por false) { demo with store := r };
    (t.branch .A).limit = 400 ∧ (t.branch .A).window = 5 ∧ (t.branch .B).limit = 40 ∧
      (t.port .S).notices = [⟨0, .restarted .por .restart⟩, ⟨0, .loadClamped 48⟩] := by decide +kernel

/-- R3, R6: a skylight's record with the rain bit clear, run current 150 and inrush current 120 loads rain-exposed,
100 and 120. -/
theorem test_load_aperture :
    let r := demo.store.program 0 ([1, 1, 0, 0, 64, 0, 100, 150, 120, 0, 20, 0, 20, 0, 0, 0] : List Byte);
    let x := ((after (.por false) { demo with store := r }).ap 0).fix;
    x.installed = true ∧ x.kind = .skylight ∧ x.rainExposed = true ∧ x.run = 100 ∧ x.inrush = 120 := by decide +kernel

end Sys2Proof.Tests
end

