-- ==== Sys2Proof/Proofs/Entries.lean ====
section
/-! PROOFS. What queue entries, warnings and passing to a motion state write and leave. -/

/-! ## What an operation makes of an aperture's record

Each motion operation of Machine/Motion.lean rewrites the record of one aperture, as a function of that record and the
uptime alone. The functions are named here, and each operation is tied to its own by an equation. -/

namespace Sys2Proof.Machine

open Sys2Proof

variable (i j : ApId) (b : Branch) (s : State)

/-! ### Queue entries and warnings leave records, branches, ports and link -/

@[simp] theorem refreshEntry_aps : (refreshEntry i s).aps = s.aps := by unfold refreshEntry; split <;> rfl
@[simp] theorem refreshEntry_link : (refreshEntry i s).link = s.link := by unfold refreshEntry; split <;> rfl
@[simp] theorem refreshEntry_ports : (refreshEntry i s).ports = s.ports := by unfold refreshEntry; split <;> rfl
@[simp] theorem refreshEntry_branches : (refreshEntry i s).branches = s.branches := by
  unfold refreshEntry; split <;> rfl
@[simp] theorem refreshEntry_zones : (refreshEntry i s).zones = s.zones := by unfold refreshEntry; split <;> rfl

theorem settleWarning_cases (z : ZoneId) : settleWarning z s = s ∨
    (s.zoneCloses z = false ∧ settleWarning z s = s.setWarning z ⟨.idle, none⟩) := by
  unfold settleWarning
  split
  · next h => simp only [Bool.and_eq_true, Bool.not_eq_true'] at h; exact .inr ⟨h.2, rfl⟩
  · exact .inl rfl

/-- What judging a zone's warning again can do: it ends where the zone has no closing. -/
theorem refreshWarning_cases : refreshWarning i s = s ∨
    ∃ z, s.zoneCloses z = false ∧ refreshWarning i s = s.setWarning z ⟨.idle, none⟩ := by
  unfold refreshWarning
  split
  · next z _ => exact (settleWarning_cases s z).imp id fun ⟨h, e⟩ => ⟨z, h, e⟩
  · exact .inl rfl

@[simp] theorem refreshWarning_aps : (refreshWarning i s).aps = s.aps := by
  rcases refreshWarning_cases i s with h | ⟨z, _, h⟩ <;> simp [h]
@[simp] theorem refreshWarning_link : (refreshWarning i s).link = s.link := by
  rcases refreshWarning_cases i s with h | ⟨z, _, h⟩ <;> simp [h]
@[simp] theorem refreshWarning_ports : (refreshWarning i s).ports = s.ports := by
  rcases refreshWarning_cases i s with h | ⟨z, _, h⟩ <;> simp [h]
@[simp] theorem refreshWarning_branches : (refreshWarning i s).branches = s.branches := by
  rcases refreshWarning_cases i s with h | ⟨z, _, h⟩ <;> simp [h]
@[simp] theorem refreshWarning_sup : (refreshWarning i s).sup = s.sup := by
  rcases refreshWarning_cases i s with h | ⟨z, _, h⟩ <;> simp [h]

/-- A call for a warning writes one zone's warning, or nothing. -/
theorem callWarning_cases : callWarning i s = s ∨ ∃ z w, callWarning i s = s.setWarning z w := by
  unfold callWarning; dsimp only
  split
  · split
    · exact .inr ⟨_, _, rfl⟩
    · exact .inl rfl
  · exact .inl rfl

@[simp] theorem callWarning_aps : (callWarning i s).aps = s.aps := by
  rcases callWarning_cases i s with h | ⟨z, _, h⟩ <;> simp [h]
@[simp] theorem callWarning_link : (callWarning i s).link = s.link := by
  rcases callWarning_cases i s with h | ⟨z, _, h⟩ <;> simp [h]
@[simp] theorem callWarning_ports : (callWarning i s).ports = s.ports := by
  rcases callWarning_cases i s with h | ⟨z, _, h⟩ <;> simp [h]
@[simp] theorem callWarning_branches : (callWarning i s).branches = s.branches := by
  rcases callWarning_cases i s with h | ⟨z, _, h⟩ <;> simp [h]
@[simp] theorem callWarning_sup : (callWarning i s).sup = s.sup := by
  rcases callWarning_cases i s with h | ⟨z, _, h⟩ <;> simp [h]

@[simp] theorem refreshEntry_ap : (refreshEntry i s).ap j = s.ap j := State.ap_of_aps (refreshEntry_aps i s) j
@[simp] theorem refreshWarning_ap : (refreshWarning i s).ap j = s.ap j := State.ap_of_aps (refreshWarning_aps i s) j
@[simp] theorem callWarning_ap : (callWarning i s).ap j = s.ap j := State.ap_of_aps (callWarning_aps i s) j
@[simp] theorem State.owe_ap : (s.owe b).ap j = s.ap j := State.ap_of_aps (State.owe_aps s b) j

/-! ### Membership of the Closure Queue (R85) -/

theorem any_insertEntry (e : Entry) (l : List Entry) (f : Entry → Bool) :
    (insertEntry e l).any f = (f e || l.any f) := by
  induction l with
  | nil => simp [insertEntry]
  | cons x xs ih =>
    unfold insertEntry
    split
    · simp
    · simp [ih, Bool.or_left_comm]

/-- Judging an aperture's membership again makes its entry stand exactly where it is a member. -/
@[simp] theorem refreshEntry_queued :
    (refreshEntry i s).queued j = if i = j then (s.ap i).member else s.queued j := by
  unfold refreshEntry
  split
  · next h _ =>
    simp only [State.queued, State.setQueue_queue, any_insertEntry, mkEntry, h]
    by_cases e : i = j <;> simp [e]
  · next h _ =>
    simp only [State.queued, State.dropEntry, State.setQueue_queue, h, List.any_filter]
    by_cases e : i = j
    · subst e; simp
    · simp only [e, if_false]
      congr 1; funext x
      by_cases x1 : x.ap = j <;> simp [x1, Ne.symm e]
  · next h1 h2 =>
    by_cases e : i = j
    · subst e
      cases hm : (s.ap i).member <;> cases hq : s.queued i <;> simp_all
    · simp [e]

@[simp] theorem refreshWarning_queued : (refreshWarning i s).queued j = s.queued j := by simp [State.queued]
@[simp] theorem callWarning_queued : (callWarning i s).queued j = s.queued j := by simp [State.queued]

/-! ### Passing to another motion state -/

variable (st : MotionState) (f : Aperture → Aperture)

/-- Passing to motion state `st` writes the state and what the entry itself writes, on the one aperture. -/
@[simp] theorem enter_ap :
    (enter i st f s).ap j = if i = j then { f (s.ap i) with state := st } else s.ap j := by
  unfold enter; dsimp only
  rw [refreshWarning_ap, refreshEntry_ap]
  have h : ∀ v : State, (if withdraws (s.ap i).state st then { v with link := v.link.withdrawMove i } else v).ap j =
      v.ap j := fun v => by split <;> rfl
  rw [h]
  split
  · rw [State.owe_ap, State.ap_modAp]
  · rw [State.ap_modAp]

/-- The link loses the aperture's MOVE where the motion was driven and is not any more (R138). -/
@[simp] theorem enter_link :
    (enter i st f s).link = if withdraws (s.ap i).state st then s.link.withdrawMove i else s.link := by
  unfold enter; dsimp only
  rw [refreshWarning_link, refreshEntry_link]
  split <;> split <;> simp

@[simp] theorem enter_ports : (enter i st f s).ports = s.ports := by
  unfold enter; dsimp only
  rw [refreshWarning_ports, refreshEntry_ports]
  split <;> split <;> simp

@[simp] theorem enter_branches : (enter i st f s).branches = s.branches := by
  unfold enter; dsimp only
  rw [refreshWarning_branches, refreshEntry_branches]
  split <;> split <;> simp

/-- Passing to a motion state judges the aperture's queue membership again (R85). -/
@[simp] theorem enter_queued : (enter i st f s).queued j =
    if i = j then ({ f (s.ap i) with state := st } : Aperture).member else s.queued j := by
  unfold enter; dsimp only
  rw [refreshWarning_queued, refreshEntry_queued]
  have h : ∀ v : State, (if withdraws (s.ap i).state st then { v with link := v.link.withdrawMove i } else v).queued j =
      v.queued j := fun v => by split <;> rfl
  have h' : ∀ v : State, (if withdraws (s.ap i).state st then { v with link := v.link.withdrawMove i } else v).ap i =
      v.ap i := fun v => by split <;> rfl
  rw [h, h']
  split
  · split <;> simp
  · split <;> simp [State.queued]

@[simp] theorem enter_clock : (enter i st f s).clock = s.clock :=
  (enter_frame (k := fun _ => s.ap i) i s st f rfl).clock
@[simp] theorem enter_ds : (enter i st f s).ds = s.ds := by unfold State.ds; rw [enter_clock]

end Sys2Proof.Machine

end

