-- ==== Sys2Proof/Proofs/Records.lean ====
section
/-! PROOFS. What each motion operation makes of one aperture's record, as a function of that record. -/

namespace Sys2Proof.Machine

open Sys2Proof

variable (i j : ApId) (s : State)

/-! ### The records that the motion operations write -/

/-- The record after an entry to WAITING with motion `m` (R10, R96). -/
def Aperture.waited (now : Nat) (m : Motion) (a : Aperture) : Aperture :=
  { a with state := .waiting, motion := some m, waitSince := now, mon := .stopped }

/-- The record after the judgement of R9. -/
def Aperture.judged (now : Nat) (a : Aperture) : Aperture :=
  match a.effTarget, a.position with
  | some (.pos t), some p => if a.state = .rest && a.offTarget then a.waited now (a.derive t p) else a
  | _, _ => a

/-- The record after an entry to REST and the judgement there. -/
def Aperture.rested (now : Nat) (a : Aperture) : Aperture :=
  { a.still with fault := none, state := .rest }.judged now

/-- The record after a halt with cause `c` (R117). -/
def Aperture.halted (c : HaltCause) (a : Aperture) : Aperture :=
  if a.state.driving then { a with state := .stopping, mon := { Monitor.stopped with haltCause := some c } } else a

/-- The record after an entry to SETTLING at uptime `now` for the time `settle` (R120). -/
def Aperture.settling (now settle : Nat) (c : SettleCause) (a : Aperture) : Aperture :=
  { a with
    state := .settling
    mon := { Monitor.stopped with settle := some (now + settle), settleCause := some c } }

/-- The record after an entry to RETRY-WAIT (R123). -/
def Aperture.retrying (now : Nat) (a : Aperture) : Aperture :=
  { a with state := .retryWait, mon := { Monitor.stopped with retry := some (now + Config.retryDs) } }

/-- The record after an entry to FAULT (R13). -/
def Aperture.faulted (now : Nat) (k : FaultKind) (a : Aperture) : Aperture :=
  { a.still with fault := some ⟨k, now⟩, state := .fault }

/-- The record after R118's retarget to `t`. -/
def Aperture.retargeted (t : Nat) (a : Aperture) : Aperture :=
  { a with motion := a.motion.map fun m => { m with target := t } }

/-- The record after its motion was derived again (R10). -/
def Aperture.rederived (m : Motion) (a : Aperture) : Aperture := { a with motion := some m }

/-- The record after R118 for a motion that is driven. -/
def Aperture.steered (a : Aperture) : Aperture :=
  match a.motion with
  | none => a
  | some m =>
    match m.purpose, a.effTarget with
    | .normal, some (.pos t) =>
      if t = m.target then a
      else if a.offTarget && decide (m.dir = if t < a.position.getD 0 then .closing else .opening) then
        a.retargeted t
      else a.halted .target
    | .normal, _ => a.halted .target
    | .backoff, _ => if a.wantsClosing then a else a.halted .target

/-- The record of a WAITING aperture after a change of its effective target (R10, R24, R25, R122). -/
def Aperture.rejudged (now : Nat) (a : Aperture) : Aperture :=
  match a.motion, a.effTarget, a.position with
  | some m, some (.pos t), some p =>
    if m.purpose = .backoff && a.wantsClosing then a.rederived { m with cls := a.effClass.getD m.cls }
    else if a.offTarget then a.rederived (a.derive t p)
    else a.rested now
  | _, _, _ => a.rested now

/-- The record after its changed effective target was handed on (R24, R25). -/
def Aperture.handed (now : Nat) (a : Aperture) : Aperture :=
  match a.state with
  | .rest => a.judged now
  | .waiting => a.rejudged now
  | .starting | .running => a.steered
  | .retryWait => a.rested now
  | .absent | .unknown | .stopping | .settling | .fault | .offline => a

/-- The record with target and class of its slate (R24), the stall count of R12 beside them. -/
def Aperture.derived (a : Aperture) : Aperture :=
  let t := a.slate.top.map fun x => x.2.target
  let b := { a with effTarget := t, effClass := a.slate.top.map fun x => x.1 }
  if closingTarget a.effTarget a.position && b.wantsOpening then { b with stallCount := 0 } else b

/-- The record after its target and class were derived from its slate and handed on where they changed (R24). -/
def Aperture.resolved (now : Nat) (a : Aperture) : Aperture :=
  if (a.slate.top.map fun x => x.2.target) = a.effTarget ∧ (a.slate.top.map fun x => x.1) = a.effClass then a
  else a.derived.handed now

/-! ### Each operation writes its record on its one aperture, and no other -/

/-- From `s` to `t` aperture `i` got the record `a`, and every other record stands. -/
def Writes (i : ApId) (s t : State) (a : Aperture) : Prop := ∀ j, t.ap j = if i = j then a else s.ap j

theorem Writes.none : Writes i s s (s.ap i) := fun j => by
  split
  · next e => rw [e]
  · rfl

theorem Writes.trans {t u : State} {a b : Aperture} (h : Writes i s t a) (g : Writes i t u b) : Writes i s u b :=
  fun j => by rw [g j, h j]; split <;> rfl

theorem Writes.self {t : State} {a : Aperture} (h : Writes i s t a) : t.ap i = a := by rw [h i, if_pos rfl]

theorem Writes.ite {c : Prop} [Decidable c] {t u : State} {a b : Aperture} (h : c → Writes i s t a)
    (g : ¬ c → Writes i s u b) : Writes i s (if c then t else u) (if c then a else b) := by
  split
  · exact h ‹_›
  · exact g ‹_›

theorem modAp_writes (f : Aperture → Aperture) : Writes i s (s.modAp i f) (f (s.ap i)) :=
  fun j => State.ap_modAp s i j f

theorem modAp_modAp_writes (f g : Aperture → Aperture) :
    Writes i s ((s.modAp i f).modAp i g) (g (f (s.ap i))) := by
  have h := modAp_writes i (s.modAp i f) g
  rw [State.ap_modAp_self] at h
  exact (modAp_writes i s f).trans i s h

theorem toWaiting_writes (m : Motion) : Writes i s (toWaiting i m s) ((s.ap i).waited s.ds m) := fun j => by
  simp [toWaiting, Aperture.waited]

theorem judge_writes : Writes i s (judge i s) ((s.ap i).judged s.ds) := by
  unfold judge Aperture.judged; dsimp only
  rcases (s.ap i).effTarget with _ | t | _ <;> rcases (s.ap i).position with _ | p <;> dsimp only
  case some.pos.some => exact Writes.ite i s (fun _ => toWaiting_writes i s _) fun _ => Writes.none i s
  all_goals exact Writes.none i s

theorem toRest_writes : Writes i s (toRest i s) ((s.ap i).rested s.ds) := fun j => by
  have h := judge_writes i (enter i .rest (fun a => { a.still with fault := none }) s) j
  simp only [enter_ap, enter_ds, if_true] at h
  rw [toRest, h]; unfold Aperture.rested; split <;> rfl

theorem halt_writes (c : HaltCause) : Writes i s (halt i c s) ((s.ap i).halted c) :=
  Writes.ite i s (fun _ j => enter_ap i j s _ _) fun _ => Writes.none i s

theorem retarget_writes (t : Nat) : Writes i s (retarget i t s) ((s.ap i).retargeted t) :=
  modAp_writes i s (Aperture.retargeted t)

theorem rederive_writes (m : Motion) : Writes i s (rederive i m s) ((s.ap i).rederived m) := fun j => by
  simp [rederive, State.ap_modAp, Aperture.rederived]

theorem steer_writes : Writes i s (steer i s) (s.ap i).steered := by
  unfold steer Aperture.steered; dsimp only
  cases (s.ap i).motion with
  | none => exact Writes.none i s
  | some m =>
    rcases m with ⟨t, d, c, _ | _⟩ <;> rcases (s.ap i).effTarget with _ | x | _ <;> dsimp only
    case normal.some.pos =>
      exact Writes.ite i s (fun _ => Writes.none i s) fun _ =>
        Writes.ite i s (fun _ => retarget_writes i s _) fun _ => halt_writes i s _
    case normal.none | normal.some.hold => exact halt_writes i s _
    all_goals exact Writes.ite i s (fun _ => Writes.none i s) fun _ => halt_writes i s _

theorem rejudgeWaiting_writes : Writes i s (rejudgeWaiting i s) ((s.ap i).rejudged s.ds) := by
  unfold rejudgeWaiting Aperture.rejudged; dsimp only
  rcases (s.ap i).motion with _ | m <;> rcases (s.ap i).effTarget with _ | t | _ <;>
    rcases (s.ap i).position with _ | p <;> dsimp only
  case some.some.pos.some =>
    exact Writes.ite i s (fun _ => rederive_writes i s _) fun _ =>
      Writes.ite i s (fun _ => rederive_writes i s _) fun _ => toRest_writes i s
  all_goals exact toRest_writes i s

theorem handOn_writes : Writes i s (handOn i s) ((s.ap i).handed s.ds) := by
  unfold handOn Aperture.handed
  cases (s.ap i).state with
  | rest => exact judge_writes i s
  | waiting => exact rejudgeWaiting_writes i s
  | starting | running => exact steer_writes i s
  | retryWait => exact toRest_writes i s
  | absent | unknown | stopping | settling | fault | offline => exact Writes.none i s

/-- Deriving an aperture's target either finds nothing changed, or writes target, class and stall count and hands
them on (R12, R24). -/
theorem resolve_cases :
    ((s.ap i).resolved s.ds = s.ap i ∧ resolve i s = refreshEntry i s) ∨
    ∃ v, Writes i s v (s.ap i).derived ∧ { v with aps := s.aps } = s ∧
      (s.ap i).resolved s.ds = (s.ap i).derived.handed s.ds ∧ resolve i s = refreshEntry i (handOn i v) := by
  unfold resolve Aperture.resolved; dsimp only
  split
  · exact .inl ⟨rfl, rfl⟩
  · refine .inr ⟨_, ?_, ?_, rfl, rfl⟩
    · rw [State.ap_modAp_self]
      exact Writes.ite i s (fun _ => modAp_modAp_writes i s _ _) fun _ => modAp_writes i s _
    · split <;> rfl

theorem resolve_writes : Writes i s (resolve i s) ((s.ap i).resolved s.ds) := by
  rcases resolve_cases i s with ⟨r, e⟩ | ⟨v, h, rest, r, e⟩ <;> intro j <;> rw [e, r, refreshEntry_ap]
  · exact Writes.none i s j
  · have g := h.trans i s (handOn_writes i v) j
    rw [h.self] at g
    exact g.trans (by rw [← rest]; rfl)

@[simp] theorem toWaiting_ap (m : Motion) :
    (toWaiting i m s).ap j = if i = j then (s.ap i).waited s.ds m else s.ap j := toWaiting_writes i s m j
@[simp] theorem judge_ap : (judge i s).ap j = if i = j then (s.ap i).judged s.ds else s.ap j := judge_writes i s j
@[simp] theorem toRest_ap : (toRest i s).ap j = if i = j then (s.ap i).rested s.ds else s.ap j := toRest_writes i s j
@[simp] theorem halt_ap (c : HaltCause) :
    (halt i c s).ap j = if i = j then (s.ap i).halted c else s.ap j := halt_writes i s c j
@[simp] theorem handOn_ap : (handOn i s).ap j = if i = j then (s.ap i).handed s.ds else s.ap j := handOn_writes i s j
@[simp] theorem resolve_ap : (resolve i s).ap j = if i = j then (s.ap i).resolved s.ds else s.ap j :=
  resolve_writes i s j

@[simp] theorem toSettling_ap (c : SettleCause) : (toSettling i c s).ap j =
    if i = j then (s.ap i).settling s.ds (s.zoneOf i).settle c else s.ap j := by
  simp [toSettling, Aperture.settling]

@[simp] theorem toRetryWait_ap :
    (toRetryWait i s).ap j = if i = j then (s.ap i).retrying s.ds else s.ap j := by
  simp [toRetryWait, Aperture.retrying]

@[simp] theorem toFault_ap (k : FaultKind) :
    (toFault i k s).ap j = if i = j then (s.ap i).faulted s.ds k else s.ap j := by
  simp [toFault, Aperture.faulted, Aperture.still]

theorem toOffline_ap : (toOffline i s).ap j = if i = j then
    { (s.ap i).still with
      state := .offline, position := none, fault := none
      held := if (s.ap i).state.moving then
        some (if (s.ap i).node.contactTimer.isSome then (s.ap i).contribution else 0) else none }
    else s.ap j := by
  unfold toOffline; dsimp only
  rw [State.notify_ap]
  split <;> simp

theorem releaseHeld_ap : (releaseHeld i s).ap j =
    if i = j ∧ (s.ap i).held.isSome then { s.ap i with held := some 0 } else s.ap j := by
  unfold releaseHeld
  split <;> simp_all [State.ap_modAp]

theorem toOnline_ap : (toOnline i s).ap j = if i = j then
    { (s.ap i).still with state := .unknown, position := none, held := none } else s.ap j := by
  unfold toOnline
  rw [State.notify_ap, enter_ap, releaseHeld_ap, releaseHeld_ap]
  by_cases e : i = j
  · subst e; simp only [if_true, true_and]; split <;> rfl
  · simp [e]

/-- The record after a motion ended at REST by a fresh status (R12, R116). -/
def Aperture.arrived (now : Nat) (a : Aperture) : Aperture :=
  (if a.position = some 0 then { a with stallCount := 0 } else a).rested now

@[simp] theorem arrive_ap : (arrive i s).ap j = if i = j then (s.ap i).arrived s.ds else s.ap j := by
  unfold arrive Aperture.arrived
  rw [toRest_ap, State.ap_modAp_self, State.ap_modAp]
  by_cases e : i = j
  · simp [e, State.ds]
  · simp [e]


end Sys2Proof.Machine

end

