-- ==== Sys2Proof/Proofs/Locality.lean ====
section
/-! PROOFS. What an operation on one aperture leaves of ports, branches, order lists and Closure Queue. -/

namespace Sys2Proof.Machine

open Sys2Proof

variable (i j : ApId) (s : State)

/-! ### What an operation on one aperture leaves of ports, branches, lists and queue -/

/-- From `s` to `t` an operation worked on aperture `i` alone: ports and branches stand, and of the order lists and the
Closure Queue what belongs to the others; the aperture's own entry stands exactly where it is a member, if it did. -/
structure Local (i : ApId) (s t : State) : Prop where
  ports    : t.ports = s.ports
  branches : t.branches = s.branches
  moves    : ∀ j x, i ≠ j → ((j, x) ∈ t.link.moveList ↔ (j, x) ∈ s.link.moveList)
  halts    : ∀ j, i ≠ j → (j ∈ t.link.haltList ↔ j ∈ s.link.haltList)
  queued   : ∀ j, i ≠ j → t.queued j = s.queued j
  listed   : s.queued i = (s.ap i).member → t.queued i = (t.ap i).member

theorem Local.refl : Local i s s := ⟨rfl, rfl, fun _ _ _ => Iff.rfl, fun _ _ => Iff.rfl, fun _ _ => rfl, id⟩

variable {i s}

theorem Local.trans {t u : State} (h : Local i s t) (g : Local i t u) : Local i s u where
  ports := g.ports.trans h.ports
  branches := g.branches.trans h.branches
  moves j x e := (g.moves j x e).trans (h.moves j x e)
  halts j e := (g.halts j e).trans (h.halts j e)
  queued j e := (g.queued j e).trans (h.queued j e)
  listed := g.listed ∘ h.listed

theorem Local.ite {c : Prop} [Decidable c] {t u : State} (h : c → Local i s t) (g : ¬ c → Local i s u) :
    Local i s (if c then t else u) := by
  split
  · exact h ‹_›
  · exact g ‹_›

/-- The link's lists change for the one aperture. -/
theorem Local.withLink (l : Link)
    (hm : ∀ j x, i ≠ j → ((j, x) ∈ l.moveList ↔ (j, x) ∈ s.link.moveList))
    (hh : ∀ j, i ≠ j → (j ∈ l.haltList ↔ j ∈ s.link.haltList)) : Local i s { s with link := l } :=
  { Local.refl i s with moves := hm, halts := hh }

/-- The record changes in nothing that membership of the queue depends on. -/
theorem Local.modAp (f : Aperture → Aperture) (h : (f (s.ap i)).member = (s.ap i).member) :
    Local i s (s.modAp i f) :=
  { Local.refl i s with listed := fun q => by rw [State.ap_modAp_self, h]; exact q }

variable (i s)

theorem Link.withdrawMove_moves (l : Link) (x : Nat) (e : i ≠ j) :
    (j, x) ∈ (l.withdrawMove i).moveList ↔ (j, x) ∈ l.moveList := by
  simp [Link.withdrawMove, Ne.symm e]

theorem enter_local (st : MotionState) (f : Aperture → Aperture) : Local i s (enter i st f s) where
  ports := enter_ports i s st f
  branches := enter_branches i s st f
  moves j x e := by
    rw [enter_link]; split
    · exact Link.withdrawMove_moves i j _ x e
    · rfl
  halts j e := by
    rw [enter_link]; split <;> rfl
  queued j e := by rw [enter_queued, if_neg e]
  listed _ := by rw [enter_queued, enter_ap, if_pos rfl, if_pos rfl]

theorem callWarning_local : Local i s (callWarning i s) := by
  rcases callWarning_cases i s with h | ⟨z, w, h⟩ <;> rw [h]
  · exact Local.refl i s
  · exact { Local.refl i s with }

theorem refreshWarning_local : Local i s (refreshWarning i s) := by
  rcases refreshWarning_cases i s with h | ⟨z, w, h⟩ <;> rw [h]
  · exact Local.refl i s
  · exact { Local.refl i s with }

theorem refreshEntry_local : Local i s (refreshEntry i s) where
  ports := refreshEntry_ports i s
  branches := refreshEntry_branches i s
  moves j x e := by rw [refreshEntry_link]
  halts j e := by rw [refreshEntry_link]
  queued j e := by rw [refreshEntry_queued, if_neg e]
  listed _ := by rw [refreshEntry_queued, if_pos rfl, refreshEntry_ap]

theorem toWaiting_local (m : Motion) : Local i s (toWaiting i m s) :=
  (enter_local i s _ _).trans (callWarning_local i _)

theorem judge_local : Local i s (judge i s) := by
  unfold judge; dsimp only; split
  · exact Local.ite (fun _ => toWaiting_local i s _) fun _ => Local.refl i s
  · exact Local.refl i s

theorem toRest_local : Local i s (toRest i s) := (enter_local i s _ _).trans (judge_local i _)

theorem toSettling_local (c : SettleCause) : Local i s (toSettling i c s) := enter_local i s _ _

theorem toRetryWait_local : Local i s (toRetryWait i s) := enter_local i s _ _

theorem Link.listHalt_moves (l : Link) (x : Nat) (e : i ≠ j) :
    (j, x) ∈ (l.listHalt i).moveList ↔ (j, x) ∈ l.moveList := by
  simp [Ne.symm e]

theorem Link.listHalt_halts (l : Link) (e : i ≠ j) :
    j ∈ (l.listHalt i).haltList ↔ j ∈ l.haltList := by
  unfold Link.listHalt; dsimp only
  split
  · rfl
  · simp [Ne.symm e]

theorem halt_local (c : HaltCause) : Local i s (halt i c s) :=
  Local.ite (fun _ => (enter_local i s _ _).trans (Local.withLink _ (fun j x e => Link.listHalt_moves i j _ x e)
    fun j e => Link.listHalt_halts i j _ e)) fun _ => Local.refl i s

/-- A retarget touches no entry of another aperture. -/
theorem Link.relistMove_moves (l : Link) (t x : Nat) (e : i ≠ j) :
    (j, x) ∈ (l.relistMove i t).moveList ↔ (j, x) ∈ l.moveList := by
  unfold Link.relistMove; dsimp only
  split
  · simp only [List.mem_map]
    constructor
    · rintro ⟨⟨k, y⟩, hm, h⟩
      dsimp only at h
      split at h
      · simp only [Prod.mk.injEq] at h; exact absurd h.1 e
      · exact h ▸ hm
    · exact fun hm => ⟨(j, x), hm, by simp [Ne.symm e]⟩
  · simp [Ne.symm e]

/-- A retarget leaves the new MOVE listed. -/
theorem Link.mem_relistMove (l : Link) (t : Nat) : (i, t) ∈ (l.relistMove i t).moveList := by
  unfold Link.relistMove; dsimp only
  split
  · next h =>
    obtain ⟨m, hm, e⟩ := List.any_eq_true.1 h
    exact List.mem_map.2 ⟨m, hm, if_pos (of_decide_eq_true e)⟩
  · simp

theorem retarget_local (t : Nat) : Local i s (retarget i t s) := by
  have h : Local i s (s.modAp i fun a => { a with motion := a.motion.map fun m => { m with target := t } }) :=
    Local.modAp _ rfl
  exact h.trans (Local.withLink _ (fun j x e => Link.relistMove_moves i j _ t x e) fun _ _ => Iff.rfl)

theorem rederive_local (m : Motion) : Local i s (rederive i m s) := by
  have h : Local i s (s.modAp i fun a => { a with motion := some m }) := Local.modAp _ rfl
  exact (h.trans (refreshWarning_local i _)).trans (callWarning_local i _)

theorem steer_local : Local i s (steer i s) := by
  unfold steer; dsimp only; split
  · exact Local.refl i s
  · split
    · exact Local.ite (fun _ => Local.refl i s) fun _ =>
        Local.ite (fun _ => retarget_local i s _) fun _ => halt_local i s _
    · exact halt_local i s _
    · exact Local.ite (fun _ => Local.refl i s) fun _ => halt_local i s _

theorem rejudgeWaiting_local : Local i s (rejudgeWaiting i s) := by
  unfold rejudgeWaiting; dsimp only; split
  · exact Local.ite (fun _ => rederive_local i s _) fun _ =>
      Local.ite (fun _ => rederive_local i s _) fun _ => toRest_local i s
  · exact toRest_local i s

theorem handOn_local : Local i s (handOn i s) := by
  unfold handOn; split
  · exact judge_local i s
  · exact rejudgeWaiting_local i s
  · exact steer_local i s
  · exact steer_local i s
  · exact toRest_local i s
  all_goals exact Local.refl i s

theorem arrive_local : Local i s (arrive i s) := by
  have h : Local i s (s.modAp i fun a => if a.position = some 0 then { a with stallCount := 0 } else a) :=
    Local.modAp _ (by split <;> rfl)
  exact h.trans (toRest_local i _)

/-- Deriving judges the aperture's membership of the queue, however it stood before (R24 step 4, R85). -/
theorem resolve_listed : (resolve i s).queued i = ((resolve i s).ap i).member := by
  rcases resolve_cases i s with ⟨_, e⟩ | ⟨v, _, _, _, e⟩ <;>
    rw [e, refreshEntry_queued, if_pos rfl, refreshEntry_ap]

theorem resolve_local : Local i s (resolve i s) := by
  rcases resolve_cases i s with ⟨_, e⟩ | ⟨v, w, rest, _, e⟩
  · rw [e]; exact refreshEntry_local i s
  · have h : Local i v (resolve i s) := by rw [e]; exact (handOn_local i v).trans (refreshEntry_local i _)
    have aps : v = { s with aps := v.aps } := by rw [← rest]
    exact
      { ports := h.ports.trans (by rw [aps]), branches := h.branches.trans (by rw [aps])
        moves := fun j x n => (h.moves j x n).trans (by rw [aps])
        halts := fun j n => (h.halts j n).trans (by rw [aps])
        queued := fun j n => (h.queued j n).trans (by rw [aps]; rfl)
        listed := fun _ => resolve_listed i s }

end Sys2Proof.Machine

end

