-- ==== Sys2Proof/Proofs/WaitLists.lean ====
section
/-! PROOFS. Who stands in a wait list, and who is eligible there (R96 to R104). -/

namespace Sys2Proof.Machine

open Sys2Proof

variable (i j k : ApId) (b : Branch) (s : State)

/-! ### Wait lists and their eligible entries (R96 to R100, R104) -/

theorem mem_insertWait (e x : WaitEntry) (l : List WaitEntry) : x ∈ insertWait e l ↔ x = e ∨ x ∈ l := by
  induction l with
  | nil => simp [insertWait]
  | cons y ys ih =>
    unfold insertWait
    split
    · simp
    · simp [ih, or_left_comm]

theorem mem_sortWait (x : WaitEntry) (l : List WaitEntry) : x ∈ sortWait l ↔ x ∈ l := by
  induction l with
  | nil => rfl
  | cons y ys ih => simp [sortWait, mem_insertWait, ih]

/-- A wait list stands in the order of the classes (R97). -/
theorem pairwise_insertWait (e : WaitEntry) (l : List WaitEntry)
    (h : l.Pairwise fun x y => x.cls.rank ≤ y.cls.rank) :
    (insertWait e l).Pairwise fun x y => x.cls.rank ≤ y.cls.rank := by
  induction l with
  | nil => simp [insertWait]
  | cons y ys ih =>
    obtain ⟨hy, hys⟩ := List.pairwise_cons.1 h
    unfold insertWait
    split
    · next lt =>
      have ey : e.cls.rank ≤ y.cls.rank := by
        unfold WaitEntry.lt at lt
        by_cases c : e.cls = y.cls
        · rw [c]
        · simp [c] at lt; exact lt.le
      exact List.pairwise_cons.2 ⟨fun x hx => (List.mem_cons.1 hx).elim (fun q => q ▸ ey)
        fun q => ey.trans (hy x q), h⟩
    · next lt =>
      have ye : y.cls.rank ≤ e.cls.rank := by
        unfold WaitEntry.lt at lt
        by_cases c : e.cls = y.cls
        · rw [c]
        · simp [c] at lt; exact lt
      exact List.pairwise_cons.2 ⟨fun x hx => ((mem_insertWait e x ys).1 hx).elim (fun q => q ▸ ye) (hy x), ih hys⟩

theorem pairwise_sortWait (l : List WaitEntry) : (sortWait l).Pairwise fun x y => x.cls.rank ≤ y.cls.rank := by
  induction l with
  | nil => exact List.Pairwise.nil
  | cons y ys ih => exact pairwise_insertWait y _ ih

theorem pairwise_candidatesOf : (candidatesOf s b).Pairwise fun x y => x.cls.rank ≤ y.cls.rank :=
  (pairwise_sortWait _).filter _

theorem mem_onBranch : i ∈ s.onBranch b ↔ (s.ap i).fix.branch = b := by
  simp [State.onBranch, allAps, List.mem_finRange]

/-- The wait-list entry of an aperture that waits with motion `m` (R96). -/
def entryFor (s : State) (i : ApId) (m : Motion) : WaitEntry :=
  ⟨i, m.cls, m.dir, m.purpose, (s.ap i).orderTime m, s.sup.queue.findIdx? fun x => x.ap = i⟩

theorem waitEntry_eq_some (e : WaitEntry) : waitEntry s i = some e ↔
    (s.ap i).state = .waiting ∧ ∃ m, (s.ap i).motion = some m ∧ e = entryFor s i m := by
  unfold waitEntry
  split
  · next m h g => simp [h, g, eq_comm, entryFor]
  · next none =>
    constructor
    · intro h; cases h
    · rintro ⟨h, m, g, _⟩; exact (none m h g).elim

theorem mem_waitList (e : WaitEntry) :
    e ∈ waitList s b ↔ (s.ap e.ap).fix.branch = b ∧ waitEntry s e.ap = some e := by
  simp only [waitList, mem_sortWait, List.mem_filterMap, mem_onBranch]
  constructor
  · rintro ⟨i, hb, he⟩
    obtain ⟨_, m, _, rfl⟩ := (waitEntry_eq_some i s e).1 he
    exact ⟨hb, he⟩
  · exact fun ⟨hb, he⟩ => ⟨e.ap, hb, he⟩

/-- No rule of R98, R99, R100 and R104 keeps the entry of motion `m` of aperture `i` waiting. -/
def Unhindered (s : State) (b : Branch) (i : ApId) (m : Motion) : Prop :=
  (s.branch b).quiet = none ∧
    (∀ z, s.governing i = some z → m.needsWarning (s.zones.desc[z]).warn = true →
      (s.zones.warnings[z]).state = .done) ∧
    ¬ ((s.branch b).late = true ∧ (m.cls = .supervisory ∨ m.cls = .room) ∧ m.dir = .opening ∧
      m.purpose = .normal) ∧
    (s.ap i).fix.inrush ≤ (s.branch b).limit

theorem awaitsWarning_entryFor {m : Motion} (hm : (s.ap i).motion = some m) :
    awaitsWarning s (entryFor s i m) = false ↔
      ∀ z, s.governing i = some z → m.needsWarning (s.zones.desc[z]).warn = true →
        (s.zones.warnings[z]).state = .done := by
  unfold awaitsWarning entryFor
  simp only [hm]
  cases s.governing i <;> simp

/-- An entry is eligible where none of R98, R99, R100 and R104 keeps it waiting. -/
theorem standingOf_eligible (e : WaitEntry) : standingOf s b e = .eligible ↔ (s.branch b).quiet = none ∧
    awaitsWarning s e = false ∧ awaitsPlan (s.branch b) e = false ∧ unfit s (s.branch b) e = false := by
  unfold standingOf
  cases (s.branch b).quiet <;> cases awaitsWarning s e <;> cases awaitsPlan (s.branch b) e <;>
    cases unfit s (s.branch b) e <;> simp

theorem awaitsPlan_eq_false (r : BranchRec) (e : WaitEntry) : awaitsPlan r e = false ↔
    ¬ (r.late = true ∧ (e.cls = .supervisory ∨ e.cls = .room) ∧ e.dir = .opening ∧ e.purpose = .normal) := by
  rw [← Bool.not_eq_true]; simp [awaitsPlan, and_assoc]

theorem unfit_eq_false (r : BranchRec) (e : WaitEntry) :
    unfit s r e = false ↔ (s.ap e.ap).fix.inrush ≤ r.limit := by
  simp [unfit]

theorem standingOf_eligible_iff {m : Motion} (hm : (s.ap i).motion = some m) :
    standingOf s b (entryFor s i m) = .eligible ↔ Unhindered s b i m := by
  rw [standingOf_eligible, awaitsWarning_entryFor i s hm, awaitsPlan_eq_false, unfit_eq_false]
  rfl

/-- Aperture `i` has an eligible entry of class `c` on branch `b`, as an attempt works on it (R101, R104). -/
def Ready (s : State) (b : Branch) (i : ApId) (c : OrderClass) : Prop :=
  ∃ e ∈ candidatesOf s b, e.ap = i ∧ e.cls = c

/-- What makes an entry eligible, in the terms of aperture, branch and zone. -/
theorem ready_iff (c : OrderClass) : Ready s b i c ↔
    (s.ap i).fix.branch = b ∧ (s.ap i).state = .waiting ∧
      ∃ m, (s.ap i).motion = some m ∧ m.cls = c ∧ Unhindered s b i m := by
  simp only [Ready, candidatesOf, List.mem_filter, mem_waitList, decide_eq_true_eq]
  constructor
  · rintro ⟨e, ⟨⟨hb, hw⟩, hs⟩, rfl, rfl⟩
    obtain ⟨hst, m, hm, he⟩ := (waitEntry_eq_some _ s e).1 hw
    exact ⟨hb, hst, m, hm, by rw [he]; rfl, (standingOf_eligible_iff _ b s hm).1 (by rw [← he]; exact hs)⟩
  · rintro ⟨hb, hst, m, hm, rfl, h⟩
    exact ⟨entryFor s i m, ⟨⟨hb, (waitEntry_eq_some i s _).2 ⟨hst, m, hm, rfl⟩⟩,
      (standingOf_eligible_iff i b s hm).2 h⟩, rfl, rfl⟩

end Sys2Proof.Machine

end

