-- ==== Sys2Proof/Proofs/Attempt.lean ====
section
/-! PROOFS. What one admission attempt can do (R101 to R107). -/

namespace Sys2Proof.Machine

open Sys2Proof

variable (i j k : ApId) (b : Branch) (s : State)

/-! ### What one attempt can do (R102, R105, R107) -/

/-- Victims are taken from the candidates in their order (R105). -/
theorem takeVictims_prefix {need free : Nat} {l vs : List ApId} (h : takeVictims s need free l = some vs) :
    vs <+: l := by
  induction l generalizing free vs with
  | nil =>
    unfold takeVictims at h
    split at h <;> cases h
    exact List.prefix_rfl
  | cons x xs ih =>
    unfold takeVictims at h
    split at h
    · cases h; exact List.nil_prefix
    · obtain ⟨ws, hw, rfl⟩ := Option.map_eq_some_iff.1 h
      exact List.cons_prefix_cons.2 ⟨rfl, ih hw⟩

theorem mem_insertVictim (l : List ApId) : j ∈ insertVictim s i l ↔ j = i ∨ j ∈ l := by
  induction l with
  | nil => simp [insertVictim]
  | cons y ys ih =>
    unfold insertVictim
    split
    · simp
    · simp [ih, or_left_comm]

theorem mem_sortVictims (l : List ApId) : j ∈ sortVictims s l ↔ j ∈ l := by
  induction l with
  | nil => rfl
  | cons y ys ih => simp [sortVictims, mem_insertVictim, ih]

/-- A victim is driven on the branch with a motion of a lower class (R105). -/
theorem of_mem_victims {e : WaitEntry} {vs : List ApId} (h : victims s b e = some vs) (hj : j ∈ vs) :
    (s.ap j).fix.branch = b ∧ (s.ap j).state.driving = true ∧
      ∃ m, (s.ap j).motion = some m ∧ e.cls.rank < m.cls.rank := by
  have mem := (takeVictims_prefix s h).subset hj
  simp only [sheddable, mem_sortVictims, List.mem_filter, mem_onBranch, Bool.and_eq_true] at mem
  obtain ⟨hb, hd, hm⟩ := mem
  split at hm
  · next m e => exact ⟨hb, hd, m, e, of_decide_eq_true hm⟩
  · cases hm

/-- An attempt's outcome on the entries `es`: nothing, an admission of an entry before which no entry of a higher
class stands short, or a shedding for an entry of class LIFE or WEATHER, which is reserved. -/
inductive Outcome (b : Branch) (es : List WaitEntry) (s : State) : State × Bool → Prop where
  | nothing : Outcome b es s (s, false)
  | admits (e : WaitEntry) (mem : e ∈ es) (fit : fits s b e = true) (gap : gapPassed s b = true)
      (first : ∀ x ∈ es, e.cls.rank ≤ x.cls.rank) : Outcome b es s (admitMotion b e.ap s, true)
  | sheds (e : WaitEntry) (mem : e ∈ es) (cls : e.cls = .life ∨ e.cls = .weather) (vs : List ApId)
      (take : victims s b e = some vs) :
      Outcome b es s ((vs.foldl (fun s' i => halt i .shed s') s).reserve b (some e.ap), true)

theorem admitFirst_outcome {es : List WaitEntry} (h : es.Pairwise fun x y => x.cls.rank ≤ y.cls.rank) :
    Outcome b es s (admitFirst b es s) := by
  unfold admitFirst
  split
  · exact .nothing
  · next e found =>
    split
    · exact .nothing
    · next ok =>
      simp only [Bool.or_eq_true, List.any_eq_true, Bool.and_eq_true, Bool.not_eq_true', decide_eq_true_eq,
        not_or, not_exists, not_and, not_lt, Bool.not_eq_false] at ok
      obtain ⟨fit, before, after, rfl, skip⟩ := List.find?_eq_some_iff_append.1 found
      refine .admits e (by simp) fit ok.2 fun x hx => ?_
      cases fx : fits s b x with
      | false => exact ok.1 x hx fx
      | true =>
        rcases List.mem_append.1 hx with hx | hx
        · have := skip x hx; simp [fx] at this
        · rcases List.mem_cons.1 hx with rfl | hx
          · exact le_rfl
          · exact (List.pairwise_cons.1 (List.pairwise_append.1 h).2.1).1 x hx

theorem attemptOpen_outcome {es : List WaitEntry} (h : es.Pairwise fun x y => x.cls.rank ≤ y.cls.rank) :
    Outcome b es s (attemptOpen b es s) := by
  unfold attemptOpen
  split
  · exact .nothing
  · next e rest =>
    split
    · next c =>
      simp only [Bool.and_eq_true, Bool.or_eq_true, decide_eq_true_eq] at c
      split
      · next vs take => exact .sheds e (by simp) c.1 vs take
      · exact admitFirst_outcome b s h
    · exact admitFirst_outcome b s h

/-- The reservation of branch `b`, where one stands, is that of an eligible entry of class LIFE or WEATHER (R107). -/
def Reserved (s : State) (b : Branch) : Prop := ∀ i, (s.branch b).reservation = some i →
  ∃ c, (c = .life ∨ c = .weather) ∧ Ready s b i c

/-- An attempt is an outcome on the eligible entries, with the reservation standing or given up (R107). -/
theorem attempt_outcome (h : Reserved s b) : Outcome b (candidatesOf s b) s (attempt b s) ∨
    Outcome b (candidatesOf s b) (s.reserve b none) (attempt b s) := by
  have sorted := pairwise_candidatesOf b s
  unfold attempt; dsimp only
  split
  · exact .inl (attemptOpen_outcome b s sorted)
  · next i held =>
    obtain ⟨c, hc, e0, mem0, ap0, cls0⟩ := h i held
    obtain ⟨-, hst, m, hm, mc, -⟩ := (ready_iff i b s c).1 ⟨e0, mem0, ap0, cls0⟩
    simp only [hm]
    split
    · exact .inr (attemptOpen_outcome b _ sorted)
    · next given =>
      split
      · next e found =>
        have mem := List.mem_of_find?_eq_some found
        have ap : e.ap = i := by simpa using List.find?_some found
        split
        · next ok =>
          rw [Bool.and_eq_true] at ok
          subst ap
          refine .inl (.admits e mem ok.1 ok.2 fun x hx => ?_)
          have ec : e.cls = m.cls := by
            obtain ⟨-, -, m', hm', mc', -⟩ := (ready_iff e.ap b s e.cls).1 ⟨e, mem, rfl, rfl⟩
            rw [hm] at hm'; cases hm'; exact mc'.symm
          rcases hc with rfl | rfl
          · rw [ec, mc]; exact Nat.zero_le _
          · simp only [mc, decide_true, Bool.true_and, List.any_eq_true, not_exists, not_and,
              decide_eq_true_eq] at given
            have := given x hx
            rw [ec, mc]
            cases hx' : x.cls <;> simp_all [OrderClass.rank]
        · exact .inl .nothing
      · exact .inl .nothing

end Sys2Proof.Machine

end

