-- ==== Sys2Proof/Proofs/Fates.lean ====
section
/-! PROOFS. What the attempts of an event can make of an aperture. -/

namespace Sys2Proof.Machine

open Sys2Proof

variable {i j k : ApId} {b : Branch} {s t u : State}

/-! ### What the attempts of an event make of an aperture (R101 to R107) -/

/-- The record after an admission at uptime `now` on a branch with this inrush window (R102, R113). -/
def Aperture.started (now window : Nat) (a : Aperture) : Aperture :=
  { a with
    state := .starting, startTime := some now, mon := { Monitor.stopped with inrush := some (now + window) } }

@[simp] theorem admitMotion_ap (b : Branch) (i j : ApId) (s : State) : (admitMotion b i s).ap j =
    if i = j then (s.ap i).started s.ds (s.branch b).window else s.ap j :=
  enter_ap i j s _ _

theorem admitMotion_branches (b : Branch) (i : ApId) (s : State) : (admitMotion b i s).branches =
    s.branches.put b { s.branch b with
      lastStart := some s.ds
      gapTimer := if (s.branch b).gap = 0 then none else some (s.ds + (s.branch b).gap)
      reservation := if (s.branch b).reservation = some i then none else (s.branch b).reservation } := by
  simp only [admitMotion, State.modBranch, State.branch, enter_branches, enter_ds]
  rfl

theorem admitMotion_branch (b c : Branch) (i : ApId) (s : State) :
    ((admitMotion b i s).branch c).quiet = (s.branch c).quiet ∧
      ((admitMotion b i s).branch c).late = (s.branch c).late ∧
      ((admitMotion b i s).branch c).limit = (s.branch c).limit ∧
      ((admitMotion b i s).branch c).reservation =
        if b = c ∧ (s.branch b).reservation = some i then none else (s.branch c).reservation := by
  rw [State.branch, admitMotion_branches, Branches.get_put]
  split
  · next eq =>
    subst eq
    by_cases r : (s.branch b).reservation = some i <;> simp [r]
  · next ne => simp [ne, State.branch]

theorem admitMotion_link {m : Motion} (w : (s.ap i).state = .waiting) (hm : (s.ap i).motion = some m) :
    (admitMotion b i s).link = s.link.listMove i m.target := by
  unfold admitMotion; dsimp only
  rw [State.modBranch_link, enter_link, w, hm]
  rfl

/-! ### Warnings that end take no entry its eligibility -/

/-- Passing to a motion state ends a warning only where its zone has no closing left (R127). -/
theorem enter_warnings (i : ApId) (s : State) (st : MotionState) (f : Aperture → Aperture) (z : ZoneId) :
    (enter i st f s).zones.warnings[z] = s.zones.warnings[z] ∨
      ((enter i st f s).zones.warnings[z] = ⟨.idle, none⟩ ∧ (enter i st f s).zoneCloses z = false) := by
  unfold enter; dsimp only
  generalize hv : refreshEntry i _ = v
  have hz : v.zones = s.zones := by
    rw [← hv, refreshEntry_zones]
    split <;> split <;> simp
  rcases refreshWarning_cases i v with h | ⟨y, c, h⟩ <;> rw [h]
  · exact .inl (by rw [hz])
  · rw [State.warnings_setWarning]
    split
    · next e => exact .inr ⟨rfl, e ▸ c⟩
    · exact .inl (by rw [hz])

/-- A closing of its zone: an aperture that waits with a motion that calls for a warning (R126). -/
theorem zoneCloses_of_needsWarning {z : ZoneId} {m : Motion} {warn : Nat} (g : s.governing i = some z)
    (w : (s.ap i).state = .waiting) (hm : (s.ap i).motion = some m) (n : m.needsWarning warn = true) :
    s.zoneCloses z = true := by
  simp only [Motion.needsWarning, Bool.and_eq_true, decide_eq_true_eq] at n
  exact List.any_eq_true.2 ⟨i, List.mem_finRange i, by simp [Aperture.closing, w, hm, n.1.1.2, g]⟩

theorem State.governing_of_desc (h : t.zones.desc = s.zones.desc) (i : ApId) : t.governing i = s.governing i := by
  unfold State.governing; rw [h]

/-- An eligible entry stays so where aperture and branch stand and no warning of a closing zone ends. -/
theorem Ready.transfer {c : OrderClass} (h : Ready s b i c) (ap : t.ap i = s.ap i)
    (desc : t.zones.desc = s.zones.desc)
    (br : (t.branch b).quiet = (s.branch b).quiet ∧ (t.branch b).late = (s.branch b).late ∧
      (t.branch b).limit = (s.branch b).limit)
    (warn : ∀ z : ZoneId, t.zoneCloses z = true → (s.zones.warnings[z]).state = .done →
      (t.zones.warnings[z]).state = .done) : Ready t b i c := by
  obtain ⟨hb, hw, m, hm, hc, q, w, l, f⟩ := (ready_iff i b s c).1 h
  obtain ⟨brq, brl, brm⟩ := br
  refine (ready_iff i b t c).2 ⟨by rw [ap, hb], by rw [ap, hw], m, by rw [ap, hm], hc, by rw [brq, q], ?_,
    by rw [brl]; exact l, by rw [ap, brm]; exact f⟩
  intro z g n
  have g' : s.governing i = some z := by rw [← State.governing_of_desc desc]; exact g
  exact warn z (zoneCloses_of_needsWarning g (by rw [ap, hw]) (by rw [ap, hm]) n) (w z g' (by rw [← desc]; exact n))

/-! ### The fates of apertures -/

/-- What attempts between `s` and `t` made of aperture `j`: it stands with its entries on the lists; or it was started,
and no eligible entry left on its branch ranks before it; or it was halted for an eligible entry of a higher class. -/
inductive Fate (j : ApId) (s t : State) : Prop where
  | stands (ap : t.ap j = s.ap j) (moves : ∀ x, (j, x) ∈ t.link.moveList ↔ (j, x) ∈ s.link.moveList)
      (halts : j ∈ t.link.haltList ↔ j ∈ s.link.haltList)
  | started (m : Motion) (waits : (s.ap j).state = .waiting) (motion : (s.ap j).motion = some m)
      (ap : t.ap j = (s.ap j).started s.ds (s.branch (s.ap j).fix.branch).window)
      (moves : ∀ x, (j, x) ∈ t.link.moveList ↔ x = m.target)
      (first : ∀ i c, Ready t (s.ap j).fix.branch i c → m.cls.rank ≤ c.rank)
  | shed (m : Motion) (driven : (s.ap j).state.driving = true) (motion : (s.ap j).motion = some m)
      (ap : t.ap j = (s.ap j).halted .shed) (halts : j ∈ t.link.haltList) (moves : ∀ x, (j, x) ∉ t.link.moveList)
      (given : ∃ i c, Ready s (s.ap j).fix.branch i c ∧ c.rank < m.cls.rank)

/-- Between `s` and `t` admission attempts ran, and nothing else happened. -/
structure Attempts (s t : State) : Prop where
  frame  : Frame Aperture.keep s t
  fate   : ∀ j, Fate j s t
  ports  : t.ports = s.ports
  halts  : s.link.haltList <+: t.link.haltList
  head   : ∀ m, s.link.moveList.head? = some m → (s.ap m.1).state ≠ .waiting →
    (s.ap m.1).state.driving = false → t.link.moveList.head? = some m
  idle   : s.link.inFlight = none → t.link.inFlight = none
  listed : ∀ j, s.queued j = (s.ap j).member → t.queued j = (t.ap j).member
  ready  : ∀ c j d, Ready t c j d → Ready s c j d

theorem Frame.ds {k : Aperture → Aperture} (h : Frame k s t) : t.ds = s.ds := by unfold State.ds; rw [h.clock]

theorem Frame.sec {k : Aperture → Aperture} (h : Frame k s t) : t.sec = s.sec := by unfold State.sec; rw [h.clock]

theorem Frame.fix {k : Aperture → Aperture} (h : Frame k s t) (hk : ∀ a b, k a = k b → a.plant = b.plant) (i : ApId) :
    (t.ap i).fix = (s.ap i).fix := (plant_fields (hk _ _ (h.aps i))).1

theorem Attempts.fix (h : Attempts s t) (i : ApId) : (t.ap i).fix = (s.ap i).fix := (keep_fields (h.frame.aps i)).1

theorem Fate.refl (j : ApId) (s : State) : Fate j s s := .stands rfl (fun _ => Iff.rfl) Iff.rfl

theorem Attempts.refl (s : State) : Attempts s s :=
  ⟨Frame.refl _ s, fun j => Fate.refl j s, rfl, List.prefix_rfl, fun _ h _ _ => h, id, fun _ => id, fun _ _ _ => id⟩

/-- What was started in an event is not shed in it: nothing eligible ranks before it any more. -/
theorem Fate.trans (h : Attempts s u) (g : Attempts u t) (j : ApId) : Fate j s t := by
  have fix := h.fix j
  rcases h.fate j with ⟨ap, mv, ha⟩ | ⟨m, hw, hm, ap, mv, first⟩ | ⟨m, hd, hm, ap, ha, mv, given⟩ <;>
  rcases g.fate j with ⟨ap', mv', ha'⟩ | ⟨m', hw', hm', ap', mv', first'⟩ | ⟨m', hd', hm', ap', ha', mv', given'⟩
  · exact .stands (ap'.trans ap) (fun x => (mv' x).trans (mv x)) (ha'.trans ha)
  · refine .started m' (ap ▸ hw') (ap ▸ hm') ?_ mv' (by rw [← fix]; exact first')
    rw [ap', ap, h.frame.ds, h.frame.window]
  · refine .shed m' (ap ▸ hd') (ap ▸ hm') (by rw [ap', ap]) ha' mv' ?_
    obtain ⟨i, c, r, lt⟩ := given'
    exact ⟨i, c, h.ready _ i c (fix ▸ r), lt⟩
  · exact .started m hw hm (ap'.trans ap) (fun x => (mv' x).trans (mv x)) fun i c r => first i c (g.ready _ i c r)
  · rw [ap] at hw'; cases hw'
  · rw [ap] at hm'
    obtain ⟨i, c, r, lt⟩ := given'
    cases hm.symm.trans hm'
    exact absurd (first i c (fix ▸ r)) (by omega)
  · exact .shed m hd hm (ap'.trans ap) (ha'.2 ha) (fun x => (mv x) ∘ (mv' x).1) given
  · rw [ap, Aperture.halted, if_pos hd] at hw'; cases hw'
  · rw [ap, Aperture.halted, if_pos hd] at hd'; cases hd'

theorem Attempts.trans (h : Attempts s u) (g : Attempts u t) : Attempts s t where
  frame := h.frame.trans g.frame
  fate := Fate.trans h g
  ports := g.ports.trans h.ports
  halts := h.halts.trans g.halts
  head m e w d := by
    have st : u.ap m.1 = s.ap m.1 := by
      rcases h.fate m.1 with ⟨ap, _, _⟩ | ⟨_, hw, _⟩ | ⟨_, hd, _⟩
      · exact ap
      · exact absurd hw w
      · rw [d] at hd; cases hd
    exact g.head m (h.head m e w d) (by rw [st]; exact w) (by rw [st]; exact d)
  idle := g.idle ∘ h.idle
  listed j := g.listed j ∘ h.listed j
  ready c j d := h.ready c j d ∘ g.ready c j d

end Sys2Proof.Machine

end

