-- ==== Sys2Proof/Proofs/Admissions.lean ====
section
/-! PROOFS. Admissions, sheddings and reservations are attempts (R102, R105, R107). -/

namespace Sys2Proof.Machine

open Sys2Proof

variable {i j k : ApId} {b : Branch} {s t u : State}

/-! ### An admission, a shedding, and a reservation given up, each as attempts (R102, R105, R107) -/

theorem reserve_branch (s : State) (b c : Branch) (r : Option ApId) :
    ((s.reserve b r).branch c).quiet = (s.branch c).quiet ∧ ((s.reserve b r).branch c).late = (s.branch c).late ∧
      ((s.reserve b r).branch c).limit = (s.branch c).limit ∧
      ((s.reserve b r).branch c).reservation = if b = c then r else (s.branch c).reservation := by
  rw [State.reserve, State.branch_modBranch]
  split
  · next e => subst e; simp
  · simp

theorem ready_reserve (s : State) (b c : Branch) (r : Option ApId) (i : ApId) (d : OrderClass) :
    Ready (s.reserve b r) c i d ↔ Ready s c i d := by
  obtain ⟨q, l, m, _⟩ := reserve_branch s b c r
  exact ⟨fun h => h.transfer rfl rfl ⟨q.symm, l.symm, m.symm⟩ fun _ _ h => h,
    fun h => h.transfer rfl rfl ⟨q, l, m⟩ fun _ _ h => h⟩

theorem Attempts.reserve (s : State) (b : Branch) (r : Option ApId) : Attempts s (s.reserve b r) where
  frame := Frame.reserve b r
  fate _ := .stands rfl (fun _ => Iff.rfl) Iff.rfl
  ports := rfl
  halts := List.prefix_rfl
  head _ h _ _ := h
  idle := id
  listed _ := id
  ready c j d := (ready_reserve s b c r j d).1

/-- Every branch's reservation is that of an eligible entry (R107). -/
def AllReserved (s : State) : Prop := ∀ b, Reserved s b

theorem AllReserved.reserve_none (h : AllReserved s) (b : Branch) : AllReserved (s.reserve b none) := by
  intro c i hi
  rw [(reserve_branch s b c none).2.2.2] at hi
  split at hi
  · cases hi
  · obtain ⟨d, hd, r⟩ := h c i hi
    exact ⟨d, hd, (ready_reserve s b c none i d).2 r⟩

/-- A reservation made for an eligible entry stands. -/
theorem AllReserved.reserve_some (h : AllReserved s) {c : OrderClass} (hc : c = .life ∨ c = .weather)
    (r : Ready s b i c) : AllReserved (s.reserve b (some i)) := by
  intro d j hj
  rw [(reserve_branch s b d (some i)).2.2.2] at hj
  split at hj
  · next e => cases hj; subst e; exact ⟨c, hc, (ready_reserve s b b _ i c).2 r⟩
  · obtain ⟨e, he, q⟩ := h d j hj
    exact ⟨e, he, (ready_reserve s b d _ j e).2 q⟩

theorem admitMotion_desc (b : Branch) (i : ApId) (s : State) :
    (admitMotion b i s).zones.desc = s.zones.desc := (admit_frame i b s).desc

theorem admitMotion_warnings (b : Branch) (i : ApId) (s : State) (z : ZoneId) :
    (admitMotion b i s).zones.warnings[z] = s.zones.warnings[z] ∨
      ((admitMotion b i s).zones.warnings[z] = ⟨.idle, none⟩ ∧ (admitMotion b i s).zoneCloses z = false) :=
  enter_warnings i s _ _ z

/-- The other entries stay eligible at an admission, and none becomes so. -/
theorem ready_admitMotion (b c : Branch) (i j : ApId) (d : OrderClass) :
    Ready (admitMotion b i s) c j d ↔ Ready s c j d ∧ i ≠ j := by
  obtain ⟨q, l, m, _⟩ := admitMotion_branch b c i s
  by_cases e : i = j
  · subst e
    refine iff_of_false (fun h => ?_) fun h => h.2 rfl
    obtain ⟨_, w, _⟩ := (ready_iff _ _ _ _).1 h
    rw [admitMotion_ap, if_pos rfl] at w
    cases w
  · have ap : (admitMotion b i s).ap j = s.ap j := by rw [admitMotion_ap, if_neg e]
    refine ⟨fun h => ⟨h.transfer ap.symm (admitMotion_desc b i s).symm ⟨q.symm, l.symm, m.symm⟩ ?_, e⟩,
      fun h => h.1.transfer ap (admitMotion_desc b i s) ⟨q, l, m⟩ ?_⟩
    · intro z _ done
      rcases admitMotion_warnings b i s z with w | ⟨w, _⟩ <;> rw [w] at done
      · exact done
      · cases done
    · intro z closes done
      rcases admitMotion_warnings b i s z with w | ⟨_, w⟩
      · rw [w]; exact done
      · rw [closes] at w; cases w

theorem Link.listMove_moves (l : Link) (i j : ApId) (t x : Nat) :
    (j, x) ∈ (l.listMove i t).moveList ↔ if i = j then x = t else (j, x) ∈ l.moveList := by
  by_cases e : i = j
  · subst e; simp
  · simp [e, Ne.symm e]

theorem head?_filter {α : Type} {l : List α} {m : α} {f : α → Bool} (h : l.head? = some m) (hf : f m = true) :
    (l.filter f).head? = some m := by
  cases l with
  | nil => cases h
  | cons x xs => cases h; simp [hf]

theorem admitMotion_queued (b : Branch) (i j : ApId) (s : State) : (admitMotion b i s).queued j =
    if i = j then ((admitMotion b i s).ap i).member else s.queued j := by
  change (enter i .starting (fun a => { a with
      startTime := some s.ds
      mon := { Monitor.stopped with inrush := some (s.ds + (s.branch b).window) } }) s).queued j = _
  rw [enter_queued, admitMotion_ap, if_pos rfl]
  rfl

/-- Aperture `i` is admitted on its branch, no eligible entry there ranking before it. -/
theorem Attempts.admission {m : Motion} (hb : (s.ap i).fix.branch = b) (w : (s.ap i).state = .waiting)
    (hm : (s.ap i).motion = some m) (first : ∀ j c, Ready s b j c → m.cls.rank ≤ c.rank) :
    Attempts s (admitMotion b i s) where
  frame := admit_frame i b s
  fate j := by
    have link := admitMotion_link (b := b) w hm
    by_cases e : i = j
    · subst e
      refine .started m w hm (by rw [admitMotion_ap, if_pos rfl, hb]) (fun x => ?_) fun j c r => ?_
      · rw [link, Link.listMove_moves, if_pos rfl]
      · exact first j c (hb ▸ ((ready_admitMotion b _ i j c).1 r).1)
    · refine .stands (by rw [admitMotion_ap, if_neg e]) (fun x => ?_) ?_
      · rw [link, Link.listMove_moves, if_neg e]
      · rw [link]; rfl
  ports := enter_ports i s _ _
  halts := by rw [admitMotion_link w hm]; exact List.prefix_rfl
  head x h n _ := by
    rw [admitMotion_link w hm, Link.listMove_moveList]
    have ne : x.1 ≠ i := fun e => n (e ▸ w)
    rw [List.head?_append, head?_filter h (by simp [ne])]
    rfl
  idle h := by rw [admitMotion_link w hm]; simp [Link.listMove, Link.forgetMove, h]
  listed j q := by
    rw [admitMotion_queued]
    split
    · next e => rw [e]
    · next e => rw [admitMotion_ap, if_neg e]; exact q
  ready c j d h := ((ready_admitMotion b c i j d).1 h).1

theorem AllReserved.admission (h : AllReserved s) (hb : (s.ap i).fix.branch = b) : AllReserved (admitMotion b i s) := by
  intro c j hj
  rw [(admitMotion_branch b c i s).2.2.2] at hj
  split at hj
  · cases hj
  · next free =>
    obtain ⟨d, hd, r⟩ := h c j hj
    refine ⟨d, hd, (ready_admitMotion b c i j d).2 ⟨r, fun e => ?_⟩⟩
    subst e
    have hc : b = c := hb.symm.trans ((ready_iff _ _ _ _).1 r).1
    exact free ⟨hc, hc ▸ hj⟩

/-! A shedding halts its victims one after another. -/

theorem halt_desc (i : ApId) (c : HaltCause) (s : State) : (halt i c s).zones.desc = s.zones.desc :=
  (halt_frame i s c).desc

theorem halt_warnings (i : ApId) (c : HaltCause) (s : State) (z : ZoneId) :
    (halt i c s).zones.warnings[z] = s.zones.warnings[z] ∨
      ((halt i c s).zones.warnings[z] = ⟨.idle, none⟩ ∧ (halt i c s).zoneCloses z = false) := by
  unfold halt
  split
  · exact enter_warnings i s _ _ z
  · exact .inl rfl

theorem halt_branch (i : ApId) (c : HaltCause) (s : State) (b : Branch) : (halt i c s).branch b = s.branch b := by
  unfold State.branch; rw [(halt_local i s c).branches]

/-- A halt leaves the eligible entries as they are. -/
theorem ready_halt (c : HaltCause) (b : Branch) (d : OrderClass) : Ready (halt i c s) b j d ↔ Ready s b j d := by
  have br := halt_branch i c s b
  have ap : (s.ap j).state = .waiting → (halt i c s).ap j = s.ap j := by
    intro w
    rw [halt_ap]
    split
    · next e => subst e; rw [Aperture.halted, if_neg (by rw [w]; decide)]
    · rfl
  constructor
  · intro h
    have w := ((ready_iff _ _ _ _).1 h).2.1
    have ap' : (halt i c s).ap j = s.ap j := by
      by_cases e : i = j
      · subst e
        rw [halt_ap, if_pos rfl] at w ⊢
        unfold Aperture.halted at w ⊢
        split at w
        · cases w
        · rw [if_neg ‹_›]
      · rw [halt_ap, if_neg e]
    refine h.transfer ap'.symm (halt_desc i c s).symm (by rw [br]; exact ⟨rfl, rfl, rfl⟩) fun z _ done => ?_
    rcases halt_warnings i c s z with g | ⟨g, _⟩ <;> rw [g] at done
    · exact done
    · cases done
  · intro h
    have w := ((ready_iff _ _ _ _).1 h).2.1
    refine h.transfer (ap w) (halt_desc i c s) (by rw [br]; exact ⟨rfl, rfl, rfl⟩) fun z closes done => ?_
    rcases halt_warnings i c s z with g | ⟨_, g⟩
    · rw [g]; exact done
    · rw [closes] at g; cases g

/-- A driven aperture is halted for an eligible entry of a higher class. -/
theorem attempts_halt {m : Motion} {c : OrderClass} (hb : (s.ap i).fix.branch = b)
    (hm : (s.ap i).motion = some m) (r : Ready s b k c) (lt : c.rank < m.cls.rank) :
    Attempts s (halt i .shed s) := by
  by_cases d : (s.ap i).state.driving = true
  · have link : (halt i .shed s).link = (enter i .stopping (fun a => { a with
        mon := { Monitor.stopped with haltCause := some .shed } }) s).link.listHalt i := by
      unfold Machine.halt; rw [if_pos d]
    rw [enter_link] at link
    have loc := halt_local i s .shed
    refine
      { frame := halt_frame i s _, fate := fun j => ?_, ports := loc.ports, halts := ?_, head := ?_, idle := ?_
        listed := fun j => ?_, ready := fun b j d => (ready_halt _ b d).1 }
    · by_cases e : i = j
      · subst e
        refine .shed m d hm (by rw [halt_ap, if_pos rfl]) ?_ (fun x => ?_) ⟨k, c, hb ▸ r, lt⟩
        · rw [link]; exact Link.mem_listHalt i _
        · rw [link]; simp
      · exact .stands (by rw [halt_ap, if_neg e]) (fun x => loc.moves j x e) (loc.halts j e)
    · rw [link]
      unfold Link.listHalt; dsimp only
      have : ∀ l : List ApId, l <+: if i ∈ l then l else l ++ [i] := fun l => by
        split
        · exact List.prefix_rfl
        · exact List.prefix_append _ _
      split <;> exact this _
    · intro x h _ nd
      rw [link, Link.listHalt_moveList]
      have ne : x.1 ≠ i := fun e => by rw [e, d] at nd; cases nd
      refine head?_filter ?_ (by simp [ne])
      split
      · exact head?_filter h (by simp [ne])
      · exact h
    · intro h
      rw [link]
      split <;> simp [Link.listHalt, Link.withdrawMove, Link.forgetMove, h]
    · by_cases e : i = j
      · subst e; exact loc.listed
      · rw [loc.queued j e, halt_ap, if_neg e]; exact id
  · have : halt i .shed s = s := if_neg d
    rw [this]; exact Attempts.refl s

theorem allReserved_halt (h : AllReserved s) (i : ApId) (c : HaltCause) : AllReserved (halt i c s) := by
  intro b j hj
  rw [halt_branch] at hj
  obtain ⟨d, hd, r⟩ := h b j hj
  exact ⟨d, hd, (ready_halt c b d).2 r⟩

end Sys2Proof.Machine

end

