-- ==== Sys2Proof/Proofs/OwedAttempts.lean ====
section
/-! PROOFS. The owed attempts of an event (R101). -/

namespace Sys2Proof.Machine

open Sys2Proof

variable {i j k : ApId} {b : Branch} {s t u : State}

/-! ### The attempts of an event (R101) -/

/-- The victims of a shedding are halted for an eligible entry of a higher class (R105). -/
theorem attempts_sheds {c : OrderClass} (h : AllReserved s) (r : Ready s b k c) (vs : List ApId)
    (hv : ∀ v ∈ vs, (s.ap v).fix.branch = b ∧ ∃ m, (s.ap v).motion = some m ∧ c.rank < m.cls.rank) :
    Attempts s (vs.foldl (fun s' i => halt i .shed s') s) ∧ AllReserved (vs.foldl (fun s' i => halt i .shed s') s) ∧
      Ready (vs.foldl (fun s' i => halt i .shed s') s) b k c := by
  induction vs generalizing s with
  | nil => exact ⟨Attempts.refl s, h, r⟩
  | cons v vs ih =>
    obtain ⟨hb, m, hm, lt⟩ := hv v (by simp)
    obtain ⟨h1, h2, h3⟩ := ih (allReserved_halt h v .shed) ((ready_halt .shed b c).2 r) fun x hx => by
      obtain ⟨xb, n, xm, xlt⟩ := hv x (by simp [hx])
      have kept : ((halt v .shed s).ap x).fix = (s.ap x).fix ∧ ((halt v .shed s).ap x).motion = (s.ap x).motion := by
        rw [halt_ap]
        split
        · next e => subst e; unfold Aperture.halted; split <;> exact ⟨rfl, rfl⟩
        · exact ⟨rfl, rfl⟩
      exact ⟨by rw [kept.1, xb], n, by rw [kept.2, xm], xlt⟩
    exact ⟨(attempts_halt hb hm r lt).trans h1, h2, h3⟩

/-- Every outcome on the eligible entries is made of attempts and keeps the reservations those of eligible entries. -/
theorem Outcome.attempts {x : State × Bool} (o : Outcome b (candidatesOf s b) s x) (h : AllReserved s) :
    Attempts s x.1 ∧ AllReserved x.1 := by
  cases o with
  | nothing => exact ⟨Attempts.refl s, h⟩
  | admits e mem _ _ first =>
    obtain ⟨hb, w, m, hm, mc, -⟩ := (ready_iff e.ap b s e.cls).1 ⟨e, mem, rfl, rfl⟩
    refine ⟨Attempts.admission hb w hm fun j c r => ?_, h.admission hb⟩
    obtain ⟨y, hy, rfl, rfl⟩ := r
    rw [mc]; exact first y hy
  | sheds e mem cls vs take =>
    have r : Ready s b e.ap e.cls := ⟨e, mem, rfl, rfl⟩
    obtain ⟨h1, h2, h3⟩ := attempts_sheds h r vs fun v hv => by
      obtain ⟨hb, _, m⟩ := of_mem_victims v b s take hv
      exact ⟨hb, m⟩
    exact ⟨h1.trans (Attempts.reserve _ b _), h2.reserve_some cls h3⟩

/-- What is eligible does not depend on a reservation. -/
theorem candidatesOf_reserve (s : State) (b : Branch) : candidatesOf (s.reserve b none) b = candidatesOf s b := by
  unfold candidatesOf
  have w : waitList (s.reserve b none) b = waitList s b := rfl
  rw [w]
  congr 1; funext e
  obtain ⟨q, l, m, _⟩ := reserve_branch s b b none
  simp only [standingOf_eligible, awaitsPlan, unfit, q, l, m]
  rfl

theorem attempt_attempts (h : AllReserved s) : Attempts s (attempt b s).1 ∧ AllReserved (attempt b s).1 := by
  rcases attempt_outcome b s (h b) with o | o
  · exact o.attempts h
  · rw [← candidatesOf_reserve] at o
    obtain ⟨h1, h2⟩ := o.attempts (h.reserve_none b)
    exact ⟨(Attempts.reserve s b none).trans h1, h2⟩

/-- A change of nothing that aperture records, link, ports, queue and eligibility show is no attempt. -/
theorem Attempts.silent (frame : Frame Aperture.keep s t) (aps : t.aps = s.aps) (link : t.link = s.link)
    (ports : t.ports = s.ports) (queue : ∀ j, t.queued j = s.queued j) (zones : t.zones = s.zones)
    (br : ∀ b, (t.branch b).quiet = (s.branch b).quiet ∧ (t.branch b).late = (s.branch b).late ∧
      (t.branch b).limit = (s.branch b).limit) : Attempts s t where
  frame := frame
  fate j := .stands (State.ap_of_aps aps j) (fun x => by rw [link]) (by rw [link])
  ports := ports
  halts := by rw [link]
  head m h _ _ := by rw [link]; exact h
  idle h := by rw [link]; exact h
  listed j h := by rw [queue, State.ap_of_aps aps]; exact h
  ready c j d h := h.transfer (State.ap_of_aps aps j).symm (by rw [zones])
    ⟨(br c).1.symm, (br c).2.1.symm, (br c).2.2.symm⟩ fun z _ e => by rw [zones] at e; exact e

section
variable {P : State → State → Prop} (refl : ∀ s, P s s) (trans : ∀ s u t, P s u → P u t → P s t)
  (one : ∀ s b, AllReserved s → P s (attempt b s).1)
include refl trans one

/-- What holds of one attempt holds of attempts that follow one another on a branch. -/
theorem runAttempts_along (h : AllReserved s) (b : Branch) (n : Nat) :
    P s (runAttempts b n s) ∧ AllReserved (runAttempts b n s) := by
  induction n generalizing s with
  | zero => exact ⟨refl s, h⟩
  | succ n ih =>
    have h1 := one s b h
    have h2 := (attempt_attempts (b := b) h).2
    unfold runAttempts
    split
    · next s' e => rw [e] at h1 h2; exact ⟨trans _ _ _ h1 (ih h2).1, (ih h2).2⟩
    · next s' e => rw [e] at h1 h2; exact ⟨h1, h2⟩

/-- What holds of one attempt holds of the attempts of an event (R101). -/
theorem settleAttempts_along (clear : ∀ s : State, P s { s with owed := [] }) (h : AllReserved s) :
    P s (settleAttempts s) := by
  have run : ∀ (l : List Branch) (s : State), AllReserved s →
      P s (l.foldl (fun s' b => if b ∈ s'.owed then runAttempts b (attemptBound s' b) s' else s') s) := by
    intro l
    induction l with
    | nil => exact fun s _ => refl s
    | cons b l ih =>
      intro s h
      simp only [List.foldl_cons]
      split
      · obtain ⟨h1, h2⟩ := runAttempts_along refl trans one h b (attemptBound s b)
        exact trans _ _ _ h1 (ih _ h2)
      · exact ih s h
  exact trans _ _ _ (run allBranches s h) (clear _)

end

/-- The owed attempts are attempts. -/
theorem settleAttempts_attempts (h : AllReserved s) : Attempts s (settleAttempts s) :=
  settleAttempts_along Attempts.refl (fun _ _ _ => Attempts.trans) (fun _ _ h => (attempt_attempts h).1)
    (fun v => Attempts.silent { Frame.refl _ v with } rfl rfl rfl (fun _ => rfl) rfl fun _ => ⟨rfl, rfl, rfl⟩) h

end Sys2Proof.Machine

end

