-- ==== Sys2Proof/Proofs/EventEnd.lean ====
section
/-! PROOFS. The end of an event: bookkeeping, then attempts (R86, R101, R107, R109). -/

namespace Sys2Proof.Machine

open Sys2Proof

variable {i j k : ApId} {b : Branch} {s t u : State}

/-! ### The end of an event (R86, R101, R107, R109) -/

/-- What the end of an event made of aperture `j`: it stands with its entries on the lists, or was started, or shed. -/
inductive Ending (j : ApId) (s t : State) : Prop where
  | stands (ap : t.ap j = s.ap j) (moves : ∀ x, (j, x) ∈ t.link.moveList ↔ (j, x) ∈ s.link.moveList)
      (halts : j ∈ t.link.haltList ↔ j ∈ s.link.haltList)
  | started (m : Motion) (waits : (s.ap j).state = .waiting) (motion : (s.ap j).motion = some m)
      (ap : t.ap j = (s.ap j).started s.ds (s.branch (s.ap j).fix.branch).window)
  | shed (driven : (s.ap j).state.driving = true) (ap : t.ap j = (s.ap j).halted .shed)

/-- From `s` to `t` an event came to its end: notices and queue marks, and admission attempts. -/
structure Ended (s t : State) : Prop where
  frame  : Frame Aperture.keep s t
  ending : ∀ j, Ending j s t
  halts  : s.link.haltList <+: t.link.haltList
  head   : ∀ m, s.link.moveList.head? = some m → (s.ap m.1).state ≠ .waiting →
    (s.ap m.1).state.driving = false → t.link.moveList.head? = some m
  idle   : s.link.inFlight = none → t.link.inFlight = none
  listed : ∀ j, s.queued j = (s.ap j).member → t.queued j = (t.ap j).member

/-- Between `s` and `t` only bookkeeping moved: notices, late marks, reservations and owed attempts. -/
structure Calm (s t : State) : Prop where
  frame  : Frame Aperture.keep s t
  aps    : t.aps = s.aps
  link   : t.link = s.link
  queued : ∀ j, t.queued j = s.queued j

theorem Calm.refl (s : State) : Calm s s := ⟨Frame.refl _ s, rfl, rfl, fun _ => rfl⟩

theorem Calm.trans (h : Calm s u) (g : Calm u t) : Calm s t :=
  ⟨h.frame.trans g.frame, g.aps.trans h.aps, g.link.trans h.link, fun j => (g.queued j).trans (h.queued j)⟩

theorem Calm.foldl {α : Type} {f : State → α → State} (h : ∀ s x, Calm s (f s x)) (l : List α) (s : State) :
    Calm s (l.foldl f s) := by
  induction l generalizing s with
  | nil => exact Calm.refl s
  | cons x xs ih => exact (h s x).trans (ih _)

theorem Calm.notify (s : State) (ps : List Port) (n : NoticeBody) : Calm s (s.notify ps n) := by
  obtain ⟨x, h⟩ := State.notify_rest (s := s) ps n
  exact ⟨Frame.notify ps n, by rw [h], by rw [h], fun j => by rw [h]; rfl⟩

theorem Calm.owe (s : State) (b : Branch) : Calm s (s.owe b) :=
  ⟨Frame.owe b, State.owe_aps s b, State.owe_link s b, fun j => by simp [State.queued]⟩

theorem Calm.reserve (s : State) (b : Branch) (r : Option ApId) : Calm s (s.reserve b r) :=
  ⟨Frame.reserve b r, rfl, rfl, fun _ => rfl⟩

/-- The LATE marks of a branch's recomputation leave every entry in its place. -/
theorem projectBranch_calm (b : Branch) (s : State) : Calm s (projectBranch s b) := by
  have mark : ∀ (f : Entry → Entry) (g : BranchRec → BranchRec), (∀ e, (f e).ap = e.ap) →
      ((g (s.branch b)).limit = (s.branch b).limit ∧ (g (s.branch b)).window = (s.branch b).window ∧
        (g (s.branch b)).gap = (s.branch b).gap) →
      Calm s ((s.setQueue (s.sup.queue.map f)).modBranch b g) := fun f g hf hg =>
    { frame := (Frame.setQueue _).trans (Frame.modBranch b g hg), aps := rfl, link := rfl
      queued := fun j => by
        simp only [State.queued, State.modBranch_sup, State.setQueue_queue, List.any_map, Function.comp_def, hf] }
  unfold projectBranch; dsimp only
  split
  · exact (mark _ _ (fun e => by split <;> rfl) ⟨rfl, rfl, rfl⟩).trans (Calm.notify _ _ _)
  · exact ((mark _ _ (fun e => by split <;> rfl) ⟨rfl, rfl, rfl⟩).trans (Calm.notify _ _ _)).trans (Calm.owe _ _)
  · exact mark _ _ (fun e => by split <;> rfl) ⟨rfl, rfl, rfl⟩

theorem checkReservation_cases (s : State) (b : Branch) :
    checkReservation s b = s ∨ checkReservation s b = (s.reserve b none).owe b := by
  unfold checkReservation
  split
  · exact .inl rfl
  · split
    · split
      · exact .inl rfl
      · exact .inr rfl
    · exact .inr rfl

theorem ready_owe (s : State) (b c : Branch) (i : ApId) (d : OrderClass) :
    Ready (s.owe b) c i d ↔ Ready s c i d := by
  have br : (s.owe b).branch c = s.branch c := by unfold State.branch; rw [State.owe_branches]
  have ap := State.owe_ap i b s
  exact ⟨fun h => h.transfer ap.symm (by rw [State.owe_zones]) (by rw [br]; exact ⟨rfl, rfl, rfl⟩)
      fun z _ e => by rw [State.owe_zones] at e; exact e,
    fun h => h.transfer ap (by rw [State.owe_zones]) (by rw [br]; exact ⟨rfl, rfl, rfl⟩)
      fun z _ e => by rw [State.owe_zones]; exact e⟩

theorem reserved_owe (h : Reserved s b) (c : Branch) : Reserved (s.owe c) b := by
  intro i hi
  have br : (s.owe c).branch b = s.branch b := by unfold State.branch; rw [State.owe_branches]
  rw [br] at hi
  obtain ⟨d, hd, r⟩ := h i hi
  exact ⟨d, hd, (ready_owe s c b i d).2 r⟩

theorem reserved_reserve_none (h : Reserved s b) (c : Branch) : Reserved (s.reserve c none) b := by
  intro i hi
  rw [(reserve_branch s c b none).2.2.2] at hi
  split at hi
  · cases hi
  · obtain ⟨d, hd, r⟩ := h i hi
    exact ⟨d, hd, (ready_reserve s c b none i d).2 r⟩

/-- The test of a branch's reservation leaves one that stands, or none, and the other branches theirs (R107). -/
theorem checkReservation_reserved (s : State) (b : Branch) : Reserved (checkReservation s b) b := by
  intro i hi
  obtain ⟨same, e, mem, ap, cls, el⟩ := checkReservation_stands i b s hi
  rw [same]
  exact ⟨e.cls, cls, e, List.mem_filter.2 ⟨mem, decide_eq_true el⟩, ap, rfl⟩

theorem reserved_checkReservation (h : Reserved s b) (c : Branch) : Reserved (checkReservation s c) b := by
  rcases checkReservation_cases s c with e | e <;> rw [e]
  · exact h
  · exact reserved_owe (reserved_reserve_none h c) c

theorem reserved_checkReservations (l : List Branch) (h : Reserved s b) : Reserved (l.foldl checkReservation s) b := by
  induction l generalizing s with
  | nil => exact h
  | cons c l ih => rw [List.foldl_cons]; exact ih (reserved_checkReservation h c)

theorem checkReservations_reserved (l : List Branch) (s : State) (h : b ∈ l) :
    Reserved (l.foldl checkReservation s) b := by
  induction l generalizing s with
  | nil => cases h
  | cons c l ih =>
    rw [List.foldl_cons]
    rcases List.mem_cons.1 h with rfl | h
    · exact reserved_checkReservations l (checkReservation_reserved s b)
    · exact ih (checkReservation s c) h

theorem mem_allBranches (b : Branch) : b ∈ allBranches := by cases b <;> decide

theorem checkReservations_allReserved (s : State) : AllReserved (allBranches.foldl checkReservation s) :=
  fun b => checkReservations_reserved allBranches s (mem_allBranches b)

theorem oweMoves_calm (s0 s : State) (b : Branch) : Calm s (oweMoves s0 s b) := by
  unfold oweMoves
  split
  · exact Calm.refl s
  · exact Calm.owe s b

theorem checkReservation_calm (s : State) (b : Branch) : Calm s (checkReservation s b) := by
  rcases checkReservation_cases s b with e | e <;> rw [e]
  · exact Calm.refl s
  · exact (Calm.reserve s b none).trans (Calm.owe _ b)

theorem oweMoves_allReserved (s0 : State) (l : List Branch) (h : AllReserved s) :
    AllReserved (l.foldl (oweMoves s0) s) := by
  induction l generalizing s with
  | nil => exact h
  | cons b l ih =>
    refine ih ?_
    unfold oweMoves
    split
    · exact h
    · exact fun c => reserved_owe (h c) b

theorem countChange_calm (s0 s : State) : Calm s (countChange s0 s) := by
  unfold countChange
  split
  · exact Calm.refl s
  · exact ⟨{ Frame.refl _ s with sup := rfl }, rfl, rfl, fun _ => rfl⟩

/-- The end of an event is bookkeeping, and then attempts with every reservation that of an eligible entry. -/
theorem finish_cases (update : Bool) (s0 s : State) :
    ∃ v, Calm s v ∧ AllReserved v ∧ finish update s0 s = settleAttempts v := by
  unfold finish; dsimp only
  generalize hp : (if (update || decide (s.sup.queue ≠ s0.sup.queue)) = true then project s else s) = p
  have c1 : Calm s p := by
    rw [← hp]
    split
    · exact Calm.foldl (fun s' c => projectBranch_calm c s') _ s
    · exact Calm.refl s
  have c2 := c1.trans (countChange_calm s0 p)
  have c3 := c2.trans (Calm.foldl checkReservation_calm allBranches _)
  have c4 := c3.trans (Calm.foldl (oweMoves_calm s0) allBranches _)
  have r := oweMoves_allReserved s0 allBranches (checkReservations_allReserved (countChange s0 p))
  generalize allBranches.foldl (oweMoves s0) (allBranches.foldl checkReservation (countChange s0 p)) = v at c4 r
  exact ⟨v.draw, c4.trans ⟨Frame.draw, rfl, rfl, fun _ => rfl⟩, r, rfl⟩

theorem finish_ended (update : Bool) (s0 s : State) : Ended s (finish update s0 s) := by
  obtain ⟨v, c, r, e⟩ := finish_cases update s0 s
  rw [e]
  have a := settleAttempts_attempts r
  have ap : ∀ j, v.ap j = s.ap j := State.ap_of_aps c.aps
  refine
    { frame := c.frame.trans a.frame, ending := fun j => ?_, halts := by rw [← c.link]; exact a.halts
      head := fun m h w d => a.head m (by rw [c.link]; exact h) (by rw [ap]; exact w) (by rw [ap]; exact d)
      idle := fun h => a.idle (by rw [c.link]; exact h)
      listed := fun j h => a.listed j (by rw [c.queued, ap]; exact h) }
  rcases a.fate j with ⟨e, mv, ha⟩ | ⟨m, hw, hm, e, _, _⟩ | ⟨m, hd, hm, e, _, _, _⟩
  · exact .stands (by rw [e, ap]) (fun x => by rw [mv, c.link]) (by rw [ha, c.link])
  · exact .started m (ap j ▸ hw) (ap j ▸ hm) (by rw [e, ap, c.frame.ds, c.frame.window])
  · exact .shed (ap j ▸ hd) (by rw [e, ap])

end Sys2Proof.Machine

end

