-- ==== Sys2Proof/Proofs/Invariants.lean ====
section
/-! PROOFS. The invariants of branch current, effective target and position, and the motions that keep them. -/

namespace Sys2Proof.Machine

open Sys2Proof

variable {i j k : ApId} {b : Branch} {s t u : State}

/-! ### The three invariants of the Aperture Table, and what keeps them (R8, R9, R24, R94) -/

/-- The motion states in which no position is known (R8). -/
def MotionState.blind : MotionState → Bool
  | .absent | .unknown | .offline => true
  | .rest | .waiting | .starting | .running | .stopping | .settling | .retryWait | .fault => false

/-- From `s` to `t` every branch stayed within its limit, every effective target with its slate, and every position
known exactly where it should be. -/
structure Upholds (s t : State) : Prop where
  current : s.CurrentBounded → t.CurrentBounded
  targets : s.TargetsDerived → t.TargetsDerived
  known   : s.PositionsKnown → t.PositionsKnown

theorem Upholds.refl (s : State) : Upholds s s := ⟨id, id, id⟩

theorem Upholds.trans (h : Upholds s u) (g : Upholds u t) : Upholds s t :=
  ⟨g.current ∘ h.current, g.targets ∘ h.targets, g.known ∘ h.known⟩

theorem positionsKnown_iff (s : State) :
    s.PositionsKnown ↔ ∀ i, (s.ap i).position.isNone = (s.ap i).state.blind := by
  refine forall_congr' fun i => ?_
  cases (s.ap i).state <;> cases (s.ap i).position <;> simp [MotionState.blind]

/-- A change after which no aperture contributes more to its branch keeps every branch within its limit (R94). -/
theorem currentBounded_of_le (h : s.CurrentBounded) (fix : ∀ i, (t.ap i).fix = (s.ap i).fix)
    (limit : ∀ b, (t.branch b).limit = (s.branch b).limit)
    (le : ∀ i, (s.ap i).fix.run ≤ (s.ap i).fix.inrush → (t.ap i).contribution ≤ (s.ap i).contribution) :
    t.CurrentBounded := by
  obtain ⟨bound, run⟩ := h
  refine ⟨fun b => ?_, fun i => by rw [fix]; exact run i⟩
  have same : t.onBranch b = s.onBranch b := by simp only [State.onBranch, fix]
  rw [limit]
  refine le_trans ?_ (bound b)
  rw [State.committed, State.committed, same]
  exact List.sum_le_sum fun i _ => le i (run i)

/-- A motion operation on aperture `i` that leaves it no more current and its position known as it was. -/
theorem Upholds.motion {a : Aperture} (f : Frame Aperture.keep s t) (w : Writes i s t a)
    (st : a.state.blind = (s.ap i).state.blind)
    (le : (s.ap i).fix.run ≤ (s.ap i).fix.inrush → a.contribution ≤ (s.ap i).contribution) : Upholds s t where
  current h := currentBounded_of_le h (fun j => (keep_fields (f.aps j)).1) f.limit fun j r => by
    rw [w j]
    split
    · next e => subst e; exact le r
    · exact le_rfl
  targets h j := by
    obtain ⟨_, _, sl, et, ec, _⟩ := keep_fields (f.aps j)
    rw [sl, et, ec]; exact h j
  known h := (positionsKnown_iff t).2 fun j => by
    rw [(keep_fields (f.aps j)).2.1, (positionsKnown_iff s).1 h j, w j]
    split
    · next e => subst e; exact st.symm
    · rfl

/-- A change of no aperture record and no limit. -/
theorem Upholds.elsewhere (aps : t.aps = s.aps) (limit : ∀ b, (t.branch b).limit = (s.branch b).limit) :
    Upholds s t := by
  have ap := State.ap_of_aps aps
  exact ⟨fun h => currentBounded_of_le h (fun j => by rw [ap]) limit fun j _ => by rw [ap], fun h j => by rw [ap]; exact h j,
    fun h j => by rw [ap]; exact h j⟩

/-- An aperture whose orders are written anew, and derived, with motion and position as they were or left less current. -/
theorem Upholds.orders {a : Aperture} (w : Writes i s t a) (fix : a.fix = (s.ap i).fix)
    (limit : ∀ b, (t.branch b).limit = (s.branch b).limit)
    (eff : a.effTarget = a.slate.top.map (fun x => x.2.target) ∧ a.effClass = a.slate.top.map (fun x => x.1))
    (pos : a.position = (s.ap i).position) (st : a.state.blind = (s.ap i).state.blind)
    (le : (s.ap i).fix.run ≤ (s.ap i).fix.inrush → a.contribution ≤ (s.ap i).contribution) : Upholds s t where
  current h := currentBounded_of_le h (fun j => by
      rw [w j]
      split
      · next e => subst e; exact fix
      · rfl) limit fun j r => by
    rw [w j]
    split
    · next e => subst e; exact le r
    · exact le_rfl
  targets h j := by
    rw [w j]
    split
    · exact eff
    · exact h j
  known h := (positionsKnown_iff t).2 fun j => by
    have := (positionsKnown_iff s).1 h
    rw [w j]
    split
    · next e => subst e; rw [pos, st]; exact this i
    · exact this j

/-! ### The motion operations -/

theorem contribution_le_inrush (a : Aperture) (h : a.fix.run ≤ a.fix.inrush) (d : a.state.driving = true) :
    a.fix.run ≤ a.contribution := by
  cases e : a.state <;> simp_all [MotionState.driving, Aperture.contribution]

theorem judged_state (a : Aperture) (now : Nat) :
    (a.judged now).state = a.state ∨ a.state = .rest ∧ (a.judged now).state = .waiting := by
  unfold Aperture.judged
  split
  · split
    · next h => simp only [Bool.and_eq_true, decide_eq_true_eq] at h; exact .inr ⟨h.1, rfl⟩
    · exact .inl rfl
  · exact .inl rfl

theorem rested_state (a : Aperture) (now : Nat) : (a.rested now).state = .rest ∨ (a.rested now).state = .waiting :=
  (judged_state _ now).imp id And.right

/-- An aperture that passed through REST contributes nothing (R94, R95). -/
theorem rested_contribution (a : Aperture) (now : Nat) : (a.rested now).contribution = 0 := by
  rcases rested_state a now with h | h <;> simp [Aperture.contribution, h]

theorem rested_blind (a : Aperture) (now : Nat) : (a.rested now).state.blind = false := by
  rcases rested_state a now with h | h <;> rw [h] <;> rfl

theorem judged_contribution (a : Aperture) (now : Nat) : (a.judged now).contribution = a.contribution := by
  unfold Aperture.judged
  split
  · split
    · next h =>
      simp only [Bool.and_eq_true, decide_eq_true_eq] at h
      simp [Aperture.contribution, Aperture.waited, h.1]
    · rfl
  · rfl

theorem judged_blind (a : Aperture) (now : Nat) : (a.judged now).state.blind = a.state.blind := by
  rcases judged_state a now with h | ⟨h, g⟩
  · rw [h]
  · rw [h, g]; rfl

theorem halted_contribution (a : Aperture) (c : HaltCause) (h : a.fix.run ≤ a.fix.inrush) :
    (a.halted c).contribution ≤ a.contribution := by
  unfold Aperture.halted
  split
  · next d => exact contribution_le_inrush a h d
  · exact le_rfl

theorem halted_blind (a : Aperture) (c : HaltCause) : (a.halted c).state.blind = a.state.blind := by
  unfold Aperture.halted
  split
  · next d => cases e : a.state <;> simp_all [MotionState.driving, MotionState.blind]
  · rfl

/-- R118 leaves a driven aperture as it was, retargeted, or halted. -/
theorem steered_cases (a : Aperture) :
    a.steered = a ∨ (∃ t, a.steered = a.retargeted t) ∨ a.steered = a.halted .target := by
  unfold Aperture.steered
  split
  · exact .inl rfl
  · split
    · split
      · exact .inl rfl
      · exact .inr ((ite_eq_or_eq _ _ _).imp (fun e => ⟨_, e⟩) id)
    · exact .inr (.inr rfl)
    · split
      · exact .inl rfl
      · exact .inr (.inr rfl)

/-- A WAITING aperture whose target changed waits with another motion, or has passed through REST. -/
theorem rejudged_cases (a : Aperture) (now : Nat) :
    (∃ m, a.rejudged now = a.rederived m) ∨ a.rejudged now = a.rested now := by
  unfold Aperture.rejudged
  split
  · split
    · exact .inl ⟨_, rfl⟩
    · split
      · exact .inl ⟨_, rfl⟩
      · exact .inr rfl
  · exact .inr rfl

theorem steered_contribution (a : Aperture) (h : a.fix.run ≤ a.fix.inrush) : a.steered.contribution ≤ a.contribution := by
  rcases steered_cases a with e | ⟨t, e⟩ | e <;> rw [e]
  · exact le_rfl
  · exact halted_contribution a _ h

theorem steered_blind (a : Aperture) : a.steered.state.blind = a.state.blind := by
  rcases steered_cases a with e | ⟨t, e⟩ | e <;> rw [e]
  · rfl
  · exact halted_blind a _

theorem rejudged_contribution (a : Aperture) (now : Nat) : (a.rejudged now).contribution ≤ a.contribution := by
  rcases rejudged_cases a now with ⟨m, e⟩ | e <;> rw [e]
  · exact le_rfl
  · rw [rested_contribution]; exact Nat.zero_le _

theorem rejudged_blind (a : Aperture) (now : Nat) (h : a.state.blind = false) : (a.rejudged now).state.blind = false := by
  rcases rejudged_cases a now with ⟨m, e⟩ | e <;> rw [e]
  · exact h
  · exact rested_blind a now

theorem handed_contribution (a : Aperture) (now : Nat) (h : a.fix.run ≤ a.fix.inrush) :
    (a.handed now).contribution ≤ a.contribution := by
  unfold Aperture.handed
  split
  · rw [judged_contribution]
  · exact rejudged_contribution a now
  · exact steered_contribution a h
  · exact steered_contribution a h
  · rw [rested_contribution]; exact Nat.zero_le _
  all_goals exact le_rfl

theorem handed_blind (a : Aperture) (now : Nat) : (a.handed now).state.blind = a.state.blind := by
  unfold Aperture.handed
  split
  · exact judged_blind a now
  · next e => rw [e]; exact rejudged_blind a now (by rw [e]; rfl)
  · exact steered_blind a
  · exact steered_blind a
  · next e => rw [e]; exact rested_blind a now
  all_goals rfl

theorem derived_fields (a : Aperture) : a.derived.fix = a.fix ∧ a.derived.state = a.state ∧
    a.derived.position = a.position ∧ a.derived.contribution = a.contribution := by
  unfold Aperture.derived; dsimp only
  split <;> exact ⟨rfl, rfl, rfl, rfl⟩

theorem resolved_contribution (a : Aperture) (now : Nat) (h : a.fix.run ≤ a.fix.inrush) :
    (a.resolved now).contribution ≤ a.contribution := by
  obtain ⟨fix, _, _, c⟩ := derived_fields a
  unfold Aperture.resolved
  split
  · exact le_rfl
  · rw [← c]; exact handed_contribution _ now (by rw [fix]; exact h)

theorem resolved_blind (a : Aperture) (now : Nat) : (a.resolved now).state.blind = a.state.blind := by
  unfold Aperture.resolved
  split
  · rfl
  · rw [handed_blind, (derived_fields a).2.1]

theorem judged_keep (a : Aperture) (now : Nat) : (a.judged now).keep = a.keep := by
  unfold Aperture.judged
  split
  · split <;> rfl
  · rfl

theorem rested_keep (a : Aperture) (now : Nat) : (a.rested now).keep = a.keep := judged_keep _ now

theorem halted_keep (a : Aperture) (c : HaltCause) : (a.halted c).keep = a.keep := by
  unfold Aperture.halted
  split <;> rfl

theorem steered_keep (a : Aperture) : a.steered.keep = a.keep := by
  rcases steered_cases a with e | ⟨t, e⟩ | e <;> rw [e]
  · rfl
  · exact halted_keep a _

theorem rejudged_keep (a : Aperture) (now : Nat) : (a.rejudged now).keep = a.keep := by
  rcases rejudged_cases a now with ⟨m, e⟩ | e <;> rw [e]
  · rfl
  · exact rested_keep a now

theorem handed_keep (a : Aperture) (now : Nat) : (a.handed now).keep = a.keep := by
  unfold Aperture.handed
  split
  · exact judged_keep a now
  · exact rejudged_keep a now
  · exact steered_keep a
  · exact steered_keep a
  · exact rested_keep a now
  all_goals rfl

theorem derived_keep (a : Aperture) : a.derived.keep = ({ a with
    effTarget := a.slate.top.map fun x => x.2.target, effClass := a.slate.top.map fun x => x.1 } : Aperture).keep := by
  unfold Aperture.derived; dsimp only
  split <;> rfl

/-- After deriving, target and class are those of the slate, and the rest of what motion keeps stands (R24). -/
theorem resolved_keep (a : Aperture) (now : Nat) : (a.resolved now).keep = ({ a with
    effTarget := a.slate.top.map fun x => x.2.target, effClass := a.slate.top.map fun x => x.1 } : Aperture).keep := by
  unfold Aperture.resolved
  split
  · next h => rw [h.1, h.2]
  · rw [handed_keep, derived_keep]

/-- The record after slate and claim were written and the target derived from them (R24). -/
def Aperture.reordered (now : Nat) (x : Slate) (k : Option Claim) (a : Aperture) : Aperture :=
  ({ a with slate := x, claim := k } : Aperture).resolved now

theorem reordered_keep (a : Aperture) (now : Nat) (x : Slate) (k : Option Claim) :
    (a.reordered now x k).keep = ({ a with
      slate := x, claim := k, effTarget := x.top.map fun y => y.2.target, effClass := x.top.map fun y => y.1 } :
        Aperture).keep :=
  resolved_keep _ now

theorem reordered_contribution (a : Aperture) (now : Nat) (x : Slate) (k : Option Claim)
    (h : a.fix.run ≤ a.fix.inrush) : (a.reordered now x k).contribution ≤ a.contribution :=
  resolved_contribution ({ a with slate := x, claim := k } : Aperture) now h

/-- An aperture whose orders were written and derived (R24). -/
theorem Upholds.reorders {now : Nat} {x : Slate} {c : Option Claim} (w : Writes i s t ((s.ap i).reordered now x c))
    (limit : ∀ b, (t.branch b).limit = (s.branch b).limit) : Upholds s t := by
  obtain ⟨fix, pos, sl, et, ec, _⟩ := keep_fields (reordered_keep (s.ap i) now x c)
  refine .orders w fix limit ?_ pos (resolved_blind _ _) (reordered_contribution _ now x c)
  rw [sl, et, ec]; exact ⟨rfl, rfl⟩

theorem judge_upholds (i : ApId) (s : State) : Upholds s (judge i s) :=
  .motion (judge_frame i s) (judge_writes i s) (judged_blind _ _) fun _ => by rw [judged_contribution]

theorem toRest_upholds (h : (s.ap i).state.blind = false) : Upholds s (toRest i s) :=
  .motion (toRest_frame i s) (toRest_writes i s) (by rw [h]; exact rested_blind _ _) fun _ => by
    rw [rested_contribution]; exact Nat.zero_le _

theorem toSettling_upholds (c : SettleCause) (h : (s.ap i).state.blind = false) : Upholds s (toSettling i c s) :=
  .motion (toSettling_frame i s c) (fun j => toSettling_ap i j s c) h.symm fun _ => Nat.zero_le _

theorem toRetryWait_upholds (h : (s.ap i).state.blind = false) : Upholds s (toRetryWait i s) :=
  .motion (toRetryWait_frame i s) (fun j => toRetryWait_ap i j s) h.symm fun _ => Nat.zero_le _

theorem toWaiting_upholds (m : Motion) (h : (s.ap i).state.blind = false) : Upholds s (toWaiting i m s) :=
  .motion (toWaiting_frame i s m) (toWaiting_writes i s m) h.symm fun _ => Nat.zero_le _

theorem toFault_upholds (c : FaultKind) (h : (s.ap i).state.blind = false) : Upholds s (toFault i c s) :=
  .motion (toFault_frame i s c) (fun j => toFault_ap i j s c) h.symm fun _ => Nat.zero_le _

theorem halt_upholds (i : ApId) (c : HaltCause) (s : State) : Upholds s (halt i c s) :=
  .motion (halt_frame i s c) (halt_writes i s c) (halted_blind _ c) (halted_contribution _ c)

/-- A change of one record in nothing that orders, position and current depend on. -/
theorem modAp_upholds (f : Aperture → Aperture)
    (h : (f (s.ap i)).fix = (s.ap i).fix ∧ (f (s.ap i)).position = (s.ap i).position ∧
      (f (s.ap i)).slate = (s.ap i).slate ∧ (f (s.ap i)).effTarget = (s.ap i).effTarget ∧
      (f (s.ap i)).effClass = (s.ap i).effClass ∧ (f (s.ap i)).state = (s.ap i).state ∧
      (f (s.ap i)).contribution = (s.ap i).contribution) : Upholds s (s.modAp i f) := by
  obtain ⟨fix, pos, sl, et, ec, st, c⟩ := h
  have w := modAp_writes i s f
  refine ⟨fun h => currentBounded_of_le h (fun j => ?_) (fun _ => rfl) fun j _ => ?_, fun h j => ?_, fun h j => ?_⟩ <;> rw [w j] <;>
    split <;> rename_i e
  · exact e ▸ fix
  · rfl
  · subst e; rw [c]
  · exact le_rfl
  · subst e; rw [sl, et, ec]; exact h i
  · exact h j
  · subst e; rw [pos, st]; exact h i
  · exact h j

end Sys2Proof.Machine

end

