-- ==== Sys2Proof/Proofs/Admitting.lean ====
section
/-! PROOFS. Admissions, stops, stalls and fresh statuses keep the invariants (R94, R102). -/

namespace Sys2Proof.Machine

open Sys2Proof

variable {i j k : ApId} {b : Branch} {s t u : State}

/-! ### An admission stays within the limit (R94, R102) -/

/-- A sum in which one place alone changed grows by at most that place's new value. -/
theorem sum_map_le_add {f g : ApId → Nat} {l : List ApId} (nodup : l.Nodup) (i : ApId)
    (same : ∀ j ∈ l, i ≠ j → g j = f j) : (l.map g).sum ≤ (l.map f).sum + g i := by
  induction l with
  | nil => simp
  | cons x xs ih =>
    obtain ⟨fresh, rest⟩ := List.nodup_cons.1 nodup
    simp only [List.map_cons, List.sum_cons]
    by_cases e : i = x
    · have keep : xs.map g = xs.map f := List.map_congr_left fun j hj =>
        same j (by simp [hj]) fun ij => fresh (by rw [← e, ij]; exact hj)
      rw [keep, e]; omega
    · have := ih rest fun j hj => same j (by simp [hj])
      rw [same x (by simp) e]; omega

theorem onBranch_nodup (b : Branch) (s : State) : (s.onBranch b).Nodup := (List.nodup_finRange 48).filter _

theorem admitMotion_upholds (hb : (s.ap i).fix.branch = b) (w : (s.ap i).state = .waiting)
    (fit : s.committed b + (s.ap i).fix.inrush ≤ (s.branch b).limit) : Upholds s (admitMotion b i s) where
  current := by
    rintro ⟨bound, run⟩
    have f := admit_frame i b s
    have fix : ∀ j, ((admitMotion b i s).ap j).fix = (s.ap j).fix := fun j => (keep_fields (f.aps j)).1
    have same : ∀ c, (admitMotion b i s).onBranch c = s.onBranch c := fun c => by simp only [State.onBranch, fix]
    have others : ∀ j, i ≠ j → ((admitMotion b i s).ap j).contribution = (s.ap j).contribution := fun j ne => by
      rw [admitMotion_ap, if_neg ne]
    refine ⟨fun c => ?_, fun j => by rw [fix]; exact run j⟩
    rw [f.limit, State.committed, same]
    by_cases e : b = c
    · subst e
      have grow := sum_map_le_add (onBranch_nodup b s) i fun j _ => others j
      have own : ((admitMotion b i s).ap i).contribution = (s.ap i).fix.inrush := by
        rw [admitMotion_ap, if_pos rfl]; rfl
      rw [own] at grow
      exact grow.trans fit
    · refine le_of_eq_of_le ?_ (bound c)
      rw [State.committed]
      congr 1
      refine List.map_congr_left fun j hj => others j ?_
      rintro rfl
      exact e (hb.symm.trans ((mem_onBranch i c s).1 hj))
  targets h j := by
    obtain ⟨_, _, sl, et, ec, _⟩ := keep_fields ((admit_frame i b s).aps j)
    rw [sl, et, ec]; exact h j
  known h := (positionsKnown_iff _).2 fun j => by
    rw [(keep_fields ((admit_frame i b s).aps j)).2.1, (positionsKnown_iff s).1 h j, admitMotion_ap]
    split
    · next e => subst e; rw [w]; rfl
    · rfl

theorem Upholds.foldl {α : Type} {f : State → α → State} (h : ∀ s x, Upholds s (f s x)) (l : List α) (s : State) :
    Upholds s (l.foldl f s) := by
  induction l generalizing s with
  | nil => exact Upholds.refl s
  | cons x xs ih => exact (h s x).trans (ih _)

theorem reserve_upholds (b : Branch) (r : Option ApId) (s : State) : Upholds s (s.reserve b r) :=
  .elsewhere rfl fun c => (reserve_branch s b c r).2.2.1

theorem Outcome.upholds {x : State × Bool} (o : Outcome b (candidatesOf s b) s x) : Upholds s x.1 := by
  cases o with
  | nothing => exact Upholds.refl s
  | admits e mem fit _ _ =>
    obtain ⟨hb, w, _⟩ := (ready_iff e.ap b s e.cls).1 ⟨e, mem, rfl, rfl⟩
    exact admitMotion_upholds hb w (of_decide_eq_true fit)
  | sheds e mem cls vs take =>
    exact (Upholds.foldl (fun s' v => halt_upholds v .shed s') vs s).trans (reserve_upholds b _ _)

theorem attempt_upholds (b : Branch) (h : AllReserved s) : Upholds s (attempt b s).1 := by
  rcases attempt_outcome b s (h b) with o | o
  · exact o.upholds
  · rw [← candidatesOf_reserve] at o
    exact (reserve_upholds b none s).trans o.upholds

/-- The end of an event upholds the invariants (R101, R102). -/
theorem finish_upholds (update : Bool) (s0 s : State) : Upholds s (finish update s0 s) := by
  obtain ⟨v, c, r, e⟩ := finish_cases update s0 s
  rw [e]
  exact (Upholds.elsewhere c.aps c.frame.limit).trans <|
    settleAttempts_along Upholds.refl (fun _ _ _ => Upholds.trans) (fun s b h => attempt_upholds b h)
      (fun v => .elsewhere rfl fun _ => rfl) r

/-! ### The motion at the end of settles, stops, stalls and exchanges (R114 to R124) -/

theorem arrive_upholds (h : (s.ap i).state.blind = false) : Upholds s (arrive i s) :=
  .motion (arrive_frame i s) (fun j => arrive_ap i j s) (by rw [h]; exact rested_blind _ _) fun _ => by
    rw [Aperture.arrived, rested_contribution]; exact Nat.zero_le _

theorem Upholds.ite {c : Prop} [Decidable c] (h : c → Upholds s t) (g : ¬ c → Upholds s u) :
    Upholds s (if c then t else u) := by
  split
  · exact h ‹_›
  · exact g ‹_›

theorem confirmStop_upholds (fresh : Bool) (h : (s.ap i).state.blind = false) :
    Upholds s (confirmStop i fresh s) := by
  unfold confirmStop
  exact .ite (fun _ => .ite (fun _ => .ite (fun _ => arrive_upholds h) fun _ => toRest_upholds h)
      fun _ => toFault_upholds _ h)
    fun _ => .ite (fun _ => toSettling_upholds _ h) fun _ => toSettling_upholds _ h

theorem stallCount_upholds (i : ApId) (s : State) (f : Nat → Nat) :
    Upholds s (s.modAp i fun a => { a with stallCount := f a.stallCount }) :=
  modAp_upholds _ ⟨rfl, rfl, rfl, rfl, rfl, rfl, rfl⟩

theorem stall_upholds (h : (s.ap i).state.blind = false) : Upholds s (stall i s) := by
  unfold stall
  split
  · have u := stallCount_upholds i s fun n => min 3 (n + 1)
    refine u.trans ?_
    exact .ite (fun _ => toSettling_upholds _ (by rw [State.ap_modAp_self]; exact h))
      fun _ => toFault_upholds _ (by rw [State.ap_modAp_self]; exact h)
  · exact toFault_upholds _ h

theorem orderBackoff_upholds (bp : Nat) (h : (s.ap i).state.blind = false) : Upholds s (orderBackoff i bp s) :=
  .ite (fun _ => toWaiting_upholds _ h) fun _ => toRetryWait_upholds h

theorem settled_upholds (h : (s.ap i).state.blind = false) : Upholds s (settled i s) := by
  unfold settled; dsimp only
  split
  · exact orderBackoff_upholds _ h
  · exact orderBackoff_upholds _ h
  · exact toRest_upholds h

theorem owe_upholds (b : Branch) (s : State) : Upholds s (s.owe b) :=
  .elsewhere (State.owe_aps s b) fun c => (Frame.owe (k := id) b).limit c

theorem notify_upholds (ps : List Port) (n : NoticeBody) (s : State) : Upholds s (s.notify ps n) := by
  obtain ⟨x, h⟩ := State.notify_rest (s := s) ps n
  rw [h]; exact .elsewhere rfl fun _ => rfl

theorem releaseHeld_upholds (i : ApId) (s : State) : Upholds s (releaseHeld i s) := by
  have w : Writes i s (releaseHeld i s) (if (s.ap i).held.isSome then { s.ap i with held := some 0 } else s.ap i) :=
    fun j => by
      rw [releaseHeld_ap]
      by_cases e : i = j
      · subst e; simp
      · simp [e]
  refine .motion (releaseHeld_frame i s) w (by split <;> rfl) fun _ => ?_
  split
  · cases e : (s.ap i).state <;> simp [Aperture.contribution, e]
  · exact le_rfl

/-- An aperture that goes OFFLINE or comes from there has no position, and contributes no more than before (R18). -/
theorem Upholds.blinded {a : Aperture} (f : Frame Aperture.orders s t) (w : Writes i s t a)
    (pos : a.position = none) (st : a.state.blind = true)
    (le : (s.ap i).fix.run ≤ (s.ap i).fix.inrush → a.contribution ≤ (s.ap i).contribution) : Upholds s t where
  current h := currentBounded_of_le h (fun j => (orders_fields (f.aps j)).1) f.limit fun j r => by
    rw [w j]
    split
    · next e => subst e; exact le r
    · exact le_rfl
  targets h j := by
    obtain ⟨_, sl, et, ec, _⟩ := orders_fields (f.aps j)
    rw [sl, et, ec]; exact h j
  known h := (positionsKnown_iff t).2 fun j => by
    rw [w j]
    split
    · rw [pos, st]; rfl
    · exact (positionsKnown_iff s).1 h j

theorem toOffline_upholds (i : ApId) (s : State) : Upholds s (toOffline i s) :=
  .blinded (toOffline_frame i s) (fun j => toOffline_ap i j s) rfl rfl fun _ => by
    simp only [Aperture.contribution]
    split <;> [split; skip] <;> simp

theorem toOnline_upholds (i : ApId) (s : State) : Upholds s (toOnline i s) :=
  .blinded (toOnline_frame i s) (fun j => toOnline_ap i j s) rfl rfl fun _ => Nat.zero_le _

/-- A fresh status's position, written where one is known already (R7). -/
theorem writePosition_ap (i j : ApId) (p : Nat) (s : State) :
    (writePosition i p s).ap j = if i = j then { s.ap i with position := some p } else s.ap j := by
  unfold writePosition; dsimp only
  split
  · rw [State.notify_ap, State.ap_of_aps (State.dropEntry_aps _ i), State.ap_modAp]
  · rw [refreshEntry_ap, State.ap_modAp]

theorem writePosition_upholds (p : Nat) (h : (s.ap i).state.blind = false) : Upholds s (writePosition i p s) where
  current c := currentBounded_of_le c (fun j => (orders_fields ((writePosition_frame i s p).aps j)).1)
    (writePosition_frame i s p).limit fun j _ => by
      rw [writePosition_ap]
      split
      · next e => subst e; exact le_rfl
      · exact le_rfl
  targets c j := by
    obtain ⟨_, sl, et, ec, _⟩ := orders_fields ((writePosition_frame i s p).aps j)
    rw [sl, et, ec]; exact c j
  known c := (positionsKnown_iff _).2 fun j => by
    rw [writePosition_ap]
    split
    · next e => subst e; rw [h]; rfl
    · exact (positionsKnown_iff s).1 c j

/-- The first fresh status of an aperture at rest takes it from UNKNOWN to REST, its position known (R17). -/
theorem found_upholds (p : Nat) : Upholds s (toRest i (writePosition i p s)) := by
  have f := (writePosition_frame i s p).trans ((toRest_frame i (writePosition i p s)).mono keep_orders)
  have w : Writes i s (toRest i (writePosition i p s)) ((({ s.ap i with position := some p } : Aperture)).rested s.ds) :=
    fun j => by
      rw [toRest_ap, writePosition_ap, writePosition_ap, (writePosition_frame i s p).ds]
      by_cases e : i = j <;> simp [e]
  refine ⟨fun c => currentBounded_of_le c (fun j => (orders_fields (f.aps j)).1) f.limit fun j _ => ?_, fun c j => ?_,
    fun c => (positionsKnown_iff _).2 fun j => ?_⟩
  · rw [w j]
    split
    · rw [rested_contribution]; exact Nat.zero_le _
    · exact le_rfl
  · obtain ⟨_, sl, et, ec, _⟩ := orders_fields (f.aps j)
    rw [sl, et, ec]; exact c j
  · by_cases e : i = j
    · subst e
      rw [(keep_fields ((toRest_frame i (writePosition i p s)).aps i)).2.1, writePosition_ap, if_pos rfl, w i, if_pos rfl,
        rested_blind]
      rfl
    · rw [w j, if_neg e]; exact (positionsKnown_iff s).1 c j

theorem writePosition_state (i : ApId) (p : Nat) (s : State) : ((writePosition i p s).ap i).state = (s.ap i).state := by
  rw [writePosition_ap, if_pos rfl]

theorem driveStatus_upholds (r : LinkReply) (h : (s.ap i).state.blind = false) : Upholds s (driveStatus i r s) := by
  refine .ite (fun _ => stall_upholds h) fun _ => .ite (fun _ => Upholds.refl s) fun _ => ?_
  split
  · exact toRetryWait_upholds h
  · exact arrive_upholds h

theorem faultStatus_upholds (r : LinkReply) (h : (s.ap i).state.blind = false) : Upholds s (faultStatus i r s) := by
  unfold faultStatus
  split
  · exact .ite (fun _ => Upholds.refl s) fun _ => toRest_upholds h
  · exact Upholds.refl s

theorem freshStatus_upholds (i : ApId) (r : LinkReply) (s : State) : Upholds s (freshStatus i r s) := by
  have st := writePosition_state i r.writes s
  have wrote := fun h => writePosition_upholds (s := s) (i := i) r.writes h
  unfold freshStatus; dsimp only
  split <;> rename_i e <;> rw [e] at st wrote
  case h_3 => exact .ite (fun _ => Upholds.refl s) fun _ => found_upholds _
  case h_1 | h_2 => exact Upholds.refl s
  all_goals
    have sees : ((writePosition i r.writes s).ap i).state.blind = false := by rw [st]; rfl
    refine (wrote rfl).trans ?_
  case h_4 => exact judge_upholds i _
  case h_5 => exact .ite (fun _ => Upholds.refl _) fun _ => toRest_upholds sees
  case h_6 | h_7 => exact driveStatus_upholds r sees
  case h_8 => exact .ite (fun _ => Upholds.refl _) fun _ => confirmStop_upholds true sees
  case h_9 | h_10 => exact Upholds.refl _
  case h_11 => exact faultStatus_upholds r sees

end Sys2Proof.Machine

end

