-- ==== Sys2Proof/Proofs/Ordering.lean ====
section
/-! PROOFS. Operations on the orders of one aperture (R22 to R35). -/

namespace Sys2Proof.Machine

open Sys2Proof

variable {i j k : ApId} {b : Branch} {s t u v : State} {x : Slate} {c : Option Claim}

/-! ### Orders are written, derived and handed on (R22 to R35) -/

/-- `u` lists for aperture `i`, whose record was `a`, the HALT of a motion that was halted, and the MOVE of one that was
retargeted (R117, R118, R138). -/
structure Told (i : ApId) (a : Aperture) (u : State) : Prop where
  halt : a.state.driving = true → (u.ap i).state = .stopping →
    i ∈ u.link.haltList ∧ ∀ m ∈ u.link.moveList, m.1 ≠ i
  move : a.state.driving = true → ∀ m n, a.motion = some m → (u.ap i).motion = some n → m.target ≠ n.target →
    (i, n.target) ∈ u.link.moveList

/-- A record that stands, or an aperture that was not driven, calls for no entry. -/
theorem Told.stands {a : Aperture} (st : (u.ap i).state = a.state) (m : (u.ap i).motion = a.motion) : Told i a u where
  halt d h := by rw [← st, h] at d; cases d
  move _ m' n hm hn ne := by rw [m, hm] at hn; cases hn; exact absurd rfl ne

theorem Told.idle {a : Aperture} (h : a.state.driving = false) : Told i a u where
  halt d := by rw [h] at d; cases d
  move d := by rw [h] at d; cases d

theorem Told.link {a : Aperture} (h : Told i a u) (ap : v.ap i = u.ap i) (link : v.link = u.link) : Told i a v :=
  ⟨by rw [ap, link]; exact h.halt, by rw [ap, link]; exact h.move⟩

theorem steer_cases (i : ApId) (s : State) :
    steer i s = s ∨ (∃ t, steer i s = retarget i t s) ∨ steer i s = halt i .target s := by
  unfold steer; dsimp only
  split
  · exact .inl rfl
  · split
    · split
      · exact .inl rfl
      · exact .inr ((ite_eq_or_eq _ _ _).imp (fun e => ⟨_, e⟩) id)
    · exact .inr (.inr rfl)
    · split
      · exact .inl rfl
      · exact .inr (.inr rfl)

/-- A halt of a driven motion leaves its HALT listed and no MOVE (R117, R138). -/
theorem halt_link (h : HaltCause) (d : (s.ap i).state.driving = true) :
    i ∈ (halt i h s).link.haltList ∧ ∀ m ∈ (halt i h s).link.moveList, m.1 ≠ i := by
  unfold halt
  rw [if_pos d]
  exact ⟨Link.mem_listHalt i _, fun m hm => by simpa using (List.mem_filter.1 hm).2⟩

theorem halt_told (h : HaltCause) : Told i (s.ap i) (halt i h s) := by
  by_cases d : (s.ap i).state.driving = true
  · refine ⟨fun _ _ => halt_link h d, fun _ m n hm hn ne => ?_⟩
    rw [halt_ap, if_pos rfl, Aperture.halted, if_pos d] at hn
    exact absurd (congrArg Motion.target (Option.some.inj (hm.symm.trans hn))) ne
  · exact .idle (by simpa using d)

theorem steer_told (i : ApId) (s : State) : Told i (s.ap i) (steer i s) := by
  rcases steer_cases i s with e | ⟨t, e⟩ | e <;> rw [e]
  · exact .stands rfl rfl
  · refine ⟨fun d h => ?_, fun _ m n hm hn _ => ?_⟩
    · rw [(retarget_writes i s t).self] at h
      rw [show (s.ap i).state = .stopping from h] at d; cases d
    · rw [(retarget_writes i s t).self, Aperture.retargeted, hm] at hn
      cases hn
      exact Link.mem_relistMove i _ t
  · exact halt_told _

theorem handOn_told (i : ApId) (s : State) : Told i (s.ap i) (handOn i s) := by
  unfold handOn
  split <;> rename_i e
  case h_3 | h_4 => exact steer_told i s
  all_goals exact .idle (by rw [e]; rfl)

theorem derived_motion (a : Aperture) : a.derived.motion = a.motion := by
  unfold Aperture.derived; dsimp only
  split <;> rfl

theorem resolve_told (i : ApId) (s : State) : Told i (s.ap i) (resolve i s) := by
  rcases resolve_cases i s with ⟨_, e⟩ | ⟨v, w, _, _, e⟩ <;> rw [e]
  · exact .stands (by rw [refreshEntry_ap]) (by rw [refreshEntry_ap])
  · have h := (handOn_told i v).link (refreshEntry_ap i i (handOn i v)) (refreshEntry_link i _)
    rw [w.self] at h
    exact ⟨fun d => h.halt (by rw [(derived_fields _).2.1]; exact d),
      fun d m n hm => h.move (by rw [(derived_fields _).2.1]; exact d) m n (by rw [derived_motion]; exact hm)⟩

/-- From `s` to `t` aperture `i` got slate `x` and claim `c`, which were derived and handed on; the other apertures'
records and list entries stand. -/
structure Reorders (i : ApId) (x : Slate) (c : Option Claim) (s t : State) : Prop where
  writes : Writes i s t ((s.ap i).reordered s.ds x c)
  told   : Told i (s.ap i) t
  moves  : ∀ j y, i ≠ j → ((j, y) ∈ t.link.moveList ↔ (j, y) ∈ s.link.moveList)
  halts  : ∀ j, i ≠ j → (j ∈ t.link.haltList ↔ j ∈ s.link.haltList)
  frame  : Frame Aperture.stands s t

/-- Slate and claim of aperture `i` were written in `v`, with nothing done beside but notices; they are derived. -/
theorem Reorders.resolve (w : Writes i s v { s.ap i with slate := x, claim := c }) (link : v.link = s.link)
    (f : Frame Aperture.stands s v) : Reorders i x c s (resolve i v) where
  writes := by
    have g := resolve_writes i v
    rw [w.self, f.ds] at g
    exact w.trans i s g
  told := by
    have h := resolve_told i v
    rw [w.self] at h
    exact ⟨h.halt, h.move⟩
  moves j y e := by rw [← link]; exact (resolve_local i v).moves j y e
  halts j e := by rw [← link]; exact (resolve_local i v).halts j e
  frame := f.trans ((resolve_frame i v).mono slates_stands)

theorem Reorders.upholds (h : Reorders i x c s t) : Upholds s t := .reorders h.writes h.frame.limit

theorem putSlot_writes (i : ApId) (d : OrderClass) (y : Option Slot) (s : State) :
    Writes i s (putSlot i d y s) { s.ap i with slate := (s.ap i).slate.put d y } := modAp_writes i s _

/-- A slot written and derived (R22, R24). -/
theorem putResolve_reorders (i : ApId) (d : OrderClass) (y : Option Slot) (s : State) :
    Reorders i ((s.ap i).slate.put d y) (s.ap i).claim s (resolve i (putSlot i d y s)) :=
  .resolve (putSlot_writes i d y s) rfl (putSlot_frame i s d y)

theorem postOrder_reorders (p : Port) (i : ApId) (y : Target) (s : State) :
    Reorders i ((s.ap i).slate.put (portClass p) (some (portSlot s p y))) (s.ap i).claim s (postOrder p i y s) :=
  putResolve_reorders i _ _ s

/-- The slate after a cancellation by weather (R32). -/
def Slate.cancelled (x : Slate) (d : OrderClass) : Slate := if opens (x.get d) then x.put d none else x

theorem cancelOpening_writes (i : ApId) (d : OrderClass) (s : State) :
    Writes i s (cancelOpening i d s) { s.ap i with slate := (s.ap i).slate.cancelled d } := fun j => by
  rw [cancelOpening_ap, Slate.cancelled]
  by_cases e : i = j
  · subst e; simp only [true_and, if_true]; split <;> rfl
  · simp [e]

theorem cancelOpening_link (i : ApId) (d : OrderClass) (s : State) : (cancelOpening i d s).link = s.link := by
  unfold cancelOpening
  split
  · split
    · obtain ⟨y, h⟩ := State.notify_rest (s := putSlot i d none s) _ _
      rw [h]; rfl
    · rfl
  · rfl

theorem cancelled_claimedSlate (s : State) (x : Slate) :
    ((x.put .weather (some ⟨.pos 0, .weather, s.ds, none⟩)).cancelled .supervisory).cancelled .room =
      claimedSlate s x := by
  unfold Slate.cancelled claimedSlate
  by_cases h : opens x.supervisory = true <;> by_cases g : opens x.room = true <;> simp [Slate.put, Slate.get, h, g]

/-- A claim posted: its slate, its cause and deadline, derived and handed on (R32, R81, R82). -/
theorem postClaim_reorders (i : ApId) (k : Claim) (s : State) :
    Reorders i (claimedSlate s (s.ap i).slate) (some k) s (postClaim i k s) := by
  rw [← cancelled_claimedSlate]
  unfold postClaim; dsimp only
  generalize hv : State.modAp _ i _ = v
  have w : Writes i s v { s.ap i with
      slate := (s.ap i).slate.put .weather (some ⟨.pos 0, .weather, s.ds, none⟩), claim := some k } := by
    rw [← hv]; exact modAp_modAp_writes i s _ _
  have f : Frame Aperture.stands s v := by
    rw [← hv]; exact (putSlot_frame i s _ _).trans (Frame.modAp i _ rfl)
  have l : v.link = s.link := by rw [← hv]; rfl
  have w1 := w.trans i s (cancelOpening_writes i .supervisory v)
  have w2 := w1.trans i s (cancelOpening_writes i .room _)
  rw [w1.self, w.self] at w2
  exact .resolve w2 ((cancelOpening_link i _ _).trans ((cancelOpening_link i _ v).trans l))
    (f.trans ((cancelOpening_frame i v _).trans (cancelOpening_frame i _ _)))

/-- The WEATHER slot removed with its cause and deadline (R33, R76). -/
theorem dropClaim_reorders (h : (s.ap i).slate.weather.isSome = true) :
    Reorders i { (s.ap i).slate with weather := none } none s (dropClaim s i) := by
  unfold dropClaim
  rw [if_pos h]
  exact .resolve (modAp_modAp_writes i s _ _) rfl ((Frame.modAp i _ rfl).trans (putSlot_frame i _ _ _))

theorem dropClaim_none (h : (s.ap i).slate.weather.isSome = false) : dropClaim s i = s := by
  unfold dropClaim
  rw [if_neg (by rw [h]; decide)]

/-- A room order that expires (R35). -/
theorem expireRoom_reorders (i : ApId) (y : Slot) (e : Nat) (s : State) :
    Reorders i { (s.ap i).slate with room := some ⟨.pos 0, .port .K, e, none⟩ } (s.ap i).claim s
      (expireRoom i y e s) := by
  have w := putSlot_writes i .room (some ⟨.pos 0, .port .K, e, none⟩) s
  refine .resolve (fun j => ?_) ?_ ((putSlot_frame i s _ _).trans (Frame.notify _ _))
  · rw [State.notify_ap]; exact w j
  · obtain ⟨z, h⟩ := State.notify_rest (s := putSlot i .room (some ⟨.pos 0, .port .K, e, none⟩) s) [.K]
      (.orderCancelled i .room y.target .expired)
    rw [h]; rfl

/-- An operation on the orders of aperture `i`: nothing, or one writing of slate and claim with what follows. -/
inductive MayReorder (i : ApId) (s : State) : State → Prop where
  | none : MayReorder i s s
  | some (x : Slate) (c : Option Claim) (t : State) (h : Reorders i x c s t) : MayReorder i s t

theorem MayReorder.upholds (h : MayReorder i s t) : Upholds s t := by
  cases h with
  | none => exact Upholds.refl s
  | some x c t h => exact h.upholds

theorem MayReorder.frame (h : MayReorder i s t) : Frame Aperture.stands s t := by
  cases h with
  | none => exact Frame.refl _ s
  | some x c t h => exact h.frame

theorem releaseOrder_mayReorder (p : Port) (i : ApId) (s : State) : MayReorder i s (releaseOrder p i s) := by
  unfold releaseOrder; dsimp only
  split
  · exact .none
  · exact .some _ _ _ (putResolve_reorders i _ _ s)

theorem postAlarm_mayReorder (r : Bool) (s : State) (i : ApId) : MayReorder i s (postAlarm r s i) := by
  unfold postAlarm; dsimp only
  split
  · exact .some _ _ _ (putResolve_reorders i _ _ s)
  · exact .none

theorem dropAlarm_mayReorder (s : State) (i : ApId) : MayReorder i s (dropAlarm s i) := by
  unfold dropAlarm
  split
  · exact .some _ _ _ (putResolve_reorders i _ _ s)
  · exact .none

theorem dropClaim_mayReorder (s : State) (i : ApId) : MayReorder i s (dropClaim s i) := by
  cases h : (s.ap i).slate.weather.isSome with
  | true => exact .some _ _ _ (dropClaim_reorders h)
  | false => rw [dropClaim_none h]; exact .none

theorem claimOn_mayReorder (s : State) (i : ApId) : MayReorder i s (claimOn s i) := by
  unfold claimOn
  split
  · exact .some _ _ _ (postClaim_reorders i _ s)
  · exact .none

end Sys2Proof.Machine

end

