-- ==== Sys2Proof/Proofs/Acting.lean ====
section
/-! PROOFS. Exchanges, weather, fire, resets and requests keep the invariants. -/

namespace Sys2Proof.Machine

open Sys2Proof

variable {i j k : ApId} {b : Branch} {s t u : State}

/-! ### The end of an exchange (R133) -/

theorem node_upholds (i : ApId) (s : State) (f : Aperture → Node) :
    Upholds s (s.modAp i fun a => { a with node := f a }) :=
  modAp_upholds _ ⟨rfl, rfl, rfl, rfl, rfl, rfl, rfl⟩

theorem link_upholds (s : State) (l : Link) : Upholds s { s with link := l } := .elsewhere rfl fun _ => rfl

theorem missed_upholds (i : ApId) (f : InFlight) (s : State) : Upholds s (missed i f s) := by
  unfold missed; dsimp only
  refine Upholds.trans ?_ (link_upholds _ _)
  refine (node_upholds i s fun a => { a.node with missCount := min 3 (a.node.missCount + 1) }).trans ?_
  exact .ite (fun _ => toOffline_upholds i _) fun _ => Upholds.refl _

theorem acceptOrder_upholds (i : ApId) (tag : BitVec 4) (s : State) : Upholds s (acceptOrder i tag s) :=
  (modAp_upholds (i := i) (s := s) (fun a => { a with orderTag := some tag })
    ⟨rfl, rfl, rfl, rfl, rfl, rfl, rfl⟩).trans (link_upholds _ _)

theorem startTravel_upholds (i : ApId) (s : State) : Upholds s (startTravel i s) :=
  .ite (fun _ => modAp_upholds _ ⟨rfl, rfl, rfl, rfl, rfl, rfl, rfl⟩) fun _ => Upholds.refl s

theorem driving_blind {x : MotionState} (h : x.driving = true) : x.blind = false := by revert h; cases x <;> decide

theorem moveReplied_upholds (i : ApId) (f : InFlight) (r : LinkReply) (s : State) :
    Upholds s (moveReplied i f r s) := by
  refine .ite (fun _ => .ite (fun d => toFault_upholds _ (driving_blind d)) fun _ => Upholds.refl s) fun _ => ?_
  have h := (acceptOrder_upholds i f.tag s).trans (startTravel_upholds i _)
  exact .ite (fun _ => h) fun _ => h.trans (link_upholds _ _)

theorem pollReplied_upholds (i : ApId) (r : LinkReply) (s : State) : Upholds s (pollReplied i r s) :=
  .ite (fun _ => (freshStatus_upholds i r s).trans (link_upholds _ _)) fun _ => freshStatus_upholds i r s

theorem learnTag_upholds (i : ApId) (tag : BitVec 4) (s : State) : Upholds s (learnTag i tag s) :=
  modAp_upholds _ ⟨rfl, rfl, rfl, rfl, rfl, rfl, rfl⟩

theorem replied_upholds (i : ApId) (f : InFlight) (r : LinkReply) (s : State) : Upholds s (replied i f r s) := by
  have h1 : Upholds s (renewContact i s) := node_upholds i s _
  unfold replied; dsimp only
  refine Upholds.trans (u := if decide ((s.ap i).state = .offline) = true then toOnline i (renewContact i s)
    else renewContact i s) (.ite (fun _ => h1.trans (toOnline_upholds i _)) fun _ => h1) ?_
  generalize (if decide ((s.ap i).state = .offline) = true then toOnline i (renewContact i s)
    else renewContact i s) = v
  refine Upholds.trans (u := if (s.ap i).orderTag.isNone = true then learnTag i r.tag v else v)
    (.ite (fun _ => learnTag_upholds i _ v) fun _ => Upholds.refl v) ?_
  generalize (if (s.ap i).orderTag.isNone = true then learnTag i r.tag v else v) = w
  split
  · exact moveReplied_upholds i f r _
  · exact acceptOrder_upholds i _ _
  · exact .ite (fun _ => pollReplied_upholds i r _) fun _ => Upholds.refl _
  · exact Upholds.refl _

theorem complete_upholds (f : InFlight) (reply : List Byte) (s : State) : Upholds s (complete f reply s) := by
  have h : Upholds s { s with link := { s.link with inFlight := none } } := link_upholds s _
  unfold complete
  split
  · exact h
  · split
    · exact h.trans (missed_upholds _ f _)
    · exact h.trans (replied_upholds _ f _ _)

/-! ### Weather, fire and resets -/

theorem announceWeather_upholds (old w : Weather) (s : State) : Upholds s (announceWeather old w s) :=
  .ite (fun _ => Upholds.refl s) fun _ => notify_upholds _ _ s

theorem compute_upholds (s : State) : Upholds s (compute s) := by
  have same : ∀ j, ∃ g, (compute s).ap j = { s.ap j with fig := g } := fun j => by
    rw [compute_ap]
    split
    · exact ⟨_, rfl⟩
    · exact ⟨(s.ap j).fig, rfl⟩
  refine ⟨fun h => currentBounded_of_le h (fun j => ?_) (fun _ => rfl) fun j _ => ?_, fun h j => ?_, fun h j => ?_⟩ <;>
    obtain ⟨g, e⟩ := same j <;> rw [e]
  · exact le_rfl
  · exact h j
  · exact h j

theorem renewClaims_upholds (l : List ApId) (s : State) : Upholds s (renewClaims l s) :=
  Upholds.foldl (fun _ _ => modAp_upholds _ ⟨rfl, rfl, rfl, rfl, rfl, rfl, rfl⟩) l s

theorem exposureUpdate_upholds (s : State) : Upholds s (exposureUpdate s) := by
  unfold exposureUpdate; dsimp only
  refine Upholds.trans ?_ (announceWeather_upholds _ _ _)
  have record : ∀ (v : State) (c : Prop) [Decidable c] (x : Trigger),
      Upholds v (if c then { v with sup := { v.sup with trigger := some x } } else v) := fun v c _ x =>
    .ite (fun _ => .elsewhere rfl fun _ => rfl) fun _ => Upholds.refl v
  refine Upholds.trans ?_ (record _ _ _)
  refine Upholds.trans (u := renewClaims _ _) ?_ (.elsewhere rfl fun _ => rfl)
  refine Upholds.trans ?_ (renewClaims_upholds _ _)
  have claims : ∀ (v : State) (c : Prop) [Decidable c], Upholds v (if c then allAps.foldl claimOn v else v) :=
    fun v c _ => .ite (fun _ => Upholds.foldl (fun s' i => (claimOn_mayReorder s' i).upholds) _ v) fun _ => Upholds.refl v
  refine Upholds.trans ?_ (claims _ _)
  exact .elsewhere rfl fun _ => rfl

theorem endHolding_upholds (s : State) : Upholds s (endHolding s) := by
  have h := Upholds.foldl (fun s' i => (dropClaim_mayReorder s' i).upholds) allAps s
  unfold endHolding
  generalize allAps.foldl dropClaim s = v at h
  refine h.trans (Upholds.trans ?_ (announceWeather_upholds _ _ _))
  exact .elsewhere rfl fun _ => rfl

theorem fireLevel_upholds (s : State) : Upholds s (fireLevel s) := by
  have state : ∀ x, Upholds s { s with fire := { s.fire with state := x } } := fun x => .elsewhere rfl fun _ => rfl
  have alarm : ∀ r v, Upholds v (allAps.foldl (postAlarm r) v) := fun r v =>
    Upholds.foldl (fun s' i => (postAlarm_mayReorder r s' i).upholds) allAps v
  unfold fireLevel
  split
  · exact ((state _).trans (alarm false _)).trans (notify_upholds _ _ _)
  · exact ((state _).trans (alarm true _)).trans (notify_upholds _ _ _)
  · exact (state _).trans (notify_upholds _ _ _)
  · exact Upholds.refl s

theorem debounced_upholds (s : State) : Upholds s (debounced s) := by
  have h : ∀ x, Upholds s { s with fire := x } := fun x => .elsewhere rfl fun _ => rfl
  exact .ite (fun _ => h _) fun _ => (h _).trans (fireLevel_upholds _)

theorem restoreFire_upholds (s : State) : Upholds s (restoreFire s) :=
  Upholds.trans (u := { s with fire := { s.fire with state := .normal } }) (.elsewhere rfl fun _ => rfl)
    ((Upholds.foldl (fun s' i => (dropAlarm_mayReorder s' i).upholds) allAps _).trans (notify_upholds _ _ _))

theorem loadTables_ap (s : State) (i : ApId) : (loadTables s).ap i = Aperture.reset (loadStatic s.store i.val) := by
  simp only [loadTables, State.ap, Fin.getElem_fin, Vector.getElem_ofFn]

theorem clampTo_bounds (lo hi v : Nat) (h : lo ≤ hi) : lo ≤ clampTo lo hi v ∧ clampTo lo hi v ≤ hi := by
  rw [clampTo_near lo hi v h, near]; omega

/-- A loaded run current is at most the loaded inrush current (R6). -/
theorem loadStatic_run_le (r : Store) (n : Nat) : (loadStatic r n).run ≤ (loadStatic r n).inrush := by
  unfold loadStatic
  split
  · obtain ⟨_, run⟩ := clampTo_bounds 1 100 (field1 r n 7) (by omega)
    exact (clampTo_bounds (clampTo 1 100 (field1 r n 7)) 200 (field1 r n 8) (by omega)).1
  · decide

theorem reset_contribution (f : Static) : (Aperture.reset f).contribution = 0 := by
  unfold Aperture.reset Aperture.contribution
  cases f.installed <;> rfl

/-- No branch carries current after a load (R111). -/
theorem loadTables_committed (s : State) (b : Branch) : (loadTables s).committed b = 0 := by
  refine List.sum_eq_zero fun x hx => ?_
  obtain ⟨i, -, rfl⟩ := List.mem_map.1 hx
  rw [loadTables_ap, reset_contribution]

/-- A load upholds the invariants, whatever stood before it. -/
theorem loadTables_upholds (s : State) : Upholds s (loadTables s) where
  current _ := ⟨fun b => by rw [loadTables_committed]; exact Nat.zero_le _,
    fun i => by rw [loadTables_ap]; exact loadStatic_run_le _ _⟩
  targets _ i := by rw [loadTables_ap]; exact ⟨rfl, rfl⟩
  known _ := (positionsKnown_iff _).2 fun i => by
    rw [loadTables_ap]
    unfold Aperture.reset
    cases (loadStatic s.store i.val).installed <;> rfl

theorem announceReset_upholds (kind : ResetKind) (reason : RestartReason) (s : State) :
    Upholds s (announceReset kind reason s) := by
  obtain ⟨x, h⟩ := announceReset_rest s kind reason
  rw [h]; exact .elsewhere rfl fun _ => rfl

theorem hardReset_upholds (kind : ResetKind) (cmsn : Bool) (sticky : Cond) (trigger : Option Trigger) (s : State) :
    Upholds s (hardReset kind cmsn sticky trigger s) := by
  unfold hardReset
  refine Upholds.trans ?_ (announceReset_upholds _ _ _)
  refine Upholds.trans ?_ (loadTables_upholds _)
  exact .elsewhere rfl fun _ => rfl

/-! ### Every command (section 1.7, R58, R94) -/

/-- From `s` to `t` the part acted without a reset of its front end or a second boundary: the invariants are upheld, and
QUERY-WEATHER reports the same of the front end (R58). -/
structure Acted (s t : State) : Prop extends Upholds s t where
  figures : frontEndFigures t.fe = frontEndFigures s.fe

theorem Acted.refl (s : State) : Acted s s := ⟨Upholds.refl s, rfl⟩

theorem Acted.trans (h : Acted s u) (g : Acted u t) : Acted s t :=
  ⟨h.toUpholds.trans g.toUpholds, g.figures.trans h.figures⟩

theorem Acted.foldl {α : Type} {f : State → α → State} (h : ∀ s x, Acted s (f s x)) (l : List α) (s : State) :
    Acted s (l.foldl f s) := by
  induction l generalizing s with
  | nil => exact Acted.refl s
  | cons x xs ih => exact (h s x).trans (ih _)

theorem Acted.elsewhere (aps : t.aps = s.aps) (br : t.branches = s.branches) (fe : t.fe = s.fe) : Acted s t :=
  ⟨.elsewhere aps fun b => by unfold State.branch; rw [br], by rw [fe]⟩

theorem advanceTo_acted (s : State) (n : Nat) : Acted s (s.advanceTo n) := .elsewhere rfl rfl rfl

/-- An event acts where its own effect upholds the invariants and leaves the front end. -/
theorem event_acted {f : State → State} (h : Upholds s (f s)) (fe : (f s).fe = s.fe) : Acted s (event f s) :=
  ⟨h.trans (finish_upholds false s (f s)), by rw [event, (finish_frame (f s) false s).fe, fe]⟩

theorem changeAdvisory_acted (d : Option Advisory) (s : State) : Acted s (changeAdvisory d s) := by
  have h : Upholds s { s with sup := { s.sup with advisory := d } } := .elsewhere rfl fun _ => rfl
  have g : Acted s (advisoryChanged { s with sup := { s.sup with advisory := d } }) := by
    unfold advisoryChanged
    split
    · exact ⟨h.trans ((compute_upholds _).trans (exposureUpdate_upholds _)),
        by rw [(exposureUpdate_frame _).fe]; rfl⟩
    · exact ⟨h, rfl⟩
  unfold changeAdvisory
  exact g.trans ⟨finish_upholds _ s _, by rw [(finish_frame _ _ s).fe]⟩

theorem doRestart_acted (reason : RestartReason) (s : State) : Acted s (doRestart reason s) := by
  unfold doRestart
  have h : Acted s (loadTables { s with store := { s.store with mode := .none } }) :=
    ⟨.trans (u := { s with store := { s.store with mode := .none } }) (.elsewhere rfl fun _ => rfl)
      (loadTables_upholds _), loadFrontEnd_figures _ _⟩
  exact h.trans ⟨announceReset_upholds _ _ _, by rw [(announceReset_frame (k := id) _ _ _).fe]⟩

/-! ### Requests -/

/-- An answer leaves the part as serving left it. -/
theorem placeReply_acted (p : Port) (kind : Byte) (x : Served) : Acted x.1 (placeReply p kind x) := by
  rcases x with ⟨v, _ | r⟩
  · exact Acted.refl v
  · exact .elsewhere rfl rfl rfl

theorem clearFaultOf_upholds (i : ApId) (s : State) : Upholds s (clearFaultOf i s) := by
  unfold clearFaultOf
  split
  · next e _ =>
    exact (stallCount_upholds i s fun _ => 0).trans (toRest_upholds (by rw [State.ap_modAp_self]; exact congrArg _ e))
  · next e _ => exact toRest_upholds (congrArg _ e)
  · exact Upholds.refl s

theorem clearFaultOf_frame (i : ApId) (s : State) : Frame Aperture.keep s (clearFaultOf i s) := by
  unfold clearFaultOf
  split
  · exact (Frame.modAp i _ rfl).trans (toRest_frame i _)
  · exact toRest_frame i s
  · exact Frame.refl _ s

theorem restoreFire_fe (s : State) : (restoreFire s).fe = s.fe := by
  unfold restoreFire
  rw [(announceFire_frame (k := Aperture.stands) _ _ _).fe,
    (Frame.foldl (fun s' i => dropAlarm_frame i s') allAps _).fe]

theorem clearSticky_acted (s : State) : Acted s (clearSticky s) := by
  unfold clearSticky; dsimp only
  have h : Acted s { s with fe := { s.fe with word := { s.fe.word with
      sticky := s.fe.word.sticky.zip and s.fe.word.live } } } := ⟨.elsewhere rfl fun _ => rfl, rfl⟩
  split
  · exact h.trans ⟨notify_upholds _ _ _, by rw [(Frame.notify (k := id) _ _).fe]⟩
  · exact h

theorem serveOrder_acted (p : Port) (body : List Byte) (s : State) : Acted s (serveOrder p body s).1 := by
  unfold serveOrder
  split
  · exact Acted.refl s
  · split
    · exact Acted.refl s
    · split
      · exact Acted.refl s
      · split
        · exact Acted.refl s
        · exact event_acted (postOrder_reorders p _ _ s).upholds (postOrder_frame _ s p _).fe

theorem postOrders_acted (p : Port) (y : Target) (l : List ApId) (s : State) :
    Acted s (event (fun v => l.foldl (fun v' i => postOrder p i y v') v) s) :=
  event_acted (f := fun v => l.foldl (fun v' i => postOrder p i y v') v)
    (Upholds.foldl (fun v i => (postOrder_reorders p i y v).upholds) l s)
    (Frame.foldl (fun v i => postOrder_frame i v p y) l s).fe

theorem serveOrderZone_acted (p : Port) (body : List Byte) (s : State) : Acted s (serveOrderZone p body s).1 := by
  unfold serveOrderZone
  split
  · exact Acted.refl s
  · split
    · exact Acted.refl s
    · split
      · exact Acted.refl s
      · exact postOrders_acted p _ _ s

theorem serveRelease_acted (p : Port) (body : List Byte) (s : State) : Acted s (serveRelease p body s).1 := by
  unfold serveRelease
  split
  · exact Acted.refl s
  · split
    · exact Acted.refl s
    · exact event_acted (releaseOrder_mayReorder p _ s).upholds (releaseOrder_frame _ s p).fe

theorem serveClearFault_acted (p : Port) (body : List Byte) (s : State) : Acted s (serveClearFault p body s).1 := by
  unfold serveClearFault
  split
  · exact Acted.refl s
  · split
    · exact Acted.refl s
    · exact event_acted (clearFaultOf_upholds _ s) (clearFaultOf_frame _ s).fe

theorem serveAlarmRestore_acted (s : State) : Acted s (serveAlarmRestore s).1 := by
  unfold serveAlarmRestore
  split
  · exact Acted.refl s
  · exact Acted.refl s
  · exact event_acted (restoreFire_upholds s) (restoreFire_fe s)

/-- Serving a request acts (section 10.3). -/
theorem serve_acted (k : RequestKind) (p : Port) (body : List Byte) (s : State) : Acted s (serve k p body s).1 := by
  have store : ∀ r, Acted s { s with store := r } := fun r => .elsewhere rfl rfl rfl
  cases k <;> unfold serve <;> dsimp only
  case order => exact serveOrder_acted p body s
  case orderZone => exact serveOrderZone_acted p body s
  case release => exact serveRelease_acted p body s
  case clearFault => exact serveClearFault_acted p body s
  case advisory => exact changeAdvisory_acted _ s
  case advisoryCancel =>
    unfold serveAdvisoryCancel answer; dsimp only
    split
    · exact changeAdvisory_acted none s
    · exact Acted.refl s
  case clearConditions => exact clearSticky_acted s
  case restart => unfold serveRestart; split; exacts [Acted.refl s, doRestart_acted _ s]
  case alarmRestore => exact serveAlarmRestore_acted s
  case queryAperture =>
    unfold serveQueryAperture
    split
    · exact Acted.refl s
    · split <;> exact Acted.refl s
  case queryBranch => unfold serveQueryBranch; split <;> exact Acted.refl s
  case queryWeather | queryTrigger => exact Acted.refl s
  case queryQueue => unfold serveQueryQueue; split <;> exact Acted.refl s
  case queryZone => unfold serveQueryZone; split <;> exact Acted.refl s
  case nextNotice => exact .elsewhere rfl rfl rfl
  case storeMode =>
    unfold serveStoreMode
    split
    · exact Acted.refl s
    · split
      · exact Acted.refl s
      · split
        · exact store _
        · exact Acted.refl s
  case storeAct =>
    unfold serveStoreAct
    split
    · exact Acted.refl s
    · split
      · exact Acted.refl s
      · exact store _
  case storeRead =>
    unfold serveStoreRead
    split
    · exact Acted.refl s
    · split <;> exact Acted.refl s
  case lock =>
    unfold serveLock
    split
    · exact store _
    · exact store _
    · exact store _
    · exact Acted.refl s
  case leaveCommissioning =>
    unfold serveLeaveCommissioning
    split
    · exact Acted.refl s
    · split
      · exact (store _).trans (doRestart_acted _ _)
      · exact Acted.refl s

theorem serveRequest_acted (p : Port) (kind : Byte) (body : List Byte) (s : State) :
    Acted s (serveRequest p kind body s).1 := by
  unfold serveRequest
  split
  · exact serve_acted _ p body s
  · exact Acted.refl s

theorem modPort_acted (p : Port) (f : PortRec → PortRec) (s : State) : Acted s (s.modPort p f) := .elsewhere rfl rfl rfl

theorem servePending_acted (p : Port) (s : State) : Acted s (servePending p s) := by
  unfold servePending
  split
  · exact (serveRequest_acted p _ _ s).trans (placeReply_acted p _ _)
  · exact Acted.refl s

theorem writeByte_acted (p : Port) (x : Byte) (s : State) : Acted s (writeByte p x s) := by
  unfold writeByte
  split
  · exact modPort_acted p _ s
  · exact modPort_acted p _ s
  · unfold assemble; dsimp only
    split
    · exact (modPort_acted p _ s).trans ((modPort_acted p _ _).trans (servePending_acted p _))
    · exact modPort_acted p _ s
  · exact modPort_acted p _ s

theorem submit_acted {p : Port} {kind : Byte} {body : List Byte} (h : submit p kind body s = .next t) : Acted s t := by
  cases h
  exact Acted.foldl (fun s' x => writeByte_acted p x s') _ s

theorem completeStore_acted (op : StoreOp) (s : State) : Acted s (completeStore op s) := by
  unfold completeStore
  have h : Acted s (answerAct op { s with store := s.store.finishOp }) := by
    unfold answerAct
    split
    · exact .trans (u := { s with store := s.store.finishOp }) (.elsewhere rfl rfl rfl)
        (placeReply_acted .S _ (_, some _))
    · exact .elsewhere rfl rfl rfl
  refine h.trans (Acted.foldl (fun s' p => ?_) allPorts _)
  unfold serveWaiting
  split
  · exact servePending_acted p s'
  · exact Acted.refl s'

end Sys2Proof.Machine

end

