-- ==== Sys2Proof/Proofs/EveryCommand.lean ====
section
/-! PROOFS. Every command keeps the invariants: O7, O9 and O12. -/

namespace Sys2Proof.Machine

open Sys2Proof

variable {i j k : ApId} {b : Branch} {s t u : State}

/-! ### Timer expiries -/

theorem modBranch_acted (b : Branch) (f : BranchRec → BranchRec) (s : State)
    (h : (f (s.branch b)).limit = (s.branch b).limit) : Upholds s (s.modBranch b f) :=
  .elsewhere rfl fun c => by
    rw [State.branch_modBranch]
    split
    · next e => rw [← e, h]
    · rfl

theorem toRunning_upholds (h : (s.ap i).state = .starting) : Upholds s (toRunning i s) :=
  .motion (enter_frame i s _ _ rfl) (fun j => enter_ap i j s _ _) (by rw [h]; rfl) fun le => by
    simp only [Aperture.contribution, h]; exact le

theorem endWarning_upholds (z : ZoneId) (s : State) : Upholds s (endWarning z s) := by
  unfold endWarning; dsimp only
  exact Upholds.trans (.elsewhere (t := s.setWarning z ⟨_, none⟩) rfl fun _ => rfl)
    (Upholds.foldl (fun v i => .ite (fun _ => owe_upholds _ v) fun _ => Upholds.refl v) allAps _)

theorem endWarning_fe (z : ZoneId) (s : State) : (endWarning z s).fe = s.fe := by
  unfold endWarning; dsimp only
  exact (Frame.foldl (k := id) (fun v i => .ite (fun _ => Frame.owe _) fun _ => Frame.refl _ v) allAps
    (s.setWarning z ⟨_, none⟩)).fe

theorem nodeTimeout_upholds (i : ApId) (s : State) : Upholds s (nodeTimeout i s) := by
  unfold nodeTimeout; dsimp only
  refine (node_upholds i s fun a => { a.node with contactTimer := none }).trans ?_
  split
  · exact .ite (fun _ => releaseHeld_upholds i _) fun _ => Upholds.refl _
  · next e => exact confirmStop_upholds false (congrArg _ e)
  · exact Upholds.refl _

theorem nodeTimeout_frame (i : ApId) (s : State) : Frame Aperture.ordered s (nodeTimeout i s) := by
  have h : Frame Aperture.ordered s (s.modAp i fun a => { a with node := { a.node with contactTimer := none } }) :=
    Frame.modAp i _ rfl
  unfold nodeTimeout; dsimp only
  split
  · exact Frame.ite (fun _ => h.trans ((releaseHeld_frame i _).mono keep_ordered)) fun _ => h
  · exact h.trans ((confirmStop_frame i _ false).mono keep_ordered)
  · exact h

theorem endHolding_fe (s : State) : (endHolding s).fe = s.fe := by
  have h := (Frame.foldl (fun s' i => dropClaim_frame i s') allAps s).fe
  unfold endHolding
  generalize allAps.foldl dropClaim s = v at h
  rw [(announceWeather_frame (k := id) _ _ _).fe]
  exact h

theorem fireLevel_fe (s : State) : (fireLevel s).fe = s.fe := by
  have alarm : ∀ r v, (allAps.foldl (postAlarm r) v).fe = v.fe := fun r v =>
    (Frame.foldl (fun s' i => postAlarm_frame i s' r) allAps v).fe
  unfold fireLevel
  split
  · rw [(announceFire_frame (k := id) _ _ _).fe, alarm]
  · rw [(announceFire_frame (k := id) _ _ _).fe, alarm]
  · rw [(announceFire_frame (k := id) _ _ _).fe]
  · rfl

theorem debounced_fe (s : State) : (debounced s).fe = s.fe := by
  unfold debounced; dsimp only
  split
  · rfl
  · exact fireLevel_fe _

/-- A timer that expired at `n` ms has its event on the state of that uptime. -/
theorem expiry_acted {f : State → State} (n : Nat) (h : ∀ v : State, v.aps = s.aps → Upholds v (f v))
    (fe : ∀ v, (f v).fe = v.fe) : Acted s (event f (s.advanceTo n)) :=
  (advanceTo_acted s n).trans (event_acted (h _ rfl) (fe _))

/-! ### The arbiter (R139) -/

theorem sendOrder_upholds (i : ApId) (x : Exchange) (s : State) : Upholds s (sendOrder i x s) :=
  (node_upholds i s fun a => { a.node with sendCount := some (nextTag s i) }).trans (link_upholds _ _)

theorem sendPoll_upholds (i : ApId) (s : State) : Upholds s (sendPoll i s) := by
  unfold sendPoll; dsimp only
  split
  · exact link_upholds _ _
  · exact .elsewhere rfl fun _ => rfl

theorem sendPoll_fe (i : ApId) (s : State) : (sendPoll i s).fe = s.fe := by
  unfold sendPoll; dsimp only
  split <;> rfl

theorem pollNext_acted (s : State) : Acted s (pollNext s) := by
  unfold pollNext
  split
  · exact ⟨sendPoll_upholds _ s, by rw [sendPoll_fe]⟩
  · exact ⟨(link_upholds s _).trans (sendPoll_upholds _ _), by rw [sendPoll_fe]⟩
  · exact Acted.refl s

theorem arbitrate_acted (s : State) : Acted s (arbitrate s) := by
  unfold arbitrate
  split
  · exact .elsewhere rfl rfl rfl
  · split
    · exact pollNext_acted s
    · split
      · exact ⟨(link_upholds s _).trans (sendOrder_upholds _ _ _), rfl⟩
      · exact ⟨(link_upholds s _).trans (sendOrder_upholds _ _ _), rfl⟩
      · exact pollNext_acted s

theorem startSlot_acted (s : State) : Acted s (startSlot s) :=
  Acted.trans (u := { s.advanceTo s.link.nextSlot with link :=
    { s.link with nextSlot := (s.advanceTo s.link.nextSlot).clock.ms + Config.slotMs } }) (.elsewhere rfl rfl rfl)
    (arbitrate_acted _)

/-! ### Every command -/

theorem next_inj {x y : State} (h : (Host.Outcome.next x : Host.Outcome State Fault Refusal) = .next y) : x = y := by
  injection h


/-- The commands after which the front end's figures are new (R58, R60). -/
def renewsFigures : Instr → Bool
  | .por _ | .pinReset _ | .secondBoundary _ _ _ => true
  | _ => false

theorem exec_acted {c : Instr} (h : exec c s = .next t) (r : renewsFigures c = false) : Acted s t := by
  cases c
  case por | pinReset | secondBoundary => cases r
  case anemoPulse =>
    obtain rfl := next_inj h
    refine ⟨.elsewhere rfl fun _ => rfl, ?_⟩
    dsimp only; split <;> rfl
  case holdTimerExpiry =>
    simp only [exec, execHoldTimerExpiry] at h
    split at h <;> obtain rfl := next_inj h
    · exact expiry_acted _ (fun v _ => endHolding_upholds v) endHolding_fe
    · exact Acted.refl s
  case advisoryExpiry =>
    simp only [exec, execAdvisoryExpiry] at h
    split at h <;> obtain rfl := next_inj h
    · exact (advanceTo_acted s _).trans (changeAdvisory_acted none _)
    · exact Acted.refl s
  case roomExpiry a =>
    simp only [exec, execRoomExpiry] at h
    split at h <;> obtain rfl := next_inj h
    · exact expiry_acted _ (fun v _ => (expireRoom_reorders a _ _ v).upholds) fun v => (expireRoom_frame a v _ _).fe
    · exact Acted.refl s
  case quietTimerExpiry b =>
    simp only [exec, execQuietTimerExpiry] at h
    split at h <;> obtain rfl := next_inj h
    · exact expiry_acted _ (fun v _ => (modBranch_acted b _ v rfl).trans (owe_upholds b _)) fun v => by simp
    · exact Acted.refl s
  case branchGapTimerExpiry b =>
    simp only [exec, execBranchGapTimerExpiry] at h
    split at h <;> obtain rfl := next_inj h
    · exact expiry_acted _ (fun v _ => (modBranch_acted b _ v rfl).trans (owe_upholds b _)) fun v => by simp
    · exact Acted.refl s
  case inrushTimerExpiry a =>
    simp only [exec, execInrushTimerExpiry] at h
    split at h <;> obtain rfl := next_inj h
    · next e _ =>
      exact expiry_acted _ (fun v aps => toRunning_upholds (by rw [State.ap_of_aps aps]; exact e)) fun v =>
        (enter_frame (k := Aperture.keep) a v _ _ rfl).fe
    · exact Acted.refl s
  case travelTimerExpiry a =>
    simp only [exec, execTravelTimerExpiry] at h
    split at h <;> obtain rfl := next_inj h
    · exact expiry_acted _ (fun v _ => halt_upholds a _ v) fun v => (halt_frame a v _).fe
    · exact Acted.refl s
  case settleTimerExpiry a =>
    simp only [exec, execSettleTimerExpiry] at h
    split at h <;> obtain rfl := next_inj h
    · next e _ =>
      refine expiry_acted _ (fun v aps => (settled_upholds ?_).trans (owe_upholds _ _)) fun v => ?_
      · rw [State.ap_of_aps aps, e]; rfl
      · rw [State.owe_fe, (settled_frame a v).fe]
    · exact Acted.refl s
  case retryTimerExpiry a =>
    simp only [exec, execRetryTimerExpiry] at h
    split at h <;> obtain rfl := next_inj h
    · next e _ =>
      exact expiry_acted _ (fun v aps => toRest_upholds (by rw [State.ap_of_aps aps, e]; rfl)) fun v =>
        (toRest_frame a v).fe
    · exact Acted.refl s
  case warnTimerExpiry z =>
    simp only [exec, execWarnTimerExpiry] at h
    split at h <;> obtain rfl := next_inj h
    · exact expiry_acted _ (fun v _ => endWarning_upholds z v) (endWarning_fe z)
    · exact Acted.refl s
  case contactTimerExpiry a =>
    simp only [exec, execContactTimerExpiry] at h
    split at h <;> obtain rfl := next_inj h
    · exact expiry_acted _ (fun v _ => nodeTimeout_upholds a v) fun v => (nodeTimeout_frame a v).fe
    · exact Acted.refl s
  case linkSlotStart =>
    simp only [exec, execLinkSlotStart] at h
    split at h <;> obtain rfl := next_inj h
    · exact Acted.refl s
    · exact startSlot_acted s
  case exchangeCompleted reply =>
    simp only [exec, execExchangeCompleted] at h
    split at h <;> obtain rfl := next_inj h
    · exact expiry_acted _ (fun v _ => complete_upholds _ reply v) fun v => (complete_frame v _ reply).fe
    · exact Acted.refl s
  case alarmLineChange => cases h; exact .elsewhere rfl rfl rfl
  case debounceTimerExpiry =>
    simp only [exec, execDebounceTimerExpiry] at h
    split at h <;> obtain rfl := next_inj h
    · exact expiry_acted _ (fun v _ => debounced_upholds v) debounced_fe
    · exact Acted.refl s
  case requestByteWrite p csN x =>
    cases h
    split
    · exact Acted.refl s
    · exact writeByte_acted p x s
  case statusWrite => cases h; exact Acted.refl s
  case replyByteRead p csN =>
    cases h
    split
    · exact Acted.refl s
    · exact modPort_acted p _ s
  case waitHoldOff p x =>
    cases h
    split
    · exact modPort_acted p _ s
    · exact Acted.refl s
  case heldStrobeEnd p => cases h; exact modPort_acted p _ s
  case portGapTimerExpiry p =>
    simp only [exec, execPortGapTimerExpiry] at h
    split at h <;> obtain rfl := next_inj h
    · exact (advanceTo_acted s _).trans (modPort_acted p _ _)
    · exact Acted.refl s
  case storeOperationComplete =>
    simp only [exec, execStoreOperationComplete] at h
    split at h <;> obtain rfl := next_inj h
    · exact (advanceTo_acted s _).trans (completeStore_acted _ _)
    · exact Acted.refl s
  all_goals exact submit_acted h

theorem secondBoundary_upholds (vane : Byte) (rain rainok : Bool) (s : State) :
    Upholds s (finish true s (gustUpdate (frontEndStages vane rain rainok (beginBoundary vane rain rainok s)))) := by
  refine Upholds.trans ?_ (finish_upholds _ _ _)
  refine Upholds.trans (u := frontEndStages vane rain rainok (beginBoundary vane rain rainok s)) ?_ ?_
  · unfold frontEndStages; dsimp only
    split
    · refine Upholds.trans ?_ (notify_upholds _ _ _)
      exact .elsewhere rfl fun _ => rfl
    · exact .elsewhere rfl fun _ => rfl
  · refine Upholds.trans ?_ (exposureUpdate_upholds _)
    refine Upholds.trans ?_ (compute_upholds _)
    exact .elsewhere rfl fun _ => rfl

theorem exec_upholds {c : Instr} (h : exec c s = .next t) : Upholds s t := by
  cases r : renewsFigures c with
  | false => exact (exec_acted h r).toUpholds
  | true =>
    match c, r with
    | .por _, _ => obtain rfl := next_inj h; exact hardReset_upholds _ _ _ _ s
    | .pinReset _, _ => obtain rfl := next_inj h; exact hardReset_upholds _ _ _ _ s
    | .secondBoundary _ _ _, _ => obtain rfl := next_inj h; exact secondBoundary_upholds _ _ _ s

theorem step_upholds (h : step s = .next t) : Upholds s t := by
  unfold step at h
  split at h
  · refine Upholds.trans ?_ (exec_upholds h)
    exact .elsewhere rfl fun _ => rfl
  · obtain rfl := next_inj h; exact .elsewhere rfl fun _ => rfl

end Sys2Proof.Machine

open Sys2Proof Sys2Proof.Machine

/-- Settles O7. -/
theorem branchCurrentNeverExceedsLimit : Obligations.BranchCurrentNeverExceedsLimit :=
  fun _ _ bounded h => (step_upholds h).current bounded

/-- Settles O9. -/
theorem effectiveTargetFollowsSlate : Obligations.EffectiveTargetFollowsSlate :=
  fun _ _ derived h => (step_upholds h).targets derived

/-- Settles O12. -/
theorem positionKnownByMotionState : Obligations.PositionKnownByMotionState :=
  fun _ _ known h => (step_upholds h).known known

end

