-- ==== Sys2Proof/Proofs/Queries.lean ====
section
/-! PROOFS. Requests served and answered, and the queries: O54. -/

namespace Sys2Proof.Machine

open Sys2Proof

variable {s t v : State} {p : Port} {k : RequestKind} {body : List Byte}

/-! ### A request that is served, and its answer (R158, R179) -/

theorem kindOf_code (k : RequestKind) : kindOf k.code = some k := by cases k <;> decide

theorem RequestKind.length_le (h : k.lengthOk body.length = true) : body.length ≤ 30 := by
  cases k <;> simp only [RequestKind.lengthOk, decide_eq_true_eq, Bool.or_eq_true] at h <;> omega

/-- A whole request of an allowed kind and length at a ready port is served in the state that asks it. -/
theorem submit_served (ready : (s.port p).ready) (allowed : k.allowedOn p = true)
    (len : k.lengthOk body.length = true) : submit p k.code body s =
      .next (placeReply p k.code (serve k p body (s.askedAt p k body))) := by
  rw [submit_ready ready k.code body (RequestKind.length_le len), serveRequest, checkRequest, kindOf_code]
  simp only [allowed, len, Bool.not_true, Bool.false_eq_true, if_false, if_true]
  rfl

/-- A request whose server leaves the part as it found it is answered, and nothing else changes. -/
theorem submit_answered {c : ReplyCode} {x : List Byte} (ready : (s.port p).ready) (allowed : k.allowedOn p = true)
    (len : k.lengthOk body.length = true)
    (e : serve k p body (s.askedAt p k body) = answer c x (s.askedAt p k body)) :
    submit p k.code body s = .next (s.answeredAt p k ⟨c, x, false⟩) := by
  rw [submit_served ready allowed len, e]
  exact congrArg _ (placeReply_asked ready.2 k _ _)

/-! ### The queries -/

/-- What the request of a port cannot be seen by. -/
theorem apNamed_askedAt (n : Nat) : apNamed (s.askedAt p k body) n = apNamed s n := rfl

theorem zoneOf_askedAt (i : ApId) : (s.askedAt p k body).zoneOf i = s.zoneOf i := rfl

theorem bodyAt_one (n : Byte) : bodyAt [n] 0 = n.toNat := rfl

theorem queryAperture_ok {i : ApId} {n : Byte} (ready : (s.port p).ready) (named : apNamed s n.toNat = some i)
    (r : (s.zoneOf i).right p ≠ .none) : exec (.queryAperture p n) s =
      .next (s.answeredAt p .queryAperture ⟨.ok, apertureBody s i, false⟩) := by
  refine submit_answered (k := .queryAperture) ready rfl rfl ?_
  have may : mayObserve (s.askedAt p .queryAperture [n]) p i = true := decide_eq_true r
  simp only [serve, serveQueryAperture, bodyAt_one, apNamed_askedAt, named, may, if_true]
  rfl

theorem queryAperture_noRight {i : ApId} {n : Byte} (ready : (s.port p).ready) (named : apNamed s n.toNat = some i)
    (r : (s.zoneOf i).right p = .none) : exec (.queryAperture p n) s =
      .next (s.answeredAt p .queryAperture ⟨.noRight, [], false⟩) := by
  refine submit_answered (k := .queryAperture) ready rfl rfl ?_
  have may : mayObserve (s.askedAt p .queryAperture [n]) p i = false := decide_eq_false fun h => h r
  simp only [serve, serveQueryAperture, bodyAt_one, apNamed_askedAt, named, may]
  rfl

theorem queryAperture_noAperture {n : Byte} (ready : (s.port p).ready) (named : apNamed s n.toNat = none) :
    exec (.queryAperture p n) s = .next (s.answeredAt p .queryAperture ⟨.noAperture, [], false⟩) := by
  refine submit_answered (k := .queryAperture) ready rfl rfl ?_
  simp only [serve, serveQueryAperture, bodyAt_one, apNamed_askedAt, named]
  rfl

theorem queryBranch_ok {b : Branch} {n : Byte} (ready : (s.port p).ready) (named : branchNamed n.toNat = some b) :
    exec (.queryBranch p n) s = .next (s.answeredAt p .queryBranch ⟨.ok, branchBody s b, false⟩) := by
  refine submit_answered (k := .queryBranch) ready rfl rfl ?_
  simp only [serve, serveQueryBranch, bodyAt_one, named]
  rfl

theorem branchNamed_eq_none {n : Nat} (h : 3 < n) : branchNamed n = none := by
  match n, h with
  | n + 4, _ => rfl

theorem queryBranch_badFormat {n : Byte} (ready : (s.port p).ready) (h : 3 < n.toNat) :
    exec (.queryBranch p n) s = .next (s.answeredAt p .queryBranch ⟨.badFormat, [], false⟩) := by
  refine submit_answered (k := .queryBranch) ready rfl rfl ?_
  simp only [serve, serveQueryBranch, bodyAt_one, branchNamed_eq_none h]
  rfl

theorem queryQueue_ok {n : Byte} (ready : (s.port p).ready) (h : n.toNat ≤ 47) :
    exec (.queryQueue p n) s = .next (s.answeredAt p .queryQueue ⟨.ok, queueBody s n.toNat, false⟩) := by
  exact submit_answered (k := .queryQueue) ready rfl rfl (if_neg (c := 47 < bodyAt [n] 0) (not_lt.2 h))

theorem queryQueue_badFormat {n : Byte} (ready : (s.port p).ready) (h : 47 < n.toNat) :
    exec (.queryQueue p n) s = .next (s.answeredAt p .queryQueue ⟨.badFormat, [], false⟩) := by
  exact submit_answered (k := .queryQueue) ready rfl rfl (if_pos (c := 47 < bodyAt [n] 0) h)

theorem zoneNamed_eq_none {n : Nat} (h : 8 < n) : zoneNamed n = none := by
  unfold zoneNamed
  rw [dif_neg (by omega), if_neg (by omega)]

theorem queryZone_ok {z : ZoneId} {n : Byte} (ready : (s.port p).ready) (named : zoneNamed n.toNat = some (some z)) :
    exec (.queryZone p n) s = .next (s.answeredAt p .queryZone ⟨.ok, zoneBody s z, false⟩) := by
  refine submit_answered (k := .queryZone) ready rfl rfl ?_
  simp only [serve, serveQueryZone, bodyAt_one, named]
  rfl

theorem queryZone_base {n : Byte} (ready : (s.port p).ready) (named : zoneNamed n.toNat = some none) :
    exec (.queryZone p n) s = .next (s.answeredAt p .queryZone ⟨.ok, baseBody s s.freeDraws, false⟩) := by
  refine submit_answered (k := .queryZone) ready rfl rfl ?_
  simp only [serve, serveQueryZone, bodyAt_one, named]
  rfl

theorem queryZone_badFormat {n : Byte} (ready : (s.port p).ready) (h : 8 < n.toNat) :
    exec (.queryZone p n) s = .next (s.answeredAt p .queryZone ⟨.badFormat, [], false⟩) := by
  refine submit_answered (k := .queryZone) ready rfl rfl ?_
  simp only [serve, serveQueryZone, bodyAt_one, zoneNamed_eq_none h]
  rfl

end Sys2Proof.Machine

open Sys2Proof Sys2Proof.Machine

/-- Settles O54: every command but a reset and a second boundary acts without renewing the front end's figures, and each
query is answered from the state that asks it. -/
theorem queriesChangeNothing : Obligations.QueriesChangeNothing := by
  refine ⟨fun s t c h notReset notBoundary => (exec_acted h ?_).figures, fun s p n ready => ⟨fun i => queryAperture_ok ready,
    fun i x => rfl, fun i => queryAperture_noRight ready, queryAperture_noAperture ready, fun b => queryBranch_ok ready,
    queryBranch_badFormat ready, ?_, queryQueue_ok ready, queryQueue_badFormat ready, fun z => queryZone_ok ready,
    queryZone_base ready, queryZone_badFormat ready, ?_⟩⟩
  · cases c <;> try rfl
    case por b => exact absurd rfl (notReset b).1
    case pinReset b => exact absurd rfl (notReset b).2
    case secondBoundary x y z => exact absurd rfl (notBoundary x y z)
  · exact submit_answered (k := .queryWeather) ready rfl rfl rfl
  · exact submit_answered (k := .queryTrigger) ready rfl rfl rfl

end

