-- ==== Sys2Proof/Proofs/Refusals.lean ====
section
/-! PROOFS. Refusals of orders, releases and fault clearances: O50. -/

namespace Sys2Proof.Machine

open Sys2Proof

variable {s t v : State} {p : Port} {k : RequestKind} {body : List Byte} {i : ApId} {index form : Byte}
  {value : BitVec 16}

/-! ### The bytes of an order (R26, R41) -/

/-- A field written most significant byte first reads back (R179). -/
theorem wordBytes_toNat (w : BitVec 16) :
    (BitVec.ofNat 8 (w.toNat / 256)).toNat * 256 + (BitVec.ofNat 8 w.toNat).toNat = w.toNat := by
  have := w.isLt
  simp only [BitVec.toNat_ofNat]
  omega

/-- The body of an ORDER or ORDER-ZONE. -/
def orderBody (index form : Byte) (value : BitVec 16) : List Byte := [index, form] ++ wordBytes value

theorem orderBody_index : bodyAt (orderBody index form value) 0 = index.toNat := rfl

theorem orderBody_form : bodyAt (orderBody index form value) 1 = form.toNat := rfl

theorem orderBody_value : bodyAt2 (orderBody index form value) 2 = value.toNat := wordBytes_toNat value

theorem parseTarget_eq_none {form value : Nat} (h : 1 < form) : parseTarget form value = none := by
  match form, h with
  | n + 2, _ => rfl

/-! ### Refusals (R14, R26, R28 to R30, R40, R41) -/

theorem mayOrder_askedAt : mayOrder (s.askedAt p k body) p i = decide ((s.zoneOf i).right p = .order) := rfl

theorem weatherHeld_askedAt (x : Target) : weatherHeld (s.askedAt p k body) p i x = weatherHeld s p i x := rfl

section
variable (ready : (s.port p).ready)
include ready

/-- An ORDER refused with `c` is answered so, and nothing else changes. -/
theorem order_refused {c : ReplyCode}
    (e : serveOrder p (orderBody index form value) (s.askedAt p .order (orderBody index form value)) =
      refuse c (s.askedAt p .order (orderBody index form value))) :
    exec (.order p index form value) s = .next (s.answeredAt p .order ⟨c, [], false⟩) :=
  submit_answered (k := .order) ready rfl rfl e

theorem orderZone_refused {c : ReplyCode}
    (e : serveOrderZone p (orderBody index form value) (s.askedAt p .orderZone (orderBody index form value)) =
      refuse c (s.askedAt p .orderZone (orderBody index form value))) :
    exec (.orderZone p index form value) s = .next (s.answeredAt p .orderZone ⟨c, [], false⟩) :=
  submit_answered (k := .orderZone) ready rfl rfl e

theorem release_refused {c : ReplyCode}
    (e : serveRelease p [index] (s.askedAt p .release [index]) = refuse c (s.askedAt p .release [index])) :
    exec (.release p index) s = .next (s.answeredAt p .release ⟨c, [], false⟩) :=
  submit_answered (k := .release) ready rfl rfl e

theorem clearFault_refused {c : ReplyCode} (hp : p ≠ .K)
    (e : serveClearFault p [index] (s.askedAt p .clearFault [index]) = refuse c (s.askedAt p .clearFault [index])) :
    exec (.clearFault p index) s = .next (s.answeredAt p .clearFault ⟨c, [], false⟩) :=
  submit_answered (k := .clearFault) ready (by revert hp; cases p <;> decide) rfl e

theorem order_noAperture (named : apNamed s index.toNat = none) : exec (.order p index form value) s =
    .next (s.answeredAt p .order ⟨.noAperture, [], false⟩) := by
  refine order_refused ready ?_
  simp only [serveOrder, orderBody_index, apNamed_askedAt, named]

theorem order_noRight (named : apNamed s index.toNat = some i) (r : (s.zoneOf i).right p ≠ .order) :
    exec (.order p index form value) s = .next (s.answeredAt p .order ⟨.noRight, [], false⟩) := by
  refine order_refused ready ?_
  simp only [serveOrder, orderBody_index, apNamed_askedAt, named, mayOrder_askedAt, decide_eq_false r, Bool.not_false,
    if_true]

theorem order_badFormat (named : apNamed s index.toNat = some i) (r : (s.zoneOf i).right p = .order)
    (h : 1 < form.toNat) :
    exec (.order p index form value) s = .next (s.answeredAt p .order ⟨.badFormat, [], false⟩) := by
  refine order_refused ready ?_
  simp only [serveOrder, orderBody_index, orderBody_form, apNamed_askedAt, named, mayOrder_askedAt, decide_eq_true r,
    Bool.not_true, Bool.false_eq_true, if_false, parseTarget_eq_none h]

theorem order_weatherHeld (named : apNamed s index.toNat = some i) (r : (s.zoneOf i).right p = .order) (hp : p ≠ .L)
    (h : form.toNat = 0) (opens : 0 < value.toNat) (held : (s.ap i).slate.weather.isSome = true) :
    exec (.order p index form value) s = .next (s.answeredAt p .order ⟨.weatherHeld, [], false⟩) := by
  refine order_refused ready ?_
  have wh : weatherHeld s p i (.pos (min 1000 value.toNat)) = true := by
    simp [weatherHeld, hp, Target.opening, held, opens]
  simp only [serveOrder, orderBody_index, orderBody_form, orderBody_value, apNamed_askedAt, named, mayOrder_askedAt,
    decide_eq_true r, Bool.not_true, Bool.false_eq_true, if_false, h, parseTarget, weatherHeld_askedAt, wh, if_true]

theorem orderZone_noZone (h : 8 < index.toNat) : exec (.orderZone p index form value) s =
    .next (s.answeredAt p .orderZone ⟨.badFormat, [], false⟩) := by
  refine orderZone_refused ready ?_
  simp only [serveOrderZone, orderBody_index, zoneNamed_eq_none h]

theorem orderZone_noRight {z : Option ZoneId} (named : zoneNamed index.toNat = some z)
    (r : (s.descriptor z).right p ≠ .order) : exec (.orderZone p index form value) s =
      .next (s.answeredAt p .orderZone ⟨.noRight, [], false⟩) := by
  refine orderZone_refused ready ?_
  simp only [serveOrderZone, orderBody_index, named]
  exact if_pos r

theorem orderZone_badFormat {z : Option ZoneId} (named : zoneNamed index.toNat = some z)
    (r : (s.descriptor z).right p = .order) (h : 1 < form.toNat) : exec (.orderZone p index form value) s =
      .next (s.answeredAt p .orderZone ⟨.badFormat, [], false⟩) := by
  refine orderZone_refused ready ?_
  simp only [serveOrderZone, orderBody_index, orderBody_form, named, parseTarget_eq_none h]
  exact if_neg (not_not.2 r)

theorem release_noAperture (named : apNamed s index.toNat = none) : exec (.release p index) s =
    .next (s.answeredAt p .release ⟨.noAperture, [], false⟩) := by
  refine release_refused ready ?_
  simp only [serveRelease, bodyAt_one, apNamed_askedAt, named]

theorem release_noRight (named : apNamed s index.toNat = some i) (r : (s.zoneOf i).right p ≠ .order) :
    exec (.release p index) s = .next (s.answeredAt p .release ⟨.noRight, [], false⟩) := by
  refine release_refused ready ?_
  simp only [serveRelease, bodyAt_one, apNamed_askedAt, named, mayOrder_askedAt, decide_eq_false r, Bool.not_false,
    if_true]

theorem clearFault_noAperture (hp : p ≠ .K) (named : apNamed s index.toNat = none) : exec (.clearFault p index) s =
    .next (s.answeredAt p .clearFault ⟨.noAperture, [], false⟩) := by
  refine clearFault_refused ready hp ?_
  simp only [serveClearFault, bodyAt_one, apNamed_askedAt, named]

theorem clearFault_noRight (hp : p ≠ .K) (named : apNamed s index.toNat = some i)
    (r : (s.zoneOf i).right p ≠ .order) : exec (.clearFault p index) s =
      .next (s.answeredAt p .clearFault ⟨.noRight, [], false⟩) := by
  refine clearFault_refused ready hp ?_
  simp only [serveClearFault, bodyAt_one, apNamed_askedAt, named, mayOrder_askedAt, decide_eq_false r, Bool.not_false,
    if_true]

end

end Sys2Proof.Machine

open Sys2Proof Sys2Proof.Machine

/-- Settles O50: every refusal is answered from the state that asks. -/
theorem refusedOrdersChangeNothing : Obligations.RefusedOrdersChangeNothing :=
  fun _ _ _ _ _ ready => ⟨order_noAperture ready, fun _ => order_noRight ready, fun _ => order_badFormat ready,
    fun _ named r hp h opens held => order_weatherHeld ready named r hp h opens held, orderZone_noZone ready,
    fun _ => orderZone_noRight ready, fun _ => orderZone_badFormat ready, release_noAperture ready,
    fun _ => release_noRight ready, clearFault_noAperture ready, fun _ hp => clearFault_noRight ready hp⟩

end

