-- ==== Sys2Proof/Proofs/Loads.lean ====
section
/-! PROOFS. What a load and the notices of a reset leave (R162, R165 to R167). -/

namespace Sys2Proof.Machine

open Sys2Proof

variable {s t u v : State} {p q : Port}

/-! ### The records that a load corrects (R6, R36, R93, R167) -/

theorem any_outside (l : List (Nat × Nat × Nat)) :
    (l.any fun f => f.1 < f.2.1 || f.2.2 < f.1) = l.any fun f => outside f.2.1 f.2.2 f.1 := rfl

theorem apertureClamped_stored (r : Store) {n : Nat} (h : n < 48) :
    ((storedFields r n).any fun f => outside f.2.1 f.2.2 f.1) = apertureClamped r n := by
  have run : clampTo 1 100 (field1 r n 7) = max 1 (min 100 (field1 r n 7)) := clampTo_near 1 100 _ (by omega)
  unfold storedFields apertureClamped
  rw [if_pos h, run]
  simp only [List.any_cons, List.any_nil, Bool.or_false, Bool.or_assoc]
  ac_rfl

/-- A field of a complete record is corrected exactly where it lies outside its range. -/
theorem recordClamped_stored (r : Store) {n : Nat} (h : n < 66) : recordClamped r n =
    (r.isComplete n && (storedFields r n).any fun f => f.1 < f.2.1 || f.2.2 < f.1) := by
  unfold recordClamped
  rw [any_outside]
  congr 1
  by_cases aperture : n < 48
  · rw [if_pos aperture, apertureClamped_stored r aperture]
  by_cases branch : n < 52
  · simp [storedFields, aperture, branch, branchClamped, Bool.or_assoc]
  by_cases zone : n < 60
  · have z : n < 61 := by omega
    have base : n ≠ 60 := by omega
    simp only [storedFields, aperture, branch, zone, z, if_true, if_false, zoneClamped, rightsClamped, base,
      List.any_cons, List.any_nil, List.any_append, Bool.or_false, Bool.or_assoc, decide_true, Bool.true_and, ne_eq,
      not_false_eq_true]
    ac_rfl
  obtain rfl | rfl | rfl | rfl | rfl | rfl : n = 60 ∨ n = 61 ∨ n = 62 ∨ n = 63 ∨ n = 64 ∨ n = 65 := by omega
  all_goals simp [storedFields, valuesClamped, zoneClamped, rightsClamped, Bool.or_assoc]

theorem clampedRecords_eq (r : Store) : clampedRecords r = correctedRecords r :=
  List.filter_congr fun _ hn => recordClamped_stored r (List.mem_range.1 hn)

/-! ### The notices of a reset (R162, R165 to R167) -/

/-- A notice reaches each port named, once where it is named once. -/
theorem notify_port (ps : List Port) (nodup : ps.Nodup) (n : NoticeBody) (s : State) (q : Port) :
    (s.notify ps n).port q = if q ∈ ps then (s.port q).addNotice ⟨s.sec, n⟩ else s.port q := by
  unfold State.notify
  generalize (⟨s.sec, n⟩ : Notice) = x
  induction ps generalizing s with
  | nil => rfl
  | cons p ps ih =>
    obtain ⟨fresh, rest⟩ := List.nodup_cons.1 nodup
    rw [List.foldl_cons, ih rest]
    by_cases e : p = q
    · subst e; simp [fresh]
    · simp [Ne.symm e, State.port_modPort_of_ne _ _ _ _ e]

theorem notify_sec (ps : List Port) (n : NoticeBody) (s : State) : (s.notify ps n).sec = s.sec :=
  (Frame.notify (k := id) ps n).sec

/-- The notices that a reset queues on a port, in their order. -/
def resetNotices (kind : ResetKind) (reason : RestartReason) (s : State) (p : Port) : List Notice :=
  ⟨s.sec, .restarted kind reason⟩ ::
    if p = .S then (clampedRecords s.store).map fun n => ⟨s.sec, .loadClamped n⟩ else []

theorem loadClamped_port (l : List Nat) (s : State) (p : Port) :
    (l.foldl (fun x n => x.notify [.S] (.loadClamped n)) s).port p =
      (if p = .S then l.map fun n => (⟨s.sec, .loadClamped n⟩ : Notice) else []).foldl PortRec.addNotice (s.port p) := by
  induction l generalizing s with
  | nil => simp
  | cons n l ih =>
    rw [List.foldl_cons, ih, notify_sec, notify_port _ (List.nodup_singleton _)]
    by_cases e : p = .S <;> simp [e]

theorem announceReset_port (kind : ResetKind) (reason : RestartReason) (s : State) (p : Port) :
    (announceReset kind reason s).port p = (resetNotices kind reason s p).foldl PortRec.addNotice (s.port p) := by
  unfold announceReset resetNotices; dsimp only
  rw [loadClamped_port, notify_sec, notify_port _ (by decide), List.foldl_cons, if_pos (by cases p <;> decide)]

/-- A reset announces itself on every port, behind what stands there (R165 to R167). -/
theorem announceReset_announced (kind : ResetKind) (reason : RestartReason) (s : State) :
    ResetAnnounced kind reason (fun p => (s.port p).notices) (fun p => (s.port p).nlost)
      (announceReset kind reason s) := by
  intro p
  have f := announceReset_frame (k := id) s kind reason
  have same : resetNotices kind reason s p = ⟨(announceReset kind reason s).sec, .restarted kind reason⟩ ::
      if p = .S then (correctedRecords (announceReset kind reason s).store).map fun n =>
        ⟨(announceReset kind reason s).sec, .loadClamped n⟩ else [] := by
    rw [f.sec, f.store, ← clampedRecords_eq]; rfl
  dsimp only
  rw [announceReset_port, ← same, PortRec.addNotices]
  have some : resetNotices kind reason s p ≠ [] := List.cons_ne_nil _ _
  simp only [some, ne_eq, not_false_eq_true, true_and]

theorem announceReset_kept (kind : ResetKind) (reason : RestartReason) (s : State) (p : Port) :
    PortKept (s.port p) ((announceReset kind reason s).port p) :=
  (announceReset_frame (k := id) s kind reason).ports p

/-! ### What a load leaves of every block (R20, R43, R60, R72, R92, R93, R111, R129, R144, R155) -/

theorem loadTables_desc (s : State) (z : ZoneId) : (loadTables s).zones.desc[z] = loadZone s.store (52 + z.val) := by
  simp only [loadTables, Fin.getElem_fin, Vector.getElem_ofFn]

theorem loadTables_warning (s : State) (z : ZoneId) : (loadTables s).zones.warnings[z] = ⟨.idle, none⟩ := by
  simp only [loadTables, Fin.getElem_fin, Vector.getElem_replicate]
  rfl

theorem loadTables_branch (s : State) (b : Branch) : (loadTables s).branch b = loadBranch s.store s.ds b := by
  cases b <;> rfl

/-- The static fields of a loaded branch (R93). -/
theorem loadBranch_fields (r : Store) (d : Nat) (b : Branch) :
    ((loadBranch r d b).limit, (loadBranch r d b).window, (loadBranch r d b).gap) =
      if r.isComplete (branchRecord b) then (near 10 400 (field2 r (branchRecord b) 0),
        near 1 20 (field1 r (branchRecord b) 2), near 0 50 (field1 r (branchRecord b) 3))
      else (40, 10, 20) := by
  unfold loadBranch; dsimp only
  split
  · simp only [BranchRec.reset, clampTo_near 10 400 _ (by omega), clampTo_near 1 20 _ (by omega),
      clampTo_near 0 50 _ (by omega)]
  · rfl

/-- The figures of a loaded branch (R93, R111). -/
theorem loadBranch_reset (r : Store) (d : Nat) (b : Branch) : (loadBranch r d b).lastStart = none ∧
    (loadBranch r d b).quiet = some (d + 20) ∧
    (loadBranch r d b).gapTimer = (if (loadBranch r d b).gap = 0 then none else some (d + (loadBranch r d b).gap)) ∧
    (loadBranch r d b).reservation = none ∧ (loadBranch r d b).late = false ∧ (loadBranch r d b).projection = [] := by
  unfold loadBranch; dsimp only
  split <;> exact ⟨rfl, rfl, rfl, rfl, rfl, rfl⟩

theorem loadSupervisor_fields (r : Store) (x : Supervisor) :
    ((loadSupervisor r x).watchGust, (loadSupervisor r x).holdTime, (loadSupervisor r x).guardLead) =
      if r.isComplete 61 then
        (near 0 600 (field2 r 61 0), near 60 7200 (field2 r 61 2), near 0 1800 (field2 r 61 4))
      else (150, 1800, 300) := by
  unfold loadSupervisor
  split
  · simp only [clampTo_near 0 600 _ (by omega), clampTo_near 60 7200 _ (by omega), clampTo_near 0 1800 _ (by omega)]
  · rfl

theorem loadFrontEnd_delays (r : Store) (fe : FrontEnd) :
    ((loadFrontEnd r fe).dryDelay, (loadFrontEnd r fe).silence) =
      if r.isComplete 62 then (near 60 3600 (field2 r 62 1), near 60 7200 (field2 r 62 3)) else (600, 3600) := by
  have h : (loadFrontEnd r fe).dryDelay = (loadDelays r fe).dryDelay ∧
      (loadFrontEnd r fe).silence = (loadDelays r fe).silence := by
    unfold loadFrontEnd loadSite; dsimp only
    split <;> exact ⟨rfl, rfl⟩
  rw [h.1, h.2, loadDelays]
  split
  · simp only [clampTo_near 60 3600 _ (by omega), clampTo_near 60 7200 _ (by omega)]
  · rfl

theorem loadFrontEnd_site (r : Store) (fe : FrontEnd) :
    ((loadFrontEnd r fe).constK, (loadFrontEnd r fe).vaneOffset, (loadFrontEnd r fe).wetDelay) =
      if r.isComplete 64 then
        (near 1 2000 (field2 r 64 0), near 0 359 (field2 r 64 2), near 1 60 (field1 r 64 4))
      else (250, 0, 2) := by
  unfold loadFrontEnd loadSite; dsimp only
  split
  · simp only [clampTo_near 1 2000 _ (by omega), clampTo_near 0 359 _ (by omega), clampTo_near 1 60 _ (by omega)]
  · rfl

theorem loadRoomLifetime_eq (r : Store) :
    loadRoomLifetime r = if r.isComplete 62 then near 0 240 (field1 r 62 0) else 60 := by
  unfold loadRoomLifetime
  rw [clampTo_near 0 240 _ (by omega)]

/-- A load changes the settings of the front end and the enables, and no figure (R59, R60). -/
theorem loadFrontEnd_eq (r : Store) (fe : FrontEnd) : loadFrontEnd r fe = { fe with
    constK := (loadFrontEnd r fe).constK, vaneOffset := (loadFrontEnd r fe).vaneOffset
    wetDelay := (loadFrontEnd r fe).wetDelay, dryDelay := (loadFrontEnd r fe).dryDelay
    silence := (loadFrontEnd r fe).silence
    word := { fe.word with enables := (loadFrontEnd r fe).word.enables } } := by
  unfold loadFrontEnd loadSite loadDelays; dsimp only
  split <;> split <;> rfl

theorem loadTables_sup_eq (s : State) : (loadTables s).sup =
    loadSupervisor s.store { Supervisor.porDefault with trigger := s.sup.trigger } := rfl

theorem loadTables_base (s : State) : (loadTables s).zones.base = loadBase s.store := by
  unfold loadTables; rfl

theorem loadTables_roomLifetime (s : State) : (loadTables s).roomLifetime = loadRoomLifetime s.store := by
  unfold loadTables; rfl

theorem loadTables_ds (s : State) : (loadTables s).ds = s.ds := by unfold State.ds; rw [(loadTables_rest s).1]

theorem loadTables_loadEnd (s : State) : (loadTables s).loadEnd = (loadTables s).ds := by
  rw [loadTables_ds]; unfold loadTables; rfl

theorem loadTables_link (s : State) : (loadTables s).link = Link.reset s.clock.ms := by unfold loadTables; rfl

theorem loadTables_fire (s : State) : (loadTables s).fire = ⟨.normal, false,
    if (loadTables s).pins.alarm then some ((loadTables s).clock.ms + 500) else none⟩ := by
  obtain ⟨clock, pins, -⟩ := loadTables_rest s
  rw [clock, pins]; unfold loadTables; rfl

theorem loadTables_fe_eq (s : State) : (loadTables s).fe = loadFrontEnd s.store s.fe := rfl

theorem loadEnables_fields (r : Store) : ((loadEnables r).windOver, (loadEnables r).vaneInvalid,
    (loadEnables r).rainSensor, (loadEnables r).anemoSilent) =
      if r.isComplete 63 then (fieldBit r 63 0 0, fieldBit r 63 0 1, fieldBit r 63 0 2, fieldBit r 63 0 3)
      else (false, true, true, false) := by
  unfold loadEnables
  split <;> rfl

theorem loadFrontEnd_enables (r : Store) (fe : FrontEnd) : (loadFrontEnd r fe).word.enables = loadEnables r := rfl

/-- The settings after a load are those of the store (R2, R6, R36, R37, R59, R93, R167). -/
theorem loadTables_settings (s : State) : SettingsLoaded (loadTables s) := by
  obtain ⟨-, -, -, store, -⟩ := loadTables_rest s
  unfold SettingsLoaded; dsimp only
  rw [store, loadTables_sup_eq, loadTables_fe_eq, loadFrontEnd_enables, loadTables_base, loadTables_roomLifetime]
  refine ⟨fun i => ?_, fun z => ?_, loadBase_loaded s.store, fun b n h => ?_, loadSupervisor_fields _ _,
    loadFrontEnd_delays _ _, loadRoomLifetime_eq s.store, loadEnables_fields _, loadFrontEnd_site _ _⟩
  · rw [loadTables_ap]; exact loadStatic_loaded s.store i.val
  · rw [loadTables_desc]; exact loadZone_loaded s.store _
  · have num : n = branchRecord b := by
      simp only [List.mem_cons, Prod.mk.injEq, List.not_mem_nil, or_false] at h
      rcases h with ⟨rfl, rfl⟩ | ⟨rfl, rfl⟩ | ⟨rfl, rfl⟩ | ⟨rfl, rfl⟩ <;> rfl
    rw [loadTables_branch, num]
    exact loadBranch_fields s.store s.ds b

theorem reset_idle (f : Static) : (Aperture.reset f).closing = false ∧ (Aperture.reset f).state ≠ .waiting := by
  unfold Aperture.reset Aperture.closing
  cases f.installed <;> simp

theorem loadTables_warnLine (s : State) (z : ZoneId) : (loadTables s).warnLine z = false := by
  have closes : (loadTables s).zoneCloses z = false := by
    simp only [State.zoneCloses, List.any_eq_false, loadTables_ap, (reset_idle _).1, Bool.false_and,
      Bool.false_eq_true, not_false_eq_true, implies_true]
  unfold State.warnLine
  rw [loadTables_warning, closes]
  rfl

theorem loadTables_waitList (s : State) (b : Branch) : waitList (loadTables s) b = [] := by
  refine List.eq_nil_iff_forall_not_mem.2 fun e he => ?_
  obtain ⟨w, _⟩ := (waitEntry_eq_some _ _ _).1 ((mem_waitList b _ e).1 he).2
  rw [loadTables_ap] at w
  exact (reset_idle _).2 w

/-- A load leaves every block at its reset values (R20, R43, R60, R72, R92, R111, R129, R144, R155). -/
theorem loadTables_reset (s : State) : BlocksReset (loadTables s) := by
  obtain ⟨weather, queue, hold, advisory, trigger, count⟩ := loadTables_sup s
  have gust : (loadTables s).sup.advGust = none := by
    unfold loadTables loadSupervisor; dsimp only
    split <;> rfl
  obtain ⟨-, -, -, store, -⟩ := loadTables_rest s
  unfold BlocksReset
  rw [store]
  refine ⟨loadTables_settings s, loadTables_loadEnd s, loadTables_warnLine s, fun i => ?_,
    fun z => ⟨loadTables_desc s z, loadTables_warning s z⟩, loadTables_base s, loadTables_roomLifetime s,
    ⟨weather, hold, advisory, gust, queue, count⟩, fun b => ?_,
    by rw [loadTables_link]; exact ⟨rfl, rfl, rfl, rfl, rfl, rfl, rfl⟩, loadTables_fire s⟩
  · rw [loadTables_ap]
    exact ⟨rfl, rfl, rfl, rfl, rfl, rfl, rfl, rfl, rfl, rfl, rfl, rfl, rfl, rfl, rfl, rfl, rfl⟩
  · rw [loadTables_branch, loadTables_ds]
    exact ⟨loadTables_committed s b, loadTables_waitList s b, loadBranch_reset s.store s.ds b⟩

theorem announceReset_reset (kind : ResetKind) (reason : RestartReason) (h : BlocksReset s) :
    BlocksReset (announceReset kind reason s) := by
  obtain ⟨x, e⟩ := announceReset_rest s kind reason
  rw [e]; exact h

end Sys2Proof.Machine

end

