-- ==== Sys2Proof/Proofs/HardResets.lean ====
section
/-! PROOFS. A reply behind an event, and POR and PIN reset: O4. -/

namespace Sys2Proof.Machine

open Sys2Proof

variable {s t u v : State} {p q : Port} {k : RequestKind} {body : List Byte} {kind : ResetKind}
  {reason : RestartReason}

/-! ### A reply placed behind an event (R158, R179) -/

/-- A port whose request is being served holds no strobe and no flag, and its header flags are those of the taking. -/
theorem askedAt_port (ready : (s.port p).ready) : ((s.askedAt p k body).port p).held = none ∧
    (((s.askedAt p k body).port p).ovr = false ∧ ((s.askedAt p k body).port p).frm = false ∧
      ((s.askedAt p k body).port p).rdisc = false) ∧
    ((s.askedAt p k body).port p).header = (s.port p).nextHeader := by
  rw [State.askedAt, State.port_modPort_self]
  exact ⟨ready.2, ⟨rfl, rfl, rfl⟩, rfl⟩

theorem askedAt_notices (q : Port) : ((s.askedAt p k body).port q).notices = (s.port q).notices ∧
    ((s.askedAt p k body).port q).nlost = (s.port q).nlost := by
  rw [State.askedAt, State.port_modPort]
  split
  · next e => subst e; exact ⟨rfl, rfl⟩
  · exact ⟨rfl, rfl⟩

/-- The reply to a request whose serving reached its own port by notices alone stands there whole. -/
theorem placeReply_holdsReply (ready : (s.port p).ready) (kept : PortKept ((s.askedAt p k body).port p) (v.port p))
    (x : Reply) : ((placeReply p k.code (v, some x)).port p).holdsReply k.code (s.port p).nextHeader x := by
  obtain ⟨held, ⟨ovr, frm, rdisc⟩, header⟩ := askedAt_port (k := k) (body := body) ready
  obtain ⟨_, _, _, _, h, _, _, o, f, r, w, _⟩ := kept.fields
  rw [← header, ← h]
  exact placeReply_holds (w.trans held) ⟨o.trans ovr, f.trans frm, r.trans rdisc⟩ k.code x

/-- A reply placed leaves the notices. -/
theorem placeReply_notices (held : (v.port p).held = none) (b : Byte) (x : Reply) (q : Port) :
    ((placeReply p b (v, some x)).port q).notices = (v.port q).notices ∧
      ((placeReply p b (v, some x)).port q).nlost = (v.port q).nlost := by
  rw [placeReply, State.port_modPort]
  split
  · next e => subst e; simp [PortRec.release, PortRec.place, held]
  · exact ⟨rfl, rfl⟩

/-- What a request changes outside its port is what its serving changed. -/
theorem placeReply_restKept {f : Aperture → Aperture} (ready : (s.port p).ready) (h : Frame f (s.askedAt p k body) v)
    (x : Reply) : RestKept f p s (placeReply p k.code (v, some x)) := by
  obtain ⟨held, -, -⟩ := askedAt_port (k := k) (body := body) ready
  obtain ⟨_, _, _, _, _, _, _, _, _, _, w, _⟩ := (h.ports p).fields
  refine ⟨{ h with ports := fun q => ?_ }, ?_⟩
  · rw [State.port_modPort]
    split
    · next e => rw [e]; exact PortKept.refl _
    · next e =>
      rw [placeReply, State.port_modPort_of_ne _ _ _ _ e]
      have kept := h.ports q
      rw [State.askedAt, State.port_modPort_of_ne _ _ _ _ e] at kept
      exact kept
  · rw [(placeReply_notices (w.trans held) _ x p).1, ← (askedAt_notices (k := k) (body := body) (p := p) p).1]
    exact (h.ports p).queued

/-! ### POR and PIN reset (R165) -/

/-- The part as a POR or PIN reset leaves it for the load. -/
def clearedPart (cmsn : Bool) (sticky : Cond) (trigger : Option Trigger) (s : State) : State :=
  { s with
    clock := ⟨0, 1⟩
    pins := { s.pins with cmsn := cmsn }
    fe := freshFrontEnd sticky (loadEnables (resetStore cmsn s.store))
    sup := { s.sup with trigger := trigger }
    ports := ⟨.reset [], .reset [], .reset []⟩
    store := resetStore cmsn s.store }

variable {cmsn : Bool} {sticky : Cond} {trigger : Option Trigger}

theorem hardReset_eq : hardReset kind cmsn sticky trigger s =
    announceReset kind .restart (loadTables (clearedPart cmsn sticky trigger s)) := rfl

theorem clearedPart_port (p : Port) : (clearedPart cmsn sticky trigger s).port p = .reset [] := by cases p <;> rfl

theorem hardReset_frame : Frame id (loadTables (clearedPart cmsn sticky trigger s))
    (hardReset kind cmsn sticky trigger s) := announceReset_frame _ kind .restart

theorem hardReset_ports (p : Port) : let r := (hardReset kind cmsn sticky trigger s).port p
    r.state = .idle ∧ r.reqBuf = [] ∧ r.replyBuf = [] ∧ r.held = none ∧ r.gapTimer = none ∧ r.ovr = false ∧
      r.frm = false ∧ r.rdisc = false := by
  obtain ⟨-, -, ports, -⟩ := loadTables_rest (clearedPart cmsn sticky trigger s)
  have kept := hardReset_frame (kind := kind) (cmsn := cmsn) (sticky := sticky) (trigger := trigger) (s := s)
    |>.ports p
  have port : (loadTables (clearedPart cmsn sticky trigger s)).port p = .reset [] := by
    rw [← clearedPart_port (cmsn := cmsn) (sticky := sticky) (trigger := trigger) (s := s) p, State.port, ports]; rfl
  obtain ⟨st, rq, _, gt, _, rb, _, ov, fr, rd, he, _⟩ := kept.fields
  rw [port] at st rq gt rb ov fr rd he
  exact ⟨st, rq, rb, he, gt, ov, fr, rd⟩

theorem hardReset_announced : ResetAnnounced kind .restart (fun _ => []) (fun _ => false)
    (hardReset kind cmsn sticky trigger s) := by
  have h := announceReset_announced kind .restart (loadTables (clearedPart cmsn sticky trigger s))
  obtain ⟨-, -, ports, -⟩ := loadTables_rest (clearedPart cmsn sticky trigger s)
  have port : ∀ p, (loadTables (clearedPart cmsn sticky trigger s)).port p = .reset [] := fun p => by
    rw [← clearedPart_port (cmsn := cmsn) (sticky := sticky) (trigger := trigger) (s := s) p, State.port, ports]; rfl
  simp only [port] at h
  exact h

theorem hardReset_fe : (hardReset kind cmsn sticky trigger s).fe = loadFrontEnd (resetStore cmsn s.store)
    (freshFrontEnd sticky (loadEnables (resetStore cmsn s.store))) := by
  rw [hardReset_frame.fe, loadTables_fe_eq]; rfl

/-- The front end starts afresh at a POR or PIN reset, but for the sticky bits it is given (R60). -/
theorem freshFrontEnd_loaded (r : Store) : let fe := loadFrontEnd r (freshFrontEnd sticky (loadEnables r))
    (fe.count = 0 ∧ fe.saturated = false ∧ fe.speed = 0 ∧ fe.triple = [] ∧ fe.ring = [] ∧ fe.gust = 0 ∧
      fe.bearing = none ∧ fe.wet = false ∧ fe.wetRun = 0 ∧ fe.dryRun = 0 ∧ fe.silent = 0 ∧
      fe.word.live = Cond.none ∧ fe.boundaryWord = fe.word) ∧ fe.word.sticky = sticky := by
  dsimp only
  rw [freshFrontEnd_boundaryWord, loadFrontEnd_eq]
  exact ⟨⟨rfl, rfl, rfl, rfl, rfl, rfl, rfl, rfl, rfl, rfl, rfl, rfl, rfl⟩, rfl⟩

theorem hardReset_sup_trigger : (hardReset kind cmsn sticky trigger s).sup.trigger = trigger := by
  obtain ⟨-, -, -, -, tr, -⟩ := loadTables_sup (clearedPart cmsn sticky trigger s)
  rw [hardReset_frame.sup]
  exact tr

theorem hardReset_clock : (hardReset kind cmsn sticky trigger s).clock = ⟨0, 1⟩ := by
  rw [hardReset_frame.clock, (loadTables_rest _).1]; rfl

theorem hardReset_cmsn : (hardReset kind cmsn sticky trigger s).pins.cmsn = cmsn := by
  rw [hardReset_frame.pins, (loadTables_rest _).2.1]; rfl

theorem hardReset_store : (hardReset kind cmsn sticky trigger s).store = resetStore cmsn s.store := by
  obtain ⟨-, -, -, store, -⟩ := loadTables_rest (clearedPart cmsn sticky trigger s)
  rw [hardReset_frame.store, store]; rfl

end Sys2Proof.Machine

open Sys2Proof Sys2Proof.Machine

/-- Settles O4: both resets are the one reset of every block, with the sticky bits and the Trigger Record they keep. -/
theorem hardResetsRestartThePart : Obligations.HardResetsRestartThePart := by
  rintro cmsn s c k (⟨rfl, rfl⟩ | ⟨rfl, rfl⟩)
  · refine ⟨_, rfl, hardReset_clock, hardReset_cmsn, hardReset_ports, hardReset_announced,
      announceReset_reset _ _ (loadTables_reset _), ?_, hardReset_store, ?_, hardReset_sup_trigger⟩
    · rw [hardReset_fe]; exact (freshFrontEnd_loaded _).1
    · rw [hardReset_fe]; exact (freshFrontEnd_loaded _).2
  · refine ⟨_, rfl, hardReset_clock, hardReset_cmsn, hardReset_ports, hardReset_announced,
      announceReset_reset _ _ (loadTables_reset _), ?_, hardReset_store, ?_, hardReset_sup_trigger⟩
    · rw [hardReset_fe]; exact (freshFrontEnd_loaded _).1
    · rw [hardReset_fe]; exact (freshFrontEnd_loaded _).2

end

