-- ==== Sys2Proof/Proofs/Restarts.lean ====
section
/-! PROOFS. RESTART, LEAVE-COMMISSIONING and the state after reset: O56, O57 and O3. -/

namespace Sys2Proof.Machine

open Sys2Proof

variable {s t u v : State} {p q : Port} {k : RequestKind} {reason : RestartReason} {r : Store} {x : Reply}

/-! ### A restart for a request on Port S (R166, R175) -/

/-- The part, asked for a restart, with its store as the restart leaves it. -/
def restarting (k : RequestKind) (r : Store) (s : State) : State := { s.askedAt .S k [] with store := r }

/-- The part after the restart, with the request answered. -/
def restarted (k : RequestKind) (reason : RestartReason) (r : Store) (x : Reply) (s : State) : State :=
  placeReply .S k.code (announceReset .restart reason (loadTables (restarting k r s)), some x)

theorem restarted_frame : Frame id (loadTables (restarting k r s)) (announceReset .restart reason
    (loadTables (restarting k r s))) := announceReset_frame _ _ _

theorem restarting_port (p : Port) : (loadTables (restarting k r s)).port p = (s.askedAt .S k []).port p := by
  obtain ⟨-, -, ports, -⟩ := loadTables_rest (restarting k r s)
  rw [State.port, ports]; rfl

theorem restarted_ports : ∃ y, restarted k reason r x s =
    { announceReset .restart reason (loadTables (restarting k r s)) with ports := y } := by
  obtain ⟨y, e, -⟩ := placeReply_rest (p := .S) (t := announceReset .restart reason (loadTables (restarting k r s)))
    k.code x
  exact ⟨y, e⟩

theorem restarted_reset : BlocksReset (restarted k reason r x s) := by
  obtain ⟨y, e⟩ := restarted_ports (k := k) (reason := reason) (r := r) (x := x) (s := s)
  rw [e]
  exact announceReset_reset _ _ (loadTables_reset _)

theorem restarted_kept (p : Port) : PortKept ((s.askedAt .S k []).port p)
    ((announceReset .restart reason (loadTables (restarting k r s))).port p) := by
  rw [← restarting_port (r := r)]
  exact restarted_frame.ports p

theorem restarted_announced (ready : (s.port .S).ready) : ResetAnnounced .restart reason
    (fun p => (s.port p).notices) (fun p => (s.port p).nlost) (restarted k reason r x s) := by
  obtain ⟨held, -, -⟩ := askedAt_port (k := k) (body := []) ready
  obtain ⟨_, _, _, _, _, _, _, _, _, _, w, _⟩ := (restarted_kept (k := k) (reason := reason) (r := r) (s := s) .S).fields
  have h := announceReset_announced .restart reason (loadTables (restarting k r s))
  have old : (fun p => ((loadTables (restarting k r s)).port p).notices) = fun p => (s.port p).notices :=
    funext fun p => by rw [restarting_port, (askedAt_notices p).1]
  have lost : (fun p => ((loadTables (restarting k r s)).port p).nlost) = fun p => (s.port p).nlost :=
    funext fun p => by rw [restarting_port, (askedAt_notices p).2]
  rw [old, lost] at h
  intro p
  obtain ⟨notices, nlost⟩ := placeReply_notices (w.trans held) k.code x p
  obtain ⟨g, l⟩ := h p
  exact ⟨notices.trans g, nlost.trans l⟩

theorem restarted_clock : (restarted k reason r x s).clock = s.clock := by
  obtain ⟨y, e⟩ := restarted_ports (k := k) (reason := reason) (r := r) (x := x) (s := s)
  obtain ⟨clock, -⟩ := loadTables_rest (restarting k r s)
  rw [e]
  exact restarted_frame.clock.trans clock

theorem restarted_store : (restarted k reason r x s).store = r := by
  obtain ⟨y, e⟩ := restarted_ports (k := k) (reason := reason) (r := r) (x := x) (s := s)
  obtain ⟨-, -, -, store, -⟩ := loadTables_rest (restarting k r s)
  rw [e]
  exact restarted_frame.store.trans store

theorem restarted_trigger : (restarted k reason r x s).sup.trigger = s.sup.trigger := by
  obtain ⟨y, e⟩ := restarted_ports (k := k) (reason := reason) (r := r) (x := x) (s := s)
  obtain ⟨-, -, -, -, tr, -⟩ := loadTables_sup (restarting k r s)
  rw [e]
  change (announceReset .restart reason (loadTables (restarting k r s))).sup.trigger = _
  rw [restarted_frame.sup]
  exact tr

theorem restarted_fe : (restarted k reason r x s).fe = loadFrontEnd r s.fe := by
  obtain ⟨y, e⟩ := restarted_ports (k := k) (reason := reason) (r := r) (x := x) (s := s)
  rw [e]
  exact restarted_frame.fe.trans (loadTables_fe_eq _)

theorem restarted_figures : (restarted k reason r x s).fe = { s.fe with
    constK := (restarted k reason r x s).fe.constK, vaneOffset := (restarted k reason r x s).fe.vaneOffset
    wetDelay := (restarted k reason r x s).fe.wetDelay, dryDelay := (restarted k reason r x s).fe.dryDelay
    silence := (restarted k reason r x s).fe.silence
    word := { s.fe.word with enables := (restarted k reason r x s).fe.word.enables } } := by
  rw [restarted_fe]; exact loadFrontEnd_eq r s.fe

theorem restarted_fix (i : ApId) : ((restarted k reason r x s).ap i).fix = loadStatic r i.val := by
  obtain ⟨y, e⟩ := restarted_ports (k := k) (reason := reason) (r := r) (x := x) (s := s)
  rw [e]
  change ((announceReset .restart reason (loadTables (restarting k r s))).ap i).fix = _
  have same : (announceReset .restart reason (loadTables (restarting k r s))).ap i =
    (loadTables (restarting k r s)).ap i := restarted_frame.aps i
  rw [same, loadTables_ap]
  rfl

theorem restarted_holds (ready : (s.port .S).ready) :
    ((restarted k reason r x s).port .S).holdsReply k.code (s.port .S).nextHeader x :=
  placeReply_holdsReply ready (restarted_kept .S) x

theorem restarted_others (p : Port) (h : p ≠ .S) : PortKept (s.port p) ((restarted k reason r x s).port p) := by
  unfold restarted placeReply
  rw [State.port_modPort_of_ne _ _ _ _ (Ne.symm h)]
  have g := restarted_kept (k := k) (reason := reason) (r := r) (s := s) p
  rw [State.askedAt, State.port_modPort_of_ne _ _ _ _ (Ne.symm h)] at g
  exact g

/-- What the load reads of the store are its contents (R167). -/
theorem loadStatic_cells {r r' : Store} (h : r'.cells = r.cells) (n : Nat) : loadStatic r' n = loadStatic r n := by
  obtain ⟨cells, _⟩ := r
  obtain ⟨cells', _⟩ := r'
  obtain rfl : cells' = cells := h
  rfl

theorem busy_askedAt : (s.askedAt p k []).busy = s.store.op.isSome := rfl

theorem idle_askedAt (idle : s.store.op = none) : (s.askedAt p k []).busy = false := by rw [busy_askedAt, idle]; rfl

end Sys2Proof.Machine

open Sys2Proof Sys2Proof.Machine

/-- Settles O56. -/
theorem restartKeepsPortsAndFigures : Obligations.RestartKeepsPortsAndFigures := by
  intro s ready
  have served := submit_served (k := .restart) (body := []) ready rfl rfl
  refine ⟨fun busy => ?_, fun idle => ⟨restarted .restart .restart { s.store with mode := .none } _ s, ?_,
    restarted_reset, restarted_announced ready, restarted_clock, restarted_figures, restarted_trigger, restarted_store,
    restarted_holds ready, restarted_others⟩⟩
  · refine served.trans ?_
    simp only [serve, serveRestart, busy_askedAt, busy, if_true]
    rfl
  · refine served.trans ?_
    simp only [serve, serveRestart, idle_askedAt idle, Bool.false_eq_true, if_false]
    rfl

/-- Settles O57. -/
theorem leaveCommissioningRestarts : Obligations.LeaveCommissioningRestarts := by
  intro s ready
  have served := submit_served (k := .leaveCommissioning) (body := []) ready rfl rfl
  have on : (s.askedAt .S .leaveCommissioning []).store = s.store := rfl
  refine ⟨fun busy => ?_, fun idle off => ?_, fun idle commissioning =>
    ⟨restarted .leaveCommissioning .leaveCommissioning { s.store with mode := .none, commissioning := false } _ s, ?_,
      restarted_store, restarted_reset, fun i => (restarted_fix i).trans (loadStatic_cells (r := s.store) rfl _),
      restarted_announced ready, restarted_clock, restarted_trigger, restarted_figures, restarted_holds ready,
      restarted_others⟩⟩
  · refine served.trans ?_
    simp only [serve, serveLeaveCommissioning, busy_askedAt, busy, if_true]
    rfl
  · refine submit_answered (k := .leaveCommissioning) ready rfl rfl ?_
    simp only [serve, serveLeaveCommissioning, idle_askedAt idle, on, off, Bool.false_eq_true, if_false]
    rfl
  · refine served.trans ?_
    simp only [serve, serveLeaveCommissioning, idle_askedAt idle, on, commissioning, Bool.false_eq_true, if_false,
      if_true]
    rfl

/-- A sum of contributions is 0 where nothing moves (R94). -/
theorem reset_committed (b : Branch) : State.reset.committed b = 0 := by
  refine List.sum_eq_zero fun x hx => ?_
  obtain ⟨i, -, rfl⟩ := List.mem_map.1 hx
  rw [State.ap, State.reset, Fin.getElem_fin, Vector.getElem_replicate]
  rfl

/-- Settles O3. -/
theorem resetHoldsPorValues : Obligations.ResetHoldsPorValues := by
  have ap : ∀ i, State.reset.ap i = Aperture.reset Static.blank := fun i => by
    rw [State.ap, State.reset, Fin.getElem_fin, Vector.getElem_replicate]
  refine ⟨fun p => ?_, fun i => ?_, ⟨rfl, rfl, rfl, rfl, rfl, rfl, rfl, rfl, rfl⟩, ⟨rfl, rfl, rfl, rfl, rfl, rfl⟩,
    fun b => ⟨reset_committed b, ?_⟩, ⟨rfl, rfl, rfl, rfl, rfl, rfl⟩, ⟨rfl, rfl⟩, rfl, rfl, rfl, rfl⟩
  · cases p <;> exact ⟨rfl, rfl, rfl, rfl, rfl, rfl, rfl, rfl, rfl, rfl, rfl⟩
  · rw [ap]; exact ⟨rfl, rfl, rfl, rfl, rfl, rfl, rfl, rfl, rfl, rfl⟩
  · cases b <;> exact ⟨rfl, rfl, rfl⟩

end

