-- ==== Sys2Proof/Proofs/Judgements.lean ====
section
/-! PROOFS. What becomes of a record that was judged, and of the stall count (R9, R10, R12). -/

namespace Sys2Proof.Machine

open Sys2Proof

variable {i j k : ApId} {b : Branch} {s t u v : State} {a : Aperture} {now : Nat}

/-! ### What becomes of a record that was judged (R9, R10) -/

/-- `Judged`, as a property of the record: off target it waits or was started, with the motion of R10; on target it is at
REST. -/
def JudgedAs (b : Aperture) : Prop :=
  (b.offTarget = true → (b.state = .waiting ∨ b.state = .starting) ∧
    ∀ x p, b.effTarget = some (.pos x) → b.position = some p →
      b.motion = some ⟨x, if x < p then .closing else .opening, b.effClass.getD .room, .normal⟩) ∧
  (b.offTarget = false → b.state = .rest)

theorem judged_iff : Judged i t ↔ JudgedAs (t.ap i) := Iff.rfl

/-- `Rested`, as a property of the record. -/
def RestedAs (b : Aperture) : Prop :=
  JudgedAs b ∧ b.fault = none ∧ (b.offTarget = false → b.motion = none ∧ b.mon = .stopped)

theorem rested_iff : Rested i t ↔ RestedAs (t.ap i) := Iff.rfl

/-- An aperture at REST that is judged: off target it waits with the derived motion. -/
theorem judgedAs_judged (h : a.state = .rest) : JudgedAs (a.judged now) := by
  unfold Aperture.judged
  split
  · next t p et ep =>
    split
    · next off =>
      rw [Bool.and_eq_true] at off
      refine ⟨fun _ => ⟨.inl rfl, fun x q ex eq => ?_⟩, fun on => ?_⟩
      · cases et.symm.trans ex; cases ep.symm.trans eq; rfl
      · exact absurd (on.symm.trans off.2) (by decide)
    · next on =>
      have on : a.offTarget = false := by simpa [h] using on
      exact ⟨fun off => absurd (on.symm.trans off) (by decide), fun _ => h⟩
  · next none =>
    have on : a.offTarget = false := by
      unfold Aperture.offTarget
      split
      · next t p et ep => exact (none t p et ep).elim
      · rfl
    exact ⟨fun off => absurd (on.symm.trans off) (by decide), fun _ => h⟩

theorem judged_waited (a : Aperture) (now : Nat) :
    a.judged now = a ∨ a.offTarget = true ∧ ∃ m, a.judged now = a.waited now m := by
  unfold Aperture.judged
  split
  · split
    · next off => rw [Bool.and_eq_true] at off; exact .inr ⟨off.2, _, rfl⟩
    · exact .inl rfl
  · exact .inl rfl

theorem restedAs_rested (a : Aperture) (now : Nat) : RestedAs (a.rested now) := by
  refine ⟨judgedAs_judged rfl, ?_⟩
  unfold Aperture.rested
  rcases judged_waited ({ a.still with fault := none, state := .rest } : Aperture) now with e | ⟨off, m, e⟩ <;> rw [e]
  · exact ⟨rfl, fun _ => ⟨rfl, rfl⟩⟩
  · exact ⟨rfl, fun on => absurd (off.symm.trans on) (by decide)⟩

theorem resting_judged (h : a.state = .rest) : (a.judged now).state = .rest ∨ (a.judged now).state = .waiting :=
  (judged_state a now).imp (fun e => e.trans h) And.right

/-- An aperture that was judged is so still when the event has ended, whether or not it was started (R101). -/
theorem JudgedAs.ended (h : JudgedAs (u.ap i)) (st : (u.ap i).state = .rest ∨ (u.ap i).state = .waiting)
    (e : Ending i u t) : JudgedAs (t.ap i) := by
  rcases e with ⟨ap, _, _⟩ | ⟨m, w, _, ap⟩ | ⟨d, _⟩
  · rw [ap]; exact h
  · rw [ap]
    refine ⟨fun off => ⟨.inr rfl, (h.1 off).2⟩, fun on => ?_⟩
    rw [h.2 on] at w; cases w
  · rcases st with st | st <;> rw [st] at d <;> cases d

theorem RestedAs.ended (h : RestedAs (u.ap i)) (st : (u.ap i).state = .rest ∨ (u.ap i).state = .waiting)
    (e : Ending i u t) : RestedAs (t.ap i) := by
  refine ⟨h.1.ended st e, ?_⟩
  rcases e with ⟨ap, _, _⟩ | ⟨m, w, _, ap⟩ | ⟨d, _⟩
  · rw [ap]; exact h.2
  · rw [ap]
    refine ⟨h.2.1, fun on => ?_⟩
    rw [h.1.2 on] at w; cases w
  · rcases st with st | st <;> rw [st] at d <;> cases d

/-- A state that is neither waiting nor driven is left as it is by the end of the event. -/
theorem Ending.stands_of (e : Ending i u t) (w : (u.ap i).state ≠ .waiting) (d : (u.ap i).state.driving = false) :
    t.ap i = u.ap i ∧ (∀ x, (i, x) ∈ t.link.moveList ↔ (i, x) ∈ u.link.moveList) ∧
      (i ∈ t.link.haltList ↔ i ∈ u.link.haltList) := by
  rcases e with ⟨ap, mv, ha⟩ | ⟨m, w', _, _⟩ | ⟨d', _⟩
  · exact ⟨ap, mv, ha⟩
  · exact absurd w' w
  · rw [d] at d'; cases d'

/-- A driven motion that the end of the event finds goes on or was shed (R106). -/
theorem Ending.driven (e : Ending i u t) (d : (u.ap i).state.driving = true) :
    (t.ap i).motion = (u.ap i).motion ∧
      ((t.ap i).state = (u.ap i).state ∧ (∀ x, (i, x) ∈ t.link.moveList ↔ (i, x) ∈ u.link.moveList) ∨
        (t.ap i).state = .stopping ∧ (t.ap i).mon.haltCause = some .shed) := by
  rcases e with ⟨ap, mv, ha⟩ | ⟨m, w, _, _⟩ | ⟨_, ap⟩
  · rw [ap]; exact ⟨rfl, .inl ⟨rfl, mv⟩⟩
  · rw [w] at d; cases d
  · rw [ap, Aperture.halted, if_pos d]; exact ⟨rfl, .inr ⟨rfl, rfl⟩⟩

theorem Ending.stallCount (e : Ending i u t) : (t.ap i).stallCount = (u.ap i).stallCount := by
  rcases e with ⟨ap, _, _⟩ | ⟨m, _, _, ap⟩ | ⟨d, ap⟩
  · rw [ap]
  · rw [ap]; rfl
  · rw [ap, Aperture.halted, if_pos d]

/-- A waiting aperture waits on or was started, with its motion. -/
theorem Ending.waiting (e : Ending i u t) (w : (u.ap i).state = .waiting) :
    ((t.ap i).state = .waiting ∨ (t.ap i).state = .starting) ∧ (t.ap i).motion = (u.ap i).motion := by
  rcases e with ⟨ap, _, _⟩ | ⟨m, _, _, ap⟩ | ⟨d, _⟩
  · rw [ap]; exact ⟨.inl w, rfl⟩
  · rw [ap]; exact ⟨.inr rfl, rfl⟩
  · rw [w] at d; cases d

/-! ### The stall count through a change of orders (R12) -/

theorem judged_stallCount (a : Aperture) (now : Nat) : (a.judged now).stallCount = a.stallCount := by
  rcases judged_waited a now with e | ⟨_, m, e⟩ <;> rw [e]; rfl

theorem rested_stallCount (a : Aperture) (now : Nat) : (a.rested now).stallCount = a.stallCount :=
  judged_stallCount _ now

theorem handed_stallCount (a : Aperture) (now : Nat) : (a.handed now).stallCount = a.stallCount := by
  have halted : (a.halted .target).stallCount = a.stallCount := by unfold Aperture.halted; split <;> rfl
  have steered : a.steered.stallCount = a.stallCount := by
    rcases steered_cases a with e | ⟨t, e⟩ | e <;> rw [e]
    · rfl
    · exact halted
  unfold Aperture.handed
  split
  · exact judged_stallCount a now
  · rcases rejudged_cases a now with ⟨m, e⟩ | e <;> rw [e]
    · rfl
    · exact rested_stallCount a now
  · exact steered
  · exact steered
  · exact rested_stallCount a now
  all_goals rfl

theorem closingTarget_iff (x : Option Target) (p : Option Nat) :
    closingTarget x p = true ↔ ∃ y q, x = some (.pos y) ∧ p = some q ∧ y < q := by
  unfold closingTarget
  split
  · simp
  · next none => simp only [Bool.false_eq_true, false_iff]; rintro ⟨y, q, rfl, rfl, _⟩; exact none y q rfl rfl

theorem wantsOpening_iff (a : Aperture) :
    a.wantsOpening = true ↔ ∃ y q, a.effTarget = some (.pos y) ∧ a.position = some q ∧ q + 5 < y := by
  unfold Aperture.wantsOpening
  split
  · next y q ey eq =>
    rw [ey, eq]
    exact ⟨fun far => ⟨y, q, rfl, rfl, of_decide_eq_true far⟩, fun ⟨_, _, rfl, rfl, far⟩ => decide_eq_true far⟩
  · next none =>
    simp only [Bool.false_eq_true, false_iff]; rintro ⟨y, q, ey, eq, _⟩; exact none y q ey eq

/-- A closing target that becomes one off target in the opening direction (R12, assumption log 16). -/
def TurnsToOpen (old new : Option Target) (position : Option Nat) : Prop :=
  ∃ x y p, old = some (.pos x) ∧ new = some (.pos y) ∧ position = some p ∧ x < p ∧ p + 5 < y

theorem derived_stallCount (a : Aperture) :
    (TurnsToOpen a.effTarget a.derived.effTarget a.position → a.derived.stallCount = 0) ∧
      (¬ TurnsToOpen a.effTarget a.derived.effTarget a.position → a.derived.stallCount = a.stallCount) := by
  have target : a.derived.effTarget = a.slate.top.map fun x => x.2.target :=
    (keep_fields (derived_keep a)).2.2.2.1
  rw [target]
  unfold Aperture.derived; dsimp only
  split
  · next c =>
    rw [Bool.and_eq_true, closingTarget_iff, wantsOpening_iff] at c
    obtain ⟨⟨x, p, ex, ep, lt⟩, y, q, ey, eq, far⟩ := c
    cases ep.symm.trans eq
    exact ⟨fun _ => rfl, fun no => absurd ⟨x, y, p, ex, ey, ep, lt, far⟩ no⟩
  · next c =>
    refine ⟨fun ⟨x, y, p, ex, ey, ep, lt, far⟩ => absurd ?_ c, fun _ => rfl⟩
    rw [Bool.and_eq_true, closingTarget_iff, wantsOpening_iff]
    exact ⟨⟨x, p, ex, ep, lt⟩, y, p, ey, ep, far⟩

theorem not_turnsToOpen_self (x : Option Target) (p : Option Nat) : ¬ TurnsToOpen x x p := by
  rintro ⟨x, y, p, ex, ey, -, lt, far⟩
  cases ex.symm.trans ey
  omega

/-- Deriving moves the stall count by R12 alone. -/
theorem reordered_stallCount (a : Aperture) (now : Nat) (x : Slate) (c : Option Claim) :
    (TurnsToOpen a.effTarget (a.reordered now x c).effTarget a.position → (a.reordered now x c).stallCount = 0) ∧
      (¬ TurnsToOpen a.effTarget (a.reordered now x c).effTarget a.position →
        (a.reordered now x c).stallCount = a.stallCount) := by
  unfold Aperture.reordered Aperture.resolved
  split
  · exact ⟨fun turns => absurd turns (not_turnsToOpen_self _ _), fun _ => rfl⟩
  · rw [handed_stallCount, (keep_fields (handed_keep _ now)).2.2.2.1]
    exact derived_stallCount ({ a with slate := x, claim := c } : Aperture)

end Sys2Proof.Machine

end

