-- ==== Sys2Proof/Proofs/HandOns.lean ====
section
/-! PROOFS. Orders that reach the motion, with the attempts that end the event (R24, R25, R118). -/

namespace Sys2Proof.Machine

open Sys2Proof

variable {i j k : ApId} {b : Branch} {s t u v : State} {a b d : Aperture} {m : Motion} {now : Nat}

/-! ### What the hand-on of a changed target makes of a record (R9, R10, R24, R25, R118, R122, R123) -/

/-- The record of an aperture without slate, claim and figures: what a hand-on reads and writes. -/
def Aperture.course (a : Aperture) : Aperture :=
  { a with slate := .empty, claim := none, fig := ⟨0, .unlimited, none⟩ }

theorem course_fields (h : a.course = b.course) :
    a.state = b.state ∧ a.motion = b.motion ∧ a.mon = b.mon ∧ a.position = b.position ∧ a.stallCount = b.stallCount ∧
      a.fix = b.fix ∧ a.effTarget = b.effTarget ∧ a.effClass = b.effClass := by
  simp only [Aperture.course, Aperture.mk.injEq] at h
  tauto

theorem JudgedAs.course (h : a.course = b.course) (g : JudgedAs b) : JudgedAs a := by
  have g : JudgedAs b.course := g
  rw [← h] at g; exact g

theorem RestedAs.course (h : a.course = b.course) (g : RestedAs b) : RestedAs a := by
  have g : RestedAs b.course := g
  rw [← h] at g; exact g

/-- A waiting aperture whose target changed is judged (R10, R24), but for a back-off whose closing is still wanted. -/
theorem judgedAs_rejudged (w : a.state = .waiting) (hm : a.motion = some m)
    (h : m.purpose = .normal ∨ a.wantsClosing = false) :
    JudgedAs (a.rejudged now) ∧ ((a.rejudged now).offTarget = false → (a.rejudged now).motion = none) := by
  have rest : JudgedAs (a.rested now) ∧ ((a.rested now).offTarget = false → (a.rested now).motion = none) :=
    ⟨(restedAs_rested a now).1, fun on => ((restedAs_rested a now).2.2 on).1⟩
  unfold Aperture.rejudged
  split
  · next m' x p hm' ex ep =>
    cases hm.symm.trans hm'
    rw [if_neg (by rcases h with e | e <;> simp [e])]
    split
    · next off =>
      refine ⟨⟨fun _ => ⟨.inl w, fun y q ey eq => ?_⟩, fun on => ?_⟩, fun on => ?_⟩
      · cases ex.symm.trans ey; cases ep.symm.trans eq; rfl
      · exact absurd (off.symm.trans on) (by decide)
      · exact absurd (off.symm.trans on) (by decide)
    · exact rest
  · exact rest

/-- A waiting back-off whose closing is still wanted takes the new class alone (R122). -/
theorem rejudged_backoff (hm : a.motion = some m) (p : m.purpose = .backoff) (w : a.wantsClosing = true) :
    a.rejudged now = a.rederived { m with cls := a.effClass.getD m.cls } := by
  have hw := w
  unfold Aperture.wantsClosing at hw
  unfold Aperture.rejudged
  split at hw
  · next x q ex eq => simp [hm, ex, eq, p, w]
  · cases hw

theorem rejudged_rests (w : a.state = .waiting) : (a.rejudged now).state = .rest ∨ (a.rejudged now).state = .waiting := by
  rcases rejudged_cases a now with ⟨m, e⟩ | e <;> rw [e]
  · exact .inr w
  · exact rested_state a now

theorem offTarget_eq {x q : Nat} (ex : a.effTarget = some (.pos x)) (eq : a.position = some q) :
    a.offTarget = decide (5 < distance x q) := by
  unfold Aperture.offTarget; rw [ex, eq]; rfl

/-- R118 for a normal motion, by the new target. -/
theorem steered_normal (hm : a.motion = some m) (p : m.purpose = .normal) :
    (a.effTarget = some (.pos m.target) → a.steered = a) ∧
    (∀ x q, a.effTarget = some (.pos x) → a.position = some q → x ≠ m.target →
      (5 < distance x q → m.dir = (if x < q then .closing else .opening) → a.steered = a.retargeted x) ∧
      (distance x q ≤ 5 ∨ m.dir ≠ (if x < q then .closing else .opening) → a.steered = a.halted .target)) ∧
    (a.effTarget = none ∨ a.effTarget = some .hold → a.steered = a.halted .target) := by
  refine ⟨fun e => by simp [Aperture.steered, hm, p, e], fun x q ex eq ne => ⟨fun far dir => ?_, fun no => ?_⟩, ?_⟩
  · have off : a.offTarget = true := (offTarget_eq ex eq).trans (decide_eq_true far)
    simp [Aperture.steered, hm, p, ex, eq, ne, off, dir]
  · simp only [Aperture.steered, hm, p, ex, eq, if_neg ne, offTarget_eq ex eq, Option.getD_some]
    rw [if_neg]
    rw [Bool.and_eq_true, decide_eq_true_eq, decide_eq_true_eq]
    rintro ⟨far, dir⟩
    exact no.elim (fun near => by omega) fun ne => ne dir
  · rintro (e | e) <;> simp [Aperture.steered, hm, p, e]

/-- R118 for a back-off, by whether its closing is still wanted. -/
theorem steered_backoff (hm : a.motion = some m) (p : m.purpose = .backoff) :
    (a.wantsClosing = true → a.steered = a) ∧ (a.wantsClosing = false → a.steered = a.halted .target) := by
  constructor <;> intro w <;> simp [Aperture.steered, hm, p, w]

/-! ### The hand-on of an event, with the attempts that end it -/

/-- A driven motion that stands in `u` goes on, unless an attempt shed it (R106). -/
theorem Ending.motionStands (e : Ending i u t) (d : (s.ap i).state.driving = true)
    (st : (u.ap i).state = (s.ap i).state) (m : (u.ap i).motion = (s.ap i).motion) : MotionStands i s t := by
  obtain ⟨hm, h⟩ := e.driven (by rw [st]; exact d)
  exact ⟨hm.trans m, h.imp (fun h => h.1.trans st) id⟩

/-- A motion retargeted in `u` goes on to its new target, unless an attempt shed it (R106, R118). -/
theorem Ending.retargeted {x : Nat} (e : Ending i u t) (d : (s.ap i).state.driving = true)
    (st : (u.ap i).state = (s.ap i).state)
    (hm : (u.ap i).motion = (s.ap i).motion.map fun m => { m with target := x })
    (listed : (i, x) ∈ u.link.moveList) : Retargeted i x s t := by
  obtain ⟨m, h⟩ := e.driven (by rw [st]; exact d)
  exact ⟨m.trans hm, h.imp (fun h => ⟨h.1.trans st, (h.2 x).2 listed⟩) id⟩

/-- Two records of one aperture with the same motion, at the same place. -/
structure Aperture.Moves (a d : Aperture) : Prop where
  state    : d.state = a.state
  motion   : d.motion = a.motion
  mon      : d.mon = a.mon
  position : d.position = a.position
  fix      : d.fix = a.fix

/-- A motion halted in `u` stays halted with its HALT listed (R117). -/
theorem Ended.halted {c : HaltCause} (e : Ended u t) (same : (s.ap i).Moves d)
    (h : (u.ap i).course = (d.halted c).course) (dr : (s.ap i).state.driving = true)
    (told : i ∈ u.link.haltList ∧ ∀ m ∈ u.link.moveList, m.1 ≠ i) : Halted i c s t := by
  rw [Aperture.halted, if_pos (by rw [same.state]; exact dr)] at h
  obtain ⟨st, mo, mon, -, -, fix, -⟩ := course_fields h
  obtain ⟨ap, moves, halts⟩ := (e.ending i).stands_of (by rw [st]; nofun) (by rw [st]; rfl)
  refine ⟨by rw [ap, st], by rw [ap, mon], by rw [ap, mo]; exact same.motion, ?_, halts.2 told.1, fun m hm => ?_⟩
  · rw [ap, Aperture.contribution, st]; exact congrArg Static.run (fix.trans same.fix)
  · rintro rfl
    exact told.2 m ((moves m.2).1 hm) rfl

/-- What the handing on of a changed target made of aperture `i`, the event ended since: `d` is its record with the new
target and class, in the motion that `s` had. -/
theorem Ended.handedOn_of_handed (e : Ended u t) (same : (s.ap i).Moves d)
    (hu : (u.ap i).course = (d.handed now).course) (told : Told i (s.ap i) u) (count : StallCounted i s t) :
    HandedOn i s t := by
  have keep := keep_fields (e.frame.aps i)
  have et : (t.ap i).effTarget = d.effTarget := by
    rw [keep.2.2.2.1, (course_fields hu).2.2.2.2.2.2.1, (keep_fields (handed_keep d now)).2.2.2.1]
  have ec : (t.ap i).effClass = d.effClass := by
    rw [keep.2.2.2.2.1, (course_fields hu).2.2.2.2.2.2.2, (keep_fields (handed_keep d now)).2.2.2.2.1]
  have ep : (t.ap i).position = d.position := by
    rw [keep.2.1, (course_fields hu).2.2.2.1, (keep_fields (handed_keep d now)).2.1]
  have off : (t.ap i).offTarget = (u.ap i).offTarget := by rw [Aperture.offTarget, keep.2.2.2.1, keep.2.1, Aperture.offTarget]
  have wants : (t.ap i).wantsClosing = d.wantsClosing := by rw [Aperture.wantsClosing, et, ep, Aperture.wantsClosing]
  have stands (dr : (s.ap i).state.driving = true) (h : (u.ap i).course = d.course) : MotionStands i s t :=
    (e.ending i).motionStands dr ((course_fields h).1.trans same.state) ((course_fields h).2.1.trans same.motion)
  have halts (dr : (s.ap i).state.driving = true) (h : (u.ap i).course = (d.halted .target).course) :
      Halted i .target s t := by
    refine e.halted same h dr (told.halt dr ?_)
    rw [(course_fields h).1, Aperture.halted, if_pos (by rw [same.state]; exact dr)]
  have driven (h : (s.ap i).state = .starting ∨ (s.ap i).state = .running) :
      (s.ap i).state.driving = true ∧ (u.ap i).course = d.steered.course := by
    rcases h with st | st <;> refine ⟨by rw [st]; rfl, ?_⟩ <;> rw [hu, Aperture.handed, same.state, st]
  refine ⟨count, fun _ => ⟨fun st => ?_, fun st => ?_, fun m st hm => ?_, fun m st hm p => ?_, fun m st hm p => ?_,
    fun st => ?_⟩⟩
  case refine_1 =>
    have st : d.state = .rest := same.state.trans st
    rw [Aperture.handed, st] at hu
    exact ((judgedAs_judged st).course hu).ended (by rw [(course_fields hu).1]; exact resting_judged st) (e.ending i)
  case refine_2 =>
    rw [Aperture.handed, same.state.trans st] at hu
    exact ((restedAs_rested d now).course hu).ended (by rw [(course_fields hu).1]; exact rested_state d now) (e.ending i)
  case refine_3 =>
    have st : d.state = .waiting := same.state.trans st
    have hm := same.motion.trans hm
    rw [Aperture.handed, st] at hu
    have rests : (u.ap i).state = .rest ∨ (u.ap i).state = .waiting := by
      rw [(course_fields hu).1]; exact rejudged_rests st
    rw [wants, ec]
    refine ⟨fun h => ?_, fun p w => ?_⟩
    · obtain ⟨judged, none⟩ := judgedAs_rejudged (now := now) st hm h
      have judged := judged.course hu
      refine ⟨judged.ended rests (e.ending i), fun on => ?_⟩
      have on := off.symm.trans on
      obtain ⟨ap, -, -⟩ := (e.ending i).stands_of (by rw [judged.2 on]; nofun) (by rw [judged.2 on]; rfl)
      rw [ap, (course_fields hu).2.1]
      refine none ?_
      have fields := course_fields hu
      rw [Aperture.offTarget, ← fields.2.2.2.2.2.2.1, ← fields.2.2.2.1]
      exact on
    · rw [rejudged_backoff hm p w] at hu
      obtain ⟨st', hm'⟩ := (e.ending i).waiting ((course_fields hu).1.trans st)
      exact ⟨st', hm'.trans (course_fields hu).2.1⟩
  case refine_4 =>
    obtain ⟨dr, hu⟩ := driven st
    obtain ⟨goesOn, moved, ended⟩ := steered_normal (same.motion.trans hm) p
    rw [et]
    refine ⟨fun x => stands dr (by rw [hu, goesOn x]), fun x q ex eq ne => ?_, fun x => halts dr (by rw [hu, ended x])⟩
    obtain ⟨retargets, halted⟩ := moved x q ex (same.position.trans eq) ne
    refine ⟨fun far dir => ?_, fun no => halts dr (by rw [hu, halted no])⟩
    rw [retargets far dir] at hu
    have mo : (u.ap i).motion = (s.ap i).motion.map fun m => { m with target := x } := by
      rw [(course_fields hu).2.1, ← same.motion]; rfl
    refine (e.ending i).retargeted dr ((course_fields hu).1.trans same.state) mo ?_
    rw [hm] at mo
    exact told.move dr m _ hm mo (Ne.symm ne)
  case refine_5 =>
    obtain ⟨dr, hu⟩ := driven st
    obtain ⟨goesOn, ended⟩ := steered_backoff (same.motion.trans hm) p
    rw [wants]
    exact ⟨fun w => stands dr (by rw [hu, goesOn w]), fun w => halts dr (by rw [hu, ended w])⟩
  case refine_6 =>
    have still : d.handed now = d := by
      rcases st with st | st | st | st | st <;> rw [Aperture.handed, same.state, st]
    rw [still] at hu
    obtain ⟨st', mo, mon, -⟩ := course_fields hu
    have st' := st'.trans same.state
    obtain ⟨ap, -, -⟩ := (e.ending i).stands_of (by rw [st']; rcases st with st | st | st | st | st <;> rw [st] <;> nofun)
      (by rw [st']; rcases st with st | st | st | st | st <;> rw [st] <;> rfl)
    rw [ap]
    exact ⟨st', mo.trans same.motion, mon.trans same.mon⟩

/-- Between `s` and `u` the orders of aperture `i` stood or were written and derived, with the lists told of what that
did to its motion. Claim and figures may have been formed anew meanwhile. -/
structure Passed (i : ApId) (s u : State) : Prop where
  told   : Told i (s.ap i) u
  record : (u.ap i).course = (s.ap i).course ∨
    ∃ (a : Aperture) (now : Nat) (x : Slate) (c : Option Claim), a.course = (s.ap i).course ∧
      (u.ap i).course = (a.reordered now x c).course

theorem Passed.stands (h : (u.ap i).course = (s.ap i).course) : Passed i s u :=
  ⟨.stands (course_fields h).1 (course_fields h).2.1, .inl h⟩

theorem Reorders.passed {x : Slate} {c : Option Claim} (h : Reorders i x c s t) : Passed i s t :=
  ⟨h.told, .inr ⟨_, _, x, c, rfl, by rw [h.writes.self]⟩⟩

theorem MayReorder.passed (h : MayReorder i s t) : Passed i s t := by
  cases h with
  | none => exact .stands rfl
  | some x c t h => exact h.passed

/-- What orders that were written and derived did to the stall count (R12). -/
theorem Passed.stallCount (h : Passed i s u) :
    (TurnsToOpen (s.ap i).effTarget (u.ap i).effTarget (s.ap i).position → (u.ap i).stallCount = 0) ∧
      (¬ TurnsToOpen (s.ap i).effTarget (u.ap i).effTarget (s.ap i).position →
        (u.ap i).stallCount = (s.ap i).stallCount) := by
  rcases h.record with e | ⟨a, now, x, c, ea, eu⟩
  · obtain ⟨-, -, -, -, count, -, et, -⟩ := course_fields e
    rw [et]
    exact ⟨fun turns => absurd turns (not_turnsToOpen_self _ _), fun _ => count⟩
  · obtain ⟨-, -, -, ap, acount, -, aet, -⟩ := course_fields ea
    obtain ⟨-, -, -, -, count, -, et, -⟩ := course_fields eu
    rw [et, count, ← aet, ← ap, ← acount]
    exact reordered_stallCount a now x c

theorem Ended.stallCounted (e : Ended u t) (h : Passed i s u) : StallCounted i s t := by
  have g := h.stallCount
  unfold StallCounted
  rw [(e.ending i).stallCount, (keep_fields (e.frame.aps i)).2.2.2.1]
  exact g

/-- Orders that stand, or are written and derived, reach the motion and the stall count (R12, R24, R25, R118). -/
theorem Ended.handedOn (e : Ended u t) (h : Passed i s u) : HandedOn i s t := by
  have unchanged (g : (u.ap i).course = (s.ap i).course) : HandedOn i s t := by
    obtain ⟨-, -, -, et, ec, -⟩ := keep_fields (e.frame.aps i)
    obtain ⟨-, -, -, -, -, -, et', ec'⟩ := course_fields g
    refine ⟨e.stallCounted h, fun changed => ?_⟩
    rw [et, ec, et', ec'] at changed
    exact (changed.elim (· rfl) (· rfl)).elim
  rcases h.record with g | ⟨a, now, x, c, ea, eu⟩
  · exact unchanged g
  · unfold Aperture.reordered Aperture.resolved at eu
    split at eu
    · exact unchanged (eu.trans ea)
    · refine e.handedOn_of_handed ?_ eu h.told (e.stallCounted h)
      obtain ⟨st, mo, mon, p, -, fix, -⟩ := course_fields ea
      have d : ({ a with slate := x, claim := c } : Aperture).Moves ({ a with slate := x, claim := c } : Aperture).derived := by
        unfold Aperture.derived; dsimp only
        split <;> exact ⟨rfl, rfl, rfl, rfl, rfl⟩
      exact ⟨d.state.trans st, d.motion.trans mo, d.mon.trans mon, d.position.trans p, d.fix.trans fix⟩

end Sys2Proof.Machine

end

