-- ==== Sys2Proof/Proofs/PortOrders.lean ====
section
/-! PROOFS. Orders posted and released by a port: O49 and O52. -/

namespace Sys2Proof.Machine

open Sys2Proof

variable {i j : ApId} {s t u v : State} {p : Port} {x : Slate} {c : Option Claim} {k : RequestKind} {body : List Byte}
  {y : Target}

/-! ### Orders posted and released by a port (R26 to R31, R34) -/

/-- The slate written, and the target and class derived from it, stand when the event has ended (R24). -/
theorem Reorders.ended (h : Reorders i x c s u) (e : Ended u t) : (t.ap i).slate = x ∧
    (t.ap i).effTarget = x.top.map (fun y => y.2.target) ∧ (t.ap i).effClass = x.top.map (fun y => y.1) := by
  obtain ⟨-, -, sl, et, ec, -⟩ := keep_fields (e.frame.aps i)
  obtain ⟨-, -, sl', et', ec', -⟩ := keep_fields (reordered_keep (s.ap i) s.ds x c)
  rw [sl, et, ec, h.writes.self, sl', et', ec']
  exact ⟨rfl, rfl, rfl⟩

/-- An operation on the orders of one aperture leaves those of the others. -/
theorem MayReorder.others (h : MayReorder i s u) (e : Ended u t) (ne : j ≠ i) :
    (t.ap j).slate = (s.ap j).slate ∧ (t.ap j).effTarget = (s.ap j).effTarget := by
  obtain ⟨-, -, sl, et, -⟩ := keep_fields (e.frame.aps j)
  rw [sl, et]
  cases h with
  | none => exact ⟨rfl, rfl⟩
  | some x c u h => rw [h.writes j, if_neg ne.symm]; exact ⟨rfl, rfl⟩

theorem Ended.stands (e : Ended u t) (f : Frame Aperture.stands s u) : Frame Aperture.stands s t :=
  f.trans (e.frame.mono keep_stands)

/-- The slot a port posts, with the expiry time of R34. -/
theorem portSlot_eq (s : State) (p : Port) (y : Target) : portSlot s p y =
    { target := y, origin := .port p, posted := s.ds
      expiry := if p = .K ∧ y.opening = true ∧ 0 < s.roomLifetime
        then some (s.ds + s.roomLifetime * 600) else none } := by
  cases p <;> simp [portSlot, slotExpiry]

theorem releaseOrder_none (h : (ownSlot s p i).isSome = false) : releaseOrder p i s = s := by
  rw [releaseOrder, Option.isSome_eq_false_iff.1 h |> Option.isNone_iff_eq_none.1]

/-- A release of a slot that is there (R30, R31, R151). -/
theorem releaseOrder_reorders (h : (ownSlot s p i).isSome = true) :
    Reorders i ((s.ap i).slate.put (portClass p) (if p = .L ∧ s.fire.state ≠ .normal then alarmSlot s i else none))
      (s.ap i).claim s (releaseOrder p i s) := by
  obtain ⟨z, hz⟩ := Option.isSome_iff_exists.1 h
  rw [releaseOrder, hz]
  exact putResolve_reorders i _ _ s

/-- `t` answers the request that port `p` of `s` made: the serving led to `v` and to the reply `z`. -/
structure AnsweredFrom (f : Aperture → Aperture) (p : Port) (k : RequestKind) (s v : State) (z : Reply) (t : State) :
    Prop where
  ap    : ∀ i, t.ap i = v.ap i
  link  : t.link = v.link
  holds : (t.port p).holdsReply k.code (s.port p).nextHeader z
  kept  : RestKept f p s t

/-- A request that is served with a frame is answered in it. -/
theorem submit_answeredFrom {f : Aperture → Aperture} {r : ReplyCode} {z : List Byte} (ready : (s.port p).ready)
    (allowed : k.allowedOn p = true) (len : k.lengthOk body.length = true) (frame : Frame f (s.askedAt p k body) v)
    (served : serve k p body (s.askedAt p k body) = answer r z v) :
    ∃ t, submit p k.code body s = .next t ∧ AnsweredFrom f p k s v ⟨r, z, false⟩ t := by
  refine ⟨_, submit_served ready allowed len, ?_⟩
  rw [served]
  exact ⟨fun _ => rfl, rfl, placeReply_holdsReply ready (frame.ports p) _, placeReply_restKept ready frame _⟩

/-- A hand-on seen from the request's taking is one seen from the state before, and the reply stands beside it. -/
theorem AnsweredFrom.handedOn {f : Aperture → Aperture} {z : Reply} (h : AnsweredFrom f p k s v z t)
    (g : HandedOn i (s.askedAt p k body) v) : HandedOn i s t := by
  have g : HandedOn i s v := g
  simp only [HandedOn, StallCounted, Judged, Rested, MotionStands, Retargeted, Halted, h.ap, h.link] at g ⊢
  exact g

variable {index form : Byte} {value : BitVec 16} {clamped : Bool}

theorem serveOrder_posts (named : apNamed s index.toNat = some i) (right : (s.zoneOf i).right p = .order)
    (parsed : parseTarget form.toNat value.toNat = some (y, clamped)) (free : weatherHeld s p i y = false) :
    let w := s.askedAt p .order (orderBody index form value)
    let v := event (postOrder p i y) w
    serve .order p (orderBody index form value) w =
      answer (okCode clamped) (eIndex (some i) ++ eTarget (some y) ++ eTarget (v.ap i).effTarget ++
        eClass (v.ap i).effClass) v := by
  simp only [serve, serveOrder, orderBody_index, orderBody_form, orderBody_value, apNamed_askedAt, named,
    mayOrder_askedAt, right, decide_true, Bool.not_true, Bool.false_eq_true, if_false, parsed, weatherHeld_askedAt, free]

theorem serveRelease_releases (named : apNamed s index.toNat = some i) (right : (s.zoneOf i).right p = .order) :
    let w := s.askedAt p .release [index]
    let v := event (releaseOrder p i) w
    serve .release p [index] w = answer .ok (eBool (ownSlot s p i).isSome ++ eTarget (v.ap i).effTarget ++
      eClass (v.ap i).effClass) v := by
  simp only [serve, serveRelease, bodyAt_one, apNamed_askedAt, named, mayOrder_askedAt, right, decide_true,
    Bool.not_true, Bool.false_eq_true, if_false]
  rfl

theorem event_ended (f : State → State) (s : State) : Ended (f s) (event f s) := finish_ended false s (f s)

theorem weatherHeld_eq_false (h : ¬ (p ≠ .L ∧ y.opening = true ∧ (s.ap i).slate.weather.isSome = true)) :
    weatherHeld s p i y = false := by
  simpa [weatherHeld] using h

end Sys2Proof.Machine

open Sys2Proof Sys2Proof.Machine

/-- Settles O49: one slot written, derived and handed on, with the attempts that end the event. -/
theorem orderPostsOwnSlot : Obligations.OrderPostsOwnSlot := by
  intro s p index form value i x clamped ready named right parsed free
  have r := postOrder_reorders p i x (s.askedAt p .order (orderBody index form value))
  have e := event_ended (postOrder p i x) (s.askedAt p .order (orderBody index form value))
  obtain ⟨t, run, a⟩ := submit_answeredFrom (k := .order) ready (by cases p <;> rfl) rfl (e.stands r.frame)
    (serveOrder_posts named right parsed (weatherHeld_eq_false free))
  obtain ⟨slate, target, cls⟩ := r.ended e
  rw [← slate] at target cls
  rw [← a.ap] at slate target cls
  refine ⟨t, run, slate.trans ?_, target, cls, a.handedOn (e.handedOn r.passed), fun j ne => ?_, ?_, a.kept⟩
  · rw [portSlot_eq]; rfl
  · rw [a.ap]; exact (MayReorder.some _ _ _ r).others e ne
  · rw [a.ap]; exact a.holds

/-- Settles O52: the port's slot removed or replaced, derived and handed on; without one nothing is written. -/
theorem releaseRemovesOwnSlot : Obligations.ReleaseRemovesOwnSlot := by
  intro s p index i ready named right
  have m := releaseOrder_mayReorder p i (s.askedAt p .release [index])
  have e := event_ended (releaseOrder p i) (s.askedAt p .release [index])
  obtain ⟨t, run, a⟩ := submit_answeredFrom (k := .release) ready (by cases p <;> rfl) rfl (e.stands m.frame)
    (serveRelease_releases named right)
  refine ⟨t, run, ?_, a.handedOn (e.handedOn m.passed), fun j ne => ?_, ?_, a.kept⟩
  · rw [a.ap]
    split
    · next own => exact ((releaseOrder_reorders (s := s.askedAt p .release [index]) own).ended e).1
    · next own =>
      have still := releaseOrder_none (s := s.askedAt p .release [index]) (Bool.eq_false_of_not_eq_true own)
      rw [(keep_fields (e.frame.aps i)).2.2.1, still]; rfl
  · rw [a.ap]; exact (m.others e ne).1
  · rw [a.ap]; exact a.holds

end

