-- ==== Sys2Proof/Proofs/FaultClearance.lean ====
section
/-! PROOFS. An event that touches no wait list, and CLEAR-FAULT: O53. -/

namespace Sys2Proof.Machine

open Sys2Proof

variable {i j : ApId} {b : Branch} {s t u v : State} {p : Port} {k : RequestKind} {body : List Byte}

/-! ### An event that touches no wait list ends in the state it left (R101, R107, assumption log 12) -/

/-- What the wait lists, reservations and owed attempts are read from stands between `s` and `u`. -/
structure WaitsAlike (s u : State) : Prop where
  aps : ∀ i, (u.ap i).fix = (s.ap i).fix ∧ (u.ap i).state = (s.ap i).state ∧ (u.ap i).motion = (s.ap i).motion ∧
    (u.ap i).slate = (s.ap i).slate ∧ (u.ap i).waitSince = (s.ap i).waitSince
  queue    : u.sup.queue = s.sup.queue
  branches : u.branches = s.branches
  zones    : u.zones = s.zones
  owed     : u.owed = s.owed

theorem WaitsAlike.refl (s : State) : WaitsAlike s s := ⟨fun _ => ⟨rfl, rfl, rfl, rfl, rfl⟩, rfl, rfl, rfl, rfl⟩

theorem WaitsAlike.trans (h : WaitsAlike s u) (g : WaitsAlike u t) : WaitsAlike s t := by
  refine ⟨fun i => ?_, g.queue.trans h.queue, g.branches.trans h.branches, g.zones.trans h.zones, g.owed.trans h.owed⟩
  obtain ⟨fix, st, m, sl, w⟩ := h.aps i
  rw [← fix, ← st, ← m, ← sl, ← w]
  exact g.aps i

theorem WaitsAlike.waitEntry (h : WaitsAlike s u) : waitEntry u = waitEntry s := by
  funext i
  obtain ⟨-, st, m, sl, w⟩ := h.aps i
  simp only [Machine.waitEntry, Aperture.orderTime, st, m, sl, w, h.queue]

theorem WaitsAlike.waitList (h : WaitsAlike s u) (b : Branch) : waitList u b = waitList s b := by
  have on : u.onBranch b = s.onBranch b := by simp only [State.onBranch, (h.aps _).1]
  rw [Machine.waitList, Machine.waitList, on, h.waitEntry]

theorem WaitsAlike.branch (h : WaitsAlike s u) (b : Branch) : u.branch b = s.branch b := by
  simp only [State.branch, h.branches]

theorem WaitsAlike.standingOf (h : WaitsAlike s u) (b : Branch) (e : WaitEntry) : standingOf u b e = standingOf s b e := by
  obtain ⟨fix, -, m, -⟩ := h.aps e.ap
  have g : u.governing e.ap = s.governing e.ap := by simp only [State.governing, h.zones]
  have aw : awaitsWarning u e = awaitsWarning s e := by
    unfold awaitsWarning; rw [g, m, h.zones]
  rw [Machine.standingOf, Machine.standingOf, aw, unfit, unfit, fix, h.branch]

theorem WaitsAlike.settled (h : WaitsAlike s u) (set : s.Settled) : u.Settled := by
  refine ⟨h.owed.trans set.1, fun b i r => ?_⟩
  rw [h.branch] at r
  obtain ⟨e, mem, rest⟩ := set.2 b i r
  exact ⟨e, by rw [h.waitList]; exact mem, by rw [h.standingOf]; exact rest⟩

/-- A reservation that stands is left (R107). -/
theorem checkReservation_settled (set : s.Settled) (b : Branch) : checkReservation s b = s := by
  unfold checkReservation
  split
  · rfl
  · next i r =>
    obtain ⟨e, mem, rfl, cls, el⟩ := set.2 b i r
    split
    · next x find =>
      have same : x.ap = e.ap := by simpa using List.find?_some find
      have hx := ((mem_waitList b s x).1 (List.mem_of_find?_eq_some find)).2
      rw [same, ((mem_waitList b s e).1 mem).2, Option.some.injEq] at hx
      subst hx
      rw [if_pos (by simpa [el] using cls)]
    · next none => exact absurd (List.find?_eq_none.1 none e mem) (by simp)

theorem foldl_fixed {α β : Type} {f : β → α → β} {x : β} (h : ∀ a, f x a = x) (l : List α) : l.foldl f x = x := by
  induction l with
  | nil => rfl
  | cons a as ih => rw [List.foldl_cons, h, ih]

theorem settleAttempts_settled (h : s.owed = []) : settleAttempts s = s := by
  unfold settleAttempts; dsimp only
  rw [foldl_fixed (fun b => by rw [h, if_neg (List.not_mem_nil)])]
  rw [← h]

/-- An event that leaves wait lists and queue as they were, with nothing owed and every reservation standing, draws the
free values and does no more. -/
theorem WaitsAlike.finish (h : WaitsAlike s u) (set : s.Settled) : finish false s u = u.draw := by
  have us := h.settled set
  unfold Machine.finish; dsimp only
  rw [if_neg (by simp [h.queue]), countChange, if_pos h.queue, foldl_fixed (checkReservation_settled us),
    foldl_fixed fun b => ?_]
  · exact settleAttempts_settled us.1
  · rw [oweMoves, if_pos]
    simp only [waitKeys, h.waitList]

/-! ### CLEAR-FAULT (R14) -/

theorem askedAt_waitsAlike : WaitsAlike s (s.askedAt p k body) :=
  ⟨fun _ => ⟨rfl, rfl, rfl, rfl, rfl⟩, rfl, rfl, rfl, rfl⟩

theorem serveClearFault_clears {index : Byte} (named : apNamed s index.toNat = some i)
    (right : (s.zoneOf i).right p = .order) :
    let w := s.askedAt p .clearFault [index]
    let v := event (clearFaultOf i) w
    serve .clearFault p [index] w = answer .ok (eIndex (some i) ++ e1 (v.ap i).state.code ++
      e1 (faultCode ((v.ap i).fault.map (·.kind)))) v := by
  simp only [serve, serveClearFault, bodyAt_one, apNamed_askedAt, named, mayOrder_askedAt, right, decide_true,
    Bool.not_true, Bool.false_eq_true, if_false]

theorem clearFaultOf_stall {e : Nat} (st : (s.ap i).state = .fault) (f : (s.ap i).fault = some ⟨.stall, e⟩) :
    clearFaultOf i s = toRest i (s.modAp i fun a => { a with stallCount := 0 }) := by
  rw [clearFaultOf, st, f]

theorem clearFaultOf_timeout {e : Nat} (st : (s.ap i).state = .fault) (f : (s.ap i).fault = some ⟨.timeout, e⟩) :
    clearFaultOf i s = toRest i s := by
  rw [clearFaultOf, st, f]

/-- No fault that CLEAR-FAULT clears: nothing is done (R14). -/
theorem clearFaultOf_other (h : (s.ap i).state ≠ .fault ∨ ∃ e, (s.ap i).fault = some ⟨.localControl, e⟩) :
    clearFaultOf i s = s := by
  unfold clearFaultOf
  split
  · next e st f => rcases h with h | ⟨e', h⟩ <;> simp_all
  · next e st f => rcases h with h | ⟨e', h⟩ <;> simp_all
  · rfl

/-- An entry to REST, judged, stands so when the event has ended. -/
theorem Ended.rested {a : Aperture} {now : Nat} (e : Ended u t) (h : u.ap i = a.rested now) :
    Rested i t ∧ (t.ap i).stallCount = a.stallCount := by
  refine ⟨RestedAs.ended (by rw [h]; exact restedAs_rested a now) (by rw [h]; exact rested_state a now) (e.ending i), ?_⟩
  rw [(e.ending i).stallCount, h, rested_stallCount]

end Sys2Proof.Machine

open Sys2Proof Sys2Proof.Machine

/-- Settles O53, by the fault that stands. -/
theorem clearFaultClearsStallAndTimeout : Obligations.ClearFaultClearsStallAndTimeout := by
  intro s p index i hp ready named right
  have e := event_ended (clearFaultOf i) (s.askedAt p .clearFault [index])
  have frame := (clearFaultOf_frame i (s.askedAt p .clearFault [index])).trans e.frame
  obtain ⟨t, run, a⟩ := submit_answeredFrom (k := .clearFault) ready (by rcases hp with rfl | rfl <;> rfl) rfl frame
    (serveClearFault_clears named right)
  refine ⟨t, run, fun _ st f => ?_, fun _ st f => ?_, fun _ st f => ?_, fun set h => ?_, ?_, a.kept⟩
  · have h := clearFaultOf_stall (s := s.askedAt p .clearFault [index]) st f
    rw [rested_iff, a.ap]
    refine e.rested (a := { s.ap i with stallCount := 0 }) (now := s.ds) ?_
    rw [h, toRest_ap, if_pos rfl, State.ap_modAp_self]; rfl
  · have h := clearFaultOf_timeout (s := s.askedAt p .clearFault [index]) st f
    rw [rested_iff, a.ap]
    refine e.rested (a := s.ap i) (now := s.ds) ?_
    rw [h, toRest_ap, if_pos rfl]; rfl
  · have h := clearFaultOf_other (s := s.askedAt p .clearFault [index]) (.inr ⟨_, f⟩)
    obtain ⟨stands, -, -⟩ := (e.ending i).stands_of (by rw [h]; exact fun w => by cases st.symm.trans w)
      (by rw [h]; exact congrArg MotionState.driving st)
    rw [a.ap, stands, h]
    exact ⟨st, rfl⟩
  · have still := clearFaultOf_other (s := s.askedAt p .clearFault [index]) h
    have drawn : event (clearFaultOf i) (s.askedAt p .clearFault [index]) = s.draw.askedAt p .clearFault [index] := by
      rw [event, still, (WaitsAlike.refl _).finish (askedAt_waitsAlike.settled set)]; rfl
    have served := submit_served (k := .clearFault) (body := [index]) ready (by rcases hp with rfl | rfl <;> rfl) rfl
    have sv := serveClearFault_clears (p := p) named right
    dsimp only at sv
    rw [sv, drawn] at served
    have r2 : (s.draw.port p).held = none := ready.2
    exact (next_inj (run.symm.trans served)).trans (placeReply_asked r2 _ _ _)
  · rw [a.ap]; exact a.holds

end

