-- ==== Sys2Proof/Proofs/ZoneOrders.lean ====
section
/-! PROOFS. The orders of many apertures in turn, and ORDER-ZONE: O51. -/

namespace Sys2Proof.Machine

open Sys2Proof

variable {i j : ApId} {s t u v : State} {p : Port} {body : List Byte} {f : State → ApId → State} {l : List ApId}
  {x : Slate} {c : Option Claim} {a : Aperture} {y : Target}

/-! ### The orders of many apertures, one after the other -/

/-- Record and list entries of aperture `j` stand between `s` and `t`. -/
structure Untouched (j : ApId) (s t : State) : Prop where
  ap    : t.ap j = s.ap j
  moves : ∀ x, (j, x) ∈ t.link.moveList ↔ (j, x) ∈ s.link.moveList
  halts : j ∈ t.link.haltList ↔ j ∈ s.link.haltList

theorem Untouched.refl (j : ApId) (s : State) : Untouched j s s := ⟨rfl, fun _ => Iff.rfl, Iff.rfl⟩

theorem Untouched.trans (h : Untouched j s u) (g : Untouched j u t) : Untouched j s t :=
  ⟨g.ap.trans h.ap, fun x => (g.moves x).trans (h.moves x), g.halts.trans h.halts⟩

theorem Told.untouched (h : Told j a u) (g : Untouched j u t) : Told j a t where
  halt d st := by
    rw [g.ap] at st
    obtain ⟨listed, none⟩ := h.halt d st
    refine ⟨g.halts.2 listed, fun m hm e => ?_⟩
    subst e
    exact none m ((g.moves m.2).1 hm) rfl
  move d m n hm hn ne := by
    rw [g.ap] at hn
    exact (g.moves _).2 (h.move d m n hm hn ne)

/-- Orders that were passed on before or after what left the aperture alone are passed on. -/
theorem Passed.untouched (h : Passed j u v) (left : u.ap j = s.ap j) (right : Untouched j v t) : Passed j s t where
  told := (left ▸ h.told).untouched right
  record := by
    rw [right.ap, ← left]
    exact h.record

theorem MayReorder.untouched (h : MayReorder i s t) (ne : i ≠ j) : Untouched j s t := by
  cases h with
  | none => exact .refl j s
  | some x c t h => exact ⟨by rw [h.writes j, if_neg ne], fun y => h.moves j y ne, h.halts j ne⟩

/-- Aperture `j` has had its turn between `s` and `t`, from the state `v`, and was left alone before and after. -/
structure Turn (f : State → ApId → State) (j : ApId) (s v t : State) : Prop where
  before : Frame Aperture.stands s v
  left   : v.ap j = s.ap j
  after  : Frame Aperture.stands (f v j) t
  right  : Untouched j (f v j) t

theorem foldl_untouched (h : ∀ s i, MayReorder i s (f s i)) (nm : j ∉ l) (s : State) : Untouched j s (l.foldl f s) := by
  induction l generalizing s with
  | nil => exact .refl j s
  | cons i is ih =>
    rw [List.mem_cons, not_or] at nm
    exact ((h s i).untouched (Ne.symm nm.1)).trans (ih nm.2 _)

/-- Each aperture of a list without repetition has its turn. -/
theorem foldl_turn (h : ∀ s i, MayReorder i s (f s i)) (nd : l.Nodup) (mem : j ∈ l) (s : State) :
    ∃ v, Turn f j s v (l.foldl f s) := by
  induction l generalizing s with
  | nil => nomatch mem
  | cons i is ih =>
    obtain ⟨nm, nd⟩ := List.nodup_cons.1 nd
    by_cases e : j = i
    · subst e
      exact ⟨s, Frame.refl _ s, rfl, Frame.foldl (fun s i => (h s i).frame) is _, foldl_untouched h nm _⟩
    · obtain ⟨v, turn⟩ := ih nd ((List.mem_cons.1 mem).resolve_left e) (f s i)
      exact ⟨v, (h s i).frame.trans turn.before, turn.left.trans ((h s i).untouched (Ne.symm e)).ap, turn.after, turn.right⟩

theorem Turn.passed (h : ∀ s i, MayReorder i s (f s i)) (turn : Turn f j s v t) : Passed j s t :=
  ((h v j).passed).untouched turn.left turn.right

/-- The orders of every aperture stood or were passed on. -/
theorem foldl_passed (h : ∀ s i, MayReorder i s (f s i)) (nd : l.Nodup) (s : State) (j : ApId) :
    Passed j s (l.foldl f s) := by
  by_cases mem : j ∈ l
  · obtain ⟨v, turn⟩ := foldl_turn h nd mem s
    exact turn.passed h
  · exact .stands (by rw [(foldl_untouched h mem s).ap])

theorem Reorders.slate (h : Reorders i x c s t) : (t.ap i).slate = x ∧ (t.ap i).claim = c := by
  obtain ⟨-, -, sl, -, -, cl, -⟩ := keep_fields (reordered_keep (s.ap i) s.ds x c)
  rw [h.writes.self]; exact ⟨sl, cl⟩

theorem allAps_nodup : allAps.Nodup := List.nodup_finRange 48

theorem mem_allAps (i : ApId) : i ∈ allAps := List.mem_finRange i

/-! ### ORDER-ZONE (R41) -/

theorem mem_members {z : Option ZoneId} : i ∈ s.members z ↔ (s.ap i).present = true ∧ s.governing i = z := by
  simp [State.members, mem_allAps]

/-- The installed apertures of a descriptor that the weather does not hold against this order (R29, R41). -/
def freeMembers (s : State) (p : Port) (z : Option ZoneId) (y : Target) : List ApId :=
  (s.members z).filter fun i => !weatherHeld s p i y

theorem freeMembers_nodup (z : Option ZoneId) : (freeMembers s p z y).Nodup :=
  (allAps_nodup.filter _).filter _

theorem mem_freeMembers {z : Option ZoneId} :
    i ∈ freeMembers s p z y ↔ (s.ap i).present ∧ s.governing i = z ∧ weatherHeld s p i y = false := by
  simp [freeMembers, mem_members, and_assoc]

theorem postOrder_mayReorder (p : Port) (y : Target) (s : State) (i : ApId) : MayReorder i s (postOrder p i y s) :=
  .some _ _ _ (postOrder_reorders p i y s)

/-- The slot a port posts depends on the uptime and the room lifetime alone (R27, R34). -/
theorem portSlot_frame {k : Aperture → Aperture} (h : Frame k s t) : portSlot t p y = portSlot s p y := by
  rw [portSlot_eq, portSlot_eq, h.ds, h.roomLifetime]

theorem serveOrderZone_posts {zone form : Byte} {value : BitVec 16} {clamped : Bool} {z : Option ZoneId}
    (named : zoneNamed zone.toNat = some z) (right : (s.descriptor z).right p = .order)
    (parsed : parseTarget form.toNat value.toNat = some (y, clamped)) :
    let w := s.askedAt p .orderZone (orderBody zone form value)
    serve .orderZone p (orderBody zone form value) w =
      answer (okCode clamped) (e1 ((s.members z).filter fun i => !weatherHeld s p i y).length ++
        e1 ((s.members z).filter fun i => weatherHeld s p i y).length ++ eTarget (some y))
        (event ((freeMembers w p z y).foldl fun s' i => postOrder p i y s') w) := by
  simp only [serve, serveOrderZone, orderBody_index, orderBody_form, orderBody_value, named, parsed]
  exact if_neg (not_not.2 right)

end Sys2Proof.Machine

open Sys2Proof Sys2Proof.Machine

/-- Settles O51: every free member has its turn, and the others are left alone. -/
theorem orderZonePostsOnItsMembers : Obligations.OrderZonePostsOnItsMembers := by
  intro s p zone form value z x clamped ready named right parsed
  have served := serveOrderZone_posts (p := p) named right parsed
  dsimp only at served
  have ap (i : ApId) : (s.askedAt p .orderZone (orderBody zone form value)).ap i = s.ap i := rfl
  have mem (i : ApId) : i ∈ freeMembers (s.askedAt p .orderZone (orderBody zone form value)) p z x ↔
      (s.ap i).present ∧ s.governing i = z ∧ weatherHeld s p i x = false := mem_freeMembers
  have slot : portSlot (s.askedAt p .orderZone (orderBody zone form value)) p x = portSlot s p x := rfl
  have posts := postOrder_mayReorder p x
  have e := event_ended (fun w => (freeMembers (s.askedAt p .orderZone (orderBody zone form value)) p z x).foldl
    (fun s' i => postOrder p i x s') w) (s.askedAt p .orderZone (orderBody zone form value))
  have nd := freeMembers_nodup (s := s.askedAt p .orderZone (orderBody zone form value)) (p := p) (y := x) z
  obtain ⟨t, run, a⟩ := submit_answeredFrom (k := .orderZone) ready (by cases p <;> rfl) rfl
    (e.stands (Frame.foldl (fun s' i => (posts s' i).frame) _ _)) served
  refine ⟨t, run, fun i => ?_, a.holds, fun i _ _ _ => a.handedOn (e.handedOn (foldl_passed posts nd _ i)), a.kept⟩
  rw [a.ap, (keep_fields (e.frame.aps i)).2.2.1]
  split
  · next h =>
    obtain ⟨v, turn⟩ := foldl_turn posts nd ((mem i).2 h) (s.askedAt p .orderZone (orderBody zone form value))
    rw [turn.right.ap, (postOrder_reorders p i x v).slate.1, turn.left, ap, portSlot_frame turn.before, slot]
  · next h => rw [(foldl_untouched posts (mt (mem i).1 h) _).ap, ap]

end

