-- ==== Sys2Proof/Proofs/SlotExpiries.lean ====
section
/-! PROOFS. Notices of an event; room expiry and the exit from HOLDING: O29 and O27. -/

namespace Sys2Proof.Machine

open Sys2Proof

variable {i j : ApId} {s t u v : State} {p : Port} {k : Aperture → Aperture} {x : Slate} {c : Option Claim}
  {a : Aperture} {ps : List Port} {n : Notice} {now : Nat}

/-! ### Notices of an event (R162, R163) -/

theorem notify_queued (ps : List Port) (nodup : ps.Nodup) (b : NoticeBody) (s : State) :
    NoticeQueued ps ⟨s.sec, b⟩ s (s.notify ps b) := by
  intro p mem room
  rw [notify_port ps nodup, if_pos mem] at room ⊢
  unfold PortRec.addNotice at room ⊢
  split
  · exact ⟨[_], rfl, List.mem_singleton.2 rfl⟩
  · next full =>
    rw [if_neg full] at room
    exact absurd (room.resolve_left nofun) full

/-- A notice behind what left the queues their notices joined the same queues. -/
theorem NoticeQueued.behind (h : NoticeQueued ps n u t) (f : ∀ p, PortKept (s.port p) (u.port p)) :
    NoticeQueued ps n s t := by
  intro p mem room
  obtain ⟨more, e, hn⟩ := h p mem room
  obtain ⟨first, e'⟩ := (f p).queued
  exact ⟨first ++ more, by rw [e, ← e', List.append_assoc], List.mem_append_right _ hn⟩

/-- A notice to a port with room stands behind those it had. -/
theorem notify_prefix (nodup : ps.Nodup) (b : NoticeBody) (mem : p ∈ ps)
    (room : (s.port p).notices.length < 16) (f : ∀ p, PortKept ((s.notify ps b).port p) (t.port p)) :
    (s.port p).notices ++ [⟨s.sec, b⟩] <+: (t.port p).notices := by
  have h := (f p).queued
  rw [notify_port ps nodup, if_pos mem, PortRec.addNotice, if_pos (show _ < Config.noticeCapacity from room)] at h
  exact h

/-! ### Untouched apertures, and the installed ones -/

theorem Untouched.elsewhere (aps : t.aps = s.aps) (link : t.link = s.link) (j : ApId) : Untouched j s t :=
  ⟨State.ap_of_aps aps j, fun _ => by rw [link], by rw [link]⟩

theorem notify_untouched (ps : List Port) (b : NoticeBody) (j : ApId) : Untouched j s (s.notify ps b) := by
  obtain ⟨x, h⟩ := State.notify_rest (s := s) ps b
  exact .elsewhere (by rw [h]) (by rw [h]) j

theorem Passed.elsewhere (h : Passed j s u) (aps : t.aps = u.aps) (link : t.link = u.link) : Passed j s t :=
  h.untouched rfl (.elsewhere aps link j)

/-- A hand-on leaves no aperture ABSENT and makes none so (R16). -/
theorem handed_present (a : Aperture) (now : Nat) : (a.handed now).present = a.present := by
  have rested : (a.rested now).state ≠ .absent := by rcases rested_state a now with e | e <;> rw [e] <;> nofun
  have steered (d : a.state.driving = true) : a.steered.state ≠ .absent := by
    rcases steered_cases a with e | ⟨y, e⟩ | e <;> rw [e]
    · intro n; rw [n] at d; cases d
    · intro n; rw [show a.state = .absent from n] at d; cases d
    · rw [Aperture.halted, if_pos d]; nofun
  unfold Aperture.handed Aperture.present
  split <;> rename_i st
  · rcases judged_state a now with e | ⟨-, e⟩ <;> rw [e, st]
    · rfl
  · rw [st, decide_eq_true (by decide : MotionState.waiting ≠ .absent), decide_eq_true]
    rcases rejudged_rests (now := now) st with e | e <;> rw [e] <;> nofun
  · rw [st]; exact decide_eq_true (steered (by rw [st]; rfl))
  · rw [st]; exact decide_eq_true (steered (by rw [st]; rfl))
  · rw [st]; exact decide_eq_true rested
  all_goals rfl

theorem reordered_present (a : Aperture) (now : Nat) (x : Slate) (c : Option Claim) :
    (a.reordered now x c).present = a.present := by
  unfold Aperture.reordered Aperture.resolved
  split
  · rfl
  · rw [handed_present, Aperture.present, (derived_fields _).2.1]; rfl

theorem Passed.present (h : Passed i s u) : (u.ap i).present = (s.ap i).present := by
  rcases h.record with e | ⟨a, now, x, c, ea, eu⟩
  · rw [Aperture.present, (course_fields e).1, Aperture.present]
  · rw [Aperture.present, (course_fields eu).1]
    refine (reordered_present a now x c).trans ?_
    rw [Aperture.present, (course_fields ea).1, Aperture.present]

theorem Ended.present (e : Ended s t) (i : ApId) : (t.ap i).present = (s.ap i).present := by
  unfold Aperture.present
  rcases e.ending i with ⟨ap, _, _⟩ | ⟨m, w, _, ap⟩ | ⟨d, ap⟩
  · rw [ap]
  · rw [ap, w]; rfl
  · rw [ap, Aperture.halted, if_pos d]
    have driven : ∀ x : MotionState, x.driving = true → decide (MotionState.stopping ≠ .absent) = decide (x ≠ .absent) :=
      fun x => by cases x <;> decide
    exact driven _ d

theorem countAps_eq {f : Aperture → Bool} (h : ∀ i, (t.ap i).present = (s.ap i).present)
    (g : ∀ i, f (t.ap i) = f (s.ap i)) : t.countAps f = s.countAps f := by
  simp only [State.countAps, h, g]

theorem countAps_eq_zero {f : Aperture → Bool} (h : ∀ i, (s.ap i).present = true → f (s.ap i) = false) :
    s.countAps f = 0 := by
  rw [State.countAps, List.length_eq_zero_iff, List.filter_eq_nil_iff]
  intro i _ g
  rw [Bool.and_eq_true] at g
  exact absurd (g.2.symm.trans (h i g.1)) (by decide)

/-- The uptime of an event is no part of what it did to a motion. -/
theorem HandedOn.advanced {m : Nat} (h : HandedOn i (s.advanceTo m) t) : HandedOn i s t := h

/-! ### Room expiry (R35) -/

theorem roomExpiry_runs {y : Slot} {e : Nat} (room : (s.ap i).slate.room = some y) (ends : y.expiry = some e) :
    exec (.roomExpiry i) s = .next (event (expireRoom i y e) (s.advanceTo (e * 100))) := by
  simp only [exec, execRoomExpiry, roomTimer, room, ends, Option.map_some]

/-! ### The exit from HOLDING (R33, R76, R77) -/

/-- The apertures, the links and the notices before it stand at the notice of a change of weather state. -/
theorem announceWeather_rest (old w : Weather) (s : State) : ∃ x, announceWeather old w s = { s with ports := x } := by
  unfold announceWeather
  split
  · exact ⟨s.ports, rfl⟩
  · exact State.notify_rest _ _

theorem announceWeather_queued {old w : Weather} (ne : old ≠ w) (s : State) :
    NoticeQueued [.S, .L, .K] ⟨s.sec, .weatherState old w s.claims (noticeCauses w s)⟩ s (announceWeather old w s) := by
  rw [announceWeather, if_neg ne]
  exact notify_queued _ (by decide) _ s

theorem holdTimerExpiry_runs {e : Nat} (h : s.sup.holdTimer = some e) :
    exec .holdTimerExpiry s = .next (event endHolding (s.advanceTo (e * 1000))) := by
  simp only [exec, execHoldTimerExpiry, h]

theorem Frame.advisory (h : Frame k s t) : t.sup.advisory = s.sup.advisory := by rw [h.sup]

/-- The weather state after HOLDING (R76). -/
def afterHolding (s : State) : Weather :=
  if s.sup.watchGust ≤ s.fe.gust ∨ s.sup.advisory.isSome then .watch else .clear

theorem afterHolding_cases (s : State) : afterHolding s = .watch ∨ afterHolding s = .clear := ite_eq_or_eq _ _ _

/-- The exit from HOLDING: every aperture drops its claim, then the weather state is announced. -/
theorem endHolding_drops (s : State) : ∃ v, Frame Aperture.stands s v ∧ (∀ i, Passed i s v) ∧
    (∀ i, (v.ap i).slate = { (s.ap i).slate with weather := none }) ∧
    endHolding s = announceWeather s.sup.weather (afterHolding s) (setWeather (afterHolding s) v) := by
  have f : Frame Aperture.stands s (allAps.foldl dropClaim s) :=
    Frame.foldl (fun s i => (dropClaim_mayReorder s i).frame) _ _
  refine ⟨_, f, foldl_passed dropClaim_mayReorder allAps_nodup s, fun i => ?_, ?_⟩
  · obtain ⟨v, turn⟩ := foldl_turn dropClaim_mayReorder allAps_nodup (mem_allAps i) s
    rw [turn.right.ap, dropClaim_slate, if_pos rfl, turn.left]
  · have w : afterHolding (allAps.foldl dropClaim s) = afterHolding s := by
      unfold afterHolding
      rw [f.sup, f.fe]
    rw [← w]
    simp only [endHolding, afterHolding, Bool.or_eq_true, decide_eq_true_eq]

theorem setWeather_holdTimer_stopped {w : Weather} (h : w = .watch ∨ w = .clear) (s : State) :
    (setWeather w s).sup.holdTimer = none := by
  rcases h with rfl | rfl <;> unfold setWeather <;> cases s.sup.weather <;> rfl

end Sys2Proof.Machine

open Sys2Proof Sys2Proof.Machine

/-- Settles O29: one slot rewritten at the expiry, derived and handed on behind its notice. -/
theorem roomExpiryTurnsOpeningIntoClose : Obligations.RoomExpiryTurnsOpeningIntoClose := by
  intro s i x e room ends
  have r := expireRoom_reorders i x e (s.advanceTo (e * 100))
  have d := event_ended (expireRoom i x e) (s.advanceTo (e * 100))
  have frame := d.stands r.frame
  obtain ⟨slate, target, -⟩ := r.ended d
  rw [← slate] at target
  refine ⟨_, roomExpiry_runs room ends, congrArg Clock.ms frame.clock, slate, target, (d.handedOn r.passed).advanced,
    fun j ne => ((MayReorder.some _ _ _ r).others d ne).1, fun roomK => ?_, frame⟩
  rw [frame.sec]
  exact notify_prefix (s := putSlot i .room (some ⟨.pos 0, .port .K, e, none⟩) (s.advanceTo (e * 100)))
    (List.nodup_singleton _) _ (List.mem_singleton.2 rfl) roomK
    ((resolve_frame i _).mono slates_stands |>.trans (d.frame.mono keep_stands)).ports

/-- Settles O27: every WEATHER slot has its turn, and the change of weather state is announced behind them. -/
theorem holdExpiryRemovesClaims : Obligations.HoldExpiryRemovesClaims := by
  intro s e running
  obtain ⟨v, f, passed, slates, eq⟩ := endHolding_drops (s.advanceTo (e * 1000))
  generalize hw : afterHolding (s.advanceTo (e * 1000)) = w at eq
  have wc : w = .watch ∨ w = .clear := hw ▸ afterHolding_cases _
  have noClaims : (setWeather w v).claims = 0 :=
    countAps_eq_zero fun i _ => congrArg (fun x => x.weather.isSome) (slates i)
  obtain ⟨x, rest⟩ := announceWeather_rest (s.advanceTo (e * 1000)).sup.weather w (setWeather w v)
  have d := event_ended endHolding (s.advanceTo (e * 1000))
  have clock : (event endHolding (s.advanceTo (e * 1000))).clock = (s.advanceTo (e * 1000)).clock := by
    rw [d.frame.clock, eq, rest]; exact f.clock
  have weather : (event endHolding (s.advanceTo (e * 1000))).sup.weather = w := by
    rw [d.frame.sup, eq, rest]; rfl
  have ap (i : ApId) : (endHolding (s.advanceTo (e * 1000))).ap i = v.ap i := by rw [eq, rest]; rfl
  refine ⟨_, holdTimerExpiry_runs running, congrArg Clock.ms clock, fun i => ?_, fun i => ?_, ?_, ?_,
    fun held => ?_, ?_, ?_, ?_, ?_, fun i => ?_⟩
  · rw [(keep_fields (d.frame.aps i)).2.2.1, ap, slates]; rfl
  · exact (d.handedOn ((passed i).elsewhere (by rw [eq, rest]; rfl) (by rw [eq, rest]; rfl))).advanced
  · rw [d.frame.sup, eq, rest]; exact setWeather_holdTimer_stopped wc v
  · rw [weather, ← hw]; rfl
  · have ne : (s.advanceTo (e * 1000)).sup.weather ≠ w := by
      rw [show (s.advanceTo (e * 1000)).sup.weather = .holding from held]
      rcases wc with rfl | rfl <;> nofun
    have q := announceWeather_queued ne (setWeather w v)
    have causes : noticeCauses w (setWeather w v) = ⟨false, false, false, false⟩ := by rcases wc with rfl | rfl <;> rfl
    have sec : (event endHolding (s.advanceTo (e * 1000))).sec = (setWeather w v).sec := by
      rw [State.sec, clock, ← f.clock]; rfl
    rw [noClaims, causes, ← eq, ← sec, show (s.advanceTo (e * 1000)).sup.weather = .holding from held] at q
    rw [weather]
    exact (q.kept d.frame).behind f.ports
  · rw [d.frame.advisory, eq, rest]; exact f.advisory
  · rw [d.frame.fe, eq, rest]; exact f.fe
  · rw [d.frame.fire, eq, rest]; exact f.fire
  · rw [d.frame.store, eq, rest]; exact f.store
  · obtain ⟨fix, pos, -⟩ := keep_fields (d.frame.aps i)
    obtain ⟨fix', pos', -⟩ := stands_fields (f.aps i)
    rw [fix, pos, ap]
    exact ⟨pos', fix'⟩

end

