-- ==== Sys2Proof/Proofs/FireStates.lean ====
section
/-! PROOFS. A reply behind any event, and the fire states: O45 and O44. -/

namespace Sys2Proof.Machine

open Sys2Proof

variable {i j : ApId} {s t u v : State} {p : Port} {k : RequestKind} {body : List Byte} {r : Bool}
  {old new : FireState} {ps : List Port} {n : Notice}

/-! ### A reply behind an event that reaches beyond the apertures -/

/-- `t` is `v`, in which the request of port `p` of `s` was served, with the reply `z` placed at the port. -/
structure Placed (p : Port) (k : RequestKind) (s v : State) (z : Reply) (t : State) : Prop where
  rest    : ∃ x, t = { v with ports := x }
  notices : ∀ q, (t.port q).notices = (v.port q).notices ∧ (t.port q).nlost = (v.port q).nlost
  holds   : (t.port p).holdsReply k.code (s.port p).nextHeader z

theorem submit_placed {c : ReplyCode} {z : List Byte} (ready : (s.port p).ready) (allowed : k.allowedOn p = true)
    (len : k.lengthOk body.length = true) (kept : PortKept ((s.askedAt p k body).port p) (v.port p))
    (served : serve k p body (s.askedAt p k body) = answer c z v) :
    ∃ t, submit p k.code body s = .next t ∧ Placed p k s v ⟨c, z, false⟩ t := by
  obtain ⟨held, -, -⟩ := askedAt_port (k := k) (body := body) ready
  obtain ⟨_, _, _, _, _, _, _, _, _, _, w, _⟩ := kept.fields
  refine ⟨_, submit_served ready allowed len, ?_⟩
  rw [served]
  exact ⟨⟨_, rfl⟩, placeReply_notices (w.trans held) _ _, placeReply_holdsReply ready kept _⟩

theorem Placed.handedOn {z : Reply} (h : Placed p k s v z t) (g : HandedOn i (s.askedAt p k body) v) :
    HandedOn i s t := by
  obtain ⟨x, rfl⟩ := h.rest
  exact g

theorem Placed.queued {z : Reply} (h : Placed p k s v z t) (g : NoticeQueued ps n (s.askedAt p k body) v) :
    NoticeQueued ps n s t := by
  intro q mem room
  obtain ⟨same, lost⟩ := h.notices q
  rw [same, lost] at room
  rw [same, ← (askedAt_notices (s := s) (k := k) (body := body) (p := p) q).1]
  exact g q mem room

/-! ### An event that leaves the Closure Queue queues no notice at its end (R109) -/

theorem checkReservation_ports (s : State) (b : Branch) : (checkReservation s b).ports = s.ports := by
  rcases checkReservation_cases s b with e | e <;> rw [e]
  exact State.owe_ports _ b

theorem oweMoves_ports (s0 s : State) (b : Branch) : (oweMoves s0 s b).ports = s.ports := by
  unfold oweMoves
  split
  · rfl
  · exact State.owe_ports s b

theorem foldl_ports {α : Type} {f : State → α → State} (h : ∀ s x, (f s x).ports = s.ports) (l : List α) (s : State) :
    (l.foldl f s).ports = s.ports := by
  induction l generalizing s with
  | nil => rfl
  | cons x xs ih => exact (ih _).trans (h s x)

theorem finish_ports (queue : u.sup.queue = s.sup.queue) : (finish false s u).ports = u.ports := by
  unfold finish; dsimp only
  rw [if_neg (by simp [queue]), countChange, if_pos queue]
  have reserved := oweMoves_allReserved s allBranches (checkReservations_allReserved u)
  refine (settleAttempts_attempts (s := State.draw _) reserved).ports.trans ?_
  exact (foldl_ports (oweMoves_ports s) _ _).trans (foldl_ports checkReservation_ports _ u)

/-! ### The slots of an alarm (R148, R149, R153) -/

/-- An entry to ALARM, from RESTORE-WAIT where `r` says so, may post on this aperture (R148, R149). -/
def takesAlarm (r : Bool) (a : Aperture) : Bool := a.present && (a.slate.life.isNone || (!r && a.alarmHeld))

theorem postAlarm_posts {x : Nat} (target : alarmTarget s i = some x) (h : takesAlarm r (s.ap i) = true) :
    postAlarm r s i = resolve i (putSlot i .life (some ⟨.pos x, .alarm, s.ds, none⟩) s) := by
  unfold postAlarm; dsimp only
  rw [alarmSlot, target]
  unfold takesAlarm Aperture.alarmHeld at h
  cases hl : (s.ap i).slate.life <;> simp_all

theorem postAlarm_stands (h : alarmTarget s i = none ∨ takesAlarm r (s.ap i) = false) : postAlarm r s i = s := by
  unfold postAlarm; dsimp only
  unfold takesAlarm Aperture.alarmHeld at h
  cases ht : alarmTarget s i with
  | none =>
    rw [alarmSlot, ht]
    split
    · next e => cases e
    · rfl
  | some x => cases hl : (s.ap i).slate.life <;> simp_all

/-- The slate that an entry to ALARM leaves an aperture (R148, R149). -/
theorem postAlarm_slate_self (r : Bool) (i : ApId) (s : State) : ((postAlarm r s i).ap i).slate =
    ((alarmTarget s i).filter fun _ => takesAlarm r (s.ap i)).elim (s.ap i).slate fun x =>
      { (s.ap i).slate with life := some ⟨.pos x, .alarm, s.ds, none⟩ } := by
  cases ht : alarmTarget s i with
  | none => rw [postAlarm_stands (.inl ht)]; rfl
  | some x =>
    cases h : takesAlarm r (s.ap i) with
    | false => rw [postAlarm_stands (.inr h), Option.filter_some_neg (by simp)]; rfl
    | true => rw [postAlarm_posts ht h, Option.filter_some_pos rfl]; exact (putResolve_reorders i .life _ s).slate.1

theorem postAlarm_ports (r : Bool) (s : State) (i : ApId) : (postAlarm r s i).ports = s.ports := by
  unfold postAlarm; dsimp only
  split
  · exact (resolve_local i _).ports
  · rfl

theorem dropAlarm_ports (s : State) (i : ApId) : (dropAlarm s i).ports = s.ports := by
  unfold dropAlarm
  split
  · exact (resolve_local i _).ports
  · rfl

theorem alarmTarget_frame {f : Aperture → Aperture} (h : Frame f s t) (fix : (t.ap i).fix = (s.ap i).fix) :
    alarmTarget t i = alarmTarget s i := by
  have g : t.governing i = s.governing i := by simp only [State.governing, h.desc]
  simp only [alarmTarget, g, fix, h.desc]

/-- Every installed aperture has had its turn at an entry to ALARM (R148, R149). -/
theorem postAlarms (r : Bool) (s : State) : ∃ v, allAps.foldl (postAlarm r) s = v ∧ Frame Aperture.stands s v ∧
    (∀ i, Passed i s v) ∧ v.ports = s.ports ∧
    ∀ i, (v.ap i).slate = ((alarmTarget s i).filter fun _ => takesAlarm r (s.ap i)).elim (s.ap i).slate fun x =>
      { (s.ap i).slate with life := some ⟨.pos x, .alarm, s.ds, none⟩ } := by
  refine ⟨_, rfl, Frame.foldl (fun s i => (postAlarm_mayReorder r s i).frame) _ _,
    foldl_passed (postAlarm_mayReorder r) allAps_nodup s, foldl_ports (postAlarm_ports r) _ _, fun i => ?_⟩
  obtain ⟨v, turn⟩ := foldl_turn (postAlarm_mayReorder r) allAps_nodup (mem_allAps i) s
  rw [turn.right.ap, postAlarm_slate_self, turn.left, alarmTarget_frame turn.before (by rw [turn.left]), turn.before.ds]

/-- Every alarm-origin slot has been removed (R153). -/
theorem dropAlarms (s : State) : ∃ v, allAps.foldl dropAlarm s = v ∧ Frame Aperture.stands s v ∧
    (∀ i, Passed i s v) ∧ v.ports = s.ports ∧ v.alarmSlots = 0 ∧
    ∀ i, (v.ap i).slate = if (s.ap i).present && (s.ap i).alarmHeld then { (s.ap i).slate with life := none }
      else (s.ap i).slate := by
  have passed := foldl_passed dropAlarm_mayReorder allAps_nodup s
  have slates (i : ApId) : ((allAps.foldl dropAlarm s).ap i).slate =
      if (s.ap i).present && (s.ap i).alarmHeld then { (s.ap i).slate with life := none } else (s.ap i).slate := by
    obtain ⟨v, turn⟩ := foldl_turn dropAlarm_mayReorder allAps_nodup (mem_allAps i) s
    rw [turn.right.ap, dropAlarm_slate, turn.left]
    simp only [true_and, Bool.and_eq_true]
  refine ⟨_, rfl, Frame.foldl (fun s i => (dropAlarm_mayReorder s i).frame) _ _, passed,
    foldl_ports dropAlarm_ports _ _, countAps_eq_zero fun i there => ?_, slates⟩
  rw [(passed i).present] at there
  rw [Aperture.alarmHeld, slates]
  cases held : (s.ap i).alarmHeld with
  | true => rw [there]; rfl
  | false => rw [there]; exact held

/-! ### The fire states (R147 to R149, R152 to R154) -/

/-- The notice of a change of fire state is the event's first on Port S and Port L, with the slots that stand when the
event has ended (R154). -/
theorem Ended.fireAnnounced (e : Ended (announceFire old new v) t) (ports : v.ports = s.ports) :
    FireAnnounced old new s t := by
  intro q hq room
  have port : v.port q = s.port q := by rw [State.port, ports, State.port]
  have ap (i : ApId) : (announceFire old new v).ap i = v.ap i := State.notify_ap _ _ _ _
  have count : t.alarmSlots = v.alarmSlots := countAps_eq (fun i => (e.present i).trans (by rw [ap])) fun i => by
    rw [Aperture.alarmHeld, (keep_fields (e.frame.aps i)).2.2.1, ap, Aperture.alarmHeld]
  rw [count, e.frame.sec, (announceFire_frame (k := id) v old new).sec, ← port]
  rw [← port] at room
  exact notify_prefix (by decide) _ (by rcases hq with rfl | rfl <;> decide) room e.frame.ports

theorem announceFire_rest (old new : FireState) (s : State) : ∃ x, announceFire old new s = { s with ports := x } :=
  State.notify_rest _ _

theorem debounceTimerExpiry_runs {e : Nat} (h : s.fire.debounce = some e) :
    exec .debounceTimerExpiry s = .next (event debounced (s.advanceTo e)) := by
  simp only [exec, execDebounceTimerExpiry, h]

/-- An asserted line takes NORMAL, or RESTORE-WAIT, to ALARM (R147 to R149). -/
theorem debounced_asserted (line : s.pins.alarm = true) (level : s.fire.level = false)
    (st : s.fire.state = if r then .restoreWait else .normal) : debounced s =
      announceFire (if r then .restoreWait else .normal) .alarm
        (allAps.foldl (postAlarm r) { s with fire := ⟨.alarm, true, none⟩ }) := by
  unfold debounced; dsimp only
  rw [if_neg (by simp [line, level])]
  cases r <;> simp only [fireLevel, line, st, Bool.false_eq_true, if_false, if_true]

/-- A deasserted line takes ALARM to RESTORE-WAIT (R149). -/
theorem debounced_deasserted (line : s.pins.alarm = false) (level : s.fire.level = true) (st : s.fire.state = .alarm) :
    debounced s = announceFire .alarm .restoreWait { s with fire := ⟨.restoreWait, false, none⟩ } := by
  unfold debounced; dsimp only
  rw [if_neg (by simp [line, level])]
  simp only [fireLevel, line, st]

theorem debounced_agreeing (line : s.pins.alarm = s.fire.level) :
    debounced s = { s with fire := { s.fire with debounce := none } } := if_pos line

theorem advanceTo_waitsAlike {m : Nat} : WaitsAlike s (s.advanceTo m) :=
  ⟨fun _ => ⟨rfl, rfl, rfl, rfl, rfl⟩, rfl, rfl, rfl, rfl⟩

theorem takenSlate (r : Bool) (a : Aperture) (x now : Nat) :
    ((some x).filter fun _ => takesAlarm r a).elim a.slate
        (fun x => { a.slate with life := some ⟨.pos x, .alarm, now, none⟩ }) =
      if a.present && (a.slate.life.isNone || (!r && a.alarmHeld)) then
        { a.slate with life := some ⟨.pos x, .alarm, now, none⟩ }
      else a.slate := by
  rw [← takesAlarm]
  cases takesAlarm r a <;> rfl

/-- What the entry to ALARM does, from RESTORE-WAIT where `r` says so (R147 to R149, R154). -/
theorem entersAlarm {e : Nat} (running : s.fire.debounce = some e) (line : s.pins.alarm = true)
    (level : s.fire.level = false) (st : s.fire.state = if r then .restoreWait else .normal) :
    ∃ t, exec .debounceTimerExpiry s = .next t ∧ t.fire = ⟨.alarm, true, none⟩ ∧
      (∀ i, (t.ap i).slate = ((alarmTarget s i).filter fun _ => takesAlarm r (s.ap i)).elim (s.ap i).slate fun x =>
        { (s.ap i).slate with life := some ⟨.pos x, .alarm, t.ds, none⟩ }) ∧
      (∀ i, HandedOn i s t) ∧ FireAnnounced (if r then .restoreWait else .normal) .alarm s t ∧
      t.clock.ms = max s.clock.ms e ∧ t.fe = s.fe ∧ t.store = s.store ∧ (∀ i, (t.ap i).position = (s.ap i).position) ∧
      ∀ p, PortKept (s.port p) (t.port p) := by
  obtain ⟨v, hv, f, passed, ports, slates⟩ := postAlarms r { s.advanceTo e with fire := ⟨.alarm, true, none⟩ }
  have eq := debounced_asserted (s := s.advanceTo e) line level st
  rw [hv] at eq
  obtain ⟨x, rest⟩ := announceFire_rest (if r then .restoreWait else .normal) .alarm v
  have d := event_ended debounced (s.advanceTo e)
  rw [eq] at d
  have ap (i : ApId) : (announceFire (if r then .restoreWait else .normal) .alarm v).ap i = v.ap i := by rw [rest]; rfl
  have frame := (f.trans (announceFire_frame v _ _)).trans (d.frame.mono keep_stands)
  refine ⟨_, debounceTimerExpiry_runs running, frame.fire, fun i => ?_, fun i => ?_, d.fireAnnounced ports,
    congrArg Clock.ms frame.clock, frame.fe, frame.store, fun i => (stands_fields (frame.aps i)).2.1, frame.ports⟩
  · rw [(keep_fields (d.frame.aps i)).2.2.1, ap, slates, frame.ds]; rfl
  · exact d.handedOn ((passed i).untouched (s := s) rfl (.elsewhere (by rw [rest]) (by rw [rest]) i))

/-- The end of RESTORE-WAIT: every alarm-origin slot has gone when the change is announced (R153, R154). -/
theorem restoreFire_drops (s : State) : ∃ v, Frame Aperture.stands { s with fire := { s.fire with state := .normal } } v ∧
    (∀ i, Passed i s v) ∧ v.ports = s.ports ∧ v.alarmSlots = 0 ∧
    (∀ i, (v.ap i).slate = if (s.ap i).present && (s.ap i).alarmHeld then { (s.ap i).slate with life := none }
      else (s.ap i).slate) ∧ restoreFire s = announceFire .restoreWait .normal v := by
  obtain ⟨v, hv, f, passed, ports, count, slates⟩ := dropAlarms { s with fire := { s.fire with state := .normal } }
  refine ⟨v, f, fun i => (passed i).untouched (s := s) rfl (.refl i v), ports, count, slates, ?_⟩
  rw [restoreFire, hv]

end Sys2Proof.Machine

open Sys2Proof Sys2Proof.Machine

/-- Settles O45, by the fire state. -/
theorem alarmRestoreRemovesAlarmSlots : Obligations.AlarmRestoreRemovesAlarmSlots := by
  intro s ready
  refine ⟨fun st => ?_, fun st => ?_, fun st => ?_⟩
  · refine submit_answered (k := .alarmRestore) ready rfl rfl ?_
    rw [serve, serveAlarmRestore, show (s.askedAt .L .alarmRestore []).fire.state = .alarm from st]; rfl
  · refine submit_answered (k := .alarmRestore) ready rfl rfl ?_
    rw [serve, serveAlarmRestore, show (s.askedAt .L .alarmRestore []).fire.state = .normal from st]; rfl
  · obtain ⟨v, f, passed, ports, count, slates, eq⟩ := restoreFire_drops (s.askedAt .L .alarmRestore [])
    have d := event_ended restoreFire (s.askedAt .L .alarmRestore [])
    obtain ⟨x, rest⟩ := announceFire_rest .restoreWait .normal v
    have served : serve .alarmRestore .L [] (s.askedAt .L .alarmRestore []) =
        answer .ok (e1 (event restoreFire (s.askedAt .L .alarmRestore [])).fire.state.code ++ e1 s.alarmSlots)
          (event restoreFire (s.askedAt .L .alarmRestore [])) := by
      rw [serve, serveAlarmRestore, show (s.askedAt .L .alarmRestore []).fire.state = .restoreWait from st]; rfl
    rw [eq] at d
    generalize event restoreFire (s.askedAt .L .alarmRestore []) = w at d served
    have frame := (f.trans (announceFire_frame v _ _)).trans (d.frame.mono keep_stands)
    rw [frame.fire] at served
    obtain ⟨t, run, a⟩ := submit_placed (k := .alarmRestore) ready rfl rfl (frame.ports .L) served
    have handed (i : ApId) := a.handedOn (d.handedOn ((passed i).elsewhere (by rw [rest]) (by rw [rest])))
    have queued : NoticeQueued [.S, .L] ⟨s.sec, .fireState .restoreWait .normal 0⟩ s t := by
      have q := notify_queued [.S, .L] (by decide) (.fireState .restoreWait .normal v.alarmSlots) v
      rw [count, f.sec] at q
      rw [announceFire, count] at d
      exact a.queued ((q.kept d.frame).behind f.ports)
    obtain ⟨y, rfl⟩ := a.rest
    refine ⟨_, run, frame.fire, fun i => ?_, handed, a.holds, queued, frame.clock, frame.fe, frame.store, fun i => ?_⟩
    · refine (keep_fields (d.frame.aps i)).2.2.1.trans ?_
      rw [rest]; exact slates i
    · exact ⟨(stands_fields (frame.aps i)).2.1, (stands_fields (frame.aps i)).1⟩

/-- Settles O44, by the line and the fire state. -/
theorem debounceDrivesFireState : Obligations.DebounceDrivesFireState := by
  refine ⟨fun s i => ⟨fun g => ?_, fun z g => ?_⟩, fun s e running => ⟨fun line level st => ?_, fun line level st => ?_,
    fun line level st => ?_, fun line => ?_⟩⟩
  · rw [alarmTarget, g]
  · dsimp only
    refine ⟨fun role => ?_, fun role => ?_, fun role kind => ?_, fun role kind => ?_⟩
    · rw [alarmTarget, g]; dsimp only; rw [role]
    · rw [alarmTarget, g]; dsimp only; rw [role]
    · rcases kind with kind | kind <;> rw [alarmTarget, g] <;> dsimp only <;> rw [role, kind]
    · rcases kind with kind | kind <;> rw [alarmTarget, g] <;> dsimp only <;> rw [role, kind]
  · obtain ⟨t, run, fire, slates, rest⟩ := entersAlarm (r := false) running line level st
    refine ⟨t, run, fire, fun i => (slates i).trans ?_, rest⟩
    cases alarmTarget s i with
    | none => rfl
    | some x => exact takenSlate false _ _ _
  · obtain ⟨t, run, fire, slates, rest⟩ := entersAlarm (r := true) running line level st
    refine ⟨t, run, fire, fun i => (slates i).trans ?_, rest⟩
    cases alarmTarget s i with
    | none => rfl
    | some x =>
      refine (takenSlate true (s.ap i) x t.ds).trans ?_
      simp only [Bool.not_true, Bool.false_and, Bool.or_false]
  · have d := event_ended debounced (s.advanceTo e)
    have eq := debounced_deasserted (s := s.advanceTo e) line level st
    obtain ⟨x, rest⟩ := announceFire_rest .alarm .restoreWait
      { s.advanceTo e with fire := ⟨.restoreWait, false, none⟩ }
    rw [eq] at d
    have frame := (announceFire_frame (k := Aperture.keep) _ _ _).trans d.frame
    exact ⟨_, debounceTimerExpiry_runs running, frame.fire, d.fireAnnounced rfl,
      fun i => (keep_fields (frame.aps i)).2.2.1, frame.ports⟩
  · have d := event_ended debounced (s.advanceTo e)
    have eq := debounced_agreeing (s := s.advanceTo e) line
    have ports := finish_ports (s := s.advanceTo e) (u := debounced (s.advanceTo e)) (by rw [eq])
    have frame := d.frame
    rw [eq] at frame
    refine ⟨_, debounceTimerExpiry_runs running, frame.fire, ports.trans (by rw [eq]; rfl), congrArg Clock.ms frame.clock,
      frame.fe, frame.store, fun i => ?_, fun set => ?_⟩
    · exact ⟨(keep_fields (frame.aps i)).2.2.1, (keep_fields (frame.aps i)).2.1⟩
    · have still : WaitsAlike (s.advanceTo e) (debounced (s.advanceTo e)) := by
        rw [eq]; exact ⟨fun _ => ⟨rfl, rfl, rfl, rfl, rfl⟩, rfl, rfl, rfl, rfl⟩
      rw [event, still.finish (advanceTo_waitsAlike.settled set), eq]
      rfl

end

