-- ==== Sys2Proof/Proofs/SettleExpiries.lean ====
section
/-! PROOFS. The end of a settle and of a retry wait: O33. -/

namespace Sys2Proof.Machine

open Sys2Proof

variable {i j : ApId} {s t u v : State} {a : Aperture} {now : Nat} {m : Motion}

/-! ### The end of a settle and of a retry wait (R120, R122, R123) -/

theorem settleTimerExpiry_runs {e : Nat} (st : (s.ap i).state = .settling) (h : (s.ap i).mon.settle = some e) :
    exec (.settleTimerExpiry i) s =
      .next (event (fun s => (settled i s).owe (s.ap i).fix.branch) (s.advanceTo (e * 100))) := by
  simp only [exec, execSettleTimerExpiry, st, h]

theorem retryTimerExpiry_runs {e : Nat} (st : (s.ap i).state = .retryWait) (h : (s.ap i).mon.retry = some e) :
    exec (.retryTimerExpiry i) s = .next (event (toRest i) (s.advanceTo (e * 100))) := by
  simp only [exec, execRetryTimerExpiry, st, h]

/-- After a stop, or with the closing wanted no longer, a settle ends at REST (R120). -/
theorem settled_rests (h : (s.ap i).mon.settleCause = some .stop ∨ (s.ap i).wantsClosing = false) :
    settled i s = toRest i s := by
  unfold settled; dsimp only
  split
  · next c w => rcases h with h | h <;> simp_all
  · next c w => rcases h with h | h <;> simp_all
  · rfl

/-- With the closing still wanted a settle after a stall or a back-off orders a back-off (R120, R122). -/
theorem settled_backoff {p bp : Nat} (w : (s.ap i).wantsClosing = true) (pos : (s.ap i).position = some p)
    (hm : (s.ap i).motion = some m) (h : ((s.ap i).mon.settleCause = some .stall ∧ bp = min 1000 (p + 30)) ∨
      ((s.ap i).mon.settleCause = some .backoff ∧ bp = m.target)) : settled i s = orderBackoff i bp s := by
  rcases h with ⟨c, rfl⟩ | ⟨c, rfl⟩ <;> simp only [settled, c, w, pos, hm] <;> rfl

/-- Where a settle or a retry wait leads back to REST, its expiry is an event in which the aperture rests, judged. -/
theorem expiry_rests {c : Instr} {e : Nat}
    (h : (c = .settleTimerExpiry i ∧ (s.ap i).state = .settling ∧ (s.ap i).mon.settle = some e) ∨
      (c = .retryTimerExpiry i ∧ (s.ap i).state = .retryWait ∧ (s.ap i).mon.retry = some e))
    (rests : (s.ap i).state = .retryWait ∨ (s.ap i).mon.settleCause = some .stop ∨ (s.ap i).wantsClosing = false) :
    ∃ u t, exec c s = .next t ∧ Ended u t ∧ Frame Aperture.keep (s.advanceTo (e * 100)) u ∧
      u.ap i = (s.ap i).rested (s.advanceTo (e * 100)).ds := by
  rcases h with ⟨rfl, st, timer⟩ | ⟨rfl, st, timer⟩
  · have eq : settled i (s.advanceTo (e * 100)) = toRest i (s.advanceTo (e * 100)) :=
      settled_rests (rests.resolve_left (by rw [st]; nofun))
    refine ⟨_, _, settleTimerExpiry_runs st timer, event_ended _ _, (settled_frame i _).trans (Frame.owe _), ?_⟩
    rw [State.ap_of_aps (State.owe_aps _ _), eq, toRest_ap, if_pos rfl]; rfl
  · refine ⟨_, _, retryTimerExpiry_runs st timer, event_ended _ _, toRest_frame i _, ?_⟩
    rw [toRest_ap, if_pos rfl]; rfl

/-- A back-off more than 5 permille away is waited for; otherwise the retry is (R122, R123, assumption log 64). -/
theorem orderBackoff_ap {p bp : Nat} (pos : (s.ap i).position = some p) (hm : (s.ap i).motion = some m) :
    (p + 5 < bp → (orderBackoff i bp s).ap i = (s.ap i).waited s.ds ⟨bp, .opening, m.cls, .backoff⟩) ∧
      (bp ≤ p + 5 → (orderBackoff i bp s).ap i = (s.ap i).retrying s.ds) := by
  constructor <;> intro h <;> unfold orderBackoff <;> dsimp only <;> rw [pos, hm, Option.getD_some]
  · rw [if_pos (show p + Config.offTargetPermille < bp from h), toWaiting_ap, if_pos rfl]; rfl
  · rw [if_neg (show ¬ p + Config.offTargetPermille < bp from not_lt.2 h), toRetryWait_ap, if_pos rfl]

end Sys2Proof.Machine

open Sys2Proof Sys2Proof.Machine

/-- Settles O33, by what follows the settle (R120). -/
theorem settleAndRetryExpiriesJudgeAgain : Obligations.SettleAndRetryExpiriesJudgeAgain := by
  intro s i c e h
  refine ⟨fun rests => ?_, fun p m bp st wants pos hm cause => ?_⟩
  · obtain ⟨u, t, run, d, f, ap⟩ := expiry_rests h rests
    have frame := f.trans d.frame
    obtain ⟨-, pos, -, et, ec, -⟩ := keep_fields (frame.aps i)
    have off : (t.ap i).offTarget = (s.ap i).offTarget := by
      rw [Aperture.offTarget, et, pos, Aperture.offTarget]; rfl
    obtain ⟨⟨judged, none, rest⟩, count⟩ := d.rested ap
    refine ⟨fun on => ?_, fun x q far ex eq => ?_⟩
    · have on := off.trans on
      exact ⟨t, run, judged.2 on, (rest on).1, (rest on).2, count, frame⟩
    · obtain ⟨st, motion⟩ := judged.1 (off.trans far)
      refine ⟨t, run, st, ?_, count, frame⟩
      rw [motion x q (et.trans ex) (pos.trans eq), ec]; rfl
  · obtain ⟨rfl, -, timer⟩ := h.resolve_right fun g => by cases st.symm.trans g.2.1
    have eq := settled_backoff (s := s.advanceTo (e * 100)) wants pos hm cause
    have d := event_ended (fun s => (settled i s).owe (s.ap i).fix.branch) (s.advanceTo (e * 100))
    obtain ⟨away, near⟩ := orderBackoff_ap (s := s.advanceTo (e * 100)) (bp := bp) pos hm
    have ap := (State.ap_of_aps (State.owe_aps (settled i (s.advanceTo (e * 100)))
      ((s.advanceTo (e * 100)).ap i).fix.branch) i).trans (congrArg (State.ap · i) eq)
    have frame := ((settled_frame i (s.advanceTo (e * 100))).trans (Frame.owe _)).trans d.frame
    refine ⟨_, settleTimerExpiry_runs st timer, frame, fun far => ?_, fun close => ?_⟩
    · have ap := ap.trans (away far)
      obtain ⟨st, motion⟩ := (d.ending i).waiting (congrArg Aperture.state ap)
      exact ⟨st, motion.trans (congrArg Aperture.motion ap)⟩
    · have ap := ap.trans (near close)
      obtain ⟨stands, -, -⟩ := (d.ending i).stands_of (by rw [ap]; nofun) (by rw [ap]; rfl)
      rw [stands, ap, frame.ds]
      exact ⟨rfl, rfl⟩

end

