-- ==== Sys2Proof/Proofs/StopsAndFaults.lean ====
section
/-! PROOFS. Settles, faults and confirmed stops; the node timeout: O36. -/

namespace Sys2Proof.Machine

open Sys2Proof

variable {i j : ApId} {s t u v w : State} {a : Aperture} {now : Nat} {m : Motion}

/-! ### Settles, faults and confirmed stops, when the event has ended (R13, R119 to R121) -/

/-- An entry to SETTLING from `w` stands when the event has ended. -/
theorem Ended.settling {c : SettleCause} (d : Ended (toSettling i c w) t) (motion : (w.ap i).motion = (s.ap i).motion)
    (zone : w.zoneOf i = s.zoneOf i) : Settling i c s t := by
  have ap := toSettling_ap i i w c
  rw [if_pos rfl] at ap
  obtain ⟨stands, -, -⟩ := (d.ending i).stands_of (by rw [ap]; nofun) (by rw [ap]; rfl)
  have ds : t.ds = w.ds := ((toSettling_frame i w c).trans d.frame).ds
  rw [Settling, stands, ap, ds, ← zone]
  exact ⟨rfl, rfl, motion, rfl⟩

/-- A notice behind a frame joins the queues as they were before it. -/
theorem Frame.notify_queued {k : Aperture → Aperture} (f : Frame k s u) (ps : List Port) (nodup : ps.Nodup)
    (b : NoticeBody) : NoticeQueued ps ⟨s.sec, b⟩ s (u.notify ps b) := by
  rw [← f.sec]
  exact (Machine.notify_queued ps nodup b u).behind f.ports

/-- An entry to FAULT from `w` stands, announced, when the event has ended. -/
theorem Ended.faulted {k : FaultKind} (d : Ended (toFault i k w) t) (ports : ∀ p, PortKept (s.port p) (w.port p)) :
    Faulted i k s t ∧ (t.ap i).stallCount = (w.ap i).stallCount := by
  have ap := toFault_ap i i w k
  rw [if_pos rfl] at ap
  obtain ⟨stands, -, -⟩ := (d.ending i).stands_of (by rw [ap]; nofun) (by rw [ap]; rfl)
  have frame := (toFault_frame i w k).trans d.frame
  have queued : NoticeQueued [.S, .L] ⟨w.sec, .apertureFault i k⟩ w (toFault i k w) :=
    (enter_frame (k := Aperture.keep) i w .fault _ rfl).notify_queued _ (by decide) _
  rw [Faulted, stands, ap, frame.ds, frame.sec]
  exact ⟨⟨rfl, rfl, rfl, rfl, (queued.kept d.frame).behind ports⟩, rfl⟩

/-- The confirmation of a stop, by its halt cause (R119). -/
theorem confirmStop_eq (fresh : Bool) {p : Nat} (hm : (s.ap i).motion = some m) (pos : (s.ap i).position = some p) :
    ((s.ap i).mon.haltCause = some .target ∨ ((s.ap i).mon.haltCause = some .shed ∧ m.purpose = .normal) →
      confirmStop i fresh s = toSettling i .stop s) ∧
    ((s.ap i).mon.haltCause = some .shed → m.purpose = .backoff → confirmStop i fresh s = toSettling i .backoff s) ∧
    ((s.ap i).mon.haltCause = some .timeout → distance m.target p ≤ 5 →
      confirmStop i fresh s = if fresh then arrive i s else toRest i s) ∧
    ((s.ap i).mon.haltCause = some .timeout → 5 < distance m.target p → confirmStop i fresh s = toFault i .timeout s) := by
  refine ⟨?_, fun c b => ?_, fun c near => ?_, fun c far => ?_⟩
  · rintro (c | ⟨c, n⟩)
    · simp [confirmStop, c]
    · simp [confirmStop, c, hm, n]
  · simp [confirmStop, c, hm, b]
  · simp [confirmStop, c, hm, pos, Config.offTargetPermille, near]
  · simp [confirmStop, c, hm, pos, Config.offTargetPermille]
    exact fun near => absurd (of_decide_eq_true near) (not_le.2 far)

theorem Ended.rest_arrived (d : Ended u t) (h : u.ap i = a.arrived now) : Rested i t := (d.rested h).1

/-- The stop of an aperture that stands in `w` as it stopped in `s` is confirmed when the event has ended (R119). -/
theorem Ended.stopConfirmed {fresh : Bool} (d : Ended (confirmStop i fresh w) t)
    (motion : (w.ap i).motion = (s.ap i).motion) (cause : (w.ap i).mon.haltCause = (s.ap i).mon.haltCause)
    (zone : w.zoneOf i = s.zoneOf i) (ports : ∀ p, PortKept (s.port p) (w.port p)) : StopConfirmed i s t := by
  intro m p hm pos
  have frame := (confirmStop_frame i w fresh).trans d.frame
  obtain ⟨stop, shed, near, far⟩ := confirmStop_eq fresh (motion.trans hm) ((keep_fields (frame.aps i)).2.1.symm.trans pos)
  rw [cause] at stop shed near far
  refine ⟨fun c => ?_, fun c b => ?_, fun c n => ?_, fun c f => ?_⟩
  · rw [stop c] at d; exact d.settling motion zone
  · rw [shed c b] at d; exact d.settling motion zone
  · rw [near c n] at d
    cases fresh
    · exact (d.rested (by rw [if_neg Bool.false_ne_true, toRest_ap, if_pos rfl])).1
    · exact d.rest_arrived (by rw [if_pos rfl, arrive_ap, if_pos rfl])
  · rw [far c f] at d; exact (d.faulted ports).1

/-! ### The node timeout (R141) -/

/-- The state in which the contact timer of aperture `i` has stopped. -/
def silenced (i : ApId) (s : State) : State :=
  s.modAp i fun a => { a with node := { a.node with contactTimer := none } }

theorem silenced_ap : (silenced i s).ap j =
    if i = j then { s.ap i with node := { (s.ap i).node with contactTimer := none } } else s.ap j :=
  State.ap_modAp s i j _

theorem silenced_waitsAlike : WaitsAlike s (silenced i s) := by
  refine ⟨fun j => ?_, rfl, rfl, rfl, rfl⟩
  rw [silenced_ap]
  split
  · next e => subst e; exact ⟨rfl, rfl, rfl, rfl, rfl⟩
  · exact ⟨rfl, rfl, rfl, rfl, rfl⟩

theorem contactTimerExpiry_runs {e : Nat} (h : (s.ap i).node.contactTimer = some e) :
    exec (.contactTimerExpiry i) s = .next (event (nodeTimeout i) (s.advanceTo (e * 100))) := by
  simp only [exec, execContactTimerExpiry, h]

/-- What the node timeout does, by motion state (R141). -/
theorem nodeTimeout_eq (i : ApId) (s : State) :
    ((s.ap i).state = .offline → 0 < (s.ap i).contribution → nodeTimeout i s = releaseHeld i (silenced i s)) ∧
    ((s.ap i).state = .stopping → nodeTimeout i s = confirmStop i false (silenced i s)) ∧
    ((s.ap i).state ≠ .stopping → (s.ap i).contribution = 0 ∨ (s.ap i).state ≠ .offline →
      nodeTimeout i s = silenced i s) := by
  have state : ((silenced i s).ap i).state = (s.ap i).state := by rw [silenced_ap, if_pos rfl]
  have current : ((silenced i s).ap i).contribution = (s.ap i).contribution := by rw [silenced_ap, if_pos rfl]; rfl
  refine ⟨fun st pos => ?_, fun st => ?_, fun ns no => ?_⟩ <;> unfold nodeTimeout <;> dsimp only <;>
    rw [← silenced, state, current]
  · rw [st]; exact if_pos pos
  · rw [st]
  · split
    · next st => exact if_neg (by rw [no.resolve_right fun h => h st]; decide)
    · next st => exact absurd st ns
    · rfl

theorem nodeTimeout_silenced (i : ApId) (s : State) : Frame Aperture.keep (silenced i s) (nodeTimeout i s) := by
  obtain ⟨offline, stopping, other⟩ := nodeTimeout_eq i s
  by_cases st : (s.ap i).state = .stopping
  · rw [stopping st]; exact confirmStop_frame i _ false
  · by_cases h : (s.ap i).contribution = 0 ∨ (s.ap i).state ≠ .offline
    · rw [other st h]; exact Frame.refl _ _
    · rw [not_or, not_not] at h
      rw [offline h.2 (Nat.pos_of_ne_zero h.1)]; exact releaseHeld_frame i _

/-- An OFFLINE aperture whose current is released has none (R95, R141). -/
theorem releaseHeld_offline (st : (s.ap i).state = .offline) (h : 0 < (s.ap i).contribution) :
    ((releaseHeld i s).ap i).state = .offline ∧ ((releaseHeld i s).ap i).contribution = 0 := by
  have held : (s.ap i).held.isSome = true := by
    rw [Aperture.contribution, st] at h
    cases e : (s.ap i).held with
    | none => rw [e] at h; cases h
    | some x => rfl
  rw [releaseHeld_ap, if_pos ⟨rfl, held⟩]
  exact ⟨st, by rw [Aperture.contribution, st]; rfl⟩

end Sys2Proof.Machine

open Sys2Proof Sys2Proof.Machine

/-- Settles O36, by the motion state in which the node timeout finds the aperture. -/
theorem contactExpiryReleasesCurrent : Obligations.ContactExpiryReleasesCurrent := by
  intro s i e running
  have d := event_ended (nodeTimeout i) (s.advanceTo (e * 100))
  obtain ⟨offline, stopping, other⟩ := nodeTimeout_eq i (s.advanceTo (e * 100))
  have frame := (nodeTimeout_silenced i (s.advanceTo (e * 100))).trans d.frame
  have own : (silenced i (s.advanceTo (e * 100))).ap i = _ := silenced_ap
  rw [if_pos rfl] at own
  refine ⟨_, contactTimerExpiry_runs running, ?_, fun st => ?_, fun st => ?_, fun set ns no => ?_, congrArg Clock.ms frame.clock,
    frame.fe, frame.fire, frame.store, fun j => ?_, frame.ports⟩
  · rw [(keep_fields (frame.aps i)).2.2.2.2.2.2.2.1, own]
  · have u : ((nodeTimeout i (s.advanceTo (e * 100))).ap i).state = .offline ∧
        ((nodeTimeout i (s.advanceTo (e * 100))).ap i).contribution = 0 := by
      rcases Nat.eq_zero_or_pos (s.ap i).contribution with none | some
      · rw [other (fun st' => by cases st.symm.trans st') (.inl none), own]
        exact ⟨st, none⟩
      · rw [offline st some]
        exact releaseHeld_offline (by rw [own]; exact st) (by rw [own]; exact some)
    obtain ⟨stands, -, -⟩ := (d.ending i).stands_of (by rw [u.1]; nofun) (by rw [u.1]; rfl)
    rw [stands]
    exact u
  · rw [stopping st] at d
    exact d.stopConfirmed (by rw [own]; rfl) (by rw [own]; rfl) rfl fun _ => PortKept.refl _
  · have still := silenced_waitsAlike (i := i) (s := s.advanceTo (e * 100))
    rw [← other ns no] at still
    rw [event, still.finish (advanceTo_waitsAlike.settled set), other ns no]
    rfl
  · obtain ⟨fix, pos, slate, -⟩ := keep_fields (frame.aps j)
    rw [fix, pos, slate, silenced_ap]
    split
    · next e => subst e; exact ⟨rfl, rfl, rfl⟩
    · exact ⟨rfl, rfl, rfl⟩

end

