-- ==== Sys2Proof/Proofs/Misses.lean ====
section
/-! PROOFS. The completion of an exchange, OFFLINE, and misses: O39. -/

namespace Sys2Proof.Machine

open Sys2Proof

variable {i j : ApId} {s t u v w : State} {a : Aperture} {now : Nat} {m : Motion} {f : InFlight} {reply : List Byte}

/-! ### The completion of an exchange (R130, R131, R133) -/

/-- The state in which an exchange that ends at `e` has left its slot. -/
def slotEnded (e : Nat) (s : State) : State := { s.advanceTo e with link := { s.link with inFlight := none } }

theorem advanced_slotEnded {e : Nat} : WaitsAlike (s.advanceTo e) (slotEnded e s) :=
  ⟨fun _ => ⟨rfl, rfl, rfl, rfl, rfl⟩, rfl, rfl, rfl, rfl⟩

theorem exchangeCompleted_runs (h : s.link.inFlight = some f) :
    exec (.exchangeCompleted reply) s = .next (event (complete f reply) (s.advanceTo f.ends)) := by
  simp only [exec, execExchangeCompleted, h]

theorem complete_broadcast (h : f.what = .broadcastHalt) :
    complete f reply (s.advanceTo f.ends) = slotEnded f.ends s := by
  rw [complete, h]; rfl

theorem complete_missed (node : f.what.node? = some i) (miss : parseReply i reply = none) :
    complete f reply (s.advanceTo f.ends) = missed i f (slotEnded f.ends s) := by
  simp only [complete, node, miss]; rfl

/-- An event that leaves every motion state starts or sheds motions at most (R101, R106). -/
theorem Ended.onlyAttempts (d : Ended u t) (h : ∀ j, (u.ap j).state = (s.ap j).state) : OnlyAttempts s t := by
  intro j
  rw [← h j]
  rcases d.ending j with ⟨ap, _, _⟩ | ⟨m, w, _, ap⟩ | ⟨dr, ap⟩
  · exact .inl (by rw [ap])
  · exact .inr (.inl ⟨w, by rw [ap]; rfl⟩)
  · rw [Aperture.halted, if_pos dr] at ap
    exact .inr (.inr ⟨dr, by rw [ap], by rw [ap]⟩)

/-! ### OFFLINE (R18) -/

theorem toOffline_link (i : ApId) (s : State) : (toOffline i s).link = s.link := by
  unfold toOffline; dsimp only
  obtain ⟨x, h⟩ := State.notify_rest (s := if (s.ap i).state.moving && (s.ap i).node.contactTimer.isNone then
    (enter i .offline _ s).owe (s.ap i).fix.branch else enter i .offline _ s) [.S, .L] (.nodeOffline i (s.ap i).state)
  rw [h]
  split <;> simp [withdraws]

theorem owe_queued (s : State) (b : Branch) (j : ApId) : (s.owe b).queued j = s.queued j := by simp [State.queued]

theorem toOffline_queued (i : ApId) (s : State) : (toOffline i s).queued i = false := by
  unfold toOffline; dsimp only
  obtain ⟨x, h⟩ := State.notify_rest (s := if (s.ap i).state.moving && (s.ap i).node.contactTimer.isNone then
    (enter i .offline _ s).owe (s.ap i).fix.branch else enter i .offline _ s) [.S, .L] (.nodeOffline i (s.ap i).state)
  rw [h]
  have entered (g : Aperture → Aperture) : (enter i .offline g s).queued i = false := by
    rw [enter_queued, if_pos rfl]; simp [Aperture.member, MotionState.queueable]
  show State.queued (if _ then _ else _) i = false
  split
  · rw [owe_queued, entered]
  · rw [entered]

theorem toOffline_announced (i : ApId) (s : State) :
    NoticeQueued [.S, .L] ⟨s.sec, .nodeOffline i (s.ap i).state⟩ s (toOffline i s) := by
  unfold toOffline; dsimp only
  refine Frame.notify_queued (k := Aperture.orders) ?_ _ (by decide) _
  exact Frame.ite (fun _ => (enter_frame i s _ _ rfl).trans (Frame.owe _)) fun _ => enter_frame i s _ _ rfl

/-! ### Misses (R18, R119, R131, R138, R140) -/

/-- The state in which a miss of aperture `i` has been counted (R131). -/
def missCounted (i : ApId) (s : State) : State :=
  s.modAp i fun a => { a with node := { a.node with missCount := min 3 (a.node.missCount + 1) } }

theorem missCounted_ap : (missCounted i s).ap j =
    if i = j then { s.ap i with node := { (s.ap i).node with missCount := min 3 ((s.ap i).node.missCount + 1) } }
    else s.ap j :=
  State.ap_modAp s i j _

theorem missCounted_self : (missCounted i s).ap i =
    { s.ap i with node := { (s.ap i).node with missCount := min 3 ((s.ap i).node.missCount + 1) } } :=
  State.ap_modAp_self s i _

/-- A miss takes its aperture to OFFLINE where it is the third and the aperture leaves by it, and then gives the frame
back to its list. -/
theorem missed_eq (i : ApId) (f : InFlight) (s : State) :
    (2 ≤ (s.ap i).node.missCount → LeavesByMiss (s.ap i) → missed i f s =
      { toOffline i (missCounted i s) with link := (toOffline i (missCounted i s)).link.takeBack f }) ∧
    ((s.ap i).node.missCount < 2 ∨ ¬ LeavesByMiss (s.ap i) → missed i f s =
      { missCounted i s with link := (missCounted i s).link.takeBack f }) := by
  have leaves : ((missCounted i s).ap i).leavesByMiss = (s.ap i).leavesByMiss := by rw [missCounted_self]; rfl
  have count : ((missCounted i s).ap i).node.missCount = min 3 ((s.ap i).node.missCount + 1) := by rw [missCounted_self]
  have eq : missed i f s =
      let u := if ((missCounted i s).ap i).node.missCount = 3 && ((missCounted i s).ap i).leavesByMiss then
        toOffline i (missCounted i s) else missCounted i s
      { u with link := u.link.takeBack f } := rfl
  rw [eq, leaves, count, ← Aperture.leavesByMiss_iff]
  refine ⟨fun third l => ?_, fun no => ?_⟩
  · rw [if_pos]
    rw [l, Bool.and_true, decide_eq_true_eq]; omega
  · rw [if_neg]
    rw [Bool.and_eq_true, decide_eq_true_eq]
    rintro ⟨third, l⟩
    exact no.elim (fun lt => by omega) fun n => n l

theorem takeBack_inFlight (l : Link) (f : InFlight) : (l.takeBack f).inFlight = l.inFlight := by
  unfold Link.takeBack
  split
  · rfl
  · split <;> rfl
  · rfl
  · rfl

theorem takeBack_halt {l : Link} (h : f.what = .halt i) : (l.takeBack f).haltList.head? = some i := by
  rw [Link.takeBack, h]; rfl

/-- A MOVE returns to the head unless it was withdrawn or a newer one is listed (R138). -/
theorem takeBack_move {l : Link} {x : Nat} (h : f.what = .move i x) :
    (f.returns = true → (∀ m ∈ l.moveList, m.1 ≠ i) → (l.takeBack f).moveList = (i, x) :: l.moveList) ∧
      (f.returns = false ∨ (∃ m ∈ l.moveList, m.1 = i) → (l.takeBack f).moveList = l.moveList) := by
  rw [Link.takeBack, h]
  refine ⟨fun r none => ?_, ?_⟩ <;> dsimp only
  · rw [if_pos]
    simpa [r] using fun a b mem => none (a, b) mem
  · intro keep
    rw [if_neg]
    rw [Bool.and_eq_true, Bool.not_eq_true', List.any_eq_false]
    rintro ⟨r, none⟩
    rcases keep with keep | ⟨m, mem, e⟩
    · rw [keep] at r; cases r
    · exact none m mem (decide_eq_true e)

theorem contribution_eq_zero (h : a.state.moving = false) (n : a.state ≠ .offline) : a.contribution = 0 := by
  unfold Aperture.contribution
  cases st : a.state <;> simp_all [MotionState.moving]

/-- What the third miss leaves of its aperture when the event has ended (R18, R95). -/
theorem Ended.missed_leaves (d : Ended (missed i f s) t) (third : 2 ≤ (s.ap i).node.missCount)
    (leaves : LeavesByMiss (s.ap i)) :
    t.ap i = (toOffline i (missCounted i s)).ap i ∧ t.queued i = false ∧
      (t.ap i).contribution = (if (s.ap i).node.contactTimer.isSome then (s.ap i).contribution else 0) ∧
      NoticeQueued [.S, .L] ⟨t.sec, .nodeOffline i (s.ap i).state⟩ s t ∧
      (∀ x, (i, x) ∈ t.link.moveList ↔ (i, x) ∈ (s.link.takeBack f).moveList) ∧
      ∀ m, (s.link.takeBack f).moveList.head? = some m → m.1 = i → t.link.moveList.head? = some m := by
  rw [(missed_eq i f s).1 third leaves, toOffline_link] at d
  have ap := toOffline_ap i i (missCounted i s)
  rw [if_pos rfl] at ap
  have state : ((toOffline i (missCounted i s)).ap i).state = .offline := by rw [ap]
  obtain ⟨stands, moves, -⟩ := (d.ending i).stands_of (fun w => by cases state.symm.trans w)
    (congrArg MotionState.driving state)
  have stands : t.ap i = (toOffline i (missCounted i s)).ap i := stands
  refine ⟨stands, ?_, ?_, ?_, moves, fun m head e => d.head m head ?_ ?_⟩
  · refine (d.listed i ?_).trans ?_
    · refine (toOffline_queued i _).trans ?_
      show false = ((toOffline i (missCounted i s)).ap i).member
      simp [Aperture.member, state, MotionState.queueable]
    · simp [Aperture.member, stands, state, MotionState.queueable]
  · rw [stands, Aperture.contribution, state, ap, missCounted_self]
    dsimp only
    have none : (s.ap i).state.moving = false → (s.ap i).contribution = 0 := fun still =>
      contribution_eq_zero still (by
        rcases leaves with h | h
        · exact h.2.1
        · rw [h.1.1]; nofun)
    cases mov : (s.ap i).state.moving with
    | true => rfl
    | false => rw [none mov, ite_self]; rfl
  · have q := toOffline_announced i (missCounted i s)
    rw [show ((missCounted i s).ap i).state = (s.ap i).state by rw [missCounted_self]] at q
    rw [← (toOffline_frame i (missCounted i s)).sec] at q
    rw [d.frame.sec]
    exact (q.kept (Frame.withLink (k := Aperture.keep) _)).kept d.frame
  · subst e; exact fun w => by cases state.symm.trans w
  · subst e; exact congrArg MotionState.driving state

/-- What another miss leaves: its count, and the frame given back. -/
theorem Ended.missed_stays (d : Ended (missed i f s) t)
    (no : (s.ap i).node.missCount < 2 ∨ ¬ LeavesByMiss (s.ap i)) :
    Ended { missCounted i s with link := s.link.takeBack f } t := by
  rw [(missed_eq i f s).2 no] at d; exact d

theorem missed_cases (i : ApId) (f : InFlight) (s : State) :
    (2 ≤ (s.ap i).node.missCount ∧ LeavesByMiss (s.ap i) ∧
      missed i f s = { toOffline i (missCounted i s) with link := s.link.takeBack f }) ∨
    ((s.ap i).node.missCount < 2 ∨ ¬ LeavesByMiss (s.ap i)) ∧
      missed i f s = { missCounted i s with link := s.link.takeBack f } := by
  obtain ⟨leaves, stays⟩ := missed_eq i f s
  rw [toOffline_link] at leaves
  by_cases h : 2 ≤ (s.ap i).node.missCount ∧ LeavesByMiss (s.ap i)
  · exact .inl ⟨h.1, h.2, leaves h.1 h.2⟩
  · have no : (s.ap i).node.missCount < 2 ∨ ¬ LeavesByMiss (s.ap i) := by
      rw [not_and_or, not_le] at h; exact h
    exact .inr ⟨no, stays no⟩

theorem missed_link (i : ApId) (f : InFlight) (s : State) : (missed i f s).link = s.link.takeBack f := by
  rcases missed_cases i f s with ⟨-, -, e⟩ | ⟨-, e⟩ <;> rw [e]

/-- A miss counts, and leaves every order tag. -/
theorem missed_node (i : ApId) (f : InFlight) (s : State) :
    ((missed i f s).ap i).node.missCount = min 3 ((s.ap i).node.missCount + 1) ∧
      ∀ j, ((missed i f s).ap j).orderTag = (s.ap j).orderTag := by
  have tag (j : ApId) : ((missCounted i s).ap j).orderTag = (s.ap j).orderTag := by
    rw [missCounted_ap]
    split
    · next e => subst e; rfl
    · rfl
  rcases missed_cases i f s with ⟨-, -, e⟩ | ⟨-, e⟩ <;> rw [e]
  · refine ⟨?_, fun j => (orders_fields ((toOffline_frame i _).aps j)).2.2.2.2.2.trans (tag j)⟩
    show ((toOffline i (missCounted i s)).ap i).node.missCount = _
    rw [toOffline_ap, if_pos rfl, missCounted_self]; rfl
  · exact ⟨by show ((missCounted i s).ap i).node.missCount = _; rw [missCounted_self], tag⟩

theorem missCounted_waitsAlike (l : Link) : WaitsAlike s { missCounted i s with link := l } := by
  refine ⟨fun j => ?_, rfl, rfl, rfl, rfl⟩
  show ((missCounted i s).ap j).fix = _ ∧ _
  rw [show ({ missCounted i s with link := l } : State).ap j = (missCounted i s).ap j from rfl, missCounted_ap]
  split
  · next e => subst e; exact ⟨rfl, rfl, rfl, rfl, rfl⟩
  · exact ⟨rfl, rfl, rfl, rfl, rfl⟩

/-- A miss that leaves its aperture where it was, with nothing owed, does no more than count (assumption log 12). -/
theorem missed_settled {s0 : State} (alike : WaitsAlike s0 s) (set : s0.Settled)
    (no : (s.ap i).node.missCount < 2 ∨ ¬ LeavesByMiss (s.ap i)) :
    finish false s0 (missed i f s) = ({ missCounted i s with link := s.link.takeBack f } : State).draw := by
  have eq : missed i f s = { missCounted i s with link := s.link.takeBack f } := (missed_eq i f s).2 no
  rw [eq]
  exact (alike.trans (missCounted_waitsAlike _)).finish set

theorem not_leavesByMiss_of_fault (st : a.state = .fault) (h : ¬ SilentTimeout a ∨ Config.thirdMissEndsTimeout = false) :
    ¬ LeavesByMiss a := by
  rintro (⟨n, -⟩ | ⟨silent, ends⟩)
  · exact n st
  · rcases h with h | h
    · exact h silent
    · rw [h] at ends; cases ends

/-- An aperture in FAULT stays there, but for the one case of assumption log 56. -/
theorem Ended.missed_fault (d : Ended (missed i f s) t) (st : (s.ap i).state = .fault)
    (no : (s.ap i).node.missCount < 2 ∨ ¬ LeavesByMiss (s.ap i)) :
    (t.ap i).state = .fault ∧ (t.ap i).fault = (s.ap i).fault ∧ (t.ap i).contribution = 0 := by
  have e := d.missed_stays no
  have own : ({ missCounted i s with link := s.link.takeBack f } : State).ap i = _ := missCounted_self
  obtain ⟨stands, -, -⟩ := (e.ending i).stands_of (by rw [own]; exact fun w => by cases st.symm.trans w)
    (by rw [own]; exact congrArg MotionState.driving st)
  rw [stands, own, Aperture.contribution, st]
  exact ⟨rfl, rfl, rfl⟩

end Sys2Proof.Machine

open Sys2Proof Sys2Proof.Machine

/-- Settles O39: the miss is counted, and leads OFFLINE or leaves its aperture alone. -/
theorem missedExchangeCounts : Obligations.MissedExchangeCounts := by
  refine ⟨fun s f reply running what => ?_, fun s f i reply running node miss => ?_⟩
  · have d := event_ended (complete f reply) (s.advanceTo f.ends)
    have eq : complete f reply (s.advanceTo f.ends) = slotEnded f.ends s := complete_broadcast what
    have drawn (set : s.Settled) : event (complete f reply) (s.advanceTo f.ends) = (slotEnded f.ends s).draw := by
      rw [event, eq]
      exact advanced_slotEnded.finish (advanceTo_waitsAlike.settled set)
    rw [eq] at d
    refine ⟨_, exchangeCompleted_runs running, d.idle rfl, d.onlyAttempts fun _ => rfl, congrArg Clock.ms d.frame.clock,
      fun j => ?_, drawn⟩
    obtain ⟨-, pos, slate, -, -, -, tag, node, -⟩ := keep_fields (d.frame.aps j)
    exact ⟨node, tag, pos, slate⟩
  · have run := exchangeCompleted_runs (reply := reply) running
    have d := event_ended (complete f reply) (s.advanceTo f.ends)
    have eq : complete f reply (s.advanceTo f.ends) = missed i f (slotEnded f.ends s) := complete_missed node miss
    have drawn (set : s.Settled) (no : (s.ap i).node.missCount < 2 ∨ ¬ LeavesByMiss (s.ap i)) :
        event (complete f reply) (s.advanceTo f.ends) = State.draw { missCounted i (slotEnded f.ends s) with
          link := (slotEnded f.ends s).link.takeBack f } := by
      rw [event, eq]; exact missed_settled advanced_slotEnded (advanceTo_waitsAlike.settled set) no
    rw [eq] at d
    generalize event (complete f reply) (s.advanceTo f.ends) = t at run d drawn
    have frame := (missed_frame i (slotEnded f.ends s) f).trans (d.frame.mono keep_ordered)
    refine ⟨t, run, d.idle ?_, congrArg Clock.ms frame.clock, ?_, fun third leaves => ?_, fun no => ?_, fun st no => ?_,
      fun third silent => ?_, fun what => ?_, fun x set what => ?_, fun j => ?_, frame.fe, frame.fire, frame.store,
      frame.ports⟩
    · rw [missed_link, takeBack_inFlight]; rfl
    · rw [(keep_fields (d.frame.aps i)).2.2.2.2.2.2.2.1]; exact (missed_node i f _).1
    · obtain ⟨ap, queued, current, announced, -⟩ := d.missed_leaves third leaves
      have gone := toOffline_ap i i (missCounted i (slotEnded f.ends s))
      rw [if_pos rfl] at gone
      exact ⟨by rw [ap, gone], by rw [ap, gone], by rw [ap, gone]; rfl, by rw [ap, gone]; rfl, queued, current, announced⟩
    · have e := d.missed_stays no
      have kept (j : ApId) : ((missCounted i (slotEnded f.ends s)).ap j).state = (s.ap j).state ∧
          ((missCounted i (slotEnded f.ends s)).ap j).position = (s.ap j).position := by
        rw [missCounted_ap]
        split
        · next e => subst e; exact ⟨rfl, rfl⟩
        · exact ⟨rfl, rfl⟩
      refine ⟨e.onlyAttempts fun j => (kept j).1, fun j => (keep_fields (e.frame.aps j)).2.1.trans (kept j).2, fun set => ?_⟩
      obtain rfl := drawn set no
      refine ⟨rfl, fun j => ?_⟩
      have ap (k : ApId) : (missCounted i (slotEnded f.ends s)).ap k = _ := missCounted_ap
      show (missCounted i (slotEnded f.ends s)).ap j = if j = i then
        { s.ap i with node := { (s.ap i).node with
          missCount := ((missCounted i (slotEnded f.ends s)).ap i).node.missCount } } else s.ap j
      rw [missCounted_self, ap]
      by_cases e : i = j
      · rw [if_pos e, if_pos e.symm]; rfl
      · rw [if_neg e, if_neg (Ne.symm e)]; rfl
    · have no : (s.ap i).node.missCount < 2 ∨ ¬ LeavesByMiss (s.ap i) :=
        no.symm.imp id fun n => not_leavesByMiss_of_fault st (.inl n)
      obtain ⟨st, fault, -⟩ := d.missed_fault st no
      exact ⟨st, fault⟩
    · obtain ⟨st, -⟩ := id silent
      cases ends : Config.thirdMissEndsTimeout with
      | true =>
        obtain ⟨ap, -, current, -⟩ := d.missed_leaves third (.inr ⟨silent, ends⟩)
        have gone := toOffline_ap i i (missCounted i (slotEnded f.ends s))
        rw [if_pos rfl] at gone
        have none : ((slotEnded f.ends s).ap i).contribution = 0 :=
          contribution_eq_zero (congrArg MotionState.moving st) fun o => by cases st.symm.trans o
        rw [current, none, ite_self, if_pos rfl, ap, gone]
        exact ⟨rfl, rfl, rfl⟩
      | false =>
        obtain ⟨st, fault, current⟩ := d.missed_fault st (.inr (not_leavesByMiss_of_fault st (.inr ends)))
        rw [if_neg Bool.false_ne_true]
        exact ⟨current, st, fault⟩
    · have head := d.halts
      rw [missed_link] at head
      obtain ⟨more, e⟩ := head
      rw [← e, List.head?_append_of_ne_nil, takeBack_halt what]
      exact fun n => by have := takeBack_halt (l := (slotEnded f.ends s).link) what; rw [n] at this; cases this
    · obtain ⟨returns, keeps⟩ := takeBack_move (l := (slotEnded f.ends s).link) what
      by_cases h : 2 ≤ (s.ap i).node.missCount ∧ LeavesByMiss (s.ap i)
      · obtain ⟨-, -, -, -, moves, head⟩ := d.missed_leaves h.1 h.2
        refine ⟨fun r none => head (i, x) (by rw [returns r none]; rfl) rfl, fun keep y => ?_⟩
        rw [moves, keeps keep]; rfl
      · rw [not_and_or, not_le] at h
        obtain rfl := drawn set h
        refine ⟨fun r none => ?_, fun keep y => ?_⟩
        · exact congrArg List.head? (returns r none)
        · exact Iff.of_eq (congrArg ((i, y) ∈ ·) (keeps keep))
    · obtain ⟨fix, slate, -⟩ := ordered_fields (frame.aps j)
      exact ⟨slate, (keep_fields (d.frame.aps j)).2.2.2.2.2.2.1.trans ((missed_node i f _).2 j), fix⟩

end

