-- ==== Sys2Proof/Proofs/ValidReplies.lean ====
section
/-! PROOFS. A valid reply, the position a fresh status writes, and what it does by motion state (R7, R87, R133). -/

namespace Sys2Proof.Machine

open Sys2Proof

variable {i j : ApId} {s t u v w : State} {a : Aperture} {now e p : Nat} {m : Motion} {f : InFlight} {reply : List Byte}
  {r : LinkReply}

/-! ### A valid reply (R133, R136, R140, R141) -/

/-- The state in which the valid reply of aperture `i`, which ended its slot at `e`, has renewed the contact. -/
def contacted (i : ApId) (e : Nat) (s : State) : State := renewContact i (slotEnded e s)

theorem contacted_self : (contacted i e s).ap i = { s.ap i with node := { (s.ap i).node with
    missCount := 0, lastContact := some (slotEnded e s).ds
    contactTimer := some ((slotEnded e s).ds + Config.contactDs) } } := State.ap_modAp_self _ i _

theorem contacted_of_ne (ne : j ≠ i) : (contacted i e s).ap j = s.ap j := by
  refine (State.ap_modAp _ i j _).trans (if_neg ne.symm)

theorem complete_replied (node : f.what.node? = some i) (valid : parseReply i reply = some r) :
    complete f reply (s.advanceTo f.ends) = replied i f r (slotEnded f.ends s) := by
  simp only [complete, node, valid]; rfl

/-- A fresh status: the reply to a POLL with the known order tag (R136). -/
theorem replied_fresh (what : f.what = .poll i) (on : (s.ap i).state ≠ .offline) (tag : (s.ap i).orderTag = some r.tag) :
    replied i f r s = pollReplied i r (renewContact i s) := by
  have own : ((renewContact i s).ap i).orderTag = some r.tag := by
    rw [renewContact, State.ap_modAp_self]; exact tag
  unfold replied; dsimp only
  rw [what, if_neg (by simp [tag]), if_neg (by simp [on])]
  simp [on, tag, own]

/-- A MOVE answered with LOCAL in STARTING or RUNNING (R124). -/
theorem replied_refused {x : Nat} (what : f.what = .move i x) (dr : (s.ap i).state.driving = true)
    (known : (s.ap i).orderTag.isSome = true) (refused : r.refused = true) :
    replied i f r s = toFault i .localControl (renewContact i s) := by
  have own : ((renewContact i s).ap i).state = (s.ap i).state := by rw [renewContact, State.ap_modAp_self]
  have on : (s.ap i).state ≠ .offline := fun o => by rw [o] at dr; cases dr
  unfold replied; dsimp only
  rw [what, if_neg (by simpa using Option.isSome_iff_ne_none.1 known), if_neg (by simp [on])]
  dsimp only
  rw [moveReplied, if_pos refused, own, if_pos dr]

theorem pollReplied_cases (i : ApId) (r : LinkReply) (s : State) :
    pollReplied i r s = freshStatus i r s ∨
      ((s.ap i).state.noMotion = true ∧ r.moving = true) ∧ pollReplied i r s = strayHalt i (freshStatus i r s) := by
  unfold pollReplied; dsimp only
  split
  · next h => rw [Bool.and_eq_true, Bool.and_eq_true] at h; exact .inr ⟨h.1, rfl⟩
  · exact .inl rfl

/-! ### The position a fresh status writes (R7, R87) -/

theorem writePosition_self (i : ApId) (p : Nat) (s : State) :
    (writePosition i p s).ap i = { s.ap i with position := some p } := by rw [writePosition_ap, if_pos rfl]

/-- After the writing of a position the aperture's entry stands exactly where it is a member (R85, R87). -/
theorem writePosition_listed (i : ApId) (p : Nat) (s : State) :
    (writePosition i p s).queued i = ((writePosition i p s).ap i).member := by
  rw [writePosition_self]
  unfold writePosition; dsimp only
  split
  · next e _ =>
    have gone : ((s.modAp i fun a => { a with position := some 0 }).dropEntry i).queued i = false := by
      simp [State.queued, State.dropEntry]
    obtain ⟨x, h⟩ := State.notify_rest (s := (s.modAp i fun a => { a with position := some 0 }).dropEntry i) [.S, .K]
      (.closureDone i e.cause)
    rw [h]
    exact gone.trans (by simp [Aperture.member])
  · rw [refreshEntry_queued, if_pos rfl, State.ap_modAp_self]

/-- A member found at 0 leaves the queue with CLOSURE-DONE (R87). -/
theorem writePosition_announced {x : Entry} (found : s.sup.queue.find? (fun e => e.ap = i) = some x) :
    NoticeQueued [.S, .K] ⟨s.sec, .closureDone i x.cause⟩ s (writePosition i 0 s) := by
  have eq : writePosition i 0 s =
      ((s.modAp i fun a => { a with position := some 0 }).dropEntry i).notify [.S, .K] (.closureDone i x.cause) := by
    unfold writePosition; dsimp only
    rw [State.modAp_sup, found]
    rfl
  rw [eq]
  have f : Frame Aperture.orders s ((s.modAp i fun a => { a with position := some 0 }).dropEntry i) :=
    (Frame.modAp i _ rfl).trans (Frame.dropEntry i)
  exact f.notify_queued _ (by decide) _

/-! ### What a fresh status does, by motion state (R7, R17, R19, R116, R119 to R123) -/

/-- A fresh status is read in these states, its position written (R7, R17). -/
def Reads (a : Aperture) (r : LinkReply) : Prop :=
  a.state ≠ .absent ∧ a.state ≠ .offline ∧ (a.state ≠ .unknown ∨ r.moving = false)

/-- The aperture's entry stands exactly where it is a member (R85). -/
def Listed (i : ApId) (s : State) : Prop := s.queued i = (s.ap i).member

theorem enter_listed (i : ApId) (st : MotionState) (g : Aperture → Aperture) (s : State) :
    Listed i (enter i st g s) := by
  rw [Listed, enter_queued, enter_ap, if_pos rfl, if_pos rfl]

theorem notify_listed {ps : List Port} {b : NoticeBody} (h : Listed i s) : Listed i (s.notify ps b) := by
  obtain ⟨x, e⟩ := State.notify_rest (s := s) ps b
  rw [e]; exact h

theorem toRest_listed (i : ApId) (s : State) : Listed i (toRest i s) := (judge_local i _).listed (enter_listed i _ _ s)

theorem toFault_listed (i : ApId) (k : FaultKind) (s : State) : Listed i (toFault i k s) :=
  notify_listed (enter_listed i _ _ s)

theorem Listed.ite {c : Prop} [Decidable c] (h : c → Listed i s) (g : ¬ c → Listed i t) :
    Listed i (if c then s else t) := by
  split
  · exact h ‹_›
  · exact g ‹_›

theorem confirmStop_listed (i : ApId) (fresh : Bool) (s : State) : Listed i (confirmStop i fresh s) := by
  unfold confirmStop
  exact .ite (fun _ => .ite (fun _ => .ite (fun _ => toRest_listed i _) fun _ => toRest_listed i s)
      fun _ => toFault_listed i _ s)
    fun _ => .ite (fun _ => enter_listed i _ _ s) fun _ => enter_listed i _ _ s

theorem stall_listed (i : ApId) (s : State) : Listed i (stall i s) := by
  unfold stall
  split
  · exact .ite (fun _ => enter_listed i _ _ _) fun _ => toFault_listed i _ _
  · exact toFault_listed i _ s

theorem driveStatus_listed (r : LinkReply) (h : Listed i s) : Listed i (driveStatus i r s) := by
  unfold driveStatus
  split
  · exact stall_listed i s
  · split
    · exact h
    · split
      · exact enter_listed i _ _ s
      · exact toRest_listed i _

theorem faultStatus_listed (r : LinkReply) (h : Listed i s) : Listed i (faultStatus i r s) := by
  unfold faultStatus
  split
  · split
    · exact h
    · exact toRest_listed i s
  · exact h

/-- A fresh status that is read keeps what motion keeps of the position it wrote, and judges membership. -/
theorem freshStatus_wrote (h : Reads (s.ap i) r) :
    Frame Aperture.keep (writePosition i r.writes s) (freshStatus i r s) ∧ Listed i (freshStatus i r s) := by
  obtain ⟨absent, offline, unknown⟩ := h
  have wrote : Listed i (writePosition i r.writes s) := writePosition_listed i r.writes s
  unfold freshStatus; dsimp only
  split
  case h_1 st => exact absurd st absent
  case h_2 st => exact absurd st offline
  case h_3 st =>
    rw [if_neg (by rw [unknown.resolve_left (not_not.2 st)]; decide)]
    exact ⟨toRest_frame i _, toRest_listed i _⟩
  case h_4 => exact ⟨judge_frame i _, (judge_local i _).listed wrote⟩
  case h_5 => exact ⟨rejudgePosition_frame i _, by
    unfold rejudgePosition; split
    · exact wrote
    · exact toRest_listed i _⟩
  case h_6 | h_7 => exact ⟨driveStatus_frame i _ r, driveStatus_listed r wrote⟩
  case h_8 =>
    split
    · exact ⟨Frame.refl _ _, wrote⟩
    · exact ⟨confirmStop_frame i _ true, confirmStop_listed i true _⟩
  case h_9 | h_10 => exact ⟨Frame.refl _ _, wrote⟩
  case h_11 => exact ⟨faultStatus_frame i _ r, faultStatus_listed r wrote⟩

end Sys2Proof.Machine

end

