-- ==== Sys2Proof/Proofs/Stalls.lean ====
section
/-! PROOFS. A fresh status with the end of its event; stalls and LOCAL refusals: O43. -/

namespace Sys2Proof.Machine

open Sys2Proof

variable {i j : ApId} {s t u v w : State} {a : Aperture} {now e p : Nat} {m : Motion} {f : InFlight} {reply : List Byte}
  {r : LinkReply} {k : Aperture → Aperture}

/-! ### A fresh status with the end of its event -/

theorem Frame.zone (h : Frame k s t) (i : ApId) : t.zoneOf i = s.zoneOf i := by
  have g : t.governing i = s.governing i := by simp only [State.governing, h.desc]
  simp only [State.zoneOf, g, h.desc, h.base]

theorem pollReplied_keeps (i : ApId) (r : LinkReply) (s : State) :
    Frame Aperture.keep (freshStatus i r s) (pollReplied i r s) ∧
      (∀ j, (pollReplied i r s).ap j = (freshStatus i r s).ap j) ∧
      (Listed i (freshStatus i r s) → Listed i (pollReplied i r s)) ∧
      ((s.ap i).state.noMotion = false ∨ r.moving = false → pollReplied i r s = freshStatus i r s) := by
  rcases pollReplied_cases i r s with h | ⟨⟨no, mov⟩, h⟩ <;> rw [h]
  · exact ⟨Frame.refl _ _, fun _ => rfl, id, fun _ => rfl⟩
  · refine ⟨strayHalt_frame i _, fun _ => rfl, id, fun c => ?_⟩
    rw [no, mov] at c
    exact c.elim nofun nofun

/-- The completion of a POLL that was answered with the known order tag. -/
theorem freshReply_runs (running : s.link.inFlight = some f) (what : f.what = .poll i)
    (valid : parseReply i reply = some r) (tag : (s.ap i).orderTag = some r.tag) (on : (s.ap i).state ≠ .offline) :
    ∃ t, exec (.exchangeCompleted reply) s = .next t ∧ Ended (pollReplied i r (contacted i f.ends s)) t := by
  have d := event_ended (complete f reply) (s.advanceTo f.ends)
  have fresh : replied i f r (slotEnded f.ends s) = pollReplied i r (contacted i f.ends s) := replied_fresh what on tag
  rw [complete_replied (by rw [what]; rfl) valid, fresh] at d
  exact ⟨_, exchangeCompleted_runs running, d⟩

theorem MotionState.driving_iff (x : MotionState) : x.driving = true ↔ x = .starting ∨ x = .running := by
  cases x <;> simp [MotionState.driving]

theorem freshStatus_driven (dr : (s.ap i).state.driving = true) :
    freshStatus i r s = driveStatus i r (writePosition i r.writes s) := by
  rcases (MotionState.driving_iff _).1 dr with st | st <;> simp only [freshStatus, st]

theorem noMotion_of_driving {x : MotionState} (dr : x.driving = true) : x.noMotion = false := by
  rcases (MotionState.driving_iff _).1 dr with rfl | rfl <;> rfl

/-- A fresh STALLED status reaches a driven aperture (R121). -/
theorem freshStatus_stalled (dr : (s.ap i).state.driving = true) (stalled : r.stalled = true) :
    pollReplied i r s = stall i (writePosition i r.writes s) := by
  rw [(pollReplied_keeps i r s).2.2.2 (.inl (noMotion_of_driving dr)), freshStatus_driven dr, driveStatus, if_pos stalled]

/-- The stall of a closing, counted (R121). -/
def stallCounted (i : ApId) (s : State) : State := s.modAp i fun a => { a with stallCount := min 3 (a.stallCount + 1) }

theorem stallCounted_self : (stallCounted i s).ap i = { s.ap i with stallCount := min 3 ((s.ap i).stallCount + 1) } :=
  State.ap_modAp_self s i _

theorem stall_closing {x : Nat} {c : OrderClass} (hm : (s.ap i).motion = some ⟨x, .closing, c, .normal⟩) :
    ((s.ap i).stallCount < 2 → stall i s = toSettling i .stall (stallCounted i s)) ∧
      (2 ≤ (s.ap i).stallCount → stall i s = toFault i .stall (stallCounted i s)) := by
  have eq : stall i s = if ((stallCounted i s).ap i).stallCount < 3 then toSettling i .stall (stallCounted i s)
      else toFault i .stall (stallCounted i s) := by
    unfold stall; rw [hm]; rfl
  rw [eq, stallCounted_self]
  exact ⟨fun lt => if_pos (by show min 3 _ < 3; omega), fun third => if_neg (by show ¬ min 3 _ < 3; omega)⟩

theorem stall_other (hm : (s.ap i).motion = some m) (h : m.dir = .opening ∨ m.purpose = .backoff) :
    stall i s = toFault i .stall s := by
  obtain ⟨x, d, c, pu⟩ := m
  unfold stall
  rw [hm]
  rcases h with rfl | rfl
  · rfl
  · cases d <;> rfl

theorem contacted_frame (i : ApId) (e : Nat) (s : State) : Frame Aperture.ordered (s.advanceTo e) (contacted i e s) := by
  unfold contacted renewContact
  exact Frame.trans (t := slotEnded e s) (Frame.withLink _) (Frame.modAp i _ rfl)

/-- The state in which a fresh status of aperture `i` has renewed the contact and written its position. -/
def placed (i : ApId) (e p : Nat) (s : State) : State := writePosition i p (contacted i e s)

theorem placed_self : (placed i e p s).ap i = { s.ap i with
    position := some p
    node := { (s.ap i).node with
      missCount := 0, lastContact := some (slotEnded e s).ds
      contactTimer := some ((slotEnded e s).ds + Config.contactDs) } } := by
  rw [placed, writePosition_self, contacted_self]

theorem placed_frame (i : ApId) (e p : Nat) (s : State) : Frame Aperture.ordered (s.advanceTo e) (placed i e p s) :=
  (contacted_frame i e s).trans ((writePosition_frame i _ p).mono orders_ordered)

end Sys2Proof.Machine

open Sys2Proof Sys2Proof.Machine

/-- Settles O43, by the reply. -/
theorem stallsAndLocalRefusalsFault : Obligations.StallsAndLocalRefusalsFault := by
  intro s f i reply r x c running valid st
  have dr : (s.ap i).state.driving = true := by rcases st with st | st <;> rw [st] <;> rfl
  have on : (s.ap i).state ≠ .offline := by rcases st with st | st <;> rw [st] <;> nofun
  have dr' : ((contacted i f.ends s).ap i).state.driving = true := by rw [contacted_self]; exact dr
  have own := placed_self (i := i) (e := f.ends) (p := r.writes) (s := s)
  have frame := placed_frame i f.ends r.writes s
  refine ⟨fun what tag hm stalled => ?_, fun m what tag hm h stalled => ?_, fun what refused known => ?_⟩
  · obtain ⟨t, run, d⟩ := freshReply_runs running what valid tag on
    rw [freshStatus_stalled dr' stalled, ← placed] at d
    have closing : ((placed i f.ends r.writes s).ap i).motion = some ⟨x, .closing, c, .normal⟩ := by rw [own]; exact hm
    obtain ⟨early, third⟩ := stall_closing closing
    have count : ((stallCounted i (placed i f.ends r.writes s)).ap i).stallCount = min 3 ((s.ap i).stallCount + 1) := by
      rw [stallCounted_self, own]
    rw [own] at early third
    rcases Nat.lt_or_ge (s.ap i).stallCount 2 with lt | ge
    · rw [early lt] at d
      have settling : Settling i .stall s t := d.settling (by rw [stallCounted_self, own]) (frame.zone i)
      refine ⟨t, run, ?_, settling.2.1, fun ge => absurd ge (not_le.2 lt), fun _ => settling⟩
      rw [(d.ending i).stallCount, toSettling_ap, if_pos rfl]; exact count
    · rw [third ge] at d
      obtain ⟨faulted, same⟩ := d.faulted (s := s) frame.ports
      exact ⟨t, run, same.trans count, faulted.2.2.2.1, fun _ => faulted, fun lt => absurd lt (not_lt.2 ge)⟩
  · obtain ⟨t, run, d⟩ := freshReply_runs running what valid tag on
    rw [freshStatus_stalled dr' stalled, ← placed] at d
    have moves : ((placed i f.ends r.writes s).ap i).motion = some m := by rw [own]; exact hm
    rw [stall_other moves h] at d
    obtain ⟨faulted, same⟩ := d.faulted (s := s) frame.ports
    exact ⟨t, run, faulted, same.trans (by rw [own])⟩
  · have d := event_ended (complete f reply) (s.advanceTo f.ends)
    have eq : replied i f r (slotEnded f.ends s) = toFault i .localControl (contacted i f.ends s) :=
      replied_refused what dr known refused
    rw [complete_replied (by rw [what]; rfl) valid, eq] at d
    have frame := (toFault_frame i (contacted i f.ends s) .localControl).trans d.frame
    have kept := contacted_frame i f.ends s
    refine ⟨_, exchangeCompleted_runs running, (d.faulted kept.ports).1, ?_, fun j => ?_⟩
    · rw [(keep_fields (frame.aps i)).2.2.2.2.2.2.1, contacted_self]
    · exact (keep_fields (frame.aps j)).2.2.1.trans (ordered_fields (kept.aps j)).2.1

end

