-- ==== Sys2Proof/Proofs/FreshStatuses.lean ====
section
/-! PROOFS. A fresh status by motion state: O42. -/

namespace Sys2Proof.Machine

open Sys2Proof

variable {i j : ApId} {s t u v w : State} {a : Aperture} {now e p : Nat} {m : Motion} {f : InFlight} {reply : List Byte}
  {r : LinkReply} {k : Aperture → Aperture}

/-! ### A fresh status by motion state (R7, R9, R17, R19, R116, R119) -/

theorem freshStatus_unread (h : ¬ Reads (s.ap i) r) : freshStatus i r s = s := by
  unfold freshStatus; dsimp only
  unfold Reads at h
  split <;> rename_i st
  case h_3 =>
    rw [if_pos]
    by_contra moving
    exact h ⟨by rw [st]; nofun, by rw [st]; nofun, .inr (Bool.eq_false_of_not_eq_true moving)⟩
  case h_1 | h_2 => rfl
  all_goals exact absurd ⟨by rw [st]; nofun, by rw [st]; nofun, .inl (by rw [st]; nofun)⟩ h

theorem freshStatus_unknown (st : (s.ap i).state = .unknown) (still : r.moving = false) :
    freshStatus i r s = toRest i (writePosition i r.writes s) := by
  simp only [freshStatus, st, still, Bool.false_eq_true, if_false]

theorem freshStatus_rest (st : (s.ap i).state = .rest) : freshStatus i r s = judge i (writePosition i r.writes s) := by
  simp only [freshStatus, st]

theorem freshStatus_waiting (st : (s.ap i).state = .waiting) :
    freshStatus i r s = rejudgePosition i (writePosition i r.writes s) := by
  simp only [freshStatus, st]

theorem freshStatus_stopping (st : (s.ap i).state = .stopping) : freshStatus i r s =
    if r.moving then writePosition i r.writes s else confirmStop i true (writePosition i r.writes s) := by
  simp only [freshStatus, st]

theorem freshStatus_settles (st : (s.ap i).state = .settling ∨ (s.ap i).state = .retryWait) :
    freshStatus i r s = writePosition i r.writes s := by
  rcases st with st | st <;> simp only [freshStatus, st]

theorem freshStatus_fault (st : (s.ap i).state = .fault) :
    freshStatus i r s = faultStatus i r (writePosition i r.writes s) := by
  simp only [freshStatus, st]

theorem faultStatus_eq {c : FaultKind} (h : (s.ap i).fault = some ⟨c, e⟩) :
    (c = .localControl → r.keyed = false → faultStatus i r s = toRest i s) ∧
      (c ≠ .localControl ∨ r.keyed = true → faultStatus i r s = s) := by
  refine ⟨fun hc keyed => ?_, fun no => ?_⟩
  · subst hc; simp only [faultStatus, h, keyed, Bool.false_eq_true, if_false]
  · cases c with
    | localControl => simp only [faultStatus, h, no.resolve_left fun n => n rfl, if_true]
    | stall | timeout => simp only [faultStatus, h]

/-- A driven aperture whose status has no STALLED goes on, arrives, or ends its back-off (R116, R123). -/
theorem driveStatus_eq (hm : (s.ap i).motion = some m) (stalled : r.stalled = false) :
    (r.moving = true → driveStatus i r s = s) ∧
      (r.moving = false → m.purpose = .normal → driveStatus i r s = arrive i s) ∧
      (r.moving = false → m.purpose = .backoff → driveStatus i r s = toRetryWait i s) := by
  obtain ⟨x, d, c, pu⟩ := m
  unfold driveStatus
  rw [if_neg (by rw [stalled]; decide), hm]
  refine ⟨fun moving => if_pos moving, fun still n => ?_, fun still b => ?_⟩ <;> rw [if_neg (by rw [still]; decide)]
  · rw [show pu = .normal from n]
  · rw [show pu = .backoff from b]

theorem placed_of_ne (ne : j ≠ i) : (placed i e p s).ap j = s.ap j := by
  rw [placed, writePosition_ap, if_neg ne.symm, contacted_of_ne ne]

section
variable (d : Ended (pollReplied i r (contacted i e s)) t)
include d

/-- A status that is read leaves what it wrote but for the aperture's motion, with the entry where it is a member. -/
theorem fresh_reads (h : Reads (s.ap i) r) : Frame Aperture.keep (placed i e r.writes s) t ∧ Listed i t := by
  have h : Reads ((contacted i e s).ap i) r := by rw [contacted_self]; exact h
  obtain ⟨keeps, -, listed, -⟩ := pollReplied_keeps i r (contacted i e s)
  obtain ⟨wrote, fresh⟩ := freshStatus_wrote h
  exact ⟨(wrote.trans keeps).trans d.frame, d.listed i (listed fresh)⟩

theorem fresh_position (h : Reads (s.ap i) r) : (t.ap i).position = some r.writes := by
  rw [(keep_fields ((fresh_reads d h).1.aps i)).2.1, placed_self]

/-- No other position changes. -/
theorem fresh_others (ne : j ≠ i) : (t.ap j).position = (s.ap j).position := by
  by_cases h : Reads (s.ap i) r
  · rw [(keep_fields ((fresh_reads d h).1.aps j)).2.1, placed_of_ne ne]
  · have unread : freshStatus i r (contacted i e s) = contacted i e s :=
      freshStatus_unread (by rw [contacted_self]; exact h)
    rw [(keep_fields (d.frame.aps j)).2.1, (pollReplied_keeps i r _).2.1, unread, contacted_of_ne ne]

theorem fresh_slates (j : ApId) : (t.ap j).slate = (s.ap j).slate := by
  have f := (contacted_frame i e s).trans ((freshStatus_frame i _ r).mono orders_ordered)
  rw [(keep_fields (d.frame.aps j)).2.2.1, (pollReplied_keeps i r _).2.1, (ordered_fields (f.aps j)).2.1]
  rfl

/-- In UNKNOWN a node that still moves is not read (R17). -/
theorem fresh_unknown_moving (st : (s.ap i).state = .unknown) (moving : r.moving = true) : (t.ap i).state = .unknown ∧
    (t.ap i).position = (s.ap i).position ∧ (t.ap i).motion = (s.ap i).motion ∧ (t.ap i).mon = (s.ap i).mon := by
  have unread : freshStatus i r (contacted i e s) = contacted i e s := by
    refine freshStatus_unread ?_
    rw [contacted_self]
    rintro ⟨-, -, known | still⟩
    · exact known st
    · rw [moving] at still; cases still
  have ap := (pollReplied_keeps i r (contacted i e s)).2.1 i
  rw [unread, contacted_self] at ap
  obtain ⟨stands, -, -⟩ := (d.ending i).stands_of (by rw [ap]; exact fun w => by cases st.symm.trans w)
    (by rw [ap]; exact congrArg MotionState.driving st)
  rw [stands, ap]
  exact ⟨st, rfl, rfl, rfl⟩

theorem fresh_unknown_still (st : (s.ap i).state = .unknown) (still : r.moving = false) : Rested i t := by
  have eq := freshStatus_unknown (i := i) (s := contacted i e s) (by rw [contacted_self]; exact st) still
  rw [← placed] at eq
  refine (d.rested (a := (placed i e r.writes s).ap i) (now := (placed i e r.writes s).ds) ?_).1
  rw [(pollReplied_keeps i r _).2.1, eq, toRest_ap, if_pos rfl]

theorem fresh_rest (st : (s.ap i).state = .rest) : Judged i t := by
  have eq := freshStatus_rest (i := i) (r := r) (s := contacted i e s) (by rw [contacted_self]; exact st)
  rw [← placed] at eq
  have rest : ((placed i e r.writes s).ap i).state = .rest := by rw [placed_self]; exact st
  have ap : (pollReplied i r (contacted i e s)).ap i = _ := (pollReplied_keeps i r _).2.1 i
  rw [eq, judge_ap, if_pos rfl] at ap
  exact JudgedAs.ended (by rw [ap]; exact judgedAs_judged rest) (by rw [ap]; exact resting_judged rest) (d.ending i)

theorem fresh_waiting (st : (s.ap i).state = .waiting) : ((t.ap i).offTarget = false → Rested i t) ∧
    ((t.ap i).offTarget = true → ((t.ap i).state = .waiting ∨ (t.ap i).state = .starting) ∧
      (t.ap i).motion = (s.ap i).motion) := by
  have eq := freshStatus_waiting (i := i) (r := r) (s := contacted i e s) (by rw [contacted_self]; exact st)
  rw [← placed] at eq
  have reads : Reads (s.ap i) r := by rw [Reads, st]; exact ⟨nofun, nofun, .inl nofun⟩
  obtain ⟨-, pos, -, et, -⟩ := keep_fields ((fresh_reads d reads).1.aps i)
  have off : (t.ap i).offTarget = ((placed i e r.writes s).ap i).offTarget := by
    rw [Aperture.offTarget, et, pos, Aperture.offTarget]
  have ap : (pollReplied i r (contacted i e s)).ap i = _ := (pollReplied_keeps i r _).2.1 i
  rw [eq, rejudgePosition, ← off] at ap
  refine ⟨fun on => ?_, fun away => ?_⟩
  · rw [if_neg (by rw [on]; decide), toRest_ap, if_pos rfl] at ap
    exact (d.rested ap).1
  · rw [if_pos away, placed_self] at ap
    obtain ⟨st', mo⟩ := (d.ending i).waiting (by rw [ap]; exact st)
    exact ⟨st', by rw [mo, ap]⟩

/-- A driven motion without STALLED (R116, R123). -/
theorem fresh_driven (dr : (s.ap i).state.driving = true) (stalled : r.stalled = false)
    (hm : (s.ap i).motion = some m) : (r.moving = true → MotionStands i s t) ∧
      (r.moving = false → m.purpose = .normal →
        Rested i t ∧ (t.ap i).stallCount = if r.writes = 0 then 0 else (s.ap i).stallCount) ∧
      (r.moving = false → m.purpose = .backoff → (t.ap i).state = .retryWait ∧
        (t.ap i).mon = { Monitor.stopped with retry := some (t.ds + 50) } ∧ (t.ap i).contribution = 0 ∧
        (t.ap i).motion = (s.ap i).motion ∧ (t.ap i).stallCount = (s.ap i).stallCount) := by
  have eq := freshStatus_driven (i := i) (r := r) (s := contacted i e s) (by rw [contacted_self]; exact dr)
  rw [← placed] at eq
  have own := placed_self (i := i) (e := e) (p := r.writes) (s := s)
  obtain ⟨goesOn, arrives, retries⟩ := driveStatus_eq (i := i) (r := r) (m := m) (s := placed i e r.writes s)
    (by rw [own]; exact hm) stalled
  have ap : (pollReplied i r (contacted i e s)).ap i = _ := (pollReplied_keeps i r _).2.1 i
  rw [eq] at ap
  refine ⟨fun moving => ?_, fun still n => ?_, fun still b => ?_⟩
  · rw [goesOn moving, own] at ap
    exact (d.ending i).motionStands dr (by rw [ap]) (by rw [ap])
  · rw [arrives still n, arrive_ap, if_pos rfl, own] at ap
    obtain ⟨rested, count⟩ := d.rested ap
    refine ⟨rested, count.trans ?_⟩
    dsimp only
    by_cases zero : r.writes = 0
    · rw [if_pos zero, if_pos (by rw [zero])]
    · rw [if_neg zero, if_neg (fun e => zero (Option.some.inj e))]
  · rw [retries still b, toRetryWait_ap, if_pos rfl, own] at ap
    obtain ⟨stands, -, -⟩ := (d.ending i).stands_of (by rw [ap]; nofun) (by rw [ap]; rfl)
    have reads : Reads (s.ap i) r := by
      rcases (MotionState.driving_iff _).1 dr with st | st <;> rw [Reads, st] <;> exact ⟨nofun, nofun, .inl nofun⟩
    rw [stands, ap, (fresh_reads d reads).1.ds]
    exact ⟨rfl, rfl, rfl, rfl, rfl⟩

theorem fresh_stopping (st : (s.ap i).state = .stopping) : (r.moving = false → StopConfirmed i s t) ∧
    (r.moving = true → (t.ap i).state = .stopping ∧ (t.ap i).motion = (s.ap i).motion) := by
  have wst : ((contacted i e s).ap i).state = .stopping := by rw [contacted_self]; exact st
  have eq := freshStatus_stopping (i := i) (r := r) (s := contacted i e s) wst
  rw [← placed] at eq
  have own := placed_self (i := i) (e := e) (p := r.writes) (s := s)
  rw [(pollReplied_keeps i r _).2.2.2 (.inl (by rw [wst]; rfl)), eq] at d
  refine ⟨fun still => ?_, fun moving => ?_⟩
  · rw [if_neg (by rw [still]; decide)] at d
    exact d.stopConfirmed (by rw [own]) (by rw [own]) ((placed_frame i e _ s).zone i) (placed_frame i e _ s).ports
  · rw [if_pos moving] at d
    obtain ⟨stands, -, -⟩ := (d.ending i).stands_of (by rw [own]; exact fun w => by cases st.symm.trans w)
      (by rw [own]; exact congrArg MotionState.driving st)
    rw [stands, own]
    exact ⟨st, rfl⟩

theorem fresh_settles (st : (s.ap i).state = .settling ∨ (s.ap i).state = .retryWait) :
    (t.ap i).state = (s.ap i).state ∧ (t.ap i).motion = (s.ap i).motion ∧ (t.ap i).mon = (s.ap i).mon := by
  have eq := freshStatus_settles (i := i) (r := r) (s := contacted i e s) (by rw [contacted_self]; exact st)
  rw [← placed] at eq
  have ap : (pollReplied i r (contacted i e s)).ap i = _ := (pollReplied_keeps i r _).2.1 i
  rw [eq, placed_self] at ap
  obtain ⟨stands, -, -⟩ := (d.ending i).stands_of
    (by rw [ap]; rcases st with st | st <;> exact fun w => by cases st.symm.trans w)
    (by rw [ap]; rcases st with st | st <;> exact congrArg MotionState.driving st)
  rw [stands, ap]
  exact ⟨rfl, rfl, rfl⟩

theorem fresh_fault {c : FaultKind} {now : Nat} (st : (s.ap i).state = .fault) (h : (s.ap i).fault = some ⟨c, now⟩) :
    (c = .localControl → r.keyed = false → Rested i t) ∧
      (c ≠ .localControl ∨ r.keyed = true → (t.ap i).state = .fault ∧ (t.ap i).fault = (s.ap i).fault) := by
  have eq := freshStatus_fault (i := i) (r := r) (s := contacted i e s) (by rw [contacted_self]; exact st)
  rw [← placed] at eq
  have own := placed_self (i := i) (e := e) (p := r.writes) (s := s)
  obtain ⟨ends, stays⟩ := faultStatus_eq (i := i) (r := r) (s := placed i e r.writes s) (e := now) (c := c)
    (by rw [own]; exact h)
  have ap : (pollReplied i r (contacted i e s)).ap i = _ := (pollReplied_keeps i r _).2.1 i
  rw [eq] at ap
  refine ⟨fun hc keyed => ?_, fun no => ?_⟩
  · rw [ends hc keyed, toRest_ap, if_pos rfl] at ap
    exact (d.rested ap).1
  · rw [stays no, own] at ap
    obtain ⟨stands, -, -⟩ := (d.ending i).stands_of (by rw [ap]; exact fun w => by cases st.symm.trans w)
      (by rw [ap]; exact congrArg MotionState.driving st)
    rw [stands, ap]
    exact ⟨st, rfl⟩

/-- A member that is found at 0 leaves the Closure Queue with CLOSURE-DONE (R87). -/
theorem fresh_done {x : Entry} (found : s.sup.queue.find? (fun e => e.ap = i) = some x) (zero : r.writes = 0)
    (h : Reads (s.ap i) r) : t.queued i = false ∧ NoticeQueued [.S, .K] ⟨t.sec, .closureDone i x.cause⟩ s t := by
  obtain ⟨frame, listed⟩ := fresh_reads d h
  have pos := fresh_position d h
  refine ⟨?_, ?_⟩
  · rw [show t.queued i = _ from listed, Aperture.member, pos, zero]; simp
  · have q := writePosition_announced (i := i) (s := contacted i e s) found
    rw [zero, placed] at frame
    have sec : (contacted i e s).sec = t.sec := by
      rw [frame.sec, (writePosition_frame i (contacted i e s) 0).sec]
    rw [← sec]
    exact (q.kept frame).behind (contacted_frame i e s).ports

end

end Sys2Proof.Machine

open Sys2Proof Sys2Proof.Machine

/-- Settles O42, by the motion state in which the status finds the aperture. -/
theorem freshStatusWritesPosition : Obligations.FreshStatusWritesPosition := by
  intro s f i reply r running what valid tag absent offline p a
  obtain ⟨t, run, d⟩ := freshReply_runs running what valid tag offline
  refine ⟨t, run, fun read => fresh_position d ⟨absent, offline, read⟩, fun st moving => fresh_unknown_moving d st moving,
    fun j ne => fresh_others d ne, fresh_slates d, fun st still => fresh_unknown_still d st still, fun st => fresh_rest d st,
    fun st => fresh_waiting d st, fun m st stalled hm => fresh_driven d ((MotionState.driving_iff _).2 st) stalled hm,
    fun st => fresh_stopping d st, fun st => fresh_settles d st, fun c e st h => fresh_fault d st h,
    fun x found zero read => fresh_done d found zero ⟨absent, offline, read⟩⟩

end

