-- ==== Sys2Proof/Proofs/ClosureNeeds.lean ====
section
/-! PROOFS. Causes and closure needs, and the claims they give (R80 to R82). -/

namespace Sys2Proof.Machine

open Sys2Proof

variable {i j : ApId} {s t u v w : State} {c : Cause} {k : Claim} {l : List ApId} {x : Slot} {p : Port}

/-! ### Causes and needs are read from the front end, the figures and the advisory (R80 to R82) -/

/-- What the causes of aperture `i` are read from is the same in both states. -/
structure SameCauses (i : ApId) (s t : State) : Prop where
  fe       : t.fe = s.fe
  fix      : (t.ap i).fix = (s.ap i).fix
  fig      : (t.ap i).fig = (s.ap i).fig
  advisory : t.sup.advisory = s.sup.advisory

theorem SameCauses.trans (h : SameCauses i s u) (g : SameCauses i u t) : SameCauses i s t :=
  ⟨g.fe.trans h.fe, g.fix.trans h.fix, g.fig.trans h.fig, g.advisory.trans h.advisory⟩

theorem SameCauses.hasCause (h : SameCauses i s t) (c : Cause) : HasCause t i c ↔ HasCause s i c := by
  cases c <;> simp only [HasCause, h.fe, h.fix, h.fig, h.advisory]

theorem SameCauses.hasNeed (h : SameCauses i s t) : HasNeed t i ↔ HasNeed s i :=
  exists_congr h.hasCause

theorem SameCauses.firstCause (h : SameCauses i s t) : FirstCause t i c ↔ FirstCause s i c := by
  cases c <;> simp only [FirstCause, h.hasCause]

theorem Frame.sameCauses (h : Frame Aperture.stands s t) (i : ApId) : SameCauses i s t := by
  obtain ⟨fix, -, -, -, fig⟩ := stands_fields (h.aps i)
  exact ⟨h.fe, fix, fig, h.advisory⟩

/-- The first cause of an aperture is the one of R82. -/
theorem firstCause_eq_some (h : firstCause s (s.ap i) = some c) : FirstCause s i c := by
  have has (c : Cause) : hasCause s (s.ap i) c = true ↔ HasCause s i c := hasCause_eq_true i s c
  rw [firstCause] at h
  simp only [List.find?_cons, List.find?_nil] at h
  unfold FirstCause
  simp only [← has]
  cases r : hasCause s (s.ap i) .rain with
  | true => rw [r] at h; cases h; exact ⟨r, trivial⟩
  | false =>
    cases w : hasCause s (s.ap i) .wind with
    | true => rw [r, w] at h; cases h; exact ⟨w, Bool.false_ne_true⟩
    | false =>
      cases se : hasCause s (s.ap i) .sensor with
      | true => rw [r, w, se] at h; cases h; exact ⟨se, Bool.false_ne_true, Bool.false_ne_true⟩
      | false =>
        cases a : hasCause s (s.ap i) .advisory with
        | true => rw [r, w, se, a] at h; cases h; exact ⟨a, Bool.false_ne_true, Bool.false_ne_true, Bool.false_ne_true⟩
        | false => rw [r, w, se, a] at h; cases h

theorem firstCause_eq_none : firstCause s (s.ap i) = none ↔ ¬ HasNeed s i := by
  rw [← firstCause_isSome, Bool.not_eq_true, Option.isSome_eq_false_iff, Option.isNone_iff_eq_none]

/-- The claim that the first cause gives is the derived one (R82). -/
theorem claimDerived_of_firstCause (h : FirstCause s i c) : ClaimDerived s i ⟨c, claimDeadline s c⟩ := by
  refine ⟨h, fun ne => ?_, fun e d held => ?_⟩
  · cases c with
    | advisory => exact absurd rfl ne
    | rain | wind | sensor => rfl
  · obtain rfl : c = .advisory := e
    simp only [claimDeadline, held]
    by_cases lead : s.sup.guardLead ≤ d.arrival
    · simp only [lead, true_and]
    · rw [if_neg (by omega), if_neg (fun h => lead h.1)]

theorem ClaimDerived.congr (same : SameCauses i s t) (lead : t.sup.guardLead = s.sup.guardLead) (ds : t.ds = s.ds)
    (h : ClaimDerived s i k) : ClaimDerived t i k := by
  obtain ⟨first, other, adv⟩ := h
  refine ⟨same.firstCause.2 first, other, fun e d held => ?_⟩
  rw [same.advisory] at held
  rw [lead, ds]
  exact adv e d held

/-! ### Claims posted and renewed (R32, R81, R82) -/

/-- A claim is due on this aperture: it is installed, with a need and no WEATHER slot (R81). -/
def ClaimDue (s : State) (i : ApId) : Prop :=
  (s.ap i).present = true ∧ (s.ap i).slate.weather = none ∧ HasNeed s i

theorem claimOn_due (h : ClaimDue s i) :
    ∃ c, FirstCause s i c ∧ claimOn s i = postClaim i ⟨c, claimDeadline s c⟩ s := by
  obtain ⟨there, free, need⟩ := h
  obtain ⟨c, hc⟩ := Option.isSome_iff_exists.1 ((firstCause_isSome i s).2 need)
  refine ⟨c, firstCause_eq_some hc, ?_⟩
  unfold claimOn
  rw [there, free, hc]; rfl

theorem claimOn_stands (h : ¬ ClaimDue s i) : claimOn s i = s := by
  unfold claimOn
  split
  · next c there hc =>
    rw [Bool.and_eq_true, Option.isNone_iff_eq_none] at there
    exact absurd ⟨there.1, there.2, (firstCause_isSome i s).1 (by rw [hc]; rfl)⟩ h
  · rfl

/-- The renewal of one claim, where one is kept. -/
theorem renewClaims_ap (l : List ApId) (nd : l.Nodup) (s : State) (j : ApId) : (renewClaims l s).ap j =
    if j ∈ l then { s.ap j with claim := (s.ap j).claim.map (renewClaim s (s.ap j)) } else s.ap j := by
  have go : ∀ (l : List ApId) (v : State), l.Nodup → (l.foldl (fun s' i => s'.modAp i fun a =>
      { a with claim := a.claim.map (renewClaim s a) }) v).ap j =
      if j ∈ l then { v.ap j with claim := (v.ap j).claim.map (renewClaim s (v.ap j)) } else v.ap j := by
    intro l
    induction l with
    | nil => exact fun v _ => rfl
    | cons i is ih =>
      intro v nd
      obtain ⟨fresh, nd⟩ := List.nodup_cons.1 nd
      rw [List.foldl_cons, ih _ nd, State.ap_modAp]
      by_cases e : i = j
      · subst e; simp [fresh]
      · simp [e, Ne.symm e]
  exact go l s nd

/-- A standing claim is derived again while there is a need, and keeps its deadline until it has passed otherwise. -/
theorem renewClaim_eq (k : Claim) : (HasNeed s i → ClaimDerived s i (renewClaim s (s.ap i) k)) ∧
    (¬ HasNeed s i → renewClaim s (s.ap i) k = { k with deadline := k.deadline.filter fun d => s.ds < d }) := by
  unfold renewClaim
  refine ⟨fun need => ?_, fun no => ?_⟩
  · obtain ⟨c, hc⟩ := Option.isSome_iff_exists.1 ((firstCause_isSome i s).2 need)
    rw [hc]
    exact claimDerived_of_firstCause (firstCause_eq_some hc)
  · rw [firstCause_eq_none.2 no]
    obtain ⟨c, _ | d⟩ := k
    · rfl
    · dsimp only
      by_cases past : d ≤ s.ds
      · rw [if_pos past, Option.filter_some_neg (by simpa using past)]
      · rw [if_neg past, Option.filter_some_pos (by simpa using past)]

end Sys2Proof.Machine

end

