-- ==== Sys2Proof/Proofs/ExposureUpdates.lean ====
section
/-! PROOFS. The stages of an exposure update, and what it leaves of each aperture (R75, R76, R81 to R83). -/

namespace Sys2Proof.Machine

open Sys2Proof

variable {i j : ApId} {s t u v c : State} {k : Claim} {l : List ApId} {x : Slot} {d : OrderClass} {p : Port} {w : Weather}
  {ps : List Port} {n : Notice}

/-! ### The notices of a claim (R32) -/

/-- A notice joined the queues as they stood in any state with the same ports. -/
theorem NoticeQueued.since (ports : v.ports = s.ports) (h : NoticeQueued ps n v t) : NoticeQueued ps n s t := by
  intro q mem room
  rw [show s.port q = v.port q by rw [State.port, State.port, ports]]
  exact h q mem room

/-- The cancellation of an opening slot is announced to the port that posted it (R32). -/
theorem cancelOpening_queued (held : (s.ap i).slate.get d = some x) (opening : x.target.opening = true)
    (origin : x.origin = .port p) :
    NoticeQueued [p] ⟨s.sec, .orderCancelled i d x.target .weather⟩ s (cancelOpening i d s) := by
  rw [cancelOpening, held]; dsimp only
  rw [if_pos opening, origin]
  exact notify_queued (s := putSlot i d none s) [p] (List.nodup_singleton p) _

/-- A claim announces what it cancels (R32). -/
theorem postClaim_queued (cls : d = .supervisory ∨ d = .room) (held : (s.ap i).slate.get d = some x)
    (opening : x.target.opening = true) (origin : x.origin = .port p) :
    NoticeQueued [p] ⟨s.sec, .orderCancelled i d x.target .weather⟩ s (postClaim i k s) := by
  unfold postClaim; dsimp only
  generalize hv : State.modAp _ i _ = v
  have ports : v.ports = s.ports := by rw [← hv]; rfl
  have sec : v.sec = s.sec := by rw [← hv]; rfl
  have slate : (v.ap i).slate = (s.ap i).slate.put .weather (some ⟨.pos 0, .weather, s.ds, none⟩) := by
    rw [← hv, putSlot, State.ap_modAp_self, State.ap_modAp_self]
  rw [← sec]
  refine NoticeQueued.since ports (NoticeQueued.kept ?_ (resolve_frame i _))
  rcases cls with rfl | rfl
  · exact (cancelOpening_queued (by rw [slate]; exact held) opening origin).kept (cancelOpening_frame i _ .room)
  · have f := cancelOpening_frame i v .supervisory
    have h := cancelOpening_queued (s := cancelOpening i .supervisory v) (i := i) (d := .room) (x := x) (p := p)
      (by
        rw [cancelOpening_ap]
        split
        · rw [slate]; exact held
        · rw [slate]; exact held) opening origin
    rw [f.sec] at h
    exact h.behind f.ports

/-! ### The claims of an exposure update, each aperture in its turn (R81, R82) -/

/-- What the claims posted between `s` and `u` made of aperture `i`. -/
structure Claimed (i : ApId) (s u : State) : Prop where
  stands : ¬ ClaimDue s i → u.ap i = s.ap i
  slate  : ClaimDue s i → (u.ap i).slate = claimedSlate s (s.ap i).slate
  claim  : ClaimDue s i → ∃ k, (u.ap i).claim = some k ∧ ClaimDerived s i k
  told   : ClaimDue s i → ∀ d x p, (d = .supervisory ∨ d = .room) → (s.ap i).slate.get d = some x →
    x.target.opening = true → x.origin = .port p →
    NoticeQueued [p] ⟨s.sec, .orderCancelled i d x.target .weather⟩ s u

theorem Frame.guardLead {f : Aperture → Aperture} (h : Frame f s t) : t.sup.guardLead = s.sup.guardLead := by rw [h.sup]

theorem claimedSlate_frame {f : Aperture → Aperture} (h : Frame f s t) (y : Slate) : claimedSlate t y = claimedSlate s y := by
  rw [claimedSlate, claimedSlate, h.ds]

theorem Turn.claimed (turn : Turn claimOn i s v t) : Claimed i s t := by
  have same := turn.before.sameCauses i
  have due : ClaimDue v i ↔ ClaimDue s i := by rw [ClaimDue, ClaimDue, turn.left, same.hasNeed]
  refine ⟨fun h => ?_, fun h => ?_, fun h => ?_, fun h d x p cls held opening origin => ?_⟩
  · rw [turn.right.ap, claimOn_stands (mt due.1 h), turn.left]
  all_goals obtain ⟨c, first, on⟩ := claimOn_due (due.2 h)
  · rw [turn.right.ap, on, (postClaim_reorders i _ v).slate.1, turn.left, claimedSlate_frame turn.before]
  · refine ⟨⟨c, claimDeadline v c⟩, by rw [turn.right.ap, on, (postClaim_reorders i _ v).slate.2], ?_⟩
    exact (claimDerived_of_firstCause first).congr
      ⟨same.fe.symm, same.fix.symm, same.fig.symm, same.advisory.symm⟩ turn.before.guardLead.symm turn.before.ds.symm
  · have q := postClaim_queued (k := ⟨c, claimDeadline v c⟩) cls (by rw [turn.left]; exact held) opening origin
    rw [turn.before.sec, ← on] at q
    exact (q.kept turn.after).behind turn.before.ports

/-- Every aperture has its turn where claims are posted. -/
theorem claims_posted (s : State) : ∃ v, allAps.foldl claimOn s = v ∧ Frame Aperture.stands s v ∧ (∀ i, Passed i s v) ∧
    ∀ i, Claimed i s v := by
  refine ⟨_, rfl, Frame.foldl (fun s i => (claimOn_mayReorder s i).frame) _ _,
    foldl_passed claimOn_mayReorder allAps_nodup s, fun i => ?_⟩
  obtain ⟨v, turn⟩ := foldl_turn claimOn_mayReorder allAps_nodup (mem_allAps i) s
  exact turn.claimed

/-! ### What an exposure update leaves (R75, R76, R81 to R83) -/

/-- Figures and claims formed anew before and after are no part of what orders did to a motion. -/
theorem Passed.courses (h : Passed j u v) (left : (u.ap j).course = (s.ap j).course)
    (right : (t.ap j).course = (v.ap j).course) (link : t.link = v.link) : Passed j s t where
  told := by
    obtain ⟨stl, mol, -⟩ := course_fields left
    obtain ⟨str, mor, -⟩ := course_fields right
    refine ⟨fun d st => ?_, fun d m n hm hn ne => ?_⟩
    · rw [link]
      exact h.told.halt (by rw [stl]; exact d) (str.symm.trans st)
    · rw [link]
      exact h.told.move (by rw [stl]; exact d) m n (mol.trans hm) (mor.symm.trans hn) ne
  record := by
    rw [right, ← left]
    exact h.record

/-- `u` is what the exposure update of `c` leaves. -/
structure Updated (c u : State) : Prop where
  frame    : Frame Aperture.stands { c with sup := u.sup } u
  passed   : ∀ i, Passed i c u
  sup      : ∃ n q x r, u.sup =
    { (setWeather (nextWeather c) c).sup with needs := n, queue := q, changeCount := x, trigger := r }
  stands   : ∀ i, ¬ (nextWeather c = .active ∧ ClaimDue c i) → (u.ap i).slate = (c.ap i).slate
  slate    : nextWeather c = .active → ∀ i, ClaimDue c i → (u.ap i).slate = claimedSlate c (c.ap i).slate
  claim    : nextWeather c = .active → ∀ i, ClaimDue c i → ∃ k, (u.ap i).claim = some k ∧ ClaimDerived c i k
  told     : nextWeather c = .active → ∀ i, ClaimDue c i → ∀ d x p, (d = .supervisory ∨ d = .room) →
    (c.ap i).slate.get d = some x → x.target.opening = true → x.origin = .port p →
    NoticeQueued [p] ⟨c.sec, .orderCancelled i d x.target .weather⟩ c u
  renewed  : ∀ i k, (c.ap i).slate.weather.isSome → (c.ap i).claim = some k → ∃ k', (u.ap i).claim = some k' ∧
    (HasNeed c i → ClaimDerived c i k') ∧
    (¬ HasNeed c i → k' = { k with deadline := k.deadline.filter fun d => c.ds < d })
  notice   : nextWeather c ≠ c.sup.weather → nextWeather c ≠ .active → NoticeQueued [.S, .L, .K]
    ⟨c.sec, .weatherState c.sup.weather (nextWeather c) u.claims ⟨false, false, false, false⟩⟩ c u

/-- A claim renewed is no part of what orders did to a motion. -/
theorem renewClaims_course (l : List ApId) (nd : l.Nodup) (s : State) (j : ApId) :
    ((renewClaims l s).ap j).course = (s.ap j).course := by
  rw [renewClaims_ap l nd s j]
  split <;> rfl

/-- Renewal of claims rewrites records alone. -/
theorem renewClaims_rest (l : List ApId) (s : State) : ∃ x, renewClaims l s = { s with aps := x } := by
  unfold renewClaims
  generalize s = w at *
  suffices h : ∀ (l : List ApId) (v : State), (∃ x, v = { w with aps := x }) →
      ∃ x, l.foldl (fun s' i => s'.modAp i fun a => { a with claim := a.claim.map (renewClaim w a) }) v =
        { w with aps := x } from h l w ⟨w.aps, rfl⟩
  intro l
  induction l with
  | nil => exact fun v h => h
  | cons i is ih => rintro v ⟨x, rfl⟩; exact ih _ ⟨_, rfl⟩

/-- The Trigger Record of an entry to ACTIVE is written, and nothing else (R83). -/
theorem recordTrigger_rest (q : Prop) [Decidable q] (r : Trigger) (s : State) :
    ∃ x, (if q then { s with sup := { s.sup with trigger := some r } } else s) =
      { s with sup := { s.sup with trigger := x } } := by
  split
  · exact ⟨_, rfl⟩
  · exact ⟨s.sup.trigger, rfl⟩

/-- The claims are posted in ACTIVE alone (R81). -/
theorem claims_posted_if (active : Prop) [Decidable active] (s : State) :
    ∃ v, (if active then allAps.foldl claimOn s else s) = v ∧ Frame Aperture.stands s v ∧ (∀ i, Passed i s v) ∧
      (active → ∀ i, Claimed i s v) ∧ (¬ active → v = s) := by
  by_cases h : active
  · obtain ⟨v, e, f, passed, claimed⟩ := claims_posted s
    exact ⟨v, (if_pos h).trans e, f, passed, fun _ => claimed, fun n => absurd h n⟩
  · exact ⟨s, if_neg h, Frame.refl _ s, fun i => .stands rfl, fun a => absurd a h, fun _ => rfl⟩

/-- The state after the judgement of an exposure update (R75, R76). -/
def judgeWeather (c : State) : State := setWeather (nextWeather c) { c with sup := { c.sup with needs := c.needCount } }

/-- The claims that stand at an exposure update. -/
def standingClaims (c : State) : List ApId := allAps.filter fun i => (c.ap i).slate.weather.isSome

/-- The stages of an exposure update: judgement, claims, renewal, then what reaches neither apertures nor lists. -/
theorem exposureUpdate_stages (c : State) : ∃ v : State, Frame Aperture.stands (judgeWeather c) v ∧
    (∀ i, Passed i (judgeWeather c) v) ∧ (nextWeather c = .active → ∀ i, Claimed i (judgeWeather c) v) ∧
    (nextWeather c ≠ .active → v = judgeWeather c) ∧
    ∃ (a : Vector Aperture 48) (q : List Entry) (r : Option Trigger), renewClaims (standingClaims c) v = { v with aps := a } ∧
      exposureUpdate c = announceWeather c.sup.weather (nextWeather c)
        { v with aps := a, sup := { v.sup with queue := q, trigger := r } } := by
  obtain ⟨v, e, f, passed, claimed, stands⟩ := claims_posted_if (nextWeather c = .active) (judgeWeather c)
  obtain ⟨a, renewed⟩ := renewClaims_rest (standingClaims c) v
  obtain ⟨r, recorded⟩ := recordTrigger_rest (nextWeather c = .active ∧ c.sup.weather ≠ .active)
    (triggerRecord (resortQueue (renewClaims (standingClaims c) v))) (resortQueue (renewClaims (standingClaims c) v))
  refine ⟨v, f, passed, claimed, stands, a, (resortQueue (renewClaims (standingClaims c) v)).sup.queue, r, renewed, ?_⟩
  unfold exposureUpdate; dsimp only
  rw [← judgeWeather, e, ← standingClaims, recorded, renewed]
  rfl

theorem mem_standingClaims : i ∈ standingClaims c ↔ (c.ap i).slate.weather.isSome = true := by
  simp [standingClaims, mem_allAps]

theorem standingClaims_nodup (c : State) : (standingClaims c).Nodup := allAps_nodup.filter _

theorem noticeCauses_of_ne (h : w ≠ .active) (s : State) : noticeCauses w s = ⟨false, false, false, false⟩ := by
  cases w with
  | active => exact absurd rfl h
  | clear | watch | holding => rfl

theorem exposureUpdate_updated (c : State) : Updated c (exposureUpdate c) := by
  have frame := exposureUpdate_frame c
  obtain ⟨v, f, passed, claimed, stands, a, q, r, renewed, e⟩ := exposureUpdate_stages c
  generalize exposureUpdate c = u at e frame
  generalize hz : ({ v with aps := a, sup := { v.sup with queue := q, trigger := r } } : State) = z at e
  obtain ⟨x, rest⟩ := announceWeather_rest c.sup.weather (nextWeather c) z
  rw [← e] at rest
  have z_ap (i : ApId) : z.ap i = (renewClaims (standingClaims c) v).ap i := by rw [renewed, ← hz]; rfl
  have ap (i : ApId) : u.ap i = (renewClaims (standingClaims c) v).ap i := by rw [← z_ap, rest]; rfl
  have renewal := renewClaims_ap (standingClaims c) (standingClaims_nodup c) v
  have slate (i : ApId) : (u.ap i).slate = (v.ap i).slate := by rw [ap, renewClaims_slate]
  have still (i : ApId) (h : ¬ (nextWeather c = .active ∧ ClaimDue c i)) : v.ap i = c.ap i := by
    by_cases active : nextWeather c = .active
    · exact (claimed active i).stands fun due => h ⟨active, due⟩
    · rw [stands active]; rfl
  have sup : u.sup = { v.sup with queue := q, trigger := r } := by rw [rest, ← hz]
  refine ⟨frame, fun i => ?_, ⟨c.needCount, q, v.sup.changeCount, r, ?_⟩, fun i h => ?_, fun active i due => ?_,
    fun active i due => ?_, fun active i due d x p cls held opening origin => ?_, fun i k there held => ?_,
    fun changed other => ?_⟩
  · refine (passed i).courses rfl ?_ ?_
    · rw [ap, renewClaims_course _ (standingClaims_nodup c)]
    · rw [rest, ← hz]
  · rw [sup, f.sup]; rfl
  · rw [slate, still i h]
  · rw [slate, (claimed active i).slate due]; rfl
  · obtain ⟨k, hk, derived⟩ := (claimed active i).claim due
    refine ⟨k, ?_, derived⟩
    rw [ap, renewal, if_neg, hk]
    rw [mem_standingClaims, due.2.1]; exact Bool.false_ne_true
  · have queued := (claimed active i).told due d x p cls held opening origin
    rw [e]
    refine NoticeQueued.kept (k := id) (t := z) ?_ (announceWeather_frame z _ _)
    rw [← hz]
    exact queued
  · have stood := still i fun due => by rw [due.2.2.1] at there; cases there
    have same := f.sameCauses i
    have back : SameCauses i v c := ⟨same.fe.symm, same.fix.symm, same.fig.symm, same.advisory.symm⟩
    obtain ⟨need, none⟩ := renewClaim_eq (s := v) (i := i) k
    refine ⟨renewClaim v (v.ap i) k, ?_, fun h => (need (back.hasNeed.1 h)).congr back f.guardLead.symm f.ds.symm,
      fun h => ?_⟩
    · rw [ap, renewal, if_pos (mem_standingClaims.2 there), stood, held]; rfl
    · rw [none (mt back.hasNeed.2 h), f.ds]; rfl
  · have queued := announceWeather_queued (Ne.symm changed) z
    have claims : z.claims = u.claims := by rw [rest]; rfl
    have sec : z.sec = c.sec := by rw [← hz]; exact f.sec
    rw [noticeCauses_of_ne other, claims, sec, ← e] at queued
    refine NoticeQueued.behind queued fun p => ?_
    rw [← hz]
    exact f.ports p

end Sys2Proof.Machine

end

