-- ==== Sys2Proof/Proofs/WeatherJudgements.lean ====
section
/-! PROOFS. The judgement of the weather state, and an exposure update whose event has ended (R73 to R82). -/

namespace Sys2Proof.Machine

open Sys2Proof

variable {i j : ApId} {s t t' u v w c : State} {p : Port} {k : RequestKind} {body : List Byte} {z : Reply}
  {old next : Weather} {d : Option Advisory}

/-! ### The judgement of the weather state (R73 to R76) -/

/-- There is a closure need, or a condition of the precaution set (R75). -/
def Alert (s : State) : Prop := (∃ i, (s.ap i).present ∧ HasNeed s i) ∨ s.fe.precaution ≠ Cond.none

/-- The stand-down test (R74). -/
def StandsDown (s : State) : Prop :=
  s.fe.wet = false ∧ s.fe.word.live.rainSensor = false ∧
    (∀ i, (s.ap i).present → (s.ap i).fig.standing = .unlimited ∨ (s.ap i).fig.standing = .clear) ∧
    (∀ i, (s.ap i).present → ¬ HasCause s i .advisory) ∧ s.fe.precaution = Cond.none

theorem someAp_eq_true {f : Aperture → Bool} : s.someAp f = true ↔ ∃ i, (s.ap i).present ∧ f (s.ap i) = true := by
  simp [State.someAp, mem_allAps]

theorem someAp_eq_false {f : Aperture → Bool} : s.someAp f = false ↔ ∀ i, (s.ap i).present → f (s.ap i) = false := by
  rw [← Bool.not_eq_true, someAp_eq_true]
  simp

theorem alert_iff : (s.someAp (fun a => (firstCause s a).isSome) || s.fe.precaution.any) = true ↔ Alert s := by
  rw [Bool.or_eq_true, someAp_eq_true, Cond.any_eq_true, Alert]
  exact or_congr (exists_congr fun i => and_congr_right fun _ => firstCause_isSome i s) Iff.rfl

theorem Cond.any_eq_false (c : Cond) : c.any = false ↔ c = Cond.none := by
  rw [← Bool.not_eq_true, Cond.any_eq_true, not_not]

theorem standing_cases (x : Standing) :
    (decide (x = .need) || decide (x = .band)) = false ↔ x = .unlimited ∨ x = .clear := by
  cases x <;> decide

theorem standDown_iff : standDown s = true ↔ StandsDown s := by
  have cause (i : ApId) : hasCause s (s.ap i) .advisory = false ↔ ¬ HasCause s i .advisory := by
    rw [← hasCause_eq_true, Bool.not_eq_true]
  simp only [standDown, StandsDown, Bool.and_eq_true, Bool.not_eq_true', someAp_eq_false, standing_cases, cause,
    Cond.any_eq_false, and_assoc]

/-- The judgement of `s` takes the weather state from `old` to `next` (R75). -/
def JudgedTo (s : State) (old next : Weather) : Prop :=
  let high := s.sup.watchGust ≤ s.fe.gust
  let low := s.fe.gust < s.sup.watchGust * 3 / 4
  let held := s.sup.advisory.isSome = true
  (old = .clear → (Alert s → next = .active) ∧ (¬ Alert s → high ∨ held → next = .watch) ∧
    (¬ Alert s → ¬ (high ∨ held) → next = .clear)) ∧
  (old = .watch → (Alert s → next = .active) ∧ (¬ Alert s → low ∧ ¬ held → next = .clear) ∧
    (¬ Alert s → ¬ (low ∧ ¬ held) → next = .watch)) ∧
  (old = .active → (StandsDown s → next = .holding) ∧ (¬ StandsDown s → next = .active)) ∧
  (old = .holding → (Alert s → next = .active) ∧ (¬ Alert s → next = .holding))

theorem nextWeather_judged (s : State) : JudgedTo s s.sup.weather (nextWeather s) := by
  have high : (decide (s.sup.watchGust ≤ s.fe.gust) || s.sup.advisory.isSome) = true ↔
      s.sup.watchGust ≤ s.fe.gust ∨ s.sup.advisory.isSome = true := by rw [Bool.or_eq_true, decide_eq_true_eq]
  have low : (decide (s.fe.gust < s.sup.watchGust * 3 / 4) && !s.sup.advisory.isSome) = true ↔
      s.fe.gust < s.sup.watchGust * 3 / 4 ∧ ¬ s.sup.advisory.isSome = true := by
    rw [Bool.and_eq_true, decide_eq_true_eq, Bool.not_eq_true', Bool.not_eq_true]
  have alert (a : Alert s) := alert_iff.2 a
  have calm (a : ¬ Alert s) := mt alert_iff.1 a
  unfold JudgedTo nextWeather
  refine ⟨fun h => ?_, fun h => ?_, fun h => ?_, fun h => ?_⟩ <;> rw [h]
  · refine ⟨fun a => if_pos (alert a), fun a b => ?_, fun a b => ?_⟩
    · exact (if_neg (calm a)).trans (if_pos (high.2 b))
    · exact (if_neg (calm a)).trans (if_neg (mt high.1 b))
  · refine ⟨fun a => if_pos (alert a), fun a b => ?_, fun a b => ?_⟩
    · exact (if_neg (calm a)).trans (if_pos (low.2 b))
    · exact (if_neg (calm a)).trans (if_neg (mt low.1 b))
  · exact ⟨fun a => if_pos (standDown_iff.2 a), fun a => if_neg (mt standDown_iff.1 a)⟩
  · exact ⟨fun a => if_pos (alert a), fun a => if_neg (calm a)⟩

theorem Alert.congr (same : ∀ i, SameCauses i s t) (present : ∀ i, (t.ap i).present = (s.ap i).present) :
    Alert t ↔ Alert s := by
  simp only [Alert, (same 0).fe, present, (same _).hasNeed]

theorem StandsDown.congr (same : ∀ i, SameCauses i s t) (present : ∀ i, (t.ap i).present = (s.ap i).present) :
    StandsDown t ↔ StandsDown s := by
  simp only [StandsDown, (same 0).fe, present, (same _).hasCause, (same _).fig]

theorem JudgedTo.congr (same : ∀ i, SameCauses i s t) (present : ∀ i, (t.ap i).present = (s.ap i).present)
    (gust : t.sup.watchGust = s.sup.watchGust) (h : JudgedTo s old next) : JudgedTo t old next := by
  simp only [JudgedTo, Alert.congr same present, StandsDown.congr same present, gust, (same 0).fe, (same 0).advisory]
  exact h

/-! ### An exposure update whose event has ended -/

/-- The supervisor's record when the event of an exposure update has ended. -/
theorem Updated.sup_ended (h : Updated c u) (e : Ended u t) : ∃ n q x r, t.sup =
    { (setWeather (nextWeather c) c).sup with needs := n, queue := q, changeCount := x, trigger := r } := by
  obtain ⟨n, q, x, r, sup⟩ := h.sup
  exact ⟨n, t.sup.queue, t.sup.changeCount, r, by rw [e.frame.sup, sup]⟩

theorem Updated.frame_ended (h : Updated c u) (e : Ended u t) : Frame Aperture.stands { c with sup := t.sup } t :=
  Frame.exceptSup_trans h.frame (e.frame.mono keep_stands).exceptSup

theorem Updated.sameCauses (h : Updated c u) (e : Ended u t) (i : ApId) : SameCauses i c t := by
  have f := h.frame_ended e
  obtain ⟨fix, -, -, -, fig⟩ := stands_fields (f.aps i)
  obtain ⟨n, q, x, r, sup⟩ := h.sup_ended e
  exact ⟨f.fe, fix, fig, by rw [sup]; rfl⟩

theorem Updated.present (h : Updated c u) (e : Ended u t) (i : ApId) : (t.ap i).present = (c.ap i).present :=
  (e.present i).trans (h.passed i).present

theorem Updated.weather (h : Updated c u) (e : Ended u t) : t.sup.weather = nextWeather c := by
  obtain ⟨n, q, x, r, sup⟩ := h.sup_ended e
  rw [sup]; rfl

theorem setWeather_holdTimer_active (h : s.sup.weather = .active) :
    (setWeather .holding s).sup.holdTimer = some (s.sec + s.sup.holdTime) := by
  unfold setWeather; rw [h]

theorem setWeather_holdTimer_holding (h : s.sup.weather = .holding) :
    (setWeather .holding s).sup.holdTimer = s.sup.holdTimer := by
  unfold setWeather; rw [h]

theorem setWeather_holdTimer_ne (h : next ≠ .holding) (s : State) : (setWeather next s).sup.holdTimer = none := by
  unfold setWeather
  cases next with
  | holding => exact absurd rfl h
  | clear | watch | active => cases s.sup.weather <;> rfl

theorem Updated.weatherJudged (h : Updated c u) (e : Ended u t) : WeatherJudged c t := by
  have f := h.frame_ended e
  have weather := h.weather e
  obtain ⟨n, q, x, r, sup⟩ := h.sup_ended e
  have judged : JudgedTo t c.sup.weather t.sup.weather := by
    rw [weather]
    exact (nextWeather_judged c).congr (h.sameCauses e) (h.present e) (by rw [sup]; rfl)
  obtain ⟨clear, watch, active, holding⟩ := judged
  have timer : t.sup.holdTimer = (setWeather t.sup.weather c).sup.holdTimer := by rw [weather, sup]
  refine ⟨clear, watch, fun st => ⟨fun down => ?_, (active st).2⟩, fun st => ⟨(holding st).1, fun calm => ?_⟩,
    fun ne => ?_, fun changed other => ?_⟩
  · have held := (active st).1 down
    refine ⟨held, ?_⟩
    rw [timer, held, setWeather_holdTimer_active st, sup]
    exact congrArg (fun x => some (x + c.sup.holdTime)) f.sec.symm
  · have held := (holding st).2 calm
    exact ⟨held, by rw [timer, held, setWeather_holdTimer_holding st]⟩
  · rw [timer, setWeather_holdTimer_ne ne]
  · rw [weather] at changed other
    have claims : t.claims = u.claims := countAps_eq e.present fun i => by rw [(keep_fields (e.frame.aps i)).2.2.1]
    have queued := (h.notice changed other).kept e.frame
    rw [weather, claims, show t.sec = c.sec from f.sec]
    exact queued

theorem Updated.claimsFollowNeeds (h : Updated c u) (e : Ended u t) : ClaimsFollowNeeds c t := by
  have f := h.frame_ended e
  obtain ⟨n, q, x, r, sup⟩ := h.sup_ended e
  intro i
  have same := h.sameCauses e i
  obtain ⟨-, -, slate, -, -, claim, -⟩ := keep_fields (e.frame.aps i)
  have derived {k : Claim} (g : ClaimDerived c i k) : ClaimDerived t i k := g.congr same (by rw [sup]; rfl) f.ds
  dsimp only
  rw [slate, claim, h.weather e, same.hasNeed]
  refine ⟨h.stands i, fun ⟨active, due⟩ => ⟨?_, ?_, fun y p held opening origin => ?_, fun y p held opening origin => ?_⟩,
    fun k there stands held => ?_⟩
  · rw [h.slate active i due, claimedSlate, claimedSlate, show t.ds = c.ds from f.ds]
  · obtain ⟨k, hk, g⟩ := h.claim active i due
    exact ⟨k, hk, derived g⟩
  · rw [show t.sec = c.sec from f.sec]
    exact (h.told active i due .supervisory y p (.inl rfl) held opening origin).kept e.frame
  · rw [show t.sec = c.sec from f.sec]
    exact (h.told active i due .room y p (.inr rfl) held opening origin).kept e.frame
  · obtain ⟨k', hk', need, none⟩ := h.renewed i k stands held
    refine ⟨fun g => ⟨k', hk', derived (need g)⟩, fun g => ?_⟩
    rw [hk', none g, show t.ds = c.ds from f.ds]

end Sys2Proof.Machine

end

