-- ==== Sys2Proof/Proofs/Advisories.lean ====
section
/-! PROOFS. Second boundaries and changes of the advisory record: O21 and O28. -/

namespace Sys2Proof.Machine

open Sys2Proof

variable {i : ApId} {s t t' u v w c : State} {p : Port} {k : RequestKind} {body : List Byte} {z : Reply}
  {d : Option Advisory} {vane : Byte} {rain rainok : Bool}

/-! ### Computations and closure needs (R61, R62, R74, R80, R81) -/

/-- A computation stands out of everything but the figures and G_adv (R68). -/
theorem compute_fields (i : ApId) (s : State) : ((compute s).ap i).present = (s.ap i).present ∧
    ((compute s).ap i).slate = (s.ap i).slate ∧ ((compute s).ap i).claim = (s.ap i).claim ∧
    ((compute s).ap i).course = (s.ap i).course ∧ ((compute s).ap i).position = (s.ap i).position ∧
    ((compute s).ap i).fix = (s.ap i).fix := by
  rw [compute_ap]
  split <;> exact ⟨rfl, rfl, rfl, rfl, rfl, rfl⟩

theorem compute_fig (there : (s.ap i).present = true) :
    ((compute s).ap i).fig = figures s.fe (gAdv s) ((compute s).ap i).fix := by
  rw [compute_ap, if_pos there]

/-- No closure need passes the stand-down test (R74). -/
theorem StandsDown.no_need (h : StandsDown s) (there : (s.ap i).present = true) : ¬ HasNeed s i := by
  obtain ⟨dry, -, standing, noAdvisory, noPrecaution⟩ := h
  rintro ⟨c, has⟩
  cases c with
  | rain => exact absurd (has.1.symm.trans dry) (by decide)
  | wind =>
    have need : (s.ap i).fig.standing = .need := has
    rcases standing i there with e | e <;> rw [need] at e <;> cases e
  | sensor => exact has.1 noPrecaution
  | advisory => exact noAdvisory i there has

/-- A closure need takes every weather state to ACTIVE (R75). -/
theorem JudgedTo.active_of_need {old next : Weather} (h : JudgedTo s old next) (there : (s.ap i).present = true)
    (need : HasNeed s i) : next = .active := by
  have alert : Alert s := .inl ⟨i, there, need⟩
  obtain ⟨clear, watch, active, holding⟩ := h
  cases e : old with
  | clear => exact (clear e).1 alert
  | watch => exact (watch e).1 alert
  | active => exact (active e).2 fun down => down.no_need there need
  | holding => exact (holding e).1 alert

/-- Every closure need is claimed when the event of the update has ended (R80, R81). -/
theorem Updated.need_claimed (h : Updated c u) (e : Ended u t) (there : (c.ap i).present = true) (need : HasNeed t i) :
    (t.ap i).slate.weather.isSome ∧ t.sup.weather = .active := by
  have need := (h.sameCauses e i).hasNeed.1 need
  have active := (nextWeather_judged c).active_of_need there need
  refine ⟨?_, (h.weather e).trans active⟩
  rw [(keep_fields (e.frame.aps i)).2.2.1]
  by_cases due : ClaimDue c i
  · rw [h.slate active i due]; rfl
  · rw [h.stands i fun g => due g.2, Option.isSome_iff_ne_none]
    exact fun free => due ⟨there, free, need⟩

/-- A WEATHER slot stands through an exposure update, and a LIFE slot in any case (R32, R81). -/
theorem Updated.slots_stand (h : Updated c u) (e : Ended u t) (i : ApId) :
    ((c.ap i).slate.weather.isSome → (t.ap i).slate.weather.isSome) ∧
      (t.ap i).slate.life = (c.ap i).slate.life := by
  rw [(keep_fields (e.frame.aps i)).2.2.1]
  by_cases due : nextWeather c = .active ∧ ClaimDue c i
  · rw [h.slate due.1 i due.2]; exact ⟨fun _ => rfl, rfl⟩
  · rw [h.stands i due]; exact ⟨id, rfl⟩

/-! ### A second boundary (R44) -/

/-- The stages of a second boundary write the clock, the pins, the front end and notices. -/
theorem frontEndStages_rest (s : State) : ∃ clock pins fe ports, frontEndStages vane rain rainok
    (beginBoundary vane rain rainok s) = { s with clock := clock, pins := pins, fe := fe, ports := ports } := by
  unfold frontEndStages; dsimp only
  split
  · obtain ⟨x, h⟩ := State.notify_rest (s := { beginBoundary vane rain rainok s with
      fe := conditionStage (measure vane.toNat rain rainok (beginBoundary vane rain rainok s).fe) }) [.S]
      (.sensorCondition (conditionStage (measure vane.toNat rain rainok (beginBoundary vane rain rainok s).fe)).word
        (stickyRises (measure vane.toNat rain rainok (beginBoundary vane rain rainok s).fe).word) true)
    exact ⟨_, _, _, x, h⟩
  · exact ⟨_, _, _, _, rfl⟩

theorem gustUpdate_updates (s : State) : ∃ v, v.aps = s.aps ∧ Updated (compute v) (gustUpdate s) :=
  ⟨{ s with sup := { s.sup with computed := true, gustWord := s.fe.word } }, rfl, exposureUpdate_updated _⟩

/-- What a second boundary computes, hands on as an update and ends. -/
theorem secondBoundary_updates (vane : Byte) (rain rainok : Bool) (s : State) :
    ∃ v u t, exec (.secondBoundary vane rain rainok) s = .next t ∧ v.aps = s.aps ∧ Updated (compute v) u ∧ Ended u t := by
  obtain ⟨clock, pins, fe, ports, stages⟩ := frontEndStages_rest (vane := vane) (rain := rain) (rainok := rainok) s
  obtain ⟨v, aps, h⟩ := gustUpdate_updates (frontEndStages vane rain rainok (beginBoundary vane rain rainok s))
  rw [stages] at aps
  exact ⟨v, _, _, rfl, aps, h, finish_ended true s _⟩

/-- Orders handed on from a computation on are handed on from the state whose apertures it covered. -/
theorem Passed.computed (h : Passed i (compute v) u) (aps : v.aps = s.aps) : Passed i s u :=
  h.courses ((compute_fields i v).2.2.2.1.trans (by rw [State.ap_of_aps aps])) rfl rfl

/-! ### A change of the advisory record (R68, R69, R78, R79) -/

/-- The judgement of the weather state depends on what stood before by weather state, hold timer and notices. -/
theorem WeatherJudged.moved (h : WeatherJudged c t) (weather : c.sup.weather = s.sup.weather)
    (hold : c.sup.holdTimer = s.sup.holdTimer) (rest : ∃ x, t' = { t with ports := x })
    (queued : ∀ ps n, NoticeQueued ps n c t → NoticeQueued ps n s t') : WeatherJudged s t' := by
  obtain ⟨x, rfl⟩ := rest
  obtain ⟨clear, watch, active, holding, stopped, notice⟩ := h
  rw [weather] at clear watch active holding notice
  rw [hold] at holding
  exact ⟨clear, watch, active, holding, stopped, fun changed other => queued _ _ (notice changed other)⟩

/-- The claims depend on what stood before by installation, slates, claims and notices. -/
theorem ClaimsFollowNeeds.moved (h : ClaimsFollowNeeds c t) (aps : ∀ i, (c.ap i).present = (s.ap i).present ∧
      (c.ap i).slate = (s.ap i).slate ∧ (c.ap i).claim = (s.ap i).claim) (rest : ∃ x, t' = { t with ports := x })
    (queued : ∀ ps n, NoticeQueued ps n c t → NoticeQueued ps n s t') : ClaimsFollowNeeds s t' := by
  obtain ⟨x, rfl⟩ := rest
  intro i
  obtain ⟨present, slate, claim⟩ := aps i
  obtain ⟨stands, claimed, renewed⟩ := h i
  dsimp only at stands claimed renewed ⊢
  rw [present, slate] at stands claimed renewed
  rw [claim] at renewed
  refine ⟨stands, fun g => ?_, renewed⟩
  obtain ⟨slate, derived, supervisory, room⟩ := claimed g
  exact ⟨slate, derived, fun y p a b e => queued _ _ (supervisory y p a b e), fun y p a b e => queued _ _ (room y p a b e)⟩

/-- Between `s` and `t` the advisory record became `d`, and the computation and update that follow were made. -/
structure AdvisoryChanged (d : Option Advisory) (s t : State) : Prop where
  advisory   : t.sup.advisory = d
  gust       : s.sup.computed = true → t.sup.advGust = d.map fun d => max s.fe.gust d.gust
  judged     : s.sup.computed = true → WeatherJudged s t
  claims     : s.sup.computed = true → ClaimsFollowNeeds s t
  uncomputed : s.sup.computed = false → t.sup.weather = s.sup.weather ∧ ∀ i, (t.ap i).slate = (s.ap i).slate
  weather    : ∀ i, (s.ap i).slate.weather.isSome → (t.ap i).slate.weather.isSome
  handed     : ∀ i, HandedOn i s t
  stands     : ∀ i, (t.ap i).slate.life = (s.ap i).slate.life ∧ (t.ap i).position = (s.ap i).position
  clock      : t.clock = s.clock
  fe         : t.fe = s.fe
  fire       : t.fire = s.fire
  store      : t.store = s.store
  ports      : ∀ p, PortKept (s.port p) (t.port p)

/-- After the first gust update the record's change is computed and handed on as an exposure update (R69). -/
theorem AdvisoryChanged.of_updated (computed : s.sup.computed = true)
    (h : Updated (compute { s with sup := { s.sup with advisory := d } }) u) (e : Ended u t) : AdvisoryChanged d s t := by
  have f := h.frame_ended e
  obtain ⟨n, q, x, r, sup⟩ := h.sup_ended e
  have fields (i : ApId) := compute_fields i { s with sup := { s.sup with advisory := d } }
  refine
    { advisory := by rw [sup]; rfl
      gust := fun _ => by rw [sup]; rfl
      judged := fun _ => (h.weatherJudged e).moved rfl rfl ⟨t.ports, rfl⟩ fun _ _ => id
      claims := fun _ => (h.claimsFollowNeeds e).moved (fun i => ?_) ⟨t.ports, rfl⟩ fun _ _ => id
      uncomputed := fun no => absurd (computed.symm.trans no) (by decide)
      weather := fun i there => (h.slots_stand e i).1 ?_
      handed := fun i => e.handedOn ((h.passed i).computed rfl)
      stands := fun i => ?_
      clock := f.clock, fe := f.fe, fire := f.fire, store := f.store, ports := f.ports }
  all_goals obtain ⟨present, slate, claim, -, position, -⟩ := fields i
  · exact ⟨present, slate, claim⟩
  · rw [slate]; exact there
  · exact ⟨(h.slots_stand e i).2.trans (congrArg Slate.life slate), (stands_fields (f.aps i)).2.1.trans position⟩

/-- Before the first gust update nothing follows the record's change (assumption log 24). -/
theorem AdvisoryChanged.of_uncomputed (uncomputed : s.sup.computed = false)
    (e : Ended { s with sup := { s.sup with advisory := d } } t) : AdvisoryChanged d s t := by
  have f := e.frame
  have no {q : Prop} (computed : s.sup.computed = true) : q := by rw [uncomputed] at computed; cases computed
  have slate (i : ApId) : (t.ap i).slate = (s.ap i).slate := (keep_fields (f.aps i)).2.2.1
  exact
    { advisory := f.advisory
      gust := no, judged := no, claims := no
      uncomputed := fun _ => ⟨by rw [f.sup], slate⟩
      weather := fun i there => by rw [slate]; exact there
      handed := fun i => e.handedOn (.stands rfl)
      stands := fun i => ⟨by rw [slate], (keep_fields (f.aps i)).2.1⟩
      clock := f.clock, fe := f.fe, fire := f.fire, store := f.store, ports := f.ports }

theorem changeAdvisory_changed (d : Option Advisory) (s : State) : AdvisoryChanged d s (changeAdvisory d s) := by
  have e := finish_ended s.sup.computed s (advisoryChanged { s with sup := { s.sup with advisory := d } })
  rw [changeAdvisory]
  cases computed : s.sup.computed with
  | true =>
    rw [computed, advisoryChanged, if_pos computed] at e
    rw [advisoryChanged, if_pos computed]
    exact .of_updated computed (exposureUpdate_updated _) e
  | false =>
    rw [computed, advisoryChanged, if_neg (by rw [computed]; exact Bool.false_ne_true)] at e
    rw [advisoryChanged, if_neg (by rw [computed]; exact Bool.false_ne_true)]
    exact .of_uncomputed computed e

/-- What O28 says of the update that follows a change of the advisory record, for a state with other port records. -/
theorem AdvisoryChanged.updated (h : AdvisoryChanged d s t) (rest : ∃ x, t' = { t with ports := x })
    (computed : w.sup.computed = s.sup.computed) (weather : s.sup.weather = w.sup.weather)
    (hold : s.sup.holdTimer = w.sup.holdTimer) (aps : s.aps = w.aps)
    (queued : ∀ ps n, NoticeQueued ps n s t → NoticeQueued ps n w t') :
    (w.sup.computed = true → WeatherJudged w t' ∧ ClaimsFollowNeeds w t') ∧
      (w.sup.computed = false → t'.sup.weather = w.sup.weather ∧ ∀ i, (t'.ap i).slate = (w.ap i).slate) := by
  have ap (i : ApId) := State.ap_of_aps aps i
  rw [computed, ← weather]
  refine ⟨fun c => ⟨(h.judged c).moved weather hold rest queued, (h.claims c).moved (fun i => ?_) rest queued⟩,
    fun c => ?_⟩
  · rw [ap]; exact ⟨rfl, rfl, rfl⟩
  · obtain ⟨x, rfl⟩ := rest
    obtain ⟨same, slates⟩ := h.uncomputed c
    exact ⟨same, fun i => by rw [← ap]; exact slates i⟩

/-! ### The requests that change the advisory record (R78, R79) -/

theorem advisoryExpiry_runs {d : Advisory} (h : s.sup.advisory = some d) :
    exec .advisoryExpiry s = .next (changeAdvisory none (s.advanceTo (d.expiry * 1000))) := by
  simp only [exec, execAdvisoryExpiry, h]

/-- The body of an ADVISORY. -/
def advisoryBody (offset gust : BitVec 16) (flags : Byte) : List Byte := wordBytes offset ++ wordBytes gust ++ [flags]

theorem advisoryBody_offset (offset gust : BitVec 16) (flags : Byte) :
    bodyAt2 (advisoryBody offset gust flags) 0 = offset.toNat := wordBytes_toNat offset

theorem advisoryBody_gust (offset gust : BitVec 16) (flags : Byte) :
    bodyAt2 (advisoryBody offset gust flags) 2 = gust.toNat := wordBytes_toNat gust

/-- The record that an ADVISORY of these fields leaves (R78). -/
def advisoryRecord (s : State) (offset gust : BitVec 16) (flags : Byte) : Advisory :=
  { arrival := s.sec + min 7200 offset.toNat, expiry := s.sec + min 7200 offset.toNat + 1800
    gust := min 600 gust.toNat, rain := flags.getLsbD 0 }

theorem advisoryOf_body (s : State) (offset gust : BitVec 16) (flags : Byte) :
    advisoryOf s (advisoryBody offset gust flags) = advisoryRecord s offset gust flags := by
  simp only [advisoryOf, advisoryBody_offset, advisoryBody_gust]; rfl

/-- A request that changes the advisory record is answered, with all that follows from the change. -/
theorem submit_advisory {c : ReplyCode} {y : List Byte} (ready : (s.port p).ready) (allowed : k.allowedOn p = true)
    (len : k.lengthOk body.length = true)
    (served : serve k p body (s.askedAt p k body) = answer c y (changeAdvisory d (s.askedAt p k body))) :
    ∃ t, submit p k.code body s = .next t ∧ t.sup.advisory = d ∧
      (s.sup.computed = true → t.sup.advGust = d.map fun d => max s.fe.gust d.gust) ∧
      (t.port p).holdsReply k.code (s.port p).nextHeader ⟨c, y, false⟩ ∧
      ((s.sup.computed = true → WeatherJudged s t ∧ ClaimsFollowNeeds s t) ∧
        (s.sup.computed = false → t.sup.weather = s.sup.weather ∧ ∀ i, (t.ap i).slate = (s.ap i).slate)) ∧
      (∀ i, (s.ap i).slate.weather.isSome → (t.ap i).slate.weather.isSome) ∧ (∀ i, HandedOn i s t) ∧
      (∀ i, (t.ap i).slate.life = (s.ap i).slate.life ∧ (t.ap i).position = (s.ap i).position) ∧
      t.clock = s.clock ∧ t.fe = s.fe ∧ t.fire = s.fire ∧ t.store = s.store := by
  have h := changeAdvisory_changed d (s.askedAt p k body)
  generalize changeAdvisory d (s.askedAt p k body) = v at h served
  obtain ⟨t, run, placed⟩ := submit_placed ready allowed len (h.ports p) served
  have updated := h.updated (w := s) placed.rest rfl rfl rfl rfl fun _ _ => placed.queued
  have handed (i : ApId) := placed.handedOn (h.handed i)
  have holds := placed.holds
  obtain ⟨x, rfl⟩ := placed.rest
  exact ⟨_, run, h.advisory, h.gust, holds, updated, h.weather, handed, h.stands, h.clock, h.fe, h.fire, h.store⟩

end Sys2Proof.Machine

open Sys2Proof Sys2Proof.Machine

/-- Settles O21: the figures are the computation's, and a need that the judgement sees is claimed in the update. -/
theorem everyClosureNeedIsClaimed : Obligations.EveryClosureNeedIsClaimed := by
  intro s vane rain rainok
  obtain ⟨v, u, t, run, aps, h, e⟩ := secondBoundary_updates vane rain rainok s
  have f := h.frame_ended e
  obtain ⟨n, q, x, r, sup⟩ := h.sup_ended e
  have advGust : t.sup.advGust = gAdv v := by rw [sup]; rfl
  have fe : t.fe = v.fe := f.fe
  refine ⟨t, run, ?_, fun i there => ?_⟩
  · rw [advGust, fe, sup]; rfl
  · rw [← State.ap_of_aps aps] at there
    have present : ((compute v).ap i).present = true := (compute_fields i v).1.trans there
    have fig : (t.ap i).fig = figures t.fe t.sup.advGust (t.ap i).fix := by
      obtain ⟨fix, -, -, -, fig⟩ := stands_fields (f.aps i)
      rw [fig, fix, advGust, fe]
      exact compute_fig there
    refine ⟨(h.present e i).trans present, fig, ?_, e.handedOn ((h.passed i).computed aps), h.need_claimed e present⟩
    dsimp only
    rw [fig]
    exact ⟨rfl, rfl, rfl⟩

/-- Settles O28: the change is computed and handed on, after the expiry at its due time and behind a request's reply. -/
theorem advisoriesAreRecordedAndRemoved : Obligations.AdvisoriesAreRecordedAndRemoved := by
  refine ⟨fun s => ⟨fun d held => ?_, fun ready free => ?_, fun ready held => ?_⟩, fun s offset gust flags ready => ?_⟩
  · have h := changeAdvisory_changed none (s.advanceTo (d.expiry * 1000))
    have run := advisoryExpiry_runs held
    generalize changeAdvisory none (s.advanceTo (d.expiry * 1000)) = t at h run
    exact ⟨t, run, congrArg Clock.ms h.clock, h.advisory, h.gust,
      h.updated (w := s) ⟨t.ports, rfl⟩ rfl rfl rfl rfl fun _ _ => id, h.weather, fun i => (h.handed i).advanced, h.stands,
      h.fe, h.fire, h.store, h.ports⟩
  · refine submit_answered (k := .advisoryCancel) ready rfl rfl ?_
    rw [serve, serveAdvisoryCancel, show (s.askedAt .S .advisoryCancel []).sup.advisory = none from free]; rfl
  · have served : serve .advisoryCancel .S [] (s.askedAt .S .advisoryCancel []) =
        answer .ok (eBool true) (changeAdvisory none (s.askedAt .S .advisoryCancel [])) := by
      rw [serve, serveAdvisoryCancel, show (s.askedAt .S .advisoryCancel []).sup.advisory.isSome = true from held]; rfl
    exact submit_advisory ready rfl rfl served
  · have served : serve .advisory .S (advisoryBody offset gust flags)
        (s.askedAt .S .advisory (advisoryBody offset gust flags)) =
        answer (okCode (decide (7200 < offset.toNat ∨ 600 < gust.toNat)))
          (e4 (s.sec + min 7200 offset.toNat) ++ e4 (s.sec + min 7200 offset.toNat + 1800) ++ eBool s.sup.advisory.isSome)
          (changeAdvisory (some (advisoryRecord s offset gust flags))
            (s.askedAt .S .advisory (advisoryBody offset gust flags))) := by
      rw [serve, serveAdvisory, advisoryOf_body, advisoryBody_offset, advisoryBody_gust, Bool.decide_or]; rfl
    obtain ⟨t, run, advisory, advGust, holds, rest⟩ := submit_advisory (k := .advisory) ready rfl rfl served
    exact ⟨t, run, advisory, holds, advGust, rest⟩

end

