-- ==== Sys2Proof/Proofs/ZoneMatches.lean ====
section
/-! PROOFS. Which apertures a zone descriptor matches, and which descriptor governs one: O16. -/

namespace Sys2Proof.Machine

open Sys2Proof

variable {s : State} {i : ApId} {z : ZoneId} {d : Zone}

/-! ### The block of a descriptor (R38) -/

theorem Zone.covers_iff (d : Zone) (i : ApId) :
    d.covers i = true ↔ d.enabled = true ∧ i.val / 2 ^ d.size = d.base / 2 ^ d.size := by
  rw [Zone.covers, Bool.and_eq_true, beq_iff_eq]

/-- Two indices agree in every bit from `n` up exactly where they lie in one block of `2 ^ n` (R38). -/
theorem testBit_eq_from_iff (n x y : Nat) : (∀ k, n ≤ k → x.testBit k = y.testBit k) ↔ x / 2 ^ n = y / 2 ^ n := by
  refine ⟨fun h => Nat.eq_of_testBit_eq fun k => ?_, fun h k le => ?_⟩
  · rw [Nat.testBit_div_two_pow, Nat.testBit_div_two_pow]
    exact h _ (by omega)
  · obtain ⟨m, rfl⟩ := Nat.exists_eq_add_of_le' le
    rw [← Nat.testBit_div_two_pow, h, Nat.testBit_div_two_pow]

/-- An index lies in the block numbered `q` of size `b` exactly where it is one of the `b` from `q * b` on. -/
theorem div_eq_iff_mem_block {b : Nat} (pos : 0 < b) (x q : Nat) : x / b = q ↔ q * b ≤ x ∧ x < q * b + b := by
  rw [Nat.div_eq_iff pos]
  omega

/-! ### The governing zone (R39) -/

theorem governing_eq_some : s.governing i = some z ↔
    (s.zones.desc[z]).covers i = true ∧ ∀ y : ZoneId, y < z → (s.zones.desc[y]).covers i = false := by
  rw [State.governing, allZones, ← Fin.find?_eq_find?_finRange, Fin.find?_eq_some_iff]

theorem governing_eq_none : s.governing i = none ↔ ∀ z : ZoneId, (s.zones.desc[z]).covers i = false := by
  rw [State.governing, allZones, ← Fin.find?_eq_find?_finRange, Fin.find?_eq_none_iff]

theorem zoneOf_of_governed (h : s.governing i = some z) : s.zoneOf i = s.zones.desc[z] := by rw [State.zoneOf, h]

theorem zoneOf_of_ungoverned (h : s.governing i = none) : s.zoneOf i = s.zones.base := by rw [State.zoneOf, h]

end Sys2Proof.Machine

open Sys2Proof Sys2Proof.Machine

/-- Settles O16: the quotients by the block size agree where the bits above it do, and on the indices of one block. -/
theorem descriptorMatchesItsBlock : Obligations.DescriptorMatchesItsBlock := by
  refine ⟨fun s i => ⟨fun z => governing_eq_some, governing_eq_none, fun z => zoneOf_of_governed, zoneOf_of_ungoverned⟩,
    fun d i => ⟨?_, d.covers_iff i, ?_⟩⟩
  · rw [d.covers_iff, testBit_eq_from_iff]
  · rw [d.covers_iff, div_eq_iff_mem_block (Nat.two_pow_pos d.size)]

end

