-- ==== Sys2Proof/Proofs/BoundaryClaims.lean ====
section
/-! PROOFS. The claims of a second boundary: O23. -/

namespace Sys2Proof.Machine

open Sys2Proof

variable {s : State}

/-- The stages before the gust update reach the ports by notices alone (R56). -/
theorem frontEndStages_ports (vane : Byte) (rain rainok : Bool) (s : State) (p : Port) :
    PortKept (s.port p) ((frontEndStages vane rain rainok (beginBoundary vane rain rainok s)).port p) := by
  unfold frontEndStages; dsimp only
  split
  · exact (Frame.notify (k := id) (s := { beginBoundary vane rain rainok s with
      fe := conditionStage (measure vane.toNat rain rainok (beginBoundary vane rain rainok s).fe) }) _ _).ports p
  · exact PortKept.refl _

/-- The stages before the gust update leave every aperture as it was. -/
theorem frontEndStages_ap (vane : Byte) (rain rainok : Bool) (s : State) (i : ApId) :
    (frontEndStages vane rain rainok (beginBoundary vane rain rainok s)).ap i = s.ap i := by
  obtain ⟨clock, pins, fe, ports, h⟩ := frontEndStages_rest (vane := vane) (rain := rain) (rainok := rainok) s
  rw [h]; rfl

/-- The claims of a gust update (R81, R82), for a state before it with the same apertures. -/
theorem gustUpdate_claims {v t : State} (e : Ended (gustUpdate v) t) (aps : ∀ i, v.ap i = s.ap i)
    (ports : ∀ p, PortKept (s.port p) (v.port p)) : ClaimsFollowNeeds s t := by
  unfold gustUpdate at e
  refine ((exposureUpdate_updated _).claimsFollowNeeds e).moved (fun i => ?_) ⟨t.ports, rfl⟩
    fun ps n queued => queued.behind ports
  rw [← aps]
  exact (compute_fields i _).imp_right fun ⟨slate, claim, _⟩ => ⟨slate, claim⟩

end Sys2Proof.Machine

open Sys2Proof Sys2Proof.Machine

/-- Settles O23: the claims are those of the gust update, its notices behind the front end's. -/
theorem secondBoundaryPostsClaims : Obligations.SecondBoundaryPostsClaims := fun s vane rain rainok =>
  ⟨_, rfl, gustUpdate_claims (finish_ended true s _) (frontEndStages_ap vane rain rainok s)
    (frontEndStages_ports vane rain rainok s)⟩

end

