-- ==== Sys2Proof/Proofs/Effects.lean ====
section
/-! PROOFS. What one command can do, and what everything at the ports keeps where serving a request keeps it. -/

namespace Sys2Proof.Machine

open Sys2Proof

variable {R : State → State → Prop} {s t : State}

/-! ### Bytes written, requests taken and served (R156 to R159, R172) -/

/-- A relation that composes, and that a written port, a written store and a served request fall under. -/
structure PortSafe (R : State → State → Prop) : Prop where
  refl  : ∀ s, R s s
  trans : ∀ {s u t}, R s u → R u t → R s t
  port  : ∀ p f s, R s (State.modPort s p f)
  store : ∀ r s, R s { s with store := r }
  serve : ∀ k p body s, R s (serve k p body s).1

namespace PortSafe

theorem foldl (h : PortSafe R) {α : Type} {f : State → α → State} (each : ∀ s x, R s (f s x)) (l : List α) (s : State) :
    R s (l.foldl f s) := by
  induction l generalizing s with
  | nil => exact h.refl s
  | cons x xs ih => exact h.trans (each s x) (ih _)

theorem placeReply (h : PortSafe R) (p : Port) (kind : Byte) (x : Served) : R x.1 (placeReply p kind x) := by
  rcases x with ⟨v, _ | r⟩
  · exact h.refl v
  · exact h.port p (fun q => (q.place kind r).release v.clock.ms) v

theorem serveRequest (h : PortSafe R) (p : Port) (kind : Byte) (body : List Byte) (s : State) :
    R s (serveRequest p kind body s).1 := by
  unfold Machine.serveRequest
  split
  · exact h.serve _ p body s
  · exact h.refl s

theorem servePending (h : PortSafe R) (p : Port) (s : State) : R s (servePending p s) := by
  unfold Machine.servePending
  split
  · exact h.trans (h.serveRequest p _ _ s) (h.placeReply p _ _)
  · exact h.refl s

theorem assemble (h : PortSafe R) (p : Port) (x : Byte) (s : State) : R s (assemble p x s) := by
  unfold Machine.assemble takeRequest; dsimp only
  split
  · exact h.trans (h.port p _ s) (h.trans (h.port p _ _) (h.servePending p _))
  · exact h.port p _ s

theorem writeByte (h : PortSafe R) (p : Port) (x : Byte) (s : State) : R s (writeByte p x s) := by
  unfold Machine.writeByte
  split
  · exact h.port p _ s
  · exact h.port p _ s
  · exact h.assemble p x s
  · exact h.port p _ s

theorem writeBytes (h : PortSafe R) (p : Port) (l : List Byte) (s : State) : R s (writeBytes p l s) :=
  h.foldl (fun s' x => h.writeByte p x s') l s

theorem answerAct (h : PortSafe R) (op : StoreOp) (s : State) : R s (answerAct op s) := by
  unfold Machine.answerAct
  split
  · exact h.placeReply .S _ (s, some _)
  · exact h.refl s

theorem serveWaiting (h : PortSafe R) (s : State) (p : Port) : R s (serveWaiting s p) := by
  unfold Machine.serveWaiting
  split
  · exact h.servePending p s
  · exact h.refl s

theorem completeStore (h : PortSafe R) (op : StoreOp) (s : State) : R s (completeStore op s) :=
  h.trans (h.store s.store.finishOp s) (h.trans (h.answerAct op _) (h.foldl h.serveWaiting allPorts _))

end PortSafe

/-! ### The effects of commands -/

/-- What happens in the event of an expired timer, or of the end of an exchange, where that is due in state `s`. -/
inductive Expires (s : State) : (State → State) → Prop where
  | holding (runs : s.sup.holdTimer.isSome = true) : Expires s endHolding
  | room (i : ApId) (x : Slot) (e : Nat) (held : (s.ap i).slate.room = some x) (ends : x.expiry = some e) :
      Expires s (expireRoom i x e)
  | quiet (b : Branch) : Expires s fun v => (v.modBranch b fun r => { r with quiet := none }).owe b
  | gap (b : Branch) : Expires s fun v => (v.modBranch b fun r => { r with gapTimer := none }).owe b
  | inrush (i : ApId) (starting : (s.ap i).state = .starting) : Expires s (toRunning i)
  | travel (i : ApId) (driving : (s.ap i).state.driving = true) : Expires s (halt i .timeout)
  | settle (i : ApId) (settling : (s.ap i).state = .settling) :
      Expires s fun v => (settled i v).owe (v.ap i).fix.branch
  | retry (i : ApId) (waits : (s.ap i).state = .retryWait) : Expires s (toRest i)
  | warn (z : ZoneId) (runs : (s.zones.warnings[z]).timer.isSome = true) : Expires s (endWarning z)
  | contact (i : ApId) (runs : (s.ap i).node.contactTimer.isSome = true) : Expires s (nodeTimeout i)
  | exchange (f : InFlight) (reply : List Byte) (runs : s.link.inFlight = some f) : Expires s (complete f reply)
  | debounce (runs : s.fire.debounce.isSome = true) : Expires s debounced

/-- What a command can do in state `s`. -/
inductive Effect (s : State) : State → Prop where
  | nothing : Effect s s
  | por (cmsn : Bool) : Effect s (hardReset .por cmsn .none none s)
  | pinReset (cmsn : Bool) : Effect s (hardReset .pin cmsn s.fe.word.sticky s.sup.trigger s)
  | pulse : Effect s { s with
      fe := if s.fe.count < 2000 then { s.fe with count := s.fe.count + 1 } else { s.fe with saturated := true } }
  | boundary (vane : Byte) (rain rainok : Bool) :
      Effect s (finish true s (gustUpdate (frontEndStages vane rain rainok (beginBoundary vane rain rainok s))))
  | expiry (f : State → State) (n : Nat) (h : Expires s f) : Effect s (event f (s.advanceTo n))
  | advisory (d : Advisory) (held : s.sup.advisory = some d) :
      Effect s (changeAdvisory none (s.advanceTo (d.expiry * 1000)))
  | slot (free : s.link.inFlight = none) : Effect s (startSlot s)
  | line : Effect s { s with
      pins.alarm := !s.pins.alarm, fire.debounce := some (s.clock.ms + Config.debounceMs) }
  | read (p : Port) : Effect s (readByte p s)
  | hold (p : Port) (x : Strobe) (pending : (s.port p).state = .pending) : Effect s (s.modPort p fun r => r.hold x)
  | endHeld (p : Port) : Effect s (s.modPort p PortRec.endHeld)
  | portGap (p : Port) (n : Nat) (assembling : (s.port p).state = .assembling) :
      Effect s ((s.advanceTo n).modPort p PortRec.expireGap)
  | bytes (p : Port) (l : List Byte) : Effect s (writeBytes p l s)
  | stored (op : StoreOp) (busy : s.store.op = some op) : Effect s (completeStore op (s.advanceTo op.due))

theorem Effect.ite {q : Prop} [Decidable q] {u v : State} (h : q → Effect s u) (g : ¬ q → Effect s v) :
    Effect s (if q then u else v) := by
  split
  · exact h ‹_›
  · exact g ‹_›

/-- Every command has one of these effects. -/
theorem exec_effect {c : Instr} (h : exec c s = .next t) : Effect s t := by
  cases c
  case por cmsn => obtain rfl := next_inj h; exact .por cmsn
  case pinReset cmsn => obtain rfl := next_inj h; exact .pinReset cmsn
  case anemoPulse => obtain rfl := next_inj h; exact .pulse
  case secondBoundary => obtain rfl := next_inj h; exact .boundary _ _ _
  case holdTimerExpiry =>
    simp only [exec, execHoldTimerExpiry] at h
    split at h <;> obtain rfl := next_inj h
    · next e => exact .expiry _ _ (.holding (by rw [e]; rfl))
    · exact .nothing
  case advisoryExpiry =>
    simp only [exec, execAdvisoryExpiry] at h
    split at h <;> obtain rfl := next_inj h
    · next d held => exact .advisory d held
    · exact .nothing
  case roomExpiry a =>
    simp only [exec, execRoomExpiry, roomTimer] at h
    split at h <;> obtain rfl := next_inj h
    · next x e timer =>
      split at timer
      · next held =>
        obtain ⟨e', ends, pair⟩ := Option.map_eq_some_iff.1 timer
        cases pair
        exact .expiry _ _ (.room a x e held ends)
      · cases timer
    · exact .nothing
  case quietTimerExpiry b =>
    simp only [exec, execQuietTimerExpiry] at h
    split at h <;> obtain rfl := next_inj h
    · exact .expiry _ _ (.quiet b)
    · exact .nothing
  case branchGapTimerExpiry b =>
    simp only [exec, execBranchGapTimerExpiry] at h
    split at h <;> obtain rfl := next_inj h
    · exact .expiry _ _ (.gap b)
    · exact .nothing
  case inrushTimerExpiry a =>
    simp only [exec, execInrushTimerExpiry] at h
    split at h <;> obtain rfl := next_inj h
    · next st _ => exact .expiry _ _ (.inrush a st)
    · exact .nothing
  case travelTimerExpiry a =>
    simp only [exec, execTravelTimerExpiry, travelTimer] at h
    split at h <;> obtain rfl := next_inj h
    · next timer =>
      split at timer
      · next dr => exact .expiry _ _ (.travel a dr)
      · cases timer
    · exact .nothing
  case settleTimerExpiry a =>
    simp only [exec, execSettleTimerExpiry] at h
    split at h <;> obtain rfl := next_inj h
    · next st _ => exact .expiry _ _ (.settle a st)
    · exact .nothing
  case retryTimerExpiry a =>
    simp only [exec, execRetryTimerExpiry] at h
    split at h <;> obtain rfl := next_inj h
    · next st _ => exact .expiry _ _ (.retry a st)
    · exact .nothing
  case warnTimerExpiry z =>
    simp only [exec, execWarnTimerExpiry] at h
    split at h <;> obtain rfl := next_inj h
    · next e => exact .expiry _ _ (.warn z (by rw [e]; rfl))
    · exact .nothing
  case contactTimerExpiry a =>
    simp only [exec, execContactTimerExpiry] at h
    split at h <;> obtain rfl := next_inj h
    · next e => exact .expiry _ _ (.contact a (by rw [e]; rfl))
    · exact .nothing
  case linkSlotStart =>
    simp only [exec, execLinkSlotStart] at h
    split at h <;> obtain rfl := next_inj h
    · exact .nothing
    · next free => exact .slot free
  case exchangeCompleted reply =>
    simp only [exec, execExchangeCompleted] at h
    split at h <;> obtain rfl := next_inj h
    · next f runs => exact .expiry _ _ (.exchange f reply runs)
    · exact .nothing
  case alarmLineChange => obtain rfl := next_inj h; exact .line
  case debounceTimerExpiry =>
    simp only [exec, execDebounceTimerExpiry] at h
    split at h <;> obtain rfl := next_inj h
    · next e => exact .expiry _ _ (.debounce (by rw [e]; rfl))
    · exact .nothing
  case requestByteWrite p csN x =>
    obtain rfl := next_inj h
    exact .ite (fun _ => .nothing) fun _ => .bytes p [x]
  case statusWrite => obtain rfl := next_inj h; exact .nothing
  case replyByteRead p csN =>
    obtain rfl := next_inj h
    exact .ite (fun _ => .nothing) fun _ => .read p
  case waitHoldOff p x =>
    obtain rfl := next_inj h
    exact .ite (fun pending => .hold p x pending) fun _ => .nothing
  case heldStrobeEnd p => obtain rfl := next_inj h; exact .endHeld p
  case portGapTimerExpiry p =>
    simp only [exec, execPortGapTimerExpiry] at h
    split at h <;> obtain rfl := next_inj h
    · next assembling _ => exact .portGap p _ assembling
    · exact .nothing
  case storeOperationComplete =>
    simp only [exec, execStoreOperationComplete] at h
    split at h <;> obtain rfl := next_inj h
    · next op busy => exact .stored op busy
    · exact .nothing
  all_goals obtain rfl := next_inj h; exact .bytes _ _

end Sys2Proof.Machine

end

