-- ==== Sys2Proof/Proofs/WeatherSlots.lean ====
section
/-! PROOFS. What keeps WEATHER slots, openings, claims and the hold timer consistent (R32, R73, R76, R82). -/

namespace Sys2Proof.Machine

open Sys2Proof

variable {i j : ApId} {s t u v c : State} {p : Port} {y : Target} {x : Slate} {k : Option Claim} {d : OrderClass}
  {o : Option Slot}

/-! ### The two invariants, and what leaves them alone -/

/-- The weather leaves no opening on the slate (R32). -/
def Slate.Sheltered (x : Slate) : Prop := x.weather.isSome → opens x.supervisory = false ∧ opens x.room = false

/-- From `s` to `t` no opening came to stand under the weather, and claims and hold timer stayed with the weather
state. -/
structure KeepsWeather (s t : State) : Prop where
  holds  : s.WeatherHolds → t.WeatherHolds
  claims : s.ClaimsHold → t.ClaimsHold

theorem KeepsWeather.refl (s : State) : KeepsWeather s s := ⟨id, id⟩

theorem KeepsWeather.trans (h : KeepsWeather s u) (g : KeepsWeather u t) : KeepsWeather s t :=
  ⟨g.holds ∘ h.holds, g.claims ∘ h.claims⟩

theorem KeepsWeather.foldl {α : Type} {f : State → α → State} (h : ∀ s x, KeepsWeather s (f s x)) (l : List α)
    (s : State) : KeepsWeather s (l.foldl f s) := by
  induction l generalizing s with
  | nil => exact .refl s
  | cons x xs ih => exact (h s x).trans (ih _)

/-- Slates that stay sheltered, with WEATHER slots, claims, weather state and hold timer as they were. -/
theorem KeepsWeather.of_slates (sheltered : ∀ i, (s.ap i).slate.Sheltered → (t.ap i).slate.Sheltered)
    (slot : ∀ i, (t.ap i).slate.weather = (s.ap i).slate.weather) (claim : ∀ i, (t.ap i).claim = (s.ap i).claim)
    (weather : t.sup.weather = s.sup.weather) (timer : t.sup.holdTimer = s.sup.holdTimer) : KeepsWeather s t where
  holds h i := sheltered i (h i)
  claims h := by
    unfold State.ClaimsHold
    simp only [slot, claim, weather, timer]
    exact h

/-- A change of no aperture's record, no weather state and no hold timer. -/
theorem KeepsWeather.elsewhere (aps : t.aps = s.aps) (weather : t.sup.weather = s.sup.weather)
    (timer : t.sup.holdTimer = s.sup.holdTimer) : KeepsWeather s t :=
  have ap := State.ap_of_aps aps
  .of_slates (fun i => by rw [ap]; exact id) (fun i => by rw [ap]) (fun i => by rw [ap]) weather timer

/-- Motions, positions and what the link teaches are no part of the invariants. -/
theorem Frame.keepsWeather (f : Frame Aperture.ordered s t) : KeepsWeather s t := by
  have ap (i : ApId) : (t.ap i).slate = (s.ap i).slate ∧ (t.ap i).claim = (s.ap i).claim := by
    obtain ⟨-, slate, -, -, claim, -⟩ := ordered_fields (f.aps i)
    exact ⟨slate, claim⟩
  exact .of_slates (fun i => by rw [(ap i).1]; exact id) (fun i => by rw [(ap i).1]) (fun i => (ap i).2)
    (by rw [f.sup]) (by rw [f.sup])

theorem finish_keepsWeather (update : Bool) (s0 s : State) : KeepsWeather s (finish update s0 s) :=
  ((finish_frame s update s0).mono keep_ordered).keepsWeather

theorem event_keepsWeather {f : State → State} (h : KeepsWeather s (f s)) : KeepsWeather s (event f s) :=
  h.trans (finish_keepsWeather false s (f s))

theorem notify_keepsWeather (ps : List Port) (b : NoticeBody) (s : State) : KeepsWeather s (s.notify ps b) :=
  (Frame.notify ps b).keepsWeather

/-! ### Orders and alarm-origin slots (R29, R30, R35, R148 to R153) -/

/-- A slot written beside the WEATHER slot shelters what was sheltered, unless it is an opening of SUPERVISORY or ROOM
under the weather (R29). -/
theorem Slate.Sheltered.put (h : x.Sheltered) (other : d ≠ .weather)
    (shut : d = .life ∨ opens o = false ∨ x.weather = none) : (x.put d o).Sheltered := by
  cases d with
  | weather => exact absurd rfl other
  | life => exact h
  | supervisory =>
    intro held
    have held : x.weather.isSome := held
    rcases shut with e | e | e
    · cases e
    · exact ⟨e, (h held).2⟩
    · rw [e] at held; cases held
  | room =>
    intro held
    have held : x.weather.isSome := held
    rcases shut with e | e | e
    · cases e
    · exact ⟨(h held).1, e⟩
    · rw [e] at held; cases held

theorem Slate.put_weather (x : Slate) (o : Option Slot) (other : d ≠ .weather) : (x.put d o).weather = x.weather := by
  cases d with
  | weather => exact absurd rfl other
  | life | supervisory | room => rfl

theorem Reorders.slates (h : Reorders i x k s t) (j : ApId) :
    (t.ap j).slate = (if i = j then x else (s.ap j).slate) ∧ (t.ap j).claim = (if i = j then k else (s.ap j).claim) := by
  by_cases e : i = j
  · subst e; rw [if_pos rfl, if_pos rfl]; exact h.slate
  · rw [if_neg e, if_neg e, h.writes j, if_neg e]; exact ⟨rfl, rfl⟩

theorem Reorders.keepsWeather (h : Reorders i ((s.ap i).slate.put d o) (s.ap i).claim s t) (other : d ≠ .weather)
    (shut : d = .life ∨ opens o = false ∨ (s.ap i).slate.weather = none) : KeepsWeather s t := by
  refine .of_slates (fun j => ?_) (fun j => ?_) (fun j => ?_) (by rw [h.frame.sup]) (by rw [h.frame.sup])
  · rw [(h.slates j).1]
    split
    · next e => subst e; exact fun g => g.put other shut
    · exact id
  · rw [(h.slates j).1]
    split
    · next e => subst e; exact Slate.put_weather _ _ other
    · rfl
  · rw [(h.slates j).2]
    split
    · next e => rw [e]
    · rfl

theorem portClass_ne_weather (p : Port) : portClass p ≠ .weather := by cases p <;> decide

/-- A port's order that passes the weather check opens nothing under the weather (R29). -/
theorem postOrder_keepsWeather (free : weatherHeld s p i y = false) : KeepsWeather s (postOrder p i y s) := by
  refine (postOrder_reorders p i y s).keepsWeather (portClass_ne_weather p) ?_
  cases p with
  | L => exact .inl rfl
  | S | K =>
    refine .inr ?_
    cases e : y.opening with
    | false => exact .inl e
    | true =>
      refine .inr (Option.isNone_iff_eq_none.1 ?_)
      simpa [weatherHeld, e] using free

/-- An order changes no WEATHER slot, so the weather check of another order stands behind it. -/
theorem weatherHeld_postOrder (p : Port) (i j : ApId) (y : Target) (s : State) :
    weatherHeld (postOrder p j y s) p i y = weatherHeld s p i y := by
  have slot : ((postOrder p j y s).ap i).slate.weather = (s.ap i).slate.weather := by
    rw [((postOrder_reorders p j y s).slates i).1]
    split
    · next e => subst e; exact Slate.put_weather _ _ (portClass_ne_weather p)
    · rfl
  rw [weatherHeld, weatherHeld, slot]

theorem postOrders_keepsWeather (l : List ApId) (free : ∀ i ∈ l, weatherHeld s p i y = false) :
    KeepsWeather s (l.foldl (fun v i => postOrder p i y v) s) := by
  induction l generalizing s with
  | nil => exact .refl s
  | cons i is ih =>
    refine (postOrder_keepsWeather (free i (.head is))).trans (ih fun j mem => ?_)
    rw [weatherHeld_postOrder]
    exact free j (.tail i mem)

theorem releaseOrder_keepsWeather (p : Port) (i : ApId) (s : State) : KeepsWeather s (releaseOrder p i s) := by
  unfold releaseOrder; dsimp only
  split
  · exact .refl s
  · refine (putResolve_reorders i _ _ s).keepsWeather (portClass_ne_weather p) ?_
    cases p with
    | L => exact .inl rfl
    | S | K => exact .inr (.inl rfl)

theorem postAlarm_keepsWeather (r : Bool) (s : State) (i : ApId) : KeepsWeather s (postAlarm r s i) := by
  unfold postAlarm; dsimp only
  split
  · exact (putResolve_reorders i .life _ s).keepsWeather (by decide) (.inl rfl)
  · exact .refl s

theorem dropAlarm_keepsWeather (s : State) (i : ApId) : KeepsWeather s (dropAlarm s i) := by
  unfold dropAlarm
  split
  · exact (putResolve_reorders i .life _ s).keepsWeather (by decide) (.inl rfl)
  · exact .refl s

/-- A room order that expires is shut (R35). -/
theorem expireRoom_keepsWeather (i : ApId) (z : Slot) (e : Nat) (s : State) : KeepsWeather s (expireRoom i z e s) :=
  (expireRoom_reorders i z e s).keepsWeather (d := .room) (by decide) (.inr (.inl rfl))

theorem fireLevel_keepsWeather (s : State) : KeepsWeather s (fireLevel s) := by
  have state (x : FireState) : KeepsWeather s { s with fire := { s.fire with state := x } } := .elsewhere rfl rfl rfl
  have alarm (r : Bool) (v : State) : KeepsWeather v (allAps.foldl (postAlarm r) v) := .foldl (postAlarm_keepsWeather r) _ v
  unfold fireLevel
  split
  · exact ((state _).trans (alarm false _)).trans (notify_keepsWeather _ _ _)
  · exact ((state _).trans (alarm true _)).trans (notify_keepsWeather _ _ _)
  · exact (state _).trans (notify_keepsWeather _ _ _)
  · exact .refl s

theorem debounced_keepsWeather (s : State) : KeepsWeather s (debounced s) := by
  have fire (x : Fire) : KeepsWeather s { s with fire := x } := .elsewhere rfl rfl rfl
  unfold debounced; dsimp only
  split
  · exact fire _
  · exact (fire _).trans (fireLevel_keepsWeather _)

theorem restoreFire_keepsWeather (s : State) : KeepsWeather s (restoreFire s) :=
  KeepsWeather.trans (u := { s with fire := { s.fire with state := .normal } }) (.elsewhere rfl rfl rfl)
    ((KeepsWeather.foldl dropAlarm_keepsWeather allAps _).trans (notify_keepsWeather _ _ _))

/-! ### Exposure updates and the exit from HOLDING (R33, R75, R76, R81, R82) -/

/-- The weather that claims may stand in goes on to ACTIVE or HOLDING (R75). -/
theorem nextWeather_of_claims (h : c.sup.weather = .active ∨ c.sup.weather = .holding) :
    nextWeather c = .active ∨ nextWeather c = .holding := by
  unfold nextWeather
  rcases h with h | h <;> rw [h]
  · exact (ite_eq_or_eq _ _ _).symm
  · exact ite_eq_or_eq _ _ _

/-- CLEAR and WATCH are entered from each other alone at an exposure update (R75). -/
theorem weather_of_nextWeather_quiet (h : nextWeather c = .clear ∨ nextWeather c = .watch) :
    c.sup.weather = .clear ∨ c.sup.weather = .watch := by
  by_contra other
  have claims : c.sup.weather = .active ∨ c.sup.weather = .holding := by
    revert other
    cases c.sup.weather <;> decide
  rcases nextWeather_of_claims claims with n | n <;> rw [n] at h <;> exact absurd h (by decide)

/-- HOLDING is entered from ACTIVE alone (R75). -/
theorem weather_of_nextWeather_holding (h : nextWeather c = .holding) :
    c.sup.weather = .active ∨ c.sup.weather = .holding := by
  cases e : c.sup.weather with
  | active => exact .inl rfl
  | holding => exact .inr rfl
  | clear | watch =>
    simp only [nextWeather, e] at h
    split at h
    · cases h
    · split at h <;> cases h

theorem claimedSlate_sheltered (s : State) (x : Slate) : (claimedSlate s x).Sheltered := by
  have shut (o : Option Slot) : opens (if opens o = true then none else o) = false := by
    split
    · rfl
    · next h => exact Bool.eq_false_iff.2 h
  exact fun _ => ⟨shut _, shut _⟩

/-- An aperture that is not claimed at an exposure update has a claim after it where it had one before. -/
theorem exposureUpdate_claim (h : ¬ (nextWeather c = .active ∧ ClaimDue c i)) :
    ((exposureUpdate c).ap i).claim.isSome = (c.ap i).claim.isSome := by
  obtain ⟨v, -, -, claimed, stands, a, q, r, renewed, e⟩ := exposureUpdate_stages c
  have still : v.ap i = c.ap i := by
    by_cases active : nextWeather c = .active
    · exact (claimed active i).stands fun due => h ⟨active, due⟩
    · rw [stands active]; rfl
  obtain ⟨x, rest⟩ := announceWeather_rest c.sup.weather (nextWeather c)
    { v with aps := a, sup := { v.sup with queue := q, trigger := r } }
  have ap : (exposureUpdate c).ap i = (renewClaims (standingClaims c) v).ap i := by rw [e, rest, renewed]; rfl
  rw [ap, renewClaims_ap _ (standingClaims_nodup c), still]
  split
  · exact Option.isSome_map
  · rfl

theorem Updated.weatherHolds (h : Updated c u) (holds : c.WeatherHolds) : u.WeatherHolds := by
  intro i
  by_cases due : nextWeather c = .active ∧ ClaimDue c i
  · rw [h.slate due.1 i due.2]
    exact claimedSlate_sheltered c _
  · rw [h.stands i due]
    exact holds i

/-- The hold timer runs exactly in HOLDING after a judgement of the weather state (R76). -/
theorem setWeather_holdTimer_isSome (timer : c.sup.holdTimer.isSome ↔ c.sup.weather = .holding) :
    (setWeather (nextWeather c) c).sup.holdTimer.isSome ↔ nextWeather c = .holding := by
  by_cases e : nextWeather c = .holding
  · rw [e]
    refine iff_of_true ?_ rfl
    rcases weather_of_nextWeather_holding e with old | old
    · rw [setWeather_holdTimer_active old]; rfl
    · rw [setWeather_holdTimer_holding old]; exact timer.2 old
  · rw [setWeather_holdTimer_ne e]
    exact iff_of_false Bool.false_ne_true e

theorem exposureUpdate_claimsHold (h : c.ClaimsHold) : (exposureUpdate c).ClaimsHold := by
  obtain ⟨calm, timer, claim⟩ := h
  have up := exposureUpdate_updated c
  obtain ⟨n, q, x, r, sup⟩ := up.sup
  have weather : (exposureUpdate c).sup.weather = nextWeather c := by rw [sup]; rfl
  refine ⟨fun quiet i => ?_, ?_, fun i => ?_⟩
  · rw [weather] at quiet
    have idle : nextWeather c ≠ .active := by rcases quiet with e | e <;> rw [e] <;> decide
    rw [up.stands i fun due => idle due.1]
    exact calm (weather_of_nextWeather_quiet quiet) i
  · rw [weather, sup]
    exact setWeather_holdTimer_isSome timer
  · by_cases due : nextWeather c = .active ∧ ClaimDue c i
    · obtain ⟨k, hk, -⟩ := up.claim due.1 i due.2
      rw [hk, up.slate due.1 i due.2]
      exact Iff.rfl
    · rw [up.stands i due, exposureUpdate_claim due]
      exact claim i

theorem exposureUpdate_keepsWeather (c : State) : KeepsWeather c (exposureUpdate c) :=
  ⟨(exposureUpdate_updated c).weatherHolds, exposureUpdate_claimsHold⟩

theorem compute_keepsWeather (s : State) : KeepsWeather s (compute s) := by
  have same (i : ApId) : ((compute s).ap i).slate = (s.ap i).slate ∧ ((compute s).ap i).claim = (s.ap i).claim := by
    obtain ⟨-, slate, claim, -⟩ := compute_fields i s
    exact ⟨slate, claim⟩
  exact .of_slates (fun i => by rw [(same i).1]; exact id) (fun i => by rw [(same i).1]) (fun i => (same i).2) rfl rfl

theorem changeAdvisory_keepsWeather (a : Option Advisory) (s : State) : KeepsWeather s (changeAdvisory a s) := by
  have record : KeepsWeather s { s with sup := { s.sup with advisory := a } } := .elsewhere rfl rfl rfl
  unfold changeAdvisory advisoryChanged
  refine KeepsWeather.trans ?_ (finish_keepsWeather _ _ _)
  split
  · exact record.trans ((compute_keepsWeather _).trans (exposureUpdate_keepsWeather _))
  · exact record

theorem gustUpdate_keepsWeather (s : State) : KeepsWeather s (gustUpdate s) :=
  KeepsWeather.trans (u := { s with sup := { s.sup with computed := true, gustWord := s.fe.word } })
    (.elsewhere rfl rfl rfl) ((compute_keepsWeather _).trans (exposureUpdate_keepsWeather _))

/-- At the exit from HOLDING every claim goes with its WEATHER slot (R33, R76). -/
theorem dropClaims_claim (s : State) (i : ApId) : ((allAps.foldl dropClaim s).ap i).claim =
    if (s.ap i).slate.weather.isSome then none else (s.ap i).claim := by
  obtain ⟨v, turn⟩ := foldl_turn dropClaim_mayReorder allAps_nodup (mem_allAps i) s
  rw [turn.right.ap, ← turn.left]
  split
  · next h => exact (dropClaim_reorders h).slate.2
  · next h => rw [dropClaim_none (Bool.eq_false_iff.2 h)]

/-- A change of weather state writes no aperture's record. -/
theorem announceWeather_ap (old w : Weather) (s : State) (i : ApId) :
    (announceWeather old w (setWeather w s)).ap i = s.ap i := by
  obtain ⟨x, rest⟩ := announceWeather_rest old w (setWeather w s)
  rw [rest]; rfl

theorem endHolding_claim (s : State) (i : ApId) : ((endHolding s).ap i).claim =
    if (s.ap i).slate.weather.isSome then none else (s.ap i).claim := by
  rw [← dropClaims_claim]
  unfold endHolding
  rw [announceWeather_ap]

/-- The exit from HOLDING leaves no WEATHER slot and no claim, and the hold timer stopped (R76). -/
theorem endHolding_keepsWeather (s : State) : KeepsWeather s (endHolding s) := by
  obtain ⟨v, -, -, slates, e⟩ := endHolding_drops s
  obtain ⟨x, rest⟩ := announceWeather_rest s.sup.weather (afterHolding s) (setWeather (afterHolding s) v)
  rw [rest] at e
  have weather : (endHolding s).sup.weather = afterHolding s := by rw [e]; rfl
  have timer : (endHolding s).sup.holdTimer = none := by
    rw [e]; exact setWeather_holdTimer_stopped (afterHolding_cases s) v
  have bare (i : ApId) : ((endHolding s).ap i).slate.weather = none := by
    rw [e]; exact congrArg Slate.weather (slates i)
  refine ⟨fun _ i held => ?_, fun ⟨_, _, claim⟩ => ⟨fun _ => bare, ?_, fun i => ?_⟩⟩
  · rw [bare] at held; cases held
  · rw [timer, weather]
    refine iff_of_false Bool.false_ne_true fun holding => ?_
    rcases afterHolding_cases s with w | w <;> rw [w] at holding <;> cases holding
  · rw [endHolding_claim, bare]
    refine iff_of_false (fun held => ?_) Bool.false_ne_true
    split at held
    · cases held
    · next h => exact h ((claim i).1 held)

/-! ### Resets (R43, R92) -/

/-- A load leaves no slot, no claim and CLEAR weather, whatever stood before it. -/
theorem loadTables_keepsWeather (s : State) : KeepsWeather s (loadTables s) := by
  obtain ⟨weather, -, timer, -⟩ := loadTables_sup s
  refine ⟨fun _ i held => ?_, fun _ => ⟨fun _ i => ?_, ?_, fun i => ?_⟩⟩
  · rw [loadTables_ap] at held; cases held
  · rw [loadTables_ap]; rfl
  · rw [weather, timer]; decide
  · rw [loadTables_ap]; exact Iff.rfl

theorem announceReset_keepsWeather (kind : ResetKind) (reason : RestartReason) (s : State) :
    KeepsWeather s (announceReset kind reason s) :=
  (announceReset_frame (k := Aperture.ordered) s kind reason).keepsWeather

theorem hardReset_keepsWeather (kind : ResetKind) (cmsn : Bool) (sticky : Cond) (trigger : Option Trigger) (s : State) :
    KeepsWeather s (hardReset kind cmsn sticky trigger s) := by
  unfold hardReset
  refine KeepsWeather.trans ?_ (announceReset_keepsWeather _ _ _)
  refine KeepsWeather.trans ?_ (loadTables_keepsWeather _)
  exact .elsewhere rfl rfl rfl

theorem doRestart_keepsWeather (reason : RestartReason) (s : State) : KeepsWeather s (doRestart reason s) := by
  unfold doRestart
  refine KeepsWeather.trans ?_ (announceReset_keepsWeather _ _ _)
  exact .trans (u := { s with store := { s.store with mode := .none } }) (.elsewhere rfl rfl rfl)
    (loadTables_keepsWeather _)

end Sys2Proof.Machine

end

