-- ==== Sys2Proof/Proofs/ShelteredSteps.lean ====
section
/-! PROOFS. Every command keeps WEATHER slots, openings, claims and the hold timer consistent: O8. -/

namespace Sys2Proof.Machine

open Sys2Proof

variable {s t : State} {p : Port}

/-! ### Requests (section 10.3) -/

theorem serveOrder_keepsWeather (p : Port) (body : List Byte) (s : State) : KeepsWeather s (serveOrder p body s).1 := by
  unfold serveOrder
  split
  · exact .refl s
  · split
    · exact .refl s
    · split
      · exact .refl s
      · split
        · exact .refl s
        · next free => exact event_keepsWeather (postOrder_keepsWeather (Bool.eq_false_iff.2 free))

/-- The event of orders on apertures that each pass the weather check (R29, R41). -/
theorem postOrders_event_keepsWeather {l : List ApId} {y : Target} (free : ∀ i ∈ l, weatherHeld s p i y = false) :
    KeepsWeather s (event (fun v => l.foldl (fun v' i => postOrder p i y v') v) s) :=
  event_keepsWeather (f := fun v => l.foldl (fun v' i => postOrder p i y v') v) (postOrders_keepsWeather l free)

/-- ORDER-ZONE posts where the weather check passes, and nowhere else (R41). -/
theorem serveOrderZone_keepsWeather (p : Port) (body : List Byte) (s : State) :
    KeepsWeather s (serveOrderZone p body s).1 := by
  unfold serveOrderZone
  split
  · exact .refl s
  · split
    · exact .refl s
    · split
      · exact .refl s
      · refine postOrders_event_keepsWeather fun i mem => ?_
        rw [← Bool.not_eq_true']
        exact (List.mem_filter.1 mem).2

theorem serveRelease_keepsWeather (p : Port) (body : List Byte) (s : State) :
    KeepsWeather s (serveRelease p body s).1 := by
  unfold serveRelease
  split
  · exact .refl s
  · split
    · exact .refl s
    · exact event_keepsWeather (releaseOrder_keepsWeather p _ s)

theorem serveClearFault_keepsWeather (p : Port) (body : List Byte) (s : State) :
    KeepsWeather s (serveClearFault p body s).1 := by
  unfold serveClearFault
  split
  · exact .refl s
  · split
    · exact .refl s
    · exact event_keepsWeather ((clearFaultOf_frame _ s).mono keep_ordered).keepsWeather

theorem serveAlarmRestore_keepsWeather (s : State) : KeepsWeather s (serveAlarmRestore s).1 := by
  unfold serveAlarmRestore
  split
  · exact .refl s
  · exact .refl s
  · exact event_keepsWeather (restoreFire_keepsWeather s)

theorem serveAdvisoryCancel_keepsWeather (s : State) : KeepsWeather s (serveAdvisoryCancel s).1 := by
  unfold serveAdvisoryCancel answer; dsimp only
  split
  · exact changeAdvisory_keepsWeather none s
  · exact .refl s

theorem clearSticky_keepsWeather (s : State) : KeepsWeather s (clearSticky s) := by
  have h : KeepsWeather s { s with fe := { s.fe with word := { s.fe.word with
      sticky := s.fe.word.sticky.zip and s.fe.word.live } } } := .elsewhere rfl rfl rfl
  unfold clearSticky; dsimp only
  split
  · exact h.trans (notify_keepsWeather _ _ _)
  · exact h

theorem serveRestart_keepsWeather (s : State) : KeepsWeather s (serveRestart s).1 := by
  unfold serveRestart
  split
  · exact .refl s
  · exact doRestart_keepsWeather _ s

theorem serveLeaveCommissioning_keepsWeather (s : State) : KeepsWeather s (serveLeaveCommissioning s).1 := by
  unfold serveLeaveCommissioning
  split
  · exact .refl s
  · split
    · exact .trans (u := { s with store := { s.store with commissioning := false } }) (.elsewhere rfl rfl rfl)
        (doRestart_keepsWeather _ _)
    · exact .refl s

theorem store_keepsWeather (r : Store) (s : State) : KeepsWeather s { s with store := r } := .elsewhere rfl rfl rfl

theorem serveStoreMode_keepsWeather (body : List Byte) (s : State) : KeepsWeather s (serveStoreMode body s).1 := by
  unfold serveStoreMode
  split
  · exact .refl s
  · split
    · exact .refl s
    · split
      · exact store_keepsWeather _ s
      · exact .refl s

theorem serveStoreAct_keepsWeather (body : List Byte) (s : State) : KeepsWeather s (serveStoreAct body s).1 := by
  unfold serveStoreAct
  split
  · exact .refl s
  · split
    · exact .refl s
    · exact store_keepsWeather _ s

theorem serveLock_keepsWeather (body : List Byte) (s : State) : KeepsWeather s (serveLock body s).1 := by
  unfold serveLock
  split
  case h_4 => exact .refl s
  all_goals exact store_keepsWeather _ s

/-- A query leaves the part as it found it (R21, R42, R83, R90, R91, R110, R173). -/
theorem serve_query (k : RequestKind) (p : Port) (body : List Byte) (s : State)
    (query : k ∈ [.queryAperture, .queryBranch, .queryWeather, .queryQueue, .queryZone, .queryTrigger, .storeRead]) :
    (serve k p body s).1 = s := by
  cases k
  case queryAperture =>
    simp only [serve, serveQueryAperture]
    split
    · rfl
    · split <;> rfl
  case queryBranch => simp only [serve, serveQueryBranch]; split <;> rfl
  case queryQueue => simp only [serve, serveQueryQueue]; split <;> rfl
  case queryZone => simp only [serve, serveQueryZone]; split <;> rfl
  case queryWeather | queryTrigger => rfl
  case storeRead =>
    simp only [serve, serveStoreRead]
    split
    · rfl
    · split <;> rfl
  all_goals simp at query

/-- Serving a request keeps what the weather asks of slots and claims (section 10.3). -/
theorem serve_keepsWeather (k : RequestKind) (p : Port) (body : List Byte) (s : State) :
    KeepsWeather s (serve k p body s).1 := by
  cases k
  case order => exact serveOrder_keepsWeather p body s
  case orderZone => exact serveOrderZone_keepsWeather p body s
  case release => exact serveRelease_keepsWeather p body s
  case clearFault => exact serveClearFault_keepsWeather p body s
  case advisory => exact changeAdvisory_keepsWeather _ s
  case advisoryCancel => exact serveAdvisoryCancel_keepsWeather s
  case clearConditions => exact clearSticky_keepsWeather s
  case restart => exact serveRestart_keepsWeather s
  case alarmRestore => exact serveAlarmRestore_keepsWeather s
  case nextNotice => exact .elsewhere rfl rfl rfl
  case storeMode => exact serveStoreMode_keepsWeather body s
  case storeAct => exact serveStoreAct_keepsWeather body s
  case lock => exact serveLock_keepsWeather body s
  case leaveCommissioning => exact serveLeaveCommissioning_keepsWeather s
  all_goals
    rw [serve_query _ p body s (by decide)]
    exact .refl s

theorem keepsWeather_portSafe : PortSafe KeepsWeather where
  refl := .refl
  trans := .trans
  port _ _ _ := .elsewhere rfl rfl rfl
  store := store_keepsWeather
  serve := serve_keepsWeather

/-! ### The arbiter (R139) -/

theorem sendOrder_frame (i : ApId) (x : Exchange) (s : State) : Frame Aperture.ordered s (sendOrder i x s) :=
  (Frame.modAp i (fun a => { a with node := { a.node with sendCount := some (nextTag s i) } }) rfl).trans
    (Frame.withLink _)

theorem sendPoll_frame {f : Aperture → Aperture} (i : ApId) (s : State) : Frame f s (sendPoll i s) := by
  unfold sendPoll; dsimp only
  split
  · exact Frame.withLink _
  · exact { Frame.refl f s with freeDraws := Nat.le_succ _ }

theorem pollNext_frame {f : Aperture → Aperture} (s : State) : Frame f s (pollNext s) := by
  unfold pollNext
  split
  · exact sendPoll_frame _ s
  · exact (Frame.withLink _).trans (sendPoll_frame _ _)
  · exact Frame.refl f s

/-- The arbiter's choice writes the link, and the send count of the node it sends to. -/
theorem arbitrate_frame (s : State) : Frame Aperture.ordered s (arbitrate s) := by
  unfold arbitrate
  split
  · exact Frame.withLink _
  · split
    · exact pollNext_frame s
    · split
      · exact (Frame.withLink _).trans (sendOrder_frame _ _ _)
      · exact (Frame.withLink _).trans (sendOrder_frame _ _ _)
      · exact pollNext_frame s

theorem startSlot_keepsWeather (s : State) : KeepsWeather s (startSlot s) :=
  .trans (u := { s.advanceTo s.link.nextSlot with link :=
    { s.link with nextSlot := (s.advanceTo s.link.nextSlot).clock.ms + Config.slotMs } }) (.elsewhere rfl rfl rfl)
    (arbitrate_frame _).keepsWeather

/-! ### Timer expiries -/

/-- A branch timer that stops is owed an attempt, and no aperture is written. -/
theorem branchTimer_keepsWeather (b : Branch) (f : BranchRec → BranchRec) (s : State) :
    KeepsWeather s ((s.modBranch b f).owe b) := .elsewhere (by simp) (by simp) (by simp)

/-- The end of a warning writes the warning and owes attempts (R127). -/
theorem endWarning_frame {f : Aperture → Aperture} (z : ZoneId) (s : State) : Frame f s (endWarning z s) := by
  unfold endWarning; dsimp only
  exact (Frame.setWarning z _).trans
    (Frame.foldl (fun v i => Frame.ite (fun _ => Frame.owe _) fun _ => Frame.refl f v) allAps _)

theorem Expires.keepsWeather {f : State → State} (h : Expires s f) (v : State) : KeepsWeather v (f v) := by
  have motion {u : State} (g : Frame Aperture.keep v u) : KeepsWeather v u := (g.mono keep_ordered).keepsWeather
  cases h with
  | holding => exact endHolding_keepsWeather v
  | room i x e => exact expireRoom_keepsWeather i x e v
  | quiet b | gap b => exact branchTimer_keepsWeather b _ v
  | inrush i => exact motion (enter_frame i v _ _ rfl)
  | travel i => exact motion (halt_frame i v _)
  | settle i => exact motion ((settled_frame i v).trans (Frame.owe _))
  | retry i => exact motion (toRest_frame i v)
  | warn z => exact motion (endWarning_frame z v)
  | contact i => exact (nodeTimeout_frame i v).keepsWeather
  | exchange g reply => exact (complete_frame v g reply).keepsWeather
  | debounce => exact debounced_keepsWeather v

/-! ### Every command -/

theorem advanceTo_keepsWeather (n : Nat) (s : State) : KeepsWeather s (s.advanceTo n) := .elsewhere rfl rfl rfl

theorem frontEndStages_keepsWeather (vane : Byte) (rain rainok : Bool) (s : State) :
    KeepsWeather s (frontEndStages vane rain rainok (beginBoundary vane rain rainok s)) := by
  obtain ⟨clock, pins, fe, ports, h⟩ := frontEndStages_rest (vane := vane) (rain := rain) (rainok := rainok) s
  rw [h]; exact .elsewhere rfl rfl rfl

theorem Effect.keepsWeather (h : Effect s t) : KeepsWeather s t := by
  cases h with
  | nothing => exact .refl s
  | por | pinReset => exact hardReset_keepsWeather _ _ _ _ s
  | boundary vane rain rainok =>
    exact ((frontEndStages_keepsWeather vane rain rainok s).trans (gustUpdate_keepsWeather _)).trans
      (finish_keepsWeather true s _)
  | expiry f n e => exact (advanceTo_keepsWeather n s).trans (event_keepsWeather (e.keepsWeather _))
  | advisory d => exact (advanceTo_keepsWeather _ s).trans (changeAdvisory_keepsWeather none _)
  | slot => exact startSlot_keepsWeather s
  | bytes p l => exact keepsWeather_portSafe.writeBytes p l s
  | stored op => exact (advanceTo_keepsWeather op.due s).trans (keepsWeather_portSafe.completeStore op _)
  | pulse | line | read | hold | endHeld | portGap => exact .elsewhere rfl rfl rfl

theorem step_keepsWeather (h : step s = .next t) : KeepsWeather s t := by
  unfold step at h
  split at h
  · next c rest _ => exact .trans (u := { s with pending := rest }) (.elsewhere rfl rfl rfl) (exec_effect h).keepsWeather
  · cases h; exact .elsewhere rfl rfl rfl

end Sys2Proof.Machine

open Sys2Proof Sys2Proof.Machine

/-- Settles O8: what every command keeps, every step keeps. -/
theorem noOpeningStandsUnderWeather : Obligations.NoOpeningStandsUnderWeather := fun _ _ h =>
  ⟨(step_keepsWeather h).holds, (step_keepsWeather h).claims⟩

end

