-- ==== Sys2Proof/Proofs/FrontEndEvents.lean ====
section
/-! PROOFS. What the front end's commands write: O19, O26 and O20. -/

namespace Sys2Proof.Machine

open Sys2Proof

variable {s t : State} {vane : Byte} {rain rainok : Bool}

/-! ### CLEAR-CONDITIONS (R56, R57) -/

/-- The front end without the sticky bits of conditions that are not live (R57). -/
def FrontEnd.unstuck (fe : FrontEnd) : FrontEnd :=
  { fe with word := { fe.word with sticky := fe.word.sticky.zip and fe.word.live } }

/-- The sticky bits that CLEAR-CONDITIONS takes off (R57). -/
def CondWord.falls (w : CondWord) : Cond := w.sticky.zip (fun a b => a && !b) w.live

/-- Sticky bits are cleared, and announced where one was (R56, R57). -/
theorem clearSticky_eq (s : State) : clearSticky s =
    if s.fe.word.falls.any then
      { s with fe := s.fe.unstuck }.notify [.S] (.sensorCondition s.fe.unstuck.word s.fe.word.falls false)
    else { s with fe := s.fe.unstuck } := rfl

/-- The clearing of sticky bits reaches a port by notices alone. -/
theorem clearSticky_kept (s : State) (p : Port) : PortKept (s.port p) ((clearSticky s).port p) := by
  rw [clearSticky_eq]
  split
  · exact (Frame.notify (k := id) (s := { s with fe := s.fe.unstuck }) _ _).ports p
  · exact PortKept.refl _

theorem clearSticky_rest (s : State) : ∃ x, clearSticky s = { s with fe := s.fe.unstuck, ports := x } := by
  rw [clearSticky_eq]
  split
  · exact State.notify_rest _ _
  · exact ⟨s.ports, rfl⟩

/-- CLEAR-CONDITIONS is answered with the word as it leaves it (R57). -/
theorem serve_clearConditions (p : Port) (s : State) :
    serve .clearConditions p [] s = answer .ok (eWord s.fe.unstuck.word) (clearSticky s) := by
  obtain ⟨x, rest⟩ := clearSticky_rest s
  rw [serve, serveClearConditions, rest]

/-- The clearing of sticky bits tells Port S alone, and of nothing where none was cleared (R56). -/
theorem clearSticky_port {p : Port} (h : p ≠ .S ∨ s.fe.word.falls.any = false) :
    (clearSticky s).port p = s.port p := by
  rw [clearSticky_eq]
  split
  · next falls =>
    have other : p ≠ .S := h.resolve_right (by rw [falls]; decide)
    rw [notify_port _ (List.nodup_singleton _), if_neg (by simpa using other)]
    rfl
  · rfl

theorem clearSticky_queued (falls : s.fe.word.falls.any = true) : NoticeQueued [.S]
    ⟨s.sec, .sensorCondition s.fe.unstuck.word s.fe.word.falls false⟩ s (clearSticky s) := by
  rw [clearSticky_eq, if_pos falls]
  exact notify_queued (s := { s with fe := s.fe.unstuck }) [.S] (List.nodup_singleton _) _

/-! ### The front end's figures at a second boundary (R44 to R55) -/

/-- The front end after the stages of a second boundary. -/
def FrontEnd.measured (fe : FrontEnd) (vane : Byte) (rain rainok : Bool) : FrontEnd :=
  conditionStage (measure vane.toNat rain rainok fe)

variable {fe : FrontEnd}

/-- The speed is clamped at 600 and flushed to 0 below 5 (R46). -/
theorem usedSpeed_cases (raw : Nat) : (600 < raw → usedSpeed raw = 600) ∧
    (5 ≤ raw → raw ≤ 600 → usedSpeed raw = raw) ∧ (raw < 5 → usedSpeed raw = 0) := by
  unfold usedSpeed
  refine ⟨fun h => if_pos h, fun h h' => ?_, fun h => ?_⟩
  · rw [if_neg (by omega), if_neg (by omega)]
  · rw [if_neg (by omega), if_pos h]

/-- The mean over a speed and the latest two before it, where there were as many (R47). -/
theorem mean3_latest (v : Nat) (l : List Nat) : (l = [] → mean3 ((v :: l).take 3) = v) ∧
    (∀ a, l = [a] → mean3 ((v :: l).take 3) = (v + a + 1) / 2) ∧
    ∀ a b rest, l = a :: b :: rest → mean3 ((v :: l).take 3) = (v + a + b + 1) / 3 := by
  refine ⟨?_, ?_, ?_⟩
  · rintro rfl; rfl
  · rintro a rfl; rfl
  · rintro a b rest rfl; rfl

/-- The gust is the largest mean of the ring (R48). -/
theorem ringMax_largest {ring : List Nat} (held : ring ≠ []) : ringMax ring ∈ ring ∧ ∀ m ∈ ring, m ≤ ringMax ring := by
  obtain ⟨a, rest, rfl⟩ := List.exists_cons_of_ne_nil held
  rw [← List.max?_eq_some_iff, List.max?_cons', ringMax, List.foldl_cons, Nat.zero_max]

/-- Count, speed, triple, ring and gust of a second boundary (R45 to R48). -/
theorem measured_wind : (fe.measured vane rain rainok).count = 0 ∧ (fe.measured vane rain rainok).saturated = false ∧
    (fe.measured vane rain rainok).speed = usedSpeed (rawSpeed fe.count fe.constK) ∧
    (fe.measured vane rain rainok).triple = ((fe.measured vane rain rainok).speed :: fe.triple).take 3 ∧
    (fe.measured vane rain rainok).ring = pushRing fe.ring (mean3 (fe.measured vane rain rainok).triple) ∧
    (fe.measured vane rain rainok).gust = ringMax (fe.measured vane rain rainok).ring :=
  measure_wind vane.toNat rain rainok fe

/-- The gust of a second boundary is the largest mean of its ring, which holds the newest one (R48). -/
theorem measured_gust : (fe.measured vane rain rainok).gust ∈ (fe.measured vane rain rainok).ring ∧
    ∀ m ∈ (fe.measured vane rain rainok).ring, m ≤ (fe.measured vane rain rainok).gust := by
  obtain ⟨-, -, -, -, ring, gust⟩ := measured_wind (fe := fe) (vane := vane) (rain := rain) (rainok := rainok)
  rw [gust]
  exact ringMax_largest (by rw [ring]; exact List.append_ne_nil_of_right_ne_nil _ (List.cons_ne_nil _ _))

/-- The live bits of a second boundary (R46, R50, R52, R53). -/
theorem measured_live : (fe.measured vane rain rainok).word.live =
    { windOver := fe.saturated || decide (600 < rawSpeed fe.count fe.constK)
      vaneInvalid := decide (240 ≤ vane.toNat)
      rainSensor := !rainok
      anemoSilent := decide (fe.silence ≤ (fe.measured vane rain rainok).silent) } := by
  cases rain <;> cases rainok <;> rfl

theorem measured_silent : (fe.measured vane rain rainok).silent =
    if 0 < fe.count ∨ fe.saturated = true then 0 else min 7200 (fe.silent + 1) := by
  have h : (fe.measured vane rain rainok).silent =
      if (decide (0 < fe.count) || fe.saturated) = true then 0 else min 7200 (fe.silent + 1) := by
    cases rain <;> cases rainok <;> rfl
  rw [h]
  simp only [Bool.or_eq_true, decide_eq_true_eq]

theorem measured_bearing : (fe.measured vane rain rainok).bearing =
    if vane.toNat < 240 then some ((vane.toNat * 3 / 2 + fe.vaneOffset) % 360) else fe.bearing := by
  cases rain <;> cases rainok <;> rfl

/-- Without RAINOK the rain state stands and both runs start afresh (R52). -/
theorem measured_unsensed : (fe.measured vane rain false).wet = fe.wet ∧
    (fe.measured vane rain false).wetRun = 0 ∧ (fe.measured vane rain false).dryRun = 0 := ⟨rfl, rfl, rfl⟩

/-- A wet sample lengthens the wet run, and a run as long as the delay makes the state WET (R51). -/
theorem measured_wet : (fe.measured vane true true).wetRun = min 3600 (fe.wetRun + 1) ∧
    (fe.measured vane true true).dryRun = 0 ∧
    ((fe.measured vane true true).wet = true ↔ fe.wet = true ∨ fe.wetDelay ≤ (fe.measured vane true true).wetRun) := by
  have wet : (fe.measured vane true true).wet =
      (fe.wet || decide (fe.wetDelay ≤ (fe.measured vane true true).wetRun)) := rfl
  refine ⟨rfl, rfl, ?_⟩
  rw [wet, Bool.or_eq_true, decide_eq_true_eq]

/-- A dry sample lengthens the dry run, and a run as long as the delay makes the state DRY (R51). -/
theorem measured_dry : (fe.measured vane false true).wetRun = 0 ∧
    (fe.measured vane false true).dryRun = min 3600 (fe.dryRun + 1) ∧
    ((fe.measured vane false true).wet = false ↔
      fe.wet = false ∨ fe.dryDelay ≤ (fe.measured vane false true).dryRun) := by
  have wet : (fe.measured vane false true).wet =
      (fe.wet && !decide (fe.dryDelay ≤ (fe.measured vane false true).dryRun)) := rfl
  refine ⟨rfl, rfl, ?_⟩
  rw [wet, Bool.and_eq_false_iff, Bool.not_eq_false', decide_eq_true_eq]

/-- The condition word of a second boundary: live bits stick, and the enabled ones are the precaution set (R54, R55). -/
theorem measured_conditions :
    (fe.measured vane rain rainok).word.sticky = fe.word.sticky.zip or (fe.measured vane rain rainok).word.live ∧
    (fe.measured vane rain rainok).precaution =
      (fe.measured vane rain rainok).word.live.zip and (fe.measured vane rain rainok).word.enables ∧
    stickyRises (measure vane.toNat rain rainok fe).word =
      (fe.measured vane rain rainok).word.live.zip (fun a b => a && !b) fe.word.sticky := by
  cases rain <;> cases rainok <;> exact ⟨rfl, rfl, rfl⟩

/-! ### The stages of a second boundary, and what follows them (R44, R56) -/

theorem frontEndStages_fe (vane : Byte) (rain rainok : Bool) (s : State) :
    (frontEndStages vane rain rainok s).fe = s.fe.measured vane rain rainok := by
  unfold frontEndStages; dsimp only
  split
  · rw [(Frame.notify (k := id) _ _).fe]; rfl
  · rfl

theorem frontEndStages_clock (vane : Byte) (rain rainok : Bool) (s : State) :
    (frontEndStages vane rain rainok s).clock = s.clock := by
  unfold frontEndStages; dsimp only
  split
  · rw [(Frame.notify (k := id) _ _).clock]
  · rfl

/-- Sticky bits that rise are announced on Port S (R56). -/
theorem frontEndStages_queued (rises : (stickyRises (measure vane.toNat rain rainok s.fe).word).any = true) :
    NoticeQueued [.S] ⟨s.sec, .sensorCondition (s.fe.measured vane rain rainok).word
      (stickyRises (measure vane.toNat rain rainok s.fe).word) true⟩ s (frontEndStages vane rain rainok s) := by
  unfold frontEndStages; dsimp only
  rw [if_pos rises]
  exact notify_queued (s := { s with fe := s.fe.measured vane rain rainok }) [.S] (List.nodup_singleton _) _

/-- What a second boundary of `s` leaves in `t` beside motions, orders and the supervisor's record. -/
structure Measured (vane : Byte) (rain rainok : Bool) (s t : State) : Prop where
  fe     : t.fe = s.fe.measured vane rain rainok
  clock  : t.clock = (beginBoundary vane rain rainok s).clock
  aps    : ∀ i, (t.ap i).position = (s.ap i).position ∧ (t.ap i).fix = (s.ap i).fix
  fire   : t.fire = s.fire
  store  : t.store = s.store
  ports  : ∀ p, PortKept (s.port p) (t.port p)
  queued : (stickyRises (measure vane.toNat rain rainok s.fe).word).any = true →
    NoticeQueued [.S] ⟨t.sec, .sensorCondition t.fe.word (stickyRises (measure vane.toNat rain rainok s.fe).word) true⟩
      s t

/-- A gust update and the end of its event start from new figures and a new supervisor's record, and keep the rest but
motions and orders (R49, R68, R71). -/
theorem gustUpdate_ended (s0 s : State) : ∃ a x, Frame Aperture.stands { s with aps := a, sup := x }
    (finish true s0 (gustUpdate s)) ∧
    ∀ i : ApId, (a[i]).position = (s.ap i).position ∧ (a[i]).fix = (s.ap i).fix := by
  obtain ⟨x, h⟩ : ∃ x, Updated (compute { s with sup := x }) (gustUpdate s) :=
    ⟨{ s.sup with computed := true, gustWord := s.fe.word }, exposureUpdate_updated _⟩
  refine ⟨_, _, h.frame_ended (finish_ended true s0 _), fun i => ?_⟩
  obtain ⟨-, -, -, -, position, fix⟩ := compute_fields i { s with sup := x }
  exact ⟨position, fix⟩

/-- The gust update and the end of its event leave what the stages wrote (R49, R71). -/
theorem secondBoundary_measured (vane : Byte) (rain rainok : Bool) (s : State) :
    ∃ t, exec (.secondBoundary vane rain rainok) s = .next t ∧ Measured vane rain rainok s t := by
  refine ⟨_, rfl, ?_⟩
  have ap := frontEndStages_ap vane rain rainok s
  have ports := frontEndStages_ports vane rain rainok s
  have fe := frontEndStages_fe vane rain rainok (beginBoundary vane rain rainok s)
  have clock := frontEndStages_clock vane rain rainok (beginBoundary vane rain rainok s)
  have queued := frontEndStages_queued (vane := vane) (rain := rain) (rainok := rainok)
    (s := beginBoundary vane rain rainok s)
  obtain ⟨_, _, _, _, rest⟩ := frontEndStages_rest (vane := vane) (rain := rain) (rainok := rainok) s
  generalize frontEndStages vane rain rainok (beginBoundary vane rain rainok s) = v at *
  obtain ⟨a, x, frame, same⟩ := gustUpdate_ended s v
  generalize finish true s (gustUpdate v) = t at *
  refine ⟨frame.fe.trans fe, frame.clock.trans clock, fun i => ?_, frame.fire.trans (by rw [rest]),
    frame.store.trans (by rw [rest]), fun p => (ports p).trans (frame.ports p), fun rises => ?_⟩
  · obtain ⟨fix, position, -⟩ := stands_fields (frame.aps i)
    rw [← ap i, ← (same i).1, ← (same i).2]
    exact ⟨position, fix⟩
  · rw [State.sec, frame.clock.trans clock, frame.fe.trans fe]
    exact NoticeQueued.kept (t := { v with aps := a, sup := x }) (NoticeQueued.since (s := s) rfl (queued rises)) frame

end Sys2Proof.Machine

open Sys2Proof Sys2Proof.Machine

/-- Settles O19: below 2000 a pulse counts, from there on it marks the counter saturated. -/
theorem pinEventsAreCounted : Obligations.PinEventsAreCounted := by
  intro s
  refine ⟨fun room => ?_, fun full => ?_, rfl⟩
  · rw [exec, execAnemoPulse, if_pos room]
  · rw [exec, execAnemoPulse, if_neg (not_lt.2 full)]

/-- Settles O26: the reply is placed behind the notice of the cleared bits. -/
theorem clearConditionsClearsStaleBits : Obligations.ClearConditionsClearsStaleBits := by
  intro s ready
  have served := serve_clearConditions .S (s.askedAt .S .clearConditions [])
  obtain ⟨t, run, placed⟩ := submit_placed (k := .clearConditions) (body := []) ready rfl rfl
    (clearSticky_kept _ .S) served
  have eq := next_inj (run.symm.trans (submit_served (k := .clearConditions) (body := []) ready rfl rfl))
  rw [served] at eq
  obtain ⟨y, rest, others⟩ := placeReply_rest (p := .S) (t := clearSticky (s.askedAt .S .clearConditions []))
    RequestKind.clearConditions.code ⟨.ok, eWord s.fe.unstuck.word, false⟩
  obtain ⟨x, cleared⟩ := clearSticky_rest (s.askedAt .S .clearConditions [])
  have whole : t = { s with fe := s.fe.unstuck, ports := y } := by
    rw [eq]; exact rest.trans (by rw [cleared]; rfl)
  have fe : t.fe = s.fe.unstuck := by rw [whole]
  have other (p : Port) (h : p ≠ .S) : t.port p = s.port p := by
    rw [eq]
    exact (others p h).trans ((clearSticky_port (.inl h)).trans (State.port_modPort_of_ne _ _ _ _ h.symm))
  refine ⟨t, run, fe, by rw [fe]; exact placed.holds, by rw [whole], other .L (by decide), other .K (by decide),
    fun falls => ?_, fun stands => ?_⟩
  · have queued := placed.queued (clearSticky_queued (s := s.askedAt .S .clearConditions []) falls)
    rw [whole] at queued ⊢
    exact queued
  · have untold := clearSticky_port (s := s.askedAt .S .clearConditions []) (p := .S) (.inr stands)
    rw [(placed.notices .S).1, untold, (askedAt_notices .S).1]

/-- Settles O20: the stages are read off the front end they leave. -/
theorem secondBoundaryMeasures : Obligations.SecondBoundaryMeasures := by
  intro s vane rain rainok
  obtain ⟨t, run, h⟩ := secondBoundary_measured vane rain rainok s
  obtain ⟨count, saturated, speed, triple, ring, -⟩ :=
    measured_wind (fe := s.fe) (vane := vane) (rain := rain) (rainok := rainok)
  obtain ⟨largest, most⟩ := measured_gust (fe := s.fe) (vane := vane) (rain := rain) (rainok := rainok)
  obtain ⟨sticky, precaution, rises⟩ :=
    measured_conditions (fe := s.fe) (vane := vane) (rain := rain) (rainok := rainok)
  have live := measured_live (fe := s.fe) (vane := vane) (rain := rain) (rainok := rainok)
  have ms : t.clock.ms = max s.clock.ms (s.clock.nextBoundary * 1000) := by rw [h.clock]; rfl
  have queued := h.queued
  rw [rises] at queued
  refine ⟨t, run, ?_⟩
  rw [h.fe] at queued ⊢
  refine ⟨count, saturated, speed ▸ usedSpeed_cases _, triple, ⟨_, ring, triple ▸ mean3_latest _ _⟩, largest, most,
    by rw [live]; rfl, measured_silent, by rw [live]; exact decide_eq_true_iff, fun valid => ?_, fun invalid => ?_,
    by rw [live], ?_, ?_, ?_, sticky, precaution, rfl, ms, by rw [h.clock]; rfl, h.aps, queued, h.fire, h.store,
    h.ports⟩
  · rw [live, measured_bearing, if_pos valid]
    exact ⟨decide_eq_false (not_le.2 valid), rfl⟩
  · rw [live, measured_bearing, if_neg (not_lt.2 invalid)]
    exact ⟨decide_eq_true invalid, rfl⟩
  · rintro rfl; exact measured_unsensed
  · rintro rfl rfl; exact measured_wet
  · rintro rfl rfl; exact measured_dry

end

