-- ==== Sys2Proof/Proofs/OrderLists.lean ====
section
/-! PROOFS. Every event leaves at most one HALT, one MOVE and one priority POLL listed per aperture, and the run count
in its range (R133, R137, R138). -/

namespace Sys2Proof.Machine

open Sys2Proof

variable {s t u : State} {l : Link}

/-! ### The lists of the link -/

/-- No aperture stands twice on an order list or on the priority POLL list, and the run count is at most 3. -/
structure Link.Single (l : Link) : Prop where
  halts : l.haltList.Nodup
  moves : (l.moveList.map (·.1)).Nodup
  polls : l.priority.Nodup
  run   : l.run ≤ 3

theorem listsSingle_iff (s : State) : s.ListsSingle ↔ s.link.Single :=
  ⟨fun ⟨halts, moves, polls, run⟩ => ⟨halts, moves, polls, run⟩, fun h => ⟨h.halts, h.moves, h.polls, h.run⟩⟩

/-- An element that a list does not hold joins its tail, and nothing stands twice. -/
theorem nodup_join {α : Type} {a : α} {l : List α} (h : l.Nodup) (fresh : a ∉ l) : (l ++ [a]).Nodup := by
  rw [← List.concat_eq_append]; exact h.concat fresh

/-- An element is put at the head of what a list holds beside it. -/
theorem nodup_lead {α : Type} [DecidableEq α] {l : List α} (h : l.Nodup) (a : α) :
    (a :: l.filter fun j => j ≠ a).Nodup :=
  List.nodup_cons.2 ⟨by simp, h.filter _⟩

namespace Link.Single

theorem withdrawMove (h : l.Single) (i : ApId) : (l.withdrawMove i).Single :=
  { h with moves := h.moves.sublist (List.filter_sublist.map _) }

theorem listHalt (h : l.Single) (i : ApId) : (l.listHalt i).Single := by
  refine { h.withdrawMove i with halts := ?_ }
  unfold Link.listHalt; dsimp only
  split
  · exact h.halts
  · next fresh => exact nodup_join h.halts fresh

theorem listMove (h : l.Single) (i : ApId) (t : Nat) : (l.listMove i t).Single := by
  refine { h with moves := ?_ }
  rw [Link.listMove_moveList, List.map_append]
  exact nodup_join (h.withdrawMove i).moves (by simp)

theorem relistMove (h : l.Single) (i : ApId) (t : Nat) : (l.relistMove i t).Single := by
  refine { h with moves := ?_ }
  unfold Link.relistMove; dsimp only
  split
  · have same : (fun m : ApId × Nat => (if m.1 = i then (i, t) else m).1) = (·.1) := by
      funext m
      split
      · next e => exact e.symm
      · rfl
    rw [List.map_map, Function.comp_def, same]
    exact h.moves
  · next unlisted =>
    rw [List.map_append]
    exact nodup_join h.moves (by simpa using unlisted)

theorem takeBack (h : l.Single) (f : InFlight) : (l.takeBack f).Single := by
  rcases l.takeBack_cases f with e | ⟨j, -, e⟩ | ⟨j, t, -, fresh, e⟩ <;> rw [e]
  · exact h
  · exact { h with halts := nodup_lead h.halts j }
  · exact { h with moves := List.nodup_cons.2 ⟨by simpa using fun x mem => fresh (j, x) mem rfl, h.moves⟩ }

/-- An accepted order puts its node at the head of the priority POLL list (R137). -/
theorem accept (h : l.Single) (i : ApId) : Link.Single { l with priority := i :: l.priority.filter fun j => j ≠ i } :=
  { h with polls := nodup_lead h.polls i }

theorem counted (h : l.Single) : l.counted.Single := { h with run := min_le_left 3 _ }

theorem send (h : l.Single) (now : Nat) (x : Exchange) (tag : BitVec 4) : (l.send now x tag).Single := { h with }

end Link.Single

/-! ### Operations that keep the lists -/

/-- From `s` to `t` no list came to hold an aperture twice, and the run count stayed in its range. -/
def KeepsLists (s t : State) : Prop := s.link.Single → t.link.Single

namespace KeepsLists

theorem refl (s : State) : KeepsLists s s := id

theorem trans (h : KeepsLists s u) (g : KeepsLists u t) : KeepsLists s t := g ∘ h

theorem foldl {α : Type} {f : State → α → State} (h : ∀ s x, KeepsLists s (f s x)) (l : List α) (s : State) :
    KeepsLists s (l.foldl f s) := by
  induction l generalizing s with
  | nil => exact .refl s
  | cons x xs ih => exact (h s x).trans (ih _)

theorem ite {c : Prop} [Decidable c] (h : c → KeepsLists s t) (g : ¬ c → KeepsLists s u) :
    KeepsLists s (if c then t else u) := by
  split
  · exact h ‹_›
  · exact g ‹_›

theorem of_link (h : t.link = s.link) : KeepsLists s t := by
  unfold KeepsLists; rw [h]; exact id

theorem notify (ps : List Port) (b : NoticeBody) : KeepsLists s (s.notify ps b) := by
  obtain ⟨x, h⟩ := State.notify_rest (s := s) ps b
  exact of_link (by rw [h])

theorem owe (b : Branch) : KeepsLists s (s.owe b) := of_link (State.owe_link s b)

end KeepsLists

/-! ### Motions (R95 to R128) -/

section
variable (i : ApId) (s : State)

theorem enter_keepsLists (st : MotionState) (f : Aperture → Aperture) : KeepsLists s (enter i st f s) := by
  intro h
  rw [enter_link]
  split
  · exact h.withdrawMove i
  · exact h

theorem toWaiting_keepsLists (m : Motion) : KeepsLists s (toWaiting i m s) :=
  (enter_keepsLists i s _ _).trans (.of_link (callWarning_link i _))

theorem judge_keepsLists : KeepsLists s (judge i s) := by
  unfold judge; dsimp only
  split
  · exact .ite (fun _ => toWaiting_keepsLists i s _) fun _ => .refl s
  · exact .refl s

theorem toRest_keepsLists : KeepsLists s (toRest i s) := (enter_keepsLists i s _ _).trans (judge_keepsLists i _)

theorem toSettling_keepsLists (c : SettleCause) : KeepsLists s (toSettling i c s) := enter_keepsLists i s _ _

theorem toRetryWait_keepsLists : KeepsLists s (toRetryWait i s) := enter_keepsLists i s _ _

theorem toFault_keepsLists (k : FaultKind) : KeepsLists s (toFault i k s) :=
  (enter_keepsLists i s _ _).trans (.notify _ _)

theorem halt_keepsLists (c : HaltCause) : KeepsLists s (halt i c s) :=
  .ite (fun _ h => (enter_keepsLists i s .stopping (fun a =>
    { a with mon := { Monitor.stopped with haltCause := some c } }) h).listHalt i) fun _ => .refl s

theorem retarget_keepsLists (t : Nat) : KeepsLists s (retarget i t s) := fun h => h.relistMove i t

theorem rederive_keepsLists (m : Motion) : KeepsLists s (rederive i m s) :=
  .of_link (by rw [rederive, callWarning_link, refreshWarning_link, State.modAp_link])

theorem steer_keepsLists : KeepsLists s (steer i s) := by
  unfold steer; dsimp only
  split
  · exact .refl s
  · split
    · exact .ite (fun _ => .refl s) fun _ => .ite (fun _ => retarget_keepsLists i s _) fun _ => halt_keepsLists i s _
    · exact halt_keepsLists i s _
    · exact .ite (fun _ => .refl s) fun _ => halt_keepsLists i s _

theorem rejudgeWaiting_keepsLists : KeepsLists s (rejudgeWaiting i s) := by
  unfold rejudgeWaiting; dsimp only
  split
  · exact .ite (fun _ => rederive_keepsLists i s _) fun _ =>
      .ite (fun _ => rederive_keepsLists i s _) fun _ => toRest_keepsLists i s
  · exact toRest_keepsLists i s

theorem handOn_keepsLists : KeepsLists s (handOn i s) := by
  unfold handOn
  split
  · exact judge_keepsLists i s
  · exact rejudgeWaiting_keepsLists i s
  · exact steer_keepsLists i s
  · exact steer_keepsLists i s
  · exact toRest_keepsLists i s
  all_goals exact .refl s

theorem arrive_keepsLists : KeepsLists s (arrive i s) := toRest_keepsLists i (s.modAp i _)

theorem confirmStop_keepsLists (fresh : Bool) : KeepsLists s (confirmStop i fresh s) := by
  unfold confirmStop
  exact .ite (fun _ => .ite (fun _ => .ite (fun _ => arrive_keepsLists i s) fun _ => toRest_keepsLists i s)
      fun _ => toFault_keepsLists i s _)
    fun _ => .ite (fun _ => toSettling_keepsLists i s _) fun _ => toSettling_keepsLists i s _

theorem stall_keepsLists : KeepsLists s (stall i s) := by
  unfold stall
  split
  · exact .ite (fun _ => toSettling_keepsLists i (s.modAp i _) _) fun _ => toFault_keepsLists i (s.modAp i _) _
  · exact toFault_keepsLists i s _

theorem orderBackoff_keepsLists (bp : Nat) : KeepsLists s (orderBackoff i bp s) :=
  .ite (fun _ => toWaiting_keepsLists i s _) fun _ => toRetryWait_keepsLists i s

theorem settled_keepsLists : KeepsLists s (settled i s) := by
  unfold settled; dsimp only
  split
  · exact orderBackoff_keepsLists i s _
  · exact orderBackoff_keepsLists i s _
  · exact toRest_keepsLists i s

theorem releaseHeld_keepsLists : KeepsLists s (releaseHeld i s) :=
  .ite (fun _ => .owe (s := s.modAp i _) _) fun _ => .refl s

theorem toOnline_keepsLists : KeepsLists s (toOnline i s) :=
  (releaseHeld_keepsLists i s).trans ((enter_keepsLists i _ _ _).trans (.notify _ _))

/-! ### Admission and the end of an event (R101 to R109) -/

variable (b : Branch)

theorem admitMotion_keepsLists : KeepsLists s (admitMotion b i s) := fun h =>
  (enter_keepsLists i s .starting _ h).listMove i _

theorem admitFirst_keepsLists (es : List WaitEntry) : KeepsLists s (admitFirst b es s).1 := by
  unfold admitFirst
  split
  · exact .refl s
  · split
    · exact .refl s
    · exact admitMotion_keepsLists _ s b

theorem attemptOpen_keepsLists (es : List WaitEntry) : KeepsLists s (attemptOpen b es s).1 := by
  unfold attemptOpen
  split
  · exact .refl s
  · split
    · split
      · exact (KeepsLists.foldl (fun v i => halt_keepsLists i v _) _ s).trans (.of_link (State.reserve_link _ b _))
      · exact admitFirst_keepsLists s b _
    · exact admitFirst_keepsLists s b _

theorem attempt_keepsLists : KeepsLists s (attempt b s).1 := by
  unfold attempt; dsimp only
  split
  · exact attemptOpen_keepsLists s b _
  · split
    all_goals
      split
      · exact attemptOpen_keepsLists (s.reserve b none) b _
      · split
        · split
          · exact admitMotion_keepsLists _ s b
          · exact .refl s
        · exact .refl s

theorem runAttempts_keepsLists (n : Nat) : KeepsLists s (runAttempts b n s) := by
  induction n generalizing s with
  | zero => exact .refl s
  | succ n ih =>
    have h := attempt_keepsLists s b
    unfold runAttempts
    split
    · next v e => rw [e] at h; exact h.trans (ih v)
    · next v e => rw [e] at h; exact h

theorem settleAttempts_keepsLists : KeepsLists s (settleAttempts s) :=
  KeepsLists.foldl (fun v c => .ite (fun _ => runAttempts_keepsLists v c _) fun _ => .refl v) allBranches s

theorem checkReservation_keepsLists : KeepsLists s (checkReservation s b) := by
  unfold checkReservation
  split
  · exact .refl s
  · split
    · exact .ite (fun _ => .refl s) fun _ => .owe (s := s.reserve b none) b
    · exact .owe (s := s.reserve b none) b

theorem projectBranch_keepsLists : KeepsLists s (projectBranch s b) := by
  unfold projectBranch; dsimp only
  split
  · refine KeepsLists.trans ?_ (.notify _ _)
    exact .of_link rfl
  · refine KeepsLists.trans (KeepsLists.trans ?_ (.notify _ _)) (.owe b)
    exact .of_link rfl
  · exact .of_link rfl

theorem finish_keepsLists (update : Bool) (s0 : State) : KeepsLists s (finish update s0 s) := by
  unfold finish; dsimp only
  refine KeepsLists.trans ?_ (settleAttempts_keepsLists _)
  refine KeepsLists.trans ?_ (.of_link (State.draw_link _))
  refine KeepsLists.trans ?_ (.foldl (fun v c => .ite (fun _ => .refl v) fun _ => .owe c) _ _)
  refine KeepsLists.trans ?_ (.foldl (fun v c => checkReservation_keepsLists v c) _ _)
  have count (v : State) : KeepsLists v (countChange s0 v) := .ite (fun _ => .refl v) fun _ => .of_link rfl
  exact .trans (.ite (fun _ => .foldl (fun v c => projectBranch_keepsLists v c) _ s) fun _ => .refl s) (count _)

/-! ### Orders (R22 to R35, R148 to R153) -/

theorem resolve_keepsLists : KeepsLists s (resolve i s) := by
  rcases resolve_cases i s with ⟨-, e⟩ | ⟨v, -, rest, -, e⟩ <;> rw [e]
  · exact .of_link (refreshEntry_link i s)
  · have link : v.link = s.link := by rw [← rest]
    exact .trans (.of_link link) ((handOn_keepsLists i v).trans (.of_link (refreshEntry_link i _)))

theorem putResolve_keepsLists (c : OrderClass) (x : Option Slot) : KeepsLists s (resolve i (putSlot i c x s)) :=
  resolve_keepsLists i (putSlot i c x s)

theorem releaseOrder_keepsLists (p : Port) : KeepsLists s (releaseOrder p i s) := by
  unfold releaseOrder
  split
  · exact .refl s
  · exact putResolve_keepsLists i s _ _

theorem postAlarm_keepsLists (r : Bool) : KeepsLists s (postAlarm r s i) := by
  unfold postAlarm; dsimp only
  split
  · exact putResolve_keepsLists i s _ _
  · exact .refl s

theorem dropAlarm_keepsLists : KeepsLists s (dropAlarm s i) :=
  .ite (fun _ => putResolve_keepsLists i s _ _) fun _ => .refl s

theorem claimOn_keepsLists : KeepsLists s (claimOn s i) := by
  unfold claimOn
  split
  · refine .trans (.of_link ?_) (resolve_keepsLists i _)
    rw [cancelOpening_link, cancelOpening_link]; rfl
  · exact .refl s

theorem dropClaim_keepsLists : KeepsLists s (dropClaim s i) :=
  .ite (fun _ => putResolve_keepsLists i (s.modAp i _) _ _) fun _ => .refl s

theorem expireRoom_keepsLists (x : Slot) (e : Nat) : KeepsLists s (expireRoom i x e s) :=
  KeepsLists.trans (.notify (s := putSlot i .room (some ⟨.pos 0, .port .K, e, none⟩) s) _ _) (resolve_keepsLists i _)

/-! ### The end of an exchange (R133 to R143) -/

theorem writePosition_keepsLists (p : Nat) : KeepsLists s (writePosition i p s) := by
  unfold writePosition; dsimp only
  split
  · exact .notify (s := (s.modAp i _).dropEntry i) _ _
  · exact .of_link (refreshEntry_link i _)

theorem rejudgePosition_keepsLists : KeepsLists s (rejudgePosition i s) :=
  .ite (fun _ => .refl s) fun _ => toRest_keepsLists i s

theorem driveStatus_keepsLists (r : LinkReply) : KeepsLists s (driveStatus i r s) := by
  refine .ite (fun _ => stall_keepsLists i s) fun _ => .ite (fun _ => .refl s) fun _ => ?_
  split
  · exact toRetryWait_keepsLists i s
  · exact arrive_keepsLists i s

theorem faultStatus_keepsLists (r : LinkReply) : KeepsLists s (faultStatus i r s) := by
  unfold faultStatus
  split
  · exact .ite (fun _ => .refl s) fun _ => toRest_keepsLists i s
  · exact .refl s

theorem freshStatus_keepsLists (r : LinkReply) : KeepsLists s (freshStatus i r s) := by
  have wrote := writePosition_keepsLists i s r.writes
  unfold freshStatus; dsimp only
  split
  · exact .refl s
  · exact .refl s
  · exact .ite (fun _ => .refl s) fun _ => wrote.trans (toRest_keepsLists i _)
  · exact wrote.trans (judge_keepsLists i _)
  · exact wrote.trans (rejudgePosition_keepsLists i _)
  · exact wrote.trans (driveStatus_keepsLists i _ r)
  · exact wrote.trans (driveStatus_keepsLists i _ r)
  · exact .ite (fun _ => wrote) fun _ => wrote.trans (confirmStop_keepsLists i _ true)
  · exact wrote
  · exact wrote
  · exact wrote.trans (faultStatus_keepsLists i _ r)

theorem missed_keepsLists (f : InFlight) : KeepsLists s (missed i f s) := fun h => by
  rw [missed_link]; exact h.takeBack f

theorem acceptOrder_keepsLists (tag : BitVec 4) : KeepsLists s (acceptOrder i tag s) := fun h => h.accept i

theorem strayHalt_keepsLists : KeepsLists s (strayHalt i s) := fun h => h.listHalt i

theorem moveReplied_keepsLists (f : InFlight) (r : LinkReply) : KeepsLists s (moveReplied i f r s) := by
  refine .ite (fun _ => .ite (fun _ => toFault_keepsLists i s _) fun _ => .refl s) fun _ => ?_
  have travel (v : State) : KeepsLists v (startTravel i v) := .ite (fun _ => .of_link rfl) fun _ => .refl v
  have accepted := (acceptOrder_keepsLists i s f.tag).trans (travel _)
  exact .ite (fun _ => accepted) fun _ => accepted.trans (strayHalt_keepsLists i _)

theorem pollReplied_keepsLists (r : LinkReply) : KeepsLists s (pollReplied i r s) :=
  .ite (fun _ => (freshStatus_keepsLists i s r).trans (strayHalt_keepsLists i _)) fun _ => freshStatus_keepsLists i s r

theorem replied_keepsLists (f : InFlight) (r : LinkReply) : KeepsLists s (replied i f r s) := by
  have contact : KeepsLists s (renewContact i s) := .of_link rfl
  have online (c : Prop) [Decidable c] : KeepsLists s (if c then toOnline i (renewContact i s) else renewContact i s) :=
    .ite (fun _ => contact.trans (toOnline_keepsLists i _)) fun _ => contact
  have taught (c : Prop) [Decidable c] (v : State) : KeepsLists v (if c then learnTag i r.tag v else v) :=
    .ite (fun _ => .of_link rfl) fun _ => .refl v
  unfold replied; dsimp only
  refine KeepsLists.trans ((online (decide ((s.ap i).state = .offline) = true)).trans
    (taught ((s.ap i).orderTag.isNone = true) _)) ?_
  generalize (if (s.ap i).orderTag.isNone = true then learnTag i r.tag _ else _) = v
  split
  · exact moveReplied_keepsLists i _ f r
  · exact acceptOrder_keepsLists i _ f.tag
  · exact .ite (fun _ => pollReplied_keepsLists i _ r) fun _ => .refl _
  · exact .refl _

end

theorem complete_keepsLists (f : InFlight) (reply : List Byte) (s : State) : KeepsLists s (complete f reply s) := by
  have ended : KeepsLists s { s with link := { s.link with inFlight := none } } := fun h => { h with }
  unfold complete
  split
  · exact ended
  · split
    · exact ended.trans (missed_keepsLists _ _ f)
    · exact ended.trans (replied_keepsLists _ _ f _)

theorem nodeTimeout_keepsLists (i : ApId) (s : State) : KeepsLists s (nodeTimeout i s) := by
  unfold nodeTimeout; dsimp only
  refine KeepsLists.trans (u := s.modAp i fun a => { a with node := { a.node with contactTimer := none } })
    (.of_link rfl) ?_
  split
  · exact .ite (fun _ => releaseHeld_keepsLists i _) fun _ => .refl _
  · exact confirmStop_keepsLists i _ false
  · exact .refl _

/-! ### The arbiter (R139) -/

theorem sendOrder_keepsLists (i : ApId) (x : Exchange) (s : State) : KeepsLists s (sendOrder i x s) :=
  fun h => h.counted.send _ x _

theorem sendPoll_keepsLists (i : ApId) (s : State) : KeepsLists s (sendPoll i s) := by
  intro h
  have polled : Link.Single { s.link with run := 0, priority := s.link.priority.filter fun j => j ≠ i } :=
    { h with polls := h.polls.filter _, run := Nat.zero_le 3 }
  unfold sendPoll; dsimp only
  split
  · exact polled.send _ _ _
  · exact polled.send _ _ _

theorem pollNext_keepsLists (s : State) : KeepsLists s (pollNext s) := by
  unfold pollNext
  split
  · exact sendPoll_keepsLists _ s
  · next i _ _ => exact fun h => sendPoll_keepsLists i { s with link := { s.link with ring := i + 1 } } { h with }
  · exact .refl s

theorem arbitrate_keepsLists (s : State) : KeepsLists s (arbitrate s) := by
  intro h
  unfold arbitrate
  split
  · exact Link.Single.send (Link.Single.counted (l := { s.link with broadcast := false }) { h with }) _ _ _
  · split
    · exact pollNext_keepsLists s h
    · split
      · next halts => exact sendOrder_keepsLists _ _ _ { h with halts := (List.nodup_cons.1 (halts ▸ h.halts)).2 }
      · next moves =>
        have rest := h.moves
        rw [moves, List.map_cons] at rest
        exact sendOrder_keepsLists _ _ _ { h with moves := (List.nodup_cons.1 rest).2 }
      · exact pollNext_keepsLists s h

theorem startSlot_keepsLists (s : State) : KeepsLists s (startSlot s) := fun h =>
  arbitrate_keepsLists { s.advanceTo s.link.nextSlot with link :=
    { s.link with nextSlot := (s.advanceTo s.link.nextSlot).clock.ms + Config.slotMs } } { h with }

end Sys2Proof.Machine

end

