-- ==== Sys2Proof/Proofs/BoundedForms.lean ====
section
/-! PROOFS. Events, resets and strobes keep notice queues, held strobes, the Gust Ring, the order lists and the store's
contents in form (R48, R133, R137, R138, R156, R159, R162, R168). -/

namespace Sys2Proof.Machine

open Sys2Proof

variable {s t u : State} {p : Port} {r q : PortRec}

/-! ### What an operation keeps of a port -/

/-- From `r` to `q` a port's notices stayed within their bound, and a strobe is held in PENDING alone if it was. -/
structure PortFormed (r q : PortRec) : Prop where
  notices : r.notices.length ≤ Config.noticeCapacity → q.notices.length ≤ Config.noticeCapacity
  wait    : (r.wait = true → r.state = .pending) → q.wait = true → q.state = .pending

namespace PortFormed

theorem refl (r : PortRec) : PortFormed r r := ⟨id, id⟩

theorem of_kept (h : PortKept r q) : PortFormed r q := by
  obtain ⟨state, _, _, _, _, _, _, _, _, _, held, _⟩ := h.fields
  exact ⟨h.bound, by rw [PortRec.wait, PortRec.wait, state, held]; exact id⟩

/-- A port in PENDING may hold a strobe. -/
theorem of_pending (notices : q.notices = r.notices) (st : q.state = .pending) : PortFormed r q :=
  ⟨fun h => notices ▸ h, fun _ _ => st⟩

theorem of_unheld (notices : q.notices = r.notices) (held : q.held = none) : PortFormed r q :=
  ⟨fun h => notices ▸ h, fun _ w => by rw [PortRec.wait, held] at w; cases w⟩

/-- Outside PENDING no strobe is held, and none comes to be. -/
theorem of_free (notices : q.notices = r.notices) (held : q.held = r.held) (st : r.state ≠ .pending) : PortFormed r q :=
  ⟨fun h => notices ▸ h, fun form w => absurd (form (by rw [PortRec.wait, ← held]; exact w)) st⟩

end PortFormed

theorem begin_formed (now : Nat) (b : Byte) (st : r.state ≠ .pending) : PortFormed r (r.begin now b) :=
  .of_free rfl rfl st

theorem append_formed (now : Nat) (b : Byte) (st : r.state ≠ .pending) : PortFormed r (r.append now b) := by
  unfold PortRec.append PortRec.startGap; dsimp only
  split
  · exact .of_free rfl rfl st
  · split <;> exact .of_free rfl rfl st

theorem hold_fields (r : PortRec) (x : Strobe) : (r.hold x).notices = r.notices ∧ (r.hold x).state = r.state := by
  unfold PortRec.hold
  split <;> exact ⟨rfl, rfl⟩

theorem read_fields (r : PortRec) : r.read.notices = r.notices ∧ r.read.held = r.held := by
  unfold PortRec.read
  split <;> exact ⟨rfl, rfl⟩

theorem hold_formed (x : Strobe) (st : r.state = .pending) : PortFormed r (r.hold x) :=
  .of_pending (hold_fields r x).1 ((hold_fields r x).2.trans st)

theorem readStrobe_formed (r : PortRec) : PortFormed r (if r.state = .pending then r.hold .read else r.read) := by
  split
  · next st => exact hold_formed .read st
  · next st => exact .of_free (read_fields r).1 (read_fields r).2 st

theorem endHeld_formed (r : PortRec) : PortFormed r r.endHeld := by
  unfold PortRec.endHeld
  split
  · exact .refl r
  · exact .of_unheld rfl rfl
  · exact .of_unheld rfl rfl

/-- A reply placed leaves no strobe held (R158, R159). -/
theorem placed_formed (r : PortRec) (kind : Byte) (x : Reply) (now : Nat) :
    PortFormed r ((r.place kind x).release now) := by
  unfold PortRec.release
  split
  · next h => exact .of_unheld rfl h
  · exact .of_unheld (read_fields _).1 (read_fields _).2
  · exact .of_unheld rfl rfl

/-- A notice read leaves a shorter queue (R164). -/
theorem noticeRead_formed (r : PortRec) : PortFormed r { r with notices := r.notices.drop 1, nlost := false } :=
  ⟨fun h => by rw [List.length_drop]; omega, id⟩

/-! ### What an operation keeps of the part -/

/-- From `s` to `t` the bounds of R48, R133, R137, R138, R159 and R162 were kept, and the store's canonical form. -/
structure KeepsForm (s t : State) : Prop where
  notices : s.NoticesBounded → t.NoticesBounded
  wait    : s.WaitOnlyPending → t.WaitOnlyPending
  ring    : s.RingBounded → t.RingBounded
  lists   : s.ListsSingle → t.ListsSingle
  store   : s.store.wf = true → t.store.wf = true

namespace KeepsForm

theorem refl (s : State) : KeepsForm s s := ⟨id, id, id, id, id⟩

theorem trans (h : KeepsForm s u) (g : KeepsForm u t) : KeepsForm s t :=
  ⟨g.notices ∘ h.notices, g.wait ∘ h.wait, g.ring ∘ h.ring, g.lists ∘ h.lists, g.store ∘ h.store⟩

theorem foldl {α : Type} {f : State → α → State} (h : ∀ s x, KeepsForm s (f s x)) (l : List α) (s : State) :
    KeepsForm s (l.foldl f s) := by
  induction l generalizing s with
  | nil => exact .refl s
  | cons x xs ih => exact (h s x).trans (ih _)

/-- Each part kept on its own. -/
theorem of_parts (ports : ∀ p, PortFormed (s.port p) (t.port p)) (ring : s.RingBounded → t.RingBounded)
    (lists : KeepsLists s t) (store : s.store.wf = true → t.store.wf = true) : KeepsForm s t where
  notices h p := (ports p).notices (h p)
  wait h p := (ports p).wait (h p)
  ring := ring
  lists h := (listsSingle_iff t).2 (lists ((listsSingle_iff s).1 h))
  store := store

/-- An event that reaches ports by notices, and neither front end nor store. -/
theorem of_kept (ports : ∀ p, PortKept (s.port p) (t.port p)) (fe : t.fe = s.fe) (store : t.store = s.store)
    (lists : KeepsLists s t) : KeepsForm s t :=
  of_parts (fun p => .of_kept (ports p)) (by unfold State.RingBounded; rw [fe]; exact id) lists
    (by rw [store]; exact id)

theorem of_frame {k : Aperture → Aperture} (f : Frame k s t) (lists : KeepsLists s t) : KeepsForm s t :=
  of_kept f.ports f.fe f.store lists

/-- A change of neither ports, front end, link nor store. -/
theorem elsewhere (ports : t.ports = s.ports) (fe : t.fe = s.fe) (link : t.link = s.link) (store : t.store = s.store) :
    KeepsForm s t :=
  of_kept (fun p => by rw [State.port, State.port, ports]; exact .refl _) fe store (.of_link link)

/-- One port is written. -/
theorem modPort {f : PortRec → PortRec} (h : PortFormed (s.port p) (f (s.port p))) : KeepsForm s (s.modPort p f) := by
  refine of_parts (fun q => ?_) id (.refl s) id
  rw [State.port_modPort]
  split
  · next e => subst e; exact h
  · exact .refl _

theorem withStore (x : Store) (h : s.store.wf = true → x.wf = true) : KeepsForm s { s with store := x } :=
  of_parts (fun p => .refl (s.port p)) id id h

/-- The front end is written. -/
theorem withFrontEnd (x : FrontEnd) (h : s.fe.ring.length ≤ 120 → x.ring.length ≤ 120) :
    KeepsForm s { s with fe := x } :=
  of_parts (fun p => .refl (s.port p)) h id id

theorem advanceTo (n : Nat) (s : State) : KeepsForm s (s.advanceTo n) := .elsewhere rfl rfl rfl rfl

theorem notify (ps : List Port) (b : NoticeBody) (s : State) : KeepsForm s (s.notify ps b) :=
  of_frame (Frame.notify (k := id) ps b) (.notify ps b)

end KeepsForm

theorem finish_keepsForm (update : Bool) (s0 s : State) : KeepsForm s (finish update s0 s) :=
  .of_frame (finish_frame s update s0) (finish_keepsLists s update s0)

theorem event_keepsForm {f : State → State} (h : KeepsForm s (f s)) : KeepsForm s (event f s) :=
  h.trans (finish_keepsForm false s (f s))

/-! ### Fire, weather and the front end (R48, R69, R76, R147 to R153) -/

theorem fireLevel_keepsForm (s : State) : KeepsForm s (fireLevel s) := by
  have state (x : FireState) : KeepsForm s { s with fire := { s.fire with state := x } } := .elsewhere rfl rfl rfl rfl
  have alarm (r : Bool) (v : State) : KeepsForm v (allAps.foldl (postAlarm r) v) :=
    .foldl (fun w i => .of_frame (postAlarm_frame i w r) (postAlarm_keepsLists i w r)) _ v
  unfold fireLevel
  split
  · exact ((state _).trans (alarm false _)).trans (.notify _ _ _)
  · exact ((state _).trans (alarm true _)).trans (.notify _ _ _)
  · exact (state _).trans (.notify _ _ _)
  · exact .refl s

theorem debounced_keepsForm (s : State) : KeepsForm s (debounced s) := by
  have fire (x : Fire) : KeepsForm s { s with fire := x } := .elsewhere rfl rfl rfl rfl
  unfold debounced; dsimp only
  split
  · exact fire _
  · exact (fire _).trans (fireLevel_keepsForm _)

theorem restoreFire_keepsForm (s : State) : KeepsForm s (restoreFire s) :=
  KeepsForm.trans (u := { s with fire := { s.fire with state := .normal } }) (.elsewhere rfl rfl rfl rfl)
    ((KeepsForm.foldl (fun v i => .of_frame (dropAlarm_frame i v) (dropAlarm_keepsLists i v)) allAps _).trans
      (.notify _ _ _))

/-- An exposure update hands claims on to the motions, and touches no list otherwise. -/
theorem exposureUpdate_keepsLists (s : State) : KeepsLists s (exposureUpdate s) := by
  have announced (old w : Weather) (v : State) : KeepsLists v (announceWeather old w v) := by
    obtain ⟨x, rest⟩ := announceWeather_rest old w v
    exact .of_link (by rw [rest])
  have recorded (v : State) (c : Prop) [Decidable c] (x : Trigger) :
      KeepsLists v (if c then { v with sup := { v.sup with trigger := some x } } else v) :=
    .ite (fun _ => .of_link rfl) fun _ => .refl v
  have renewed (l : List ApId) (v : State) : KeepsLists v (resortQueue (renewClaims l v)) := by
    obtain ⟨x, rest⟩ := renewClaims_rest l v
    exact .of_link (by rw [rest]; rfl)
  have claimed (v : State) (c : Prop) [Decidable c] : KeepsLists v (if c then allAps.foldl claimOn v else v) :=
    .ite (fun _ => .foldl (fun w i => claimOn_keepsLists i w) _ v) fun _ => .refl v
  unfold exposureUpdate; dsimp only
  refine KeepsLists.trans ?_ (announced _ _ _)
  refine KeepsLists.trans ?_ (recorded _ _ _)
  refine KeepsLists.trans ?_ (renewed _ _)
  refine KeepsLists.trans ?_ (claimed _ _)
  exact .of_link rfl

/-- A computation with its exposure update. -/
theorem updated_keepsForm (s : State) : KeepsForm s (exposureUpdate (compute s)) :=
  have f := exposureUpdate_frame (compute s)
  .of_kept f.ports f.fe f.store (.trans (u := compute s) (.of_link rfl) (exposureUpdate_keepsLists _))

theorem gustUpdate_keepsForm (s : State) : KeepsForm s (gustUpdate s) :=
  KeepsForm.trans (u := { s with sup := { s.sup with computed := true, gustWord := s.fe.word } })
    (.elsewhere rfl rfl rfl rfl) (updated_keepsForm _)

theorem changeAdvisory_keepsForm (a : Option Advisory) (s : State) : KeepsForm s (changeAdvisory a s) := by
  have record : KeepsForm s { s with sup := { s.sup with advisory := a } } := .elsewhere rfl rfl rfl rfl
  unfold changeAdvisory advisoryChanged
  refine KeepsForm.trans ?_ (finish_keepsForm _ _ _)
  split
  · exact record.trans (updated_keepsForm _)
  · exact record

theorem endHolding_keepsForm (s : State) : KeepsForm s (endHolding s) := by
  have dropped : KeepsForm s (allAps.foldl dropClaim s) :=
    .foldl (fun v i => .of_frame (dropClaim_frame i v) (dropClaim_keepsLists i v)) _ s
  have judged (w : Weather) (v : State) : KeepsForm v (setWeather w v) := .elsewhere rfl rfl rfl rfl
  have announced (old w : Weather) (v : State) : KeepsForm v (announceWeather old w v) := by
    obtain ⟨x, rest⟩ := announceWeather_rest old w v
    exact .of_frame (announceWeather_frame (k := id) v old w) (.of_link (by rw [rest]))
  unfold endHolding
  exact (dropped.trans (judged _ _)).trans (announced _ _ _)

/-- The stages of a second boundary write a mean into the ring, which keeps 120 of them (R48). -/
theorem frontEndStages_keepsForm (vane : Byte) (rain rainok : Bool) (s : State) :
    KeepsForm s (frontEndStages vane rain rainok (beginBoundary vane rain rainok s)) := by
  refine .of_parts (fun p => .of_kept (frontEndStages_ports vane rain rainok s p)) (fun h => ?_) ?_ ?_
  · obtain ⟨-, -, -, -, ring, -⟩ := measured_wind (fe := s.fe) (vane := vane) (rain := rain) (rainok := rainok)
    unfold State.RingBounded
    rw [frontEndStages_fe]
    exact (congrArg List.length ring).trans_le (pushRing_length _ _ h)
  all_goals obtain ⟨_, _, _, _, rest⟩ := frontEndStages_rest (vane := vane) (rain := rain) (rainok := rainok) s
  · exact .of_link (by rw [rest])
  · rw [rest]; exact id

/-! ### Resets (R144, R165 to R167, R176) -/

/-- A load empties the lists, and leaves ports, ring and store. -/
theorem loadTables_keepsForm (s : State) : KeepsForm s (loadTables s) := by
  obtain ⟨-, -, ports, store, -⟩ := loadTables_rest s
  refine .of_parts (fun p => by rw [State.port, State.port, ports]; exact .refl _) (fun h => ?_) (fun _ => ?_)
    (by rw [store]; exact id)
  · unfold State.RingBounded
    obtain ⟨-, -, -, -, ring, -⟩ := loadFrontEnd_rest s.store s.fe
    rw [loadTables_fe_eq, ring]
    exact h
  · rw [loadTables_link]
    exact ⟨List.nodup_nil, List.nodup_nil, List.nodup_nil, Nat.zero_le 3⟩

theorem announceReset_keepsForm (kind : ResetKind) (reason : RestartReason) (s : State) :
    KeepsForm s (announceReset kind reason s) := by
  obtain ⟨x, rest⟩ := announceReset_rest s kind reason
  exact .of_frame (announceReset_frame (k := id) s kind reason) (.of_link (by rw [rest]))

/-- POR and PIN reset empty ports and ring, and abort the store's operation (R165, R176). -/
theorem hardReset_keepsForm (kind : ResetKind) (cmsn : Bool) (sticky : Cond) (trigger : Option Trigger) (s : State) :
    KeepsForm s (hardReset kind cmsn sticky trigger s) := by
  rw [hardReset_eq]
  have cleared : KeepsForm s (clearedPart cmsn sticky trigger s) := by
    refine .of_parts (fun p => ?_) (fun _ => Nat.zero_le 120) id (fun h => Store.abortOp_wf h)
    rw [clearedPart_port]
    exact ⟨fun _ => Nat.zero_le _, fun _ w => by cases w⟩
  exact (cleared.trans (loadTables_keepsForm _)).trans (announceReset_keepsForm _ _ _)

theorem doRestart_keepsForm (reason : RestartReason) (s : State) : KeepsForm s (doRestart reason s) := by
  have idle : KeepsForm s { s with store := { s.store with mode := .none } } := .withStore _ id
  exact (idle.trans (loadTables_keepsForm _)).trans (announceReset_keepsForm _ _ _)

end Sys2Proof.Machine

end

