-- ==== Sys2Proof/Proofs/FormedSteps.lean ====
section
/-! PROOFS. Requests, expiries and every command keep the part in form: O5. -/

namespace Sys2Proof.Machine

open Sys2Proof

variable {s t : State} {p : Port}

/-! ### Requests (section 10.3) -/

theorem serveOrder_keepsForm (p : Port) (body : List Byte) (s : State) : KeepsForm s (serveOrder p body s).1 := by
  unfold serveOrder
  split
  · exact .refl s
  · split
    · exact .refl s
    · split
      · exact .refl s
      · split
        · exact .refl s
        · exact event_keepsForm (.of_frame (postOrder_frame _ s _ _) (putResolve_keepsLists _ s _ _))

theorem serveOrderZone_keepsForm (p : Port) (body : List Byte) (s : State) :
    KeepsForm s (serveOrderZone p body s).1 := by
  unfold serveOrderZone
  split
  · exact .refl s
  · split
    · exact .refl s
    · split
      · exact .refl s
      · next y _ _ =>
        exact event_keepsForm (f := fun v => List.foldl (fun v' i => postOrder p i y v') v _)
          (.foldl (fun v i => .of_frame (postOrder_frame i v p y) (putResolve_keepsLists i v _ _)) _ s)

theorem serveRelease_keepsForm (p : Port) (body : List Byte) (s : State) : KeepsForm s (serveRelease p body s).1 := by
  unfold serveRelease
  split
  · exact .refl s
  · split
    · exact .refl s
    · exact event_keepsForm (.of_frame (releaseOrder_frame _ s p) (releaseOrder_keepsLists _ s p))

theorem clearFaultOf_keepsLists (i : ApId) (s : State) : KeepsLists s (clearFaultOf i s) := by
  unfold clearFaultOf
  split
  · exact toRest_keepsLists i (s.modAp i _)
  · exact toRest_keepsLists i s
  · exact .refl s

theorem serveClearFault_keepsForm (p : Port) (body : List Byte) (s : State) :
    KeepsForm s (serveClearFault p body s).1 := by
  unfold serveClearFault
  split
  · exact .refl s
  · split
    · exact .refl s
    · exact event_keepsForm (.of_frame (clearFaultOf_frame _ s) (clearFaultOf_keepsLists _ s))

theorem serveAlarmRestore_keepsForm (s : State) : KeepsForm s (serveAlarmRestore s).1 := by
  unfold serveAlarmRestore
  split
  · exact .refl s
  · exact .refl s
  · exact event_keepsForm (restoreFire_keepsForm s)

theorem serveAdvisoryCancel_keepsForm (s : State) : KeepsForm s (serveAdvisoryCancel s).1 := by
  unfold serveAdvisoryCancel answer; dsimp only
  split
  · exact changeAdvisory_keepsForm none s
  · exact .refl s

theorem clearSticky_keepsForm (s : State) : KeepsForm s (clearSticky s) := by
  have cleared : KeepsForm s { s with fe := s.fe.unstuck } := .withFrontEnd _ id
  rw [clearSticky_eq]
  split
  · exact cleared.trans (.notify _ _ _)
  · exact cleared

theorem serveRestart_keepsForm (s : State) : KeepsForm s (serveRestart s).1 := by
  unfold serveRestart
  split
  · exact .refl s
  · exact doRestart_keepsForm _ s

theorem serveLeaveCommissioning_keepsForm (s : State) : KeepsForm s (serveLeaveCommissioning s).1 := by
  have left : KeepsForm s { s with store := { s.store with commissioning := false } } := .withStore _ id
  unfold serveLeaveCommissioning
  split
  · exact .refl s
  · split
    · exact left.trans (doRestart_keepsForm _ _)
    · exact .refl s

theorem serveStoreMode_keepsForm (body : List Byte) (s : State) : KeepsForm s (serveStoreMode body s).1 := by
  unfold serveStoreMode
  split
  · exact .refl s
  · split
    · exact .refl s
    · split
      · exact .withStore _ id
      · exact .refl s

theorem serveStoreAct_keepsForm (body : List Byte) (s : State) : KeepsForm s (serveStoreAct body s).1 := by
  unfold serveStoreAct
  split
  · exact .refl s
  · split
    · exact .refl s
    · exact .withStore _ id

theorem serveLock_keepsForm (body : List Byte) (s : State) : KeepsForm s (serveLock body s).1 := by
  unfold serveLock
  split
  case h_4 => exact .refl s
  all_goals exact .withStore _ id

/-- Serving a request keeps the part in form. -/
theorem serve_keepsForm (k : RequestKind) (p : Port) (body : List Byte) (s : State) :
    KeepsForm s (serve k p body s).1 := by
  cases k
  case order => exact serveOrder_keepsForm p body s
  case orderZone => exact serveOrderZone_keepsForm p body s
  case release => exact serveRelease_keepsForm p body s
  case clearFault => exact serveClearFault_keepsForm p body s
  case advisory => exact changeAdvisory_keepsForm _ s
  case advisoryCancel => exact serveAdvisoryCancel_keepsForm s
  case clearConditions => exact clearSticky_keepsForm s
  case restart => exact serveRestart_keepsForm s
  case alarmRestore => exact serveAlarmRestore_keepsForm s
  case nextNotice =>
    exact .modPort (f := fun r => { r with notices := r.notices.drop 1, nlost := false }) (noticeRead_formed _)
  case storeMode => exact serveStoreMode_keepsForm body s
  case storeAct => exact serveStoreAct_keepsForm body s
  case lock => exact serveLock_keepsForm body s
  case leaveCommissioning => exact serveLeaveCommissioning_keepsForm s
  all_goals
    rw [serve_query _ p body s (by decide)]
    exact .refl s

/-! ### Bytes written, requests taken and answered (R156 to R159, R172) -/

theorem placeReply_keepsForm (p : Port) (kind : Byte) (x : Served) : KeepsForm x.1 (placeReply p kind x) := by
  rcases x with ⟨v, _ | reply⟩
  · exact .refl v
  · exact .modPort (f := fun r => (r.place kind reply).release v.clock.ms) (placed_formed _ kind reply _)

theorem servePending_keepsForm (p : Port) (s : State) : KeepsForm s (servePending p s) := by
  have served (kind : Byte) (body : List Byte) : KeepsForm s (serveRequest p kind body s).1 := by
    unfold serveRequest
    split
    · exact serve_keepsForm _ p body s
    · exact .refl s
  unfold servePending
  split
  · exact (served _ _).trans (placeReply_keepsForm p _ _)
  · exact .refl s

theorem assemble_keepsForm (b : Byte) (st : (s.port p).state = .assembling) : KeepsForm s (assemble p b s) := by
  have added : KeepsForm s (s.modPort p fun r => r.append s.clock.ms b) :=
    .modPort (append_formed _ b (by rw [st]; decide))
  have taken (v : State) : KeepsForm v (v.modPort p PortRec.take) := .modPort (.of_pending rfl rfl)
  unfold assemble takeRequest; dsimp only
  split
  · exact added.trans ((taken _).trans (servePending_keepsForm p _))
  · exact added

theorem writeByte_keepsForm (p : Port) (b : Byte) (s : State) : KeepsForm s (writeByte p b s) := by
  unfold writeByte
  split
  · next st => exact .modPort (begin_formed _ b (by rw [st]; decide))
  · next st => exact .modPort (begin_formed _ b (by rw [st]; decide))
  · next st => exact assemble_keepsForm b st
  · next st => exact .modPort (hold_formed _ st)

theorem completeStore_keepsForm (op : StoreOp) (s : State) : KeepsForm s (completeStore op s) := by
  have finished : KeepsForm s { s with store := s.store.finishOp } := .withStore _ Store.finishOp_wf
  have answered (v : State) : KeepsForm v (answerAct op v) := by
    unfold answerAct
    split
    · exact placeReply_keepsForm .S _ (v, some _)
    · exact .refl v
  have waiting (v : State) (p : Port) : KeepsForm v (serveWaiting v p) := by
    unfold serveWaiting
    split
    · exact servePending_keepsForm p v
    · exact .refl v
  exact finished.trans ((answered _).trans (.foldl waiting allPorts _))

/-! ### Every command -/

theorem startSlot_keepsForm (s : State) : KeepsForm s (startSlot s) := by
  have begun : KeepsForm s { s.advanceTo s.link.nextSlot with link :=
    { s.link with nextSlot := (s.advanceTo s.link.nextSlot).clock.ms + Config.slotMs } } :=
    .of_kept (fun p => .refl (s.port p)) rfl rfl fun h => { h with }
  exact begun.trans (.of_frame (arbitrate_frame _) (arbitrate_keepsLists _))

theorem endWarning_keepsLists (z : ZoneId) (s : State) : KeepsLists s (endWarning z s) := by
  unfold endWarning; dsimp only
  exact KeepsLists.trans (u := s.setWarning z ⟨_, none⟩) (.of_link rfl)
    (.foldl (fun v i => .ite (fun _ => .owe _) fun _ => .refl v) allAps _)

theorem Expires.keepsForm {f : State → State} (h : Expires s f) (v : State) : KeepsForm v (f v) := by
  cases h with
  | holding => exact endHolding_keepsForm v
  | room i x e => exact .of_frame (expireRoom_frame i v x e) (expireRoom_keepsLists i v x e)
  | quiet b | gap b => exact .elsewhere (by simp) (by simp) (by simp) (by simp)
  | inrush i => exact .of_frame (enter_frame (k := Aperture.keep) i v _ _ rfl) (enter_keepsLists i v _ _)
  | travel i => exact .of_frame (halt_frame i v _) (halt_keepsLists i v _)
  | settle i => exact .of_frame ((settled_frame i v).trans (Frame.owe _)) ((settled_keepsLists i v).trans (.owe _))
  | retry i => exact .of_frame (toRest_frame i v) (toRest_keepsLists i v)
  | warn z => exact .of_frame (endWarning_frame (f := id) z v) (endWarning_keepsLists z v)
  | contact i => exact .of_frame (nodeTimeout_frame i v) (nodeTimeout_keepsLists i v)
  | exchange g reply => exact .of_frame (complete_frame v g reply) (complete_keepsLists g reply v)
  | debounce => exact debounced_keepsForm v

theorem Effect.keepsForm (h : Effect s t) : KeepsForm s t := by
  cases h with
  | nothing => exact .refl s
  | por | pinReset => exact hardReset_keepsForm _ _ _ _ s
  | pulse =>
    refine .withFrontEnd _ fun h => ?_
    split <;> exact h
  | boundary vane rain rainok =>
    exact ((frontEndStages_keepsForm vane rain rainok s).trans (gustUpdate_keepsForm _)).trans
      (finish_keepsForm true s _)
  | expiry f n e => exact (KeepsForm.advanceTo n s).trans (event_keepsForm (e.keepsForm _))
  | advisory d => exact (KeepsForm.advanceTo _ s).trans (changeAdvisory_keepsForm none _)
  | slot => exact startSlot_keepsForm s
  | line => exact .elsewhere rfl rfl rfl rfl
  | read p => exact .modPort (readStrobe_formed _)
  | hold p x pending => exact .modPort (hold_formed x pending)
  | endHeld p => exact .modPort (endHeld_formed _)
  | portGap p n assembling =>
    exact (KeepsForm.advanceTo n s).trans (.modPort (.of_free rfl rfl fun e => by cases assembling.symm.trans e))
  | bytes p l => exact .foldl (fun v b => writeByte_keepsForm p b v) l s
  | stored op => exact (KeepsForm.advanceTo op.due s).trans (completeStore_keepsForm op _)

theorem step_keepsForm (h : step s = .next t) : KeepsForm s t := by
  unfold step at h
  split at h
  · next c rest _ =>
    exact .trans (u := { s with pending := rest }) (.elsewhere rfl rfl rfl rfl) (exec_effect h).keepsForm
  · cases h; exact .elsewhere rfl rfl rfl rfl

end Sys2Proof.Machine

open Sys2Proof Sys2Proof.Machine

/-- Settles O5: every command has one of a few effects, and each keeps the part in form. -/
theorem buffersListsAndStoreStayInForm : Obligations.BuffersListsAndStoreStayInForm := fun _ _ h =>
  let ⟨notices, wait, ring, lists, store⟩ := step_keepsForm h
  ⟨notices, wait, ring, lists, store⟩

end

