-- ==== Sys2Proof/Proofs/ExposureArithmetic.lean ====
section
/-! PROOFS. Facing factor, load index and wind standing: O14 and O15. -/

namespace Sys2Proof.Machine

open Sys2Proof

variable {s : State} {i : ApId} {k : ApKind} {bearing : Option Nat} {invalid : Bool} {d w f g q e limit : Nat}

/-! ### The facing factor (R62, R63) -/

theorem facing_of_skylight (h : k.isSkylight = true) : facing k f invalid bearing = 32760 := by
  cases k with
  | skylight | ventSkylight => rfl
  | window | ventWindow => cases h

/-- Without a bearing to go by, every aperture faces the wind in full (R62). -/
theorem facing_of_unknown (h : invalid = true ∨ bearing = none) : facing k f invalid bearing = 32760 := by
  rcases h with rfl | rfl
  · cases k <;> rfl
  · cases k <;> cases invalid <;> rfl

theorem facing_of_window (h : k.isSkylight = false) : facing k f false (some w) = facingRamp (facingAngle w f) := by
  cases k with
  | skylight | ventSkylight => cases h
  | window | ventWindow => rfl

theorem facingRamp_eq (d : Nat) : facingRamp d = if d ≤ 89 then (90 - d) * 364 else 0 := by
  simp only [facingRamp, Nat.lt_succ_iff]

theorem facingRamp_eq_zero (h : 90 ≤ d) : facingRamp d = 0 := if_neg (by omega)

theorem distance_comm (p q : Nat) : distance p q = distance q p := by
  unfold distance
  split <;> split <;> omega

theorem facingAngle_comm (w f : Nat) : facingAngle w f = facingAngle f w := by
  rw [facingAngle, facingAngle, distance_comm]

theorem facingAngle_of_le (h : w ≤ f) : facingAngle w f = if f - w ≤ 180 then f - w else 360 - (f - w) := by
  rw [facingAngle, distance, if_pos h]

theorem facingAngle_le (w f : Nat) : facingAngle w f ≤ 180 := by
  unfold facingAngle; dsimp only
  split <;> omega

/-! ### From gust to load index (R64) -/

theorem dynamicPressure_le (h : g ≤ 600) : dynamicPressure g ≤ 2159 :=
  calc dynamicPressure g ≤ dynamicPressure 600 := by unfold dynamicPressure; gcongr
    _ = 2159 := rfl

/-- A facing factor stays below 32768, the unit of stage 3, so no aperture takes more than the whole pressure. -/
theorem actingPressure_le (q : Nat) (h : f ≤ 32760) : actingPressure q f ≤ q := by
  have scaled : q * f ≤ q * 32760 := Nat.mul_le_mul_left q h
  unfold actingPressure
  omega

theorem loadIndex_le (hg : g ≤ 600) (hf : f ≤ 32760) (he : e ≤ 255) : loadIndex g f e ≤ 8598 := by
  have pressure := dynamicPressure_le hg
  calc loadIndex g f e = (actingPressure (dynamicPressure g) f * e + 32) / 64 := rfl
    _ ≤ (actingPressure 2159 32760 * 255 + 32) / 64 := by unfold actingPressure; gcongr
    _ = 8598 := rfl

@[simp] theorem loadIndex_calm (f e : Nat) : loadIndex 0 f e = 0 := by
  simp [loadIndex, dynamicPressure, actingPressure]

@[simp] theorem loadIndex_lee (g e : Nat) : loadIndex g 0 e = 0 := by simp [loadIndex, actingPressure]

@[simp] theorem loadIndex_weightless (g f : Nat) : loadIndex g f 0 = 0 := by simp [loadIndex]

/-- Weights are in sixty-fourths. -/
theorem loadIndex_unit (g f : Nat) : loadIndex g f 64 = actingPressure (dynamicPressure g) f := by
  unfold loadIndex
  omega

/-! ### The wind standing (R66) -/

theorem standing_eq_unlimited : standing limit q = .unlimited ↔ limit = 0 := by
  unfold standing
  split_ifs <;> simp [*]

theorem standing_eq_need : standing limit q = .need ↔ 0 < limit ∧ limit ≤ q := by
  unfold standing
  split_ifs <;> simp <;> omega

theorem standing_eq_band : standing limit q = .band ↔ 0 < limit ∧ releaseLevel limit ≤ q ∧ q < limit ∧ 0 < q := by
  unfold standing
  split_ifs <;> simp <;> omega

theorem standing_eq_clear :
    standing limit q = .clear ↔ (0 < limit ∧ q < releaseLevel limit) ∨ (0 < limit ∧ q = 0) := by
  have level : releaseLevel limit ≤ limit := by unfold releaseLevel; omega
  unfold standing
  split_ifs <;> simp <;> omega

/-- A load index of 0 is below every release level. -/
theorem standing_released :
    standing limit q = .unlimited ∨ standing limit q = .clear ↔ limit = 0 ∨ q = 0 ∨ q < releaseLevel limit := by
  rw [standing_eq_unlimited, standing_eq_clear]
  omega

theorem standing_lee_ne_need (limit : Nat) : standing limit 0 ≠ .need := by
  rw [Ne, standing_eq_need]
  omega

theorem standing_lowest_limit (q : Nat) : standing 1 q = if q = 0 then .clear else .need := by
  split
  · next calm => exact standing_eq_clear.2 (.inr ⟨one_pos, calm⟩)
  · next load => exact standing_eq_need.2 ⟨one_pos, by omega⟩

/-- A computation gives an installed aperture the standing of its own limit and index (R61, R66). -/
theorem compute_standing (there : (s.ap i).present = true) :
    ((compute s).ap i).fig.standing = standing (s.ap i).fix.loadLimit ((compute s).ap i).fig.load := by
  obtain ⟨-, -, -, -, -, fix⟩ := compute_fields i s
  rw [compute_fig there, fix]
  rfl

end Sys2Proof.Machine

open Sys2Proof Sys2Proof.Machine

/-- Settles O14: the ramp and the stages of R64 are monotone, so each range is the value at its largest arguments. -/
theorem facingAndLoadIndexStayInRange : Obligations.FacingAndLoadIndexStayInRange := by
  refine ⟨fun k f invalid bearing => ⟨fun sky => facing_of_skylight ?_, fun _ => facing_of_unknown⟩,
    fun _ _ _ _ => ⟨rfl, rfl, rfl⟩, fun w f _ _ => ⟨facingAngle_le w f, facingAngle_comm w f, facingAngle_of_le,
      fun k window => ⟨?_, fun lee g e limit => ?_⟩⟩,
    fun g f e hg hf he => ⟨dynamicPressure_le hg, actingPressure_le _ hf, loadIndex_le hg hf he, loadIndex_calm f e,
      loadIndex_lee g e, loadIndex_weightless g f, loadIndex_unit g f⟩⟩
  · rcases sky with rfl | rfl <;> rfl
  · rw [facing_of_window window, facingRamp_eq]
  · rw [facing_of_window window, facingRamp_eq_zero lee, loadIndex_lee]
    exact ⟨rfl, standing_lee_ne_need limit⟩

/-- Settles O15: each standing by the branches of its definition, and a computation gives no other. -/
theorem standingFollowsLimitAndIndex : Obligations.StandingFollowsLimitAndIndex := by
  refine ⟨fun s i there => compute_standing there, fun s a => decide_eq_true_iff, fun limit q =>
    ⟨standing_eq_unlimited, standing_eq_need, standing_eq_band, standing_eq_clear, standing_released,
      standing_lowest_limit q, fun two => ?_⟩⟩
  unfold releaseLevel
  omega

end

