-- ==== Sys2Proof/Proofs/TriggerRecords.lean ====
section
/-! PROOFS. What an entry to ACTIVE records and announces: O25. -/

namespace Sys2Proof.Machine

open Sys2Proof

variable {i : ApId} {s t t' c u v : State} {vane : Byte} {rain rainok : Bool} {offset gust : BitVec 16} {flags : Byte}

/-! ### What the Trigger Record is read from (R83) -/

theorem someAp_hasCause (s : State) (c : Cause) :
    (s.someAp fun a => hasCause s a c) = true ↔ ∃ i, (s.ap i).present ∧ HasCause s i c := by
  simp only [someAp_eq_true, hasCause_eq_true]

/-- Sensor conditions of the precaution set are a cause whether or not a fail-safe aperture is installed (R83). -/
theorem causeSet_sensor (s : State) : (causeSet s).sensor = true ↔ s.fe.precaution.any = true := by
  unfold causeSet; dsimp only
  rw [Bool.or_eq_true, someAp_hasCause, or_iff_right_iff_imp, Cond.any_eq_true]
  rintro ⟨i, -, precaution, -⟩
  exact precaution

/-- The cause set is read from what causes are read from, and from which apertures are installed. -/
theorem causeSet_congr (same : ∀ i, SameCauses i s t) (present : ∀ i, (t.ap i).present = (s.ap i).present) :
    causeSet t = causeSet s := by
  have has (c : Cause) : (t.someAp fun a => hasCause t a c) = s.someAp fun a => hasCause s a c := by
    rw [Bool.eq_iff_iff]
    simp only [someAp_hasCause, present, (same _).hasCause]
  simp only [causeSet, has, (same 0).fe]

theorem Ended.causeSet (e : Ended u t) : causeSet t = causeSet u :=
  causeSet_congr (e.frame.mono keep_stands).sameCauses e.present

theorem Ended.claims (e : Ended u t) : t.claims = u.claims :=
  countAps_eq e.present fun i => by rw [(keep_fields (e.frame.aps i)).2.2.1]

theorem Ended.triggerRecord (e : Ended u t) : triggerRecord t = triggerRecord u := by
  have word : t.sup.gustWord = u.sup.gustWord := by rw [e.frame.sup]
  rw [Machine.triggerRecord, e.frame.sec, e.frame.fe, e.causeSet, e.claims, word]
  rfl

/-! ### The Trigger Record and the notice of an exposure update (R77, R83) -/

/-- The state in which an exposure update forms the Trigger Record. -/
def claimsUpdated (c : State) : State :=
  resortQueue (renewClaims (standingClaims c)
    (if nextWeather c = .active then allAps.foldl claimOn (judgeWeather c) else judgeWeather c))

/-- The state that an exposure update announces, with the Trigger Record of an entry to ACTIVE (R83). -/
def entryWritten (c : State) : State :=
  if nextWeather c = .active ∧ c.sup.weather ≠ .active then
    { claimsUpdated c with sup := { (claimsUpdated c).sup with trigger := some (triggerRecord (claimsUpdated c)) } }
  else claimsUpdated c

theorem exposureUpdate_eq (c : State) :
    exposureUpdate c = announceWeather c.sup.weather (nextWeather c) (entryWritten c) := rfl

theorem claimsUpdated_trigger (c : State) : (claimsUpdated c).sup.trigger = c.sup.trigger := by
  obtain ⟨v, e, f, -⟩ := claims_posted_if (nextWeather c = .active) (judgeWeather c)
  obtain ⟨a, renewed⟩ := renewClaims_rest (standingClaims c) v
  have trigger : v.sup.trigger = (judgeWeather c).sup.trigger := by rw [f.sup]
  rw [claimsUpdated, e, renewed]
  exact trigger

/-- The notice of a change of weather state leaves the supervisor's record, and what its Trigger Record is read from. -/
theorem announceWeather_record (old w : Weather) (s : State) : (announceWeather old w s).sup = s.sup ∧
    triggerRecord (announceWeather old w s) = triggerRecord s := by
  obtain ⟨x, rest⟩ := announceWeather_rest old w s
  rw [rest]
  exact ⟨rfl, rfl⟩

/-- An exposure update records the entry to ACTIVE as it leaves the state (R83). -/
theorem exposureUpdate_trigger (c : State) : (exposureUpdate c).sup.trigger =
    if nextWeather c = .active ∧ c.sup.weather ≠ .active then some (triggerRecord (exposureUpdate c))
    else c.sup.trigger := by
  obtain ⟨sup, record⟩ := announceWeather_record c.sup.weather (nextWeather c) (entryWritten c)
  rw [exposureUpdate_eq, sup, record, entryWritten]
  split
  · rfl
  · exact claimsUpdated_trigger c

/-- A change of weather state is announced with the claims and causes as the update leaves them (R77). -/
theorem exposureUpdate_announced (changed : c.sup.weather ≠ nextWeather c) : NoticeQueued [.S, .L, .K]
    ⟨c.sec, .weatherState c.sup.weather (nextWeather c) (exposureUpdate c).claims
      (noticeCauses (nextWeather c) (exposureUpdate c))⟩ c (exposureUpdate c) := by
  obtain ⟨v, f, -, -, -, a, q, r, -, e⟩ := exposureUpdate_stages c
  rw [e]
  generalize hz : ({ v with aps := a, sup := { v.sup with queue := q, trigger := r } } : State) = z
  have queued := announceWeather_queued changed z
  have sec : z.sec = c.sec := by rw [← hz]; exact f.sec
  obtain ⟨x, rest⟩ := announceWeather_rest c.sup.weather (nextWeather c) z
  rw [rest, sec] at queued
  rw [rest]
  refine NoticeQueued.behind queued fun p => ?_
  rw [← hz]
  exact f.ports p

/-- What O25 says of an update between `s` and `t`: an entry to ACTIVE is recorded and announced (R77, R83). -/
structure EntryRecorded (s t : State) : Prop where
  stands    : s.sup.weather = .active ∨ t.sup.weather ≠ .active → t.sup.trigger = s.sup.trigger
  recorded  : s.sup.weather ≠ .active → t.sup.weather = .active → t.sup.trigger = some (triggerRecord t)
  announced : s.sup.weather ≠ .active → t.sup.weather = .active → NoticeQueued [.S, .L, .K]
    ⟨t.sec, .weatherState s.sup.weather .active t.claims (causeSet t)⟩ s t

theorem exposureUpdate_entryRecorded (e : Ended (exposureUpdate c) t) : EntryRecorded c t := by
  have h := exposureUpdate_updated c
  have weather := h.weather e
  have trigger : t.sup.trigger = if nextWeather c = .active ∧ c.sup.weather ≠ .active then some (triggerRecord t)
      else c.sup.trigger := by
    rw [e.triggerRecord, ← exposureUpdate_trigger, e.frame.sup]
  refine ⟨fun no => ?_, fun old new => ?_, fun old new => ?_⟩
  · rw [trigger, if_neg]
    rw [← weather]
    exact fun entry => no.elim entry.2 fun other => other entry.1
  · rw [trigger, if_pos ⟨weather ▸ new, old⟩]
  · have active : nextWeather c = .active := weather ▸ new
    have queued := (exposureUpdate_announced (active ▸ old)).kept e.frame
    rw [active] at queued
    rw [e.claims, e.causeSet, show t.sec = c.sec from (h.frame_ended e).sec]
    exact queued

/-- A record depends on what stood before by weather state, Trigger Record and notices. -/
theorem EntryRecorded.moved (h : EntryRecorded c t) (weather : c.sup.weather = s.sup.weather)
    (trigger : c.sup.trigger = s.sup.trigger) (rest : ∃ x, t' = { t with ports := x })
    (queued : ∀ ps n, NoticeQueued ps n c t → NoticeQueued ps n s t') : EntryRecorded s t' := by
  obtain ⟨x, rfl⟩ := rest
  obtain ⟨stands, recorded, announced⟩ := h
  rw [weather] at stands recorded announced
  rw [trigger] at stands
  exact ⟨stands, recorded, fun old new => queued _ _ (announced old new)⟩

/-! ### A second boundary and an ADVISORY (R68, R71, R78) -/

/-- The condition word that an exposure update passes on is that of the gust update (R71). -/
theorem Updated.gustWord (h : Updated c u) (e : Ended u t) : t.sup.gustWord = c.sup.gustWord := by
  obtain ⟨n, q, x, r, sup⟩ := h.sup_ended e
  rw [sup]
  rfl

/-- A gust update passes on the front end's condition word, and records an entry to ACTIVE (R71, R83). -/
theorem gustUpdate_entryRecorded (e : Ended (gustUpdate v) t) : t.sup.gustWord = t.fe.word ∧ EntryRecorded v t := by
  unfold gustUpdate at e
  have h := exposureUpdate_updated (compute { v with sup := { v.sup with computed := true, gustWord := v.fe.word } })
  have fe : t.fe = v.fe := (h.frame_ended e).fe
  exact ⟨by rw [h.gustWord e, fe]; rfl, (exposureUpdate_entryRecorded e).moved rfl rfl ⟨t.ports, rfl⟩ fun _ _ => id⟩

theorem secondBoundary_entryRecorded (vane : Byte) (rain rainok : Bool) (s : State) :
    ∃ t, exec (.secondBoundary vane rain rainok) s = .next t ∧ t.sup.gustWord = t.fe.word ∧ EntryRecorded s t := by
  refine ⟨_, rfl, ?_⟩
  have ports := frontEndStages_ports vane rain rainok s
  obtain ⟨_, _, _, _, rest⟩ := frontEndStages_rest (vane := vane) (rain := rain) (rainok := rainok) s
  generalize frontEndStages vane rain rainok (beginBoundary vane rain rainok s) = v at *
  obtain ⟨word, entry⟩ := gustUpdate_entryRecorded (finish_ended true s (gustUpdate v))
  generalize finish true s (gustUpdate v) = t at *
  exact ⟨word, entry.moved (by rw [rest]) (by rw [rest]) ⟨t.ports, rfl⟩ fun _ _ queued => queued.behind ports⟩

/-- A change of the advisory record passes on the word of the latest gust update, and records an entry (R69, R71). -/
theorem changeAdvisory_entryRecorded (d : Option Advisory) (computed : s.sup.computed = true) :
    (changeAdvisory d s).sup.gustWord = s.sup.gustWord ∧ EntryRecorded s (changeAdvisory d s) := by
  have e := finish_ended s.sup.computed s (advisoryChanged { s with sup := { s.sup with advisory := d } })
  rw [← changeAdvisory, advisoryChanged, if_pos computed] at e
  generalize changeAdvisory d s = t at *
  have word := (exposureUpdate_updated _).gustWord e
  exact ⟨word, (exposureUpdate_entryRecorded e).moved rfl rfl ⟨t.ports, rfl⟩ fun _ _ => id⟩

theorem serve_advisory (offset gust : BitVec 16) (flags : Byte) (s : State) :
    serve .advisory .S (advisoryBody offset gust flags) s =
      answer (okCode (decide (7200 < offset.toNat) || decide (600 < gust.toNat)))
        (e4 (advisoryRecord s offset gust flags).arrival ++ e4 (advisoryRecord s offset gust flags).expiry ++
          eBool s.sup.advisory.isSome)
        (changeAdvisory (some (advisoryRecord s offset gust flags)) s) := by
  rw [serve, serveAdvisory, advisoryOf_body, advisoryBody_offset, advisoryBody_gust]

/-- An ADVISORY stands in the uptime and the front end of its submission, and records an entry to ACTIVE (R71, R83). -/
theorem advisory_entryRecorded (ready : (s.port .S).ready) (computed : s.sup.computed = true) :
    ∃ t, exec (.advisory .S offset gust flags) s = .next t ∧ t.sup.gustWord = s.sup.gustWord ∧ t.sec = s.sec ∧
      t.fe = s.fe ∧ EntryRecorded s t := by
  have served := serve_advisory offset gust flags (s.askedAt .S .advisory (advisoryBody offset gust flags))
  generalize some (advisoryRecord _ offset gust flags) = d at served
  have changed := changeAdvisory_changed d (s.askedAt .S .advisory (advisoryBody offset gust flags))
  obtain ⟨word, entry⟩ := changeAdvisory_entryRecorded d
    (s := s.askedAt .S .advisory (advisoryBody offset gust flags)) computed
  generalize changeAdvisory d _ = v at served changed word entry
  obtain ⟨t, run, placed⟩ := submit_placed (k := .advisory) ready rfl rfl (changed.ports .S) served
  have moved := entry.moved (s := s) rfl rfl placed.rest fun _ _ => placed.queued
  obtain ⟨x, rfl⟩ := placed.rest
  exact ⟨_, run, word, congrArg (fun c : Clock => c.ms / 1000) changed.clock, changed.fe, moved⟩

end Sys2Proof.Machine

open Sys2Proof Sys2Proof.Machine

/-- Settles O25: the record written is the one that the state shows when the event has ended. -/
theorem entryToActiveWritesTriggerRecord : Obligations.EntryToActiveWritesTriggerRecord := by
  refine ⟨fun s vane rain rainok => ?_, fun s offset gust flags ready computed calm => ?_⟩
  · obtain ⟨t, run, word, entry⟩ := secondBoundary_entryRecorded vane rain rainok s
    exact ⟨t, run, word, entry.stands, fun old new => ⟨triggerRecord t, entry.recorded old new, rfl, rfl, rfl, rfl, word,
      rfl, someAp_hasCause t .rain, someAp_hasCause t .wind, someAp_hasCause t .advisory, causeSet_sensor t,
      entry.announced old new⟩⟩
  · obtain ⟨t, run, word, sec, fe, entry⟩ := advisory_entryRecorded (offset := offset) (gust := gust) (flags := flags)
      ready computed
    refine ⟨t, run, word, fun other => entry.stands (.inr other), fun new => ⟨triggerRecord t, entry.recorded calm new,
      sec, ?_, ?_, ?_, word, rfl, sec ▸ entry.announced calm new⟩⟩
    all_goals
      rw [← fe]
      rfl

end

