-- ==== Sys2Proof/Proofs/QueueOrder.lean ====
section
/-! PROOFS. Insertion into a list in strict order, and the order of the Closure Queue (R86). -/

namespace Sys2Proof.Machine

open Sys2Proof

/-! ### Insertion into a list in strict order -/

section
variable {α : Type} {r : α → α → Prop} [DecidableRel r] {a : α} {l : List α}

/-- An element that is comparable with those of a list in strict order takes its place among them. -/
theorem pairwise_orderedInsert (trans : ∀ x y z, r x y → r y z → r x z) (apart : ∀ x ∈ l, r a x ∨ r x a)
    (h : l.Pairwise r) : (l.orderedInsert r a).Pairwise r := by
  induction l with
  | nil => exact List.pairwise_singleton r a
  | cons x xs ih =>
    obtain ⟨first, rest⟩ := List.pairwise_cons.1 h
    obtain ⟨beside, others⟩ := List.forall_mem_cons.1 apart
    rw [List.orderedInsert_cons]
    split
    · next before =>
      exact List.pairwise_cons.2
        ⟨List.forall_mem_cons.2 ⟨before, fun y mem => trans _ _ _ before (first y mem)⟩, h⟩
    · next behind =>
      refine List.pairwise_cons.2 ⟨fun y mem => ?_, ih others rest⟩
      rcases (List.mem_orderedInsert r).1 mem with rfl | mem
      · exact beside.resolve_left behind
      · exact first y mem

/-- Elements of which any two are comparable come into strict order. -/
theorem pairwise_insertionSort (trans : ∀ x y z, r x y → r y z → r x z) (apart : l.Pairwise fun x y => r x y ∨ r y x) :
    (l.insertionSort r).Pairwise r := by
  induction l with
  | nil => exact List.Pairwise.nil
  | cons x xs ih =>
    obtain ⟨first, rest⟩ := List.pairwise_cons.1 apart
    exact pairwise_orderedInsert trans (fun y mem => first y ((List.mem_insertionSort r).1 mem)) (ih rest)

/-- Elements with keys of their own are pairwise comparable where different keys make them so. -/
theorem pairwise_of_nodup_map {β : Type} {key : α → β} {R : α → α → Prop} (h : ∀ x ∈ l, ∀ y ∈ l, key x ≠ key y → R x y)
    (nodup : (l.map key).Nodup) : l.Pairwise R :=
  (List.pairwise_map.1 nodup).imp_of_mem fun {x y} mx my ne => h x mx y my ne

end

/-! ### The order of the Closure Queue (R86) -/

variable {e x y z : Entry} {l : List Entry}

theorem Entry.lt_iff (x y : Entry) : x.lt y = true ↔
    (x.deadline = none ∧ y.deadline.isSome) ∨
    (∃ d e, x.deadline = some d ∧ y.deadline = some e ∧ d < e) ∨
    (x.deadline = y.deadline ∧ (x.rank < y.rank ∨ x.rank = y.rank ∧
      (y.load < x.load ∨ x.load = y.load ∧ x.ap < y.ap))) := by
  unfold Entry.lt
  by_cases same : x.deadline = y.deadline
  · have level : ¬ ∃ d e, x.deadline = some d ∧ y.deadline = some e ∧ d < e := by
      rw [same]
      rintro ⟨d, e, hd, he, lt⟩
      exact absurd (Option.some.inj (hd.symm.trans he)) (Nat.ne_of_lt lt)
    have both : ¬ (x.deadline = none ∧ y.deadline.isSome) := by rw [same]; rintro ⟨n, s⟩; rw [n] at s; cases s
    rw [if_neg (not_not.2 same), or_iff_right both, or_iff_right level, and_iff_right same]
    by_cases rank : x.rank = y.rank
    · by_cases load : x.load = y.load
      · simp [rank, load]
      · simp [rank, load]
    · simp [rank]
  · rw [if_pos same]
    rcases hx : x.deadline with _ | d <;> rcases hy : y.deadline with _ | e <;> simp_all [deadlineLt]

/-- A deadline as a number: IMMEDIATE goes before every numeric one (R86). -/
def Entry.urgency (e : Entry) : Nat := e.deadline.elim 0 (· + 1)

theorem Entry.lt_iff_urgency (x y : Entry) : x.lt y = true ↔ x.urgency < y.urgency ∨ x.urgency = y.urgency ∧
    (x.rank < y.rank ∨ x.rank = y.rank ∧ (y.load < x.load ∨ x.load = y.load ∧ x.ap.val < y.ap.val)) := by
  rw [Entry.lt_iff]
  unfold Entry.urgency
  cases x.deadline <;> cases y.deadline <;> simp

theorem Entry.lt_trans (x y z : Entry) (h : x.lt y = true) (g : y.lt z = true) : x.lt z = true := by
  rw [Entry.lt_iff_urgency] at *
  omega

/-- Entries of different apertures are in order one way or the other. -/
theorem Entry.lt_or_lt (ne : x.ap ≠ y.ap) : x.lt y = true ∨ y.lt x = true := by
  have apart : x.ap.val ≠ y.ap.val := Fin.val_ne_of_ne ne
  rw [Entry.lt_iff_urgency, Entry.lt_iff_urgency]
  omega

theorem insertEntry_eq (e : Entry) (l : List Entry) :
    insertEntry e l = l.orderedInsert (fun x y => x.lt y = true) e := by
  induction l with
  | nil => rfl
  | cons x xs ih => rw [insertEntry, List.orderedInsert_cons, ih]

theorem sortEntries_eq (l : List Entry) : sortEntries l = l.insertionSort fun x y => x.lt y = true := by
  induction l with
  | nil => rfl
  | cons x xs ih => rw [sortEntries, insertEntry_eq, ih]; rfl

/-- No aperture stands twice in the list, which is in the order of its keys (R85, R86). -/
structure Sorted (l : List Entry) : Prop where
  nodup : (l.map (·.ap)).Nodup
  keys  : l.Pairwise fun x y => x.lt y = true

theorem nodup_insertEntry (h : (l.map (·.ap)).Nodup) (fresh : ∀ x ∈ l, x.ap ≠ e.ap) :
    ((insertEntry e l).map (·.ap)).Nodup := by
  rw [insertEntry_eq, ((List.perm_orderedInsert _ e l).map _).nodup_iff, List.map_cons, List.nodup_cons]
  refine ⟨fun mem => ?_, h⟩
  obtain ⟨x, mx, ap⟩ := List.mem_map.1 mem
  exact fresh x mx ap

theorem nodup_sortEntries : ((sortEntries l).map (·.ap)).Nodup ↔ (l.map (·.ap)).Nodup := by
  rw [sortEntries_eq, ((List.perm_insertionSort _ l).map _).nodup_iff]

theorem Sorted.insert (h : Sorted l) (fresh : ∀ x ∈ l, x.ap ≠ e.ap) : Sorted (insertEntry e l) := by
  refine ⟨nodup_insertEntry h.nodup fresh, ?_⟩
  rw [insertEntry_eq]
  exact pairwise_orderedInsert Entry.lt_trans (fun x mem => Entry.lt_or_lt (fresh x mem).symm) h.keys

theorem Sorted.filter (h : Sorted l) (f : Entry → Bool) : Sorted (l.filter f) :=
  ⟨h.nodup.sublist (List.filter_sublist.map _), h.keys.filter f⟩

/-- A rewriting that leaves the keys leaves the order. -/
theorem Sorted.map (h : Sorted l) {f : Entry → Entry} (keys : ∀ x y, (f x).lt (f y) = x.lt y)
    (ap : ∀ x, (f x).ap = x.ap) : Sorted (l.map f) where
  nodup := by rw [List.map_map, show (fun e : Entry => e.ap) ∘ f = fun e => e.ap from funext ap]; exact h.nodup
  keys := List.pairwise_map.2 (h.keys.imp fun {x y} lt => (keys x y).trans lt)

theorem Sorted.sort (nodup : (l.map (·.ap)).Nodup) : Sorted (sortEntries l) := by
  refine ⟨nodup_sortEntries.2 nodup, ?_⟩
  rw [sortEntries_eq]
  exact pairwise_insertionSort Entry.lt_trans (pairwise_of_nodup_map (fun _ _ _ _ ne => Entry.lt_or_lt ne) nodup)

theorem mem_sortEntries : e ∈ sortEntries l ↔ e ∈ l := by rw [sortEntries_eq, List.mem_insertionSort]

end Sys2Proof.Machine

end

