-- ==== Sys2Proof/Proofs/QueueEntries.lean ====
section
/-! PROOFS. Within an event entries join and leave the Closure Queue with the members, in its order (R85, R86). -/

namespace Sys2Proof.Machine

open Sys2Proof

variable {s t u v : State} {i : ApId}

/-! ### What an operation keeps of the queue -/

/-- From `s` to `t` entries joined and left the queue with the members, at the places of their keys; late flags, fixed
records and the change count stand. -/
structure KeepsQueue (s t : State) : Prop where
  listed : ∀ j, Listed j s → Listed j t
  nodup  : (s.sup.queue.map (·.ap)).Nodup → (t.sup.queue.map (·.ap)).Nodup
  sorted : Sorted s.sup.queue → Sorted t.sup.queue
  late   : ∀ b, (t.branch b).late = (s.branch b).late
  fix    : ∀ j, (t.ap j).fix = (s.ap j).fix
  count  : t.sup.changeCount = s.sup.changeCount

namespace KeepsQueue

theorem refl (s : State) : KeepsQueue s s := ⟨fun _ => id, id, id, fun _ => rfl, fun _ => rfl, rfl⟩

theorem trans (h : KeepsQueue s u) (g : KeepsQueue u t) : KeepsQueue s t where
  listed j := g.listed j ∘ h.listed j
  nodup := g.nodup ∘ h.nodup
  sorted := g.sorted ∘ h.sorted
  late b := (g.late b).trans (h.late b)
  fix j := (g.fix j).trans (h.fix j)
  count := g.count.trans h.count

theorem foldl {α : Type} {f : State → α → State} (h : ∀ s x, KeepsQueue s (f s x)) (l : List α) (s : State) :
    KeepsQueue s (l.foldl f s) := by
  induction l generalizing s with
  | nil => exact .refl s
  | cons x xs ih => exact (h s x).trans (ih _)

theorem ite {c : Prop} [Decidable c] (h : c → KeepsQueue s t) (g : ¬ c → KeepsQueue s u) :
    KeepsQueue s (if c then t else u) := by
  split
  · exact h ‹_›
  · exact g ‹_›

/-- The queue stands with the branches, and no record changes in what membership depends on. -/
theorem of_members (member : ∀ j, (t.ap j).member = (s.ap j).member) (fix : ∀ j, (t.ap j).fix = (s.ap j).fix)
    (branches : t.branches = s.branches) (queue : t.sup.queue = s.sup.queue)
    (count : t.sup.changeCount = s.sup.changeCount) : KeepsQueue s t where
  listed j h := by rw [Listed, State.queued, queue, member]; exact h
  nodup := by rw [queue]; exact id
  sorted := by rw [queue]; exact id
  late b := by rw [State.branch, branches, State.branch]
  fix := fix
  count := count

/-- A change of neither records, branches nor queue. -/
theorem elsewhere (aps : t.aps = s.aps) (branches : t.branches = s.branches) (sup : t.sup = s.sup) : KeepsQueue s t :=
  of_members (fun j => by rw [State.ap_of_aps aps]) (fun j => by rw [State.ap_of_aps aps]) branches (by rw [sup])
    (by rw [sup])

theorem modAp (f : Aperture → Aperture) (member : (f (s.ap i)).member = (s.ap i).member)
    (fix : (f (s.ap i)).fix = (s.ap i).fix) : KeepsQueue s (s.modAp i f) := by
  refine of_members (fun j => ?_) (fun j => ?_) rfl rfl rfl <;> rw [State.ap_modAp] <;> split
  · next e => subst e; exact member
  · rfl
  · next e => subst e; exact fix
  · rfl

theorem withLink (l : Link) : KeepsQueue s { s with link := l } := .elsewhere rfl rfl rfl

theorem notify (ps : List Port) (b : NoticeBody) : KeepsQueue s (s.notify ps b) := by
  obtain ⟨x, h⟩ := State.notify_rest (s := s) ps b
  exact .elsewhere (by rw [h]) (by rw [h]) (by rw [h])

theorem owe (b : Branch) : KeepsQueue s (s.owe b) := .elsewhere (by simp) (by simp) (by simp)

/-- Aperture `i` is rewritten to `v`, whatever that makes of its membership, and judged before `t`. -/
theorem rewritten (aps : ∀ j, i ≠ j → v.ap j = s.ap j) (fix : (v.ap i).fix = (s.ap i).fix)
    (branches : v.branches = s.branches) (sup : v.sup = s.sup) (h : KeepsQueue v t) (judged : Listed i t) :
    KeepsQueue s t where
  listed j l := by
    by_cases e : i = j
    · exact e ▸ judged
    · exact h.listed j (by rw [Listed, State.queued, sup, aps j e]; exact l)
  nodup := by rw [← sup]; exact h.nodup
  sorted := by rw [← sup]; exact h.sorted
  late b := by rw [h.late, State.branch, branches, State.branch]
  fix j := by
    rw [h.fix]
    by_cases e : i = j
    · exact e ▸ fix
    · rw [aps j e]
  count := by rw [h.count, sup]

end KeepsQueue

theorem not_queued_iff : s.queued i = false ↔ ∀ e ∈ s.sup.queue, e.ap ≠ i := by
  simp [State.queued]

/-- Membership judged again (R85, R86): the entry takes the place of its keys, or leaves the others in theirs. -/
theorem refreshEntry_keepsQueue (i : ApId) (s : State) : KeepsQueue s (refreshEntry i s) where
  listed j h := by
    rw [Listed, refreshEntry_queued, refreshEntry_ap]
    split
    · next e => rw [e]
    · exact h
  nodup h := by
    unfold refreshEntry
    split
    · next unlisted => exact nodup_insertEntry h (not_queued_iff.1 unlisted)
    · exact h.sublist (List.filter_sublist.map _)
    · exact h
  sorted h := by
    unfold refreshEntry
    split
    · next unlisted => exact h.insert (not_queued_iff.1 unlisted)
    · exact h.filter _
    · exact h
  late b := by rw [State.branch, refreshEntry_branches, State.branch]
  fix j := by rw [refreshEntry_ap]
  count := by unfold refreshEntry; split <;> rfl

theorem dropEntry_keepsQueue (i : ApId) (gone : (s.ap i).member = false) : KeepsQueue s (s.dropEntry i) where
  listed j h := by
    by_cases e : i = j
    · subst e
      exact (not_queued_iff.2 fun e mem => by simpa using (List.mem_filter.1 mem).2).trans gone.symm
    · refine Eq.trans ?_ h
      simp only [State.queued, State.dropEntry, State.setQueue_queue, List.any_filter]
      congr 1; funext x
      by_cases x1 : x.ap = j <;> simp [x1, Ne.symm e]
  nodup h := h.sublist (List.filter_sublist.map _)
  sorted h := h.filter _
  late _ := rfl
  fix _ := rfl
  count := rfl

/-! ### Motions (R95 to R128) -/

section
variable (i : ApId) (s : State)

/-- Passing to a motion state writes the aperture, the link and what is owed, and then judges membership and warning. -/
theorem enter_judges (st : MotionState) (f : Aperture → Aperture) : ∃ v : State,
    v.aps = (s.modAp i fun a => { f a with state := st }).aps ∧ v.branches = s.branches ∧ v.sup = s.sup ∧
      enter i st f s = refreshWarning i (refreshEntry i v) := by
  refine ⟨_, ?_, ?_, ?_, rfl⟩
  all_goals split <;> split <;> simp only [State.owe_aps, State.owe_branches, State.owe_sup] <;> rfl

theorem enter_keepsQueue (st : MotionState) (f : Aperture → Aperture) (fix : (f (s.ap i)).fix = (s.ap i).fix) :
    KeepsQueue s (enter i st f s) := by
  obtain ⟨v, aps, branches, sup, e⟩ := enter_judges i s st f
  have ap (j : ApId) := State.ap_of_aps aps j
  have judged := enter_listed i st f s
  rw [e] at judged ⊢
  refine .rewritten (i := i) (v := v) (fun j ne => by rw [ap, State.ap_modAp, if_neg ne]) ?_ branches sup ?_ judged
  · rw [ap, State.ap_modAp_self]; exact fix
  · exact (refreshEntry_keepsQueue i v).trans
      (.elsewhere (refreshWarning_aps i _) (refreshWarning_branches i _) (refreshWarning_sup i _))

theorem toWaiting_keepsQueue (m : Motion) : KeepsQueue s (toWaiting i m s) :=
  (enter_keepsQueue i s _ _ rfl).trans
    (.elsewhere (callWarning_aps i _) (callWarning_branches i _) (callWarning_sup i _))

theorem judge_keepsQueue : KeepsQueue s (judge i s) := by
  unfold judge; dsimp only
  split
  · exact .ite (fun _ => toWaiting_keepsQueue i s _) fun _ => .refl s
  · exact .refl s

theorem toRest_keepsQueue : KeepsQueue s (toRest i s) := (enter_keepsQueue i s _ _ rfl).trans (judge_keepsQueue i _)

theorem toSettling_keepsQueue (c : SettleCause) : KeepsQueue s (toSettling i c s) := enter_keepsQueue i s _ _ rfl

theorem toRetryWait_keepsQueue : KeepsQueue s (toRetryWait i s) := enter_keepsQueue i s _ _ rfl

theorem toFault_keepsQueue (k : FaultKind) : KeepsQueue s (toFault i k s) :=
  (enter_keepsQueue i s _ _ rfl).trans (.notify _ _)

theorem halt_keepsQueue (c : HaltCause) : KeepsQueue s (halt i c s) :=
  .ite (fun _ => (enter_keepsQueue i s .stopping
    (fun a => { a with mon := { Monitor.stopped with haltCause := some c } }) rfl).trans (.withLink _)) fun _ => .refl s

theorem retarget_keepsQueue (t : Nat) : KeepsQueue s (retarget i t s) :=
  (KeepsQueue.modAp (i := i) (fun a => { a with motion := a.motion.map fun m => { m with target := t } }) rfl rfl).trans
    (.elsewhere rfl rfl rfl)

theorem rederive_keepsQueue (m : Motion) : KeepsQueue s (rederive i m s) :=
  (KeepsQueue.modAp (i := i) (fun a => { a with motion := some m }) rfl rfl).trans
    (.elsewhere (by simp [rederive]) (by simp [rederive]) (by simp [rederive]))

theorem steer_keepsQueue : KeepsQueue s (steer i s) := by
  unfold steer; dsimp only
  split
  · exact .refl s
  · split
    · exact .ite (fun _ => .refl s) fun _ => .ite (fun _ => retarget_keepsQueue i s _) fun _ => halt_keepsQueue i s _
    · exact halt_keepsQueue i s _
    · exact .ite (fun _ => .refl s) fun _ => halt_keepsQueue i s _

theorem rejudgeWaiting_keepsQueue : KeepsQueue s (rejudgeWaiting i s) := by
  unfold rejudgeWaiting; dsimp only
  split
  · exact .ite (fun _ => rederive_keepsQueue i s _) fun _ =>
      .ite (fun _ => rederive_keepsQueue i s _) fun _ => toRest_keepsQueue i s
  · exact toRest_keepsQueue i s

theorem handOn_keepsQueue : KeepsQueue s (handOn i s) := by
  unfold handOn
  split
  · exact judge_keepsQueue i s
  · exact rejudgeWaiting_keepsQueue i s
  · exact steer_keepsQueue i s
  · exact steer_keepsQueue i s
  · exact toRest_keepsQueue i s
  all_goals exact .refl s

theorem arrive_keepsQueue : KeepsQueue s (arrive i s) :=
  (KeepsQueue.modAp _ (by split <;> rfl) (by split <;> rfl)).trans (toRest_keepsQueue i _)

theorem confirmStop_keepsQueue (fresh : Bool) : KeepsQueue s (confirmStop i fresh s) := by
  unfold confirmStop
  exact .ite (fun _ => .ite (fun _ => .ite (fun _ => arrive_keepsQueue i s) fun _ => toRest_keepsQueue i s)
      fun _ => toFault_keepsQueue i s _)
    fun _ => .ite (fun _ => toSettling_keepsQueue i s _) fun _ => toSettling_keepsQueue i s _

theorem stall_keepsQueue : KeepsQueue s (stall i s) := by
  have counted : KeepsQueue s (s.modAp i fun a => { a with stallCount := min 3 (a.stallCount + 1) }) := .modAp _ rfl rfl
  unfold stall
  split
  · exact counted.trans (.ite (fun _ => toSettling_keepsQueue i _ _) fun _ => toFault_keepsQueue i _ _)
  · exact toFault_keepsQueue i s _

theorem orderBackoff_keepsQueue (bp : Nat) : KeepsQueue s (orderBackoff i bp s) :=
  .ite (fun _ => toWaiting_keepsQueue i s _) fun _ => toRetryWait_keepsQueue i s

theorem settled_keepsQueue : KeepsQueue s (settled i s) := by
  unfold settled; dsimp only
  split
  · exact orderBackoff_keepsQueue i s _
  · exact orderBackoff_keepsQueue i s _
  · exact toRest_keepsQueue i s

theorem releaseHeld_keepsQueue : KeepsQueue s (releaseHeld i s) := by
  have released : KeepsQueue s (s.modAp i fun a => { a with held := some 0 }) := .modAp _ rfl rfl
  exact .ite (fun _ => released.trans (.owe _)) fun _ => .refl s

theorem toOffline_keepsQueue : KeepsQueue s (toOffline i s) := by
  refine KeepsQueue.trans ?_ (.notify _ _)
  exact (enter_keepsQueue i s _ _ rfl).trans (.ite (fun _ => .owe _) fun _ => .refl _)

theorem toOnline_keepsQueue : KeepsQueue s (toOnline i s) :=
  (releaseHeld_keepsQueue i s).trans ((enter_keepsQueue i _ _ _ rfl).trans (.notify _ _))

/-! ### Orders (R22 to R35, R148 to R153) -/

/-- A changed slate is derived from, and its membership judged, whatever the change made of it (R24, R85). -/
theorem resolve_keepsQueue (aps : ∀ j, i ≠ j → v.ap j = s.ap j) (fix : (v.ap i).fix = (s.ap i).fix)
    (branches : v.branches = s.branches) (sup : v.sup = s.sup) : KeepsQueue s (resolve i v) := by
  refine .rewritten aps fix branches sup ?_ (resolve_listed i v)
  unfold resolve; dsimp only
  refine .ite (fun _ => refreshEntry_keepsQueue i v) fun _ => ?_
  refine KeepsQueue.trans ?_ ((handOn_keepsQueue i _).trans (refreshEntry_keepsQueue i _))
  exact .trans (.modAp _ rfl rfl) (.ite (fun _ => .modAp _ rfl rfl) fun _ => .refl _)

theorem putResolve_keepsQueue (c : OrderClass) (x : Option Slot) : KeepsQueue s (resolve i (putSlot i c x s)) := by
  have w := putSlot_writes i c x s
  have fix := congrArg Aperture.fix w.self
  exact resolve_keepsQueue i s (fun j e => (w j).trans (if_neg e)) fix rfl rfl

theorem releaseOrder_keepsQueue (p : Port) : KeepsQueue s (releaseOrder p i s) := by
  unfold releaseOrder
  split
  · exact .refl s
  · exact putResolve_keepsQueue i s _ _

theorem postAlarm_keepsQueue (r : Bool) : KeepsQueue s (postAlarm r s i) := by
  unfold postAlarm; dsimp only
  split
  · exact putResolve_keepsQueue i s _ _
  · exact .refl s

theorem dropAlarm_keepsQueue : KeepsQueue s (dropAlarm s i) :=
  .ite (fun _ => putResolve_keepsQueue i s _ _) fun _ => .refl s

theorem cancelOpening_branches (d : OrderClass) :
    (cancelOpening i d s).branches = s.branches ∧ (cancelOpening i d s).sup = s.sup := by
  unfold cancelOpening
  split
  · split
    · next x _ _ =>
      obtain ⟨y, h⟩ := State.notify_rest (s := putSlot i d none s) x.origin.ports
        (.orderCancelled i d x.target .weather)
      rw [h]; exact ⟨rfl, rfl⟩
    · exact ⟨rfl, rfl⟩
  · exact ⟨rfl, rfl⟩

/-- A claim posted writes the aperture's slate and claim, and cancels its openings, before it is derived (R32, R81). -/
theorem postClaim_keepsQueue (k : Claim) : KeepsQueue s (postClaim i k s) := by
  unfold postClaim; dsimp only
  generalize hv : State.modAp _ i _ = v
  have w : Writes i s v { s.ap i with
      slate := (s.ap i).slate.put .weather (some ⟨.pos 0, .weather, s.ds, none⟩), claim := some k } := by
    rw [← hv]; exact modAp_modAp_writes i s _ _
  have rest : v.branches = s.branches ∧ v.sup = s.sup := by rw [← hv]; exact ⟨rfl, rfl⟩
  have w2 := (w.trans i s (cancelOpening_writes i .supervisory v)).trans i s (cancelOpening_writes i .room _)
  obtain ⟨b1, s1⟩ := cancelOpening_branches i v .supervisory
  obtain ⟨b2, s2⟩ := cancelOpening_branches i (cancelOpening i .supervisory v) .room
  refine resolve_keepsQueue i s (fun j e => by rw [w2 j, if_neg e]) ?_ ((b2.trans b1).trans rest.1)
    ((s2.trans s1).trans rest.2)
  rw [w2.self, (w.trans i s (cancelOpening_writes i .supervisory v)).self, w.self]

theorem claimOn_keepsQueue : KeepsQueue s (claimOn s i) := by
  unfold claimOn
  split
  · exact postClaim_keepsQueue i s _
  · exact .refl s

theorem dropClaim_keepsQueue : KeepsQueue s (dropClaim s i) := by
  refine .ite (fun _ => ?_) fun _ => .refl s
  have w := modAp_modAp_writes i s (fun a => { a with claim := none })
    fun a => { a with slate := a.slate.put .weather none }
  have fix := congrArg Aperture.fix w.self
  exact resolve_keepsQueue i s (fun j e => (w j).trans (if_neg e)) fix rfl rfl

theorem expireRoom_keepsQueue (x : Slot) (e : Nat) : KeepsQueue s (expireRoom i x e s) := by
  obtain ⟨y, rest⟩ := State.notify_rest (s := putSlot i .room (some ⟨.pos 0, .port .K, e, none⟩) s) [.K]
    (.orderCancelled i .room x.target .expired)
  have w := putSlot_writes i .room (some ⟨.pos 0, .port .K, e, none⟩) s
  have fix := congrArg Aperture.fix w.self
  unfold expireRoom; dsimp only
  rw [rest]
  exact resolve_keepsQueue i s (fun j ne => (w j).trans (if_neg ne)) fix rfl rfl

theorem clearFaultOf_keepsQueue : KeepsQueue s (clearFaultOf i s) := by
  unfold clearFaultOf
  split
  · exact (KeepsQueue.modAp (i := i) (fun a => { a with stallCount := 0 }) rfl rfl).trans (toRest_keepsQueue i _)
  · exact toRest_keepsQueue i s
  · exact .refl s

/-! ### The end of an exchange (R133 to R143) -/

/-- A position written takes the entry out at 0, and has the membership judged otherwise (R7, R87). -/
theorem writePosition_keepsQueue (p : Nat) : KeepsQueue s (writePosition i p s) := by
  refine .rewritten (i := i) (v := s.modAp i fun a => { a with position := some p })
    (fun j e => by rw [State.ap_modAp, if_neg e]) (by rw [State.ap_modAp_self]) rfl rfl ?_ (writePosition_listed i p s)
  unfold writePosition; dsimp only
  split
  · exact .trans (dropEntry_keepsQueue i (by rw [State.ap_modAp_self]; simp [Aperture.member])) (.notify _ _)
  · exact refreshEntry_keepsQueue i _

theorem rejudgePosition_keepsQueue : KeepsQueue s (rejudgePosition i s) :=
  .ite (fun _ => .refl s) fun _ => toRest_keepsQueue i s

theorem driveStatus_keepsQueue (r : LinkReply) : KeepsQueue s (driveStatus i r s) := by
  refine .ite (fun _ => stall_keepsQueue i s) fun _ => .ite (fun _ => .refl s) fun _ => ?_
  split
  · exact toRetryWait_keepsQueue i s
  · exact arrive_keepsQueue i s

theorem faultStatus_keepsQueue (r : LinkReply) : KeepsQueue s (faultStatus i r s) := by
  unfold faultStatus
  split
  · exact .ite (fun _ => .refl s) fun _ => toRest_keepsQueue i s
  · exact .refl s

theorem freshStatus_keepsQueue (r : LinkReply) : KeepsQueue s (freshStatus i r s) := by
  have wrote := writePosition_keepsQueue i s r.writes
  unfold freshStatus; dsimp only
  split
  · exact .refl s
  · exact .refl s
  · exact .ite (fun _ => .refl s) fun _ => wrote.trans (toRest_keepsQueue i _)
  · exact wrote.trans (judge_keepsQueue i _)
  · exact wrote.trans (rejudgePosition_keepsQueue i _)
  · exact wrote.trans (driveStatus_keepsQueue i _ r)
  · exact wrote.trans (driveStatus_keepsQueue i _ r)
  · exact .ite (fun _ => wrote) fun _ => wrote.trans (confirmStop_keepsQueue i _ true)
  · exact wrote
  · exact wrote
  · exact wrote.trans (faultStatus_keepsQueue i _ r)

theorem missed_keepsQueue (f : InFlight) : KeepsQueue s (missed i f s) := by
  have counted : KeepsQueue s (missCounted i s) := .modAp _ rfl rfl
  have left (c : Prop) [Decidable c] (v : State) : KeepsQueue v (if c then toOffline i v else v) :=
    .ite (fun _ => toOffline_keepsQueue i v) fun _ => .refl v
  exact (counted.trans (left _ _)).trans (.withLink _)

theorem acceptOrder_keepsQueue (tag : BitVec 4) : KeepsQueue s (acceptOrder i tag s) :=
  (KeepsQueue.modAp (i := i) (fun a => { a with orderTag := some tag }) rfl rfl).trans (.elsewhere rfl rfl rfl)

theorem strayHalt_keepsQueue : KeepsQueue s (strayHalt i s) := .elsewhere rfl rfl rfl

theorem moveReplied_keepsQueue (f : InFlight) (r : LinkReply) : KeepsQueue s (moveReplied i f r s) := by
  refine .ite (fun _ => .ite (fun _ => toFault_keepsQueue i s _) fun _ => .refl s) fun _ => ?_
  have travel (v : State) : KeepsQueue v (startTravel i v) := .ite (fun _ => .modAp _ rfl rfl) fun _ => .refl v
  have accepted := (acceptOrder_keepsQueue i s f.tag).trans (travel _)
  exact .ite (fun _ => accepted) fun _ => accepted.trans (strayHalt_keepsQueue i _)

theorem pollReplied_keepsQueue (r : LinkReply) : KeepsQueue s (pollReplied i r s) :=
  .ite (fun _ => (freshStatus_keepsQueue i s r).trans (strayHalt_keepsQueue i _)) fun _ => freshStatus_keepsQueue i s r

theorem replied_keepsQueue (f : InFlight) (r : LinkReply) : KeepsQueue s (replied i f r s) := by
  have contact : KeepsQueue s (renewContact i s) := .modAp _ rfl rfl
  have online (c : Prop) [Decidable c] : KeepsQueue s (if c then toOnline i (renewContact i s) else renewContact i s) :=
    .ite (fun _ => contact.trans (toOnline_keepsQueue i _)) fun _ => contact
  have taught (c : Prop) [Decidable c] (v : State) : KeepsQueue v (if c then learnTag i r.tag v else v) :=
    .ite (fun _ => .modAp _ rfl rfl) fun _ => .refl v
  unfold replied; dsimp only
  refine KeepsQueue.trans ((online (decide ((s.ap i).state = .offline) = true)).trans
    (taught ((s.ap i).orderTag.isNone = true) _)) ?_
  generalize (if (s.ap i).orderTag.isNone = true then learnTag i r.tag _ else _) = v
  split
  · exact moveReplied_keepsQueue i _ f r
  · exact acceptOrder_keepsQueue i _ f.tag
  · exact .ite (fun _ => pollReplied_keepsQueue i _ r) fun _ => .refl _
  · exact .refl _

theorem nodeTimeout_keepsQueue : KeepsQueue s (nodeTimeout i s) := by
  unfold nodeTimeout; dsimp only
  refine KeepsQueue.trans (u := s.modAp i fun a => { a with node := { a.node with contactTimer := none } })
    (.modAp _ rfl rfl) ?_
  split
  · exact .ite (fun _ => releaseHeld_keepsQueue i _) fun _ => .refl _
  · exact confirmStop_keepsQueue i _ false
  · exact .refl _

end

theorem complete_keepsQueue (f : InFlight) (reply : List Byte) (s : State) : KeepsQueue s (complete f reply s) := by
  have ended : KeepsQueue s { s with link := { s.link with inFlight := none } } := .elsewhere rfl rfl rfl
  unfold complete
  split
  · exact ended
  · split
    · exact ended.trans (missed_keepsQueue _ _ f)
    · exact ended.trans (replied_keepsQueue _ _ f _)

/-- The arbiter's choice writes the send count of the node it sends to. -/
theorem arbitrate_keepsQueue (s : State) : KeepsQueue s (arbitrate s) ∧ (arbitrate s).sup = s.sup := by
  have order (i : ApId) (x : Exchange) (l : Link) : KeepsQueue s (sendOrder i x { s with link := l }) :=
    (KeepsQueue.withLink l).trans <|
      (KeepsQueue.modAp (s := { s with link := l }) (i := i) (fun a => { a with node := { a.node with
        sendCount := some (nextTag { s with link := l } i) } }) rfl rfl).trans (.withLink _)
  have poll (i : ApId) (l : Link) : (sendPoll i { s with link := l }).aps = s.aps ∧
      (sendPoll i { s with link := l }).branches = s.branches ∧ (sendPoll i { s with link := l }).sup = s.sup := by
    unfold sendPoll; dsimp only
    split <;> exact ⟨rfl, rfl, rfl⟩
  have next : KeepsQueue s (pollNext s) ∧ (pollNext s).sup = s.sup := by
    unfold pollNext
    split
    · obtain ⟨aps, branches, sup⟩ := poll ‹_› s.link
      exact ⟨.elsewhere aps branches sup, sup⟩
    · next i _ _ =>
      obtain ⟨aps, branches, sup⟩ := poll i { s.link with ring := i + 1 }
      exact ⟨.elsewhere aps branches sup, sup⟩
    · exact ⟨.refl s, rfl⟩
  unfold arbitrate
  split
  · exact ⟨.elsewhere rfl rfl rfl, rfl⟩
  · split
    · exact next
    · split
      · exact ⟨order _ _ _, rfl⟩
      · exact ⟨order _ _ _, rfl⟩
      · exact next

/-! ### Fire and weather (R69 to R83, R147 to R153) -/

theorem fireLevel_keepsQueue (s : State) : KeepsQueue s (fireLevel s) := by
  have state (x : FireState) : KeepsQueue s { s with fire := { s.fire with state := x } } := .elsewhere rfl rfl rfl
  have alarm (r : Bool) (v : State) : KeepsQueue v (allAps.foldl (postAlarm r) v) :=
    .foldl (fun w i => postAlarm_keepsQueue i w r) _ v
  unfold fireLevel
  split
  · exact ((state _).trans (alarm false _)).trans (.notify _ _)
  · exact ((state _).trans (alarm true _)).trans (.notify _ _)
  · exact (state _).trans (.notify _ _)
  · exact .refl s

theorem debounced_keepsQueue (s : State) : KeepsQueue s (debounced s) := by
  have fire (x : Fire) : KeepsQueue s { s with fire := x } := .elsewhere rfl rfl rfl
  unfold debounced; dsimp only
  split
  · exact fire _
  · exact (fire _).trans (fireLevel_keepsQueue _)

theorem restoreFire_keepsQueue (s : State) : KeepsQueue s (restoreFire s) :=
  KeepsQueue.trans (u := { s with fire := { s.fire with state := .normal } }) (.elsewhere rfl rfl rfl)
    ((KeepsQueue.foldl (fun v i => dropAlarm_keepsQueue i v) allAps _).trans (.notify _ _))

theorem endWarning_keepsQueue (z : ZoneId) (s : State) : KeepsQueue s (endWarning z s) := by
  unfold endWarning; dsimp only
  exact KeepsQueue.trans (u := s.setWarning z ⟨_, none⟩) (.elsewhere rfl rfl rfl)
    (.foldl (fun v i => .ite (fun _ => .owe _) fun _ => .refl v) allAps _)

/-- A computation writes figures, which membership does not depend on (R68). -/
theorem compute_keepsQueue (s : State) : KeepsQueue s (compute s) := by
  refine .of_members (fun i => ?_) (fun i => ?_) rfl rfl rfl
  all_goals
    simp only [compute, State.ap, Fin.getElem_fin, Vector.getElem_map]
    split <;> rfl

theorem announceWeather_keepsQueue (old w : Weather) (s : State) : KeepsQueue s (announceWeather old w s) :=
  .ite (fun _ => .refl s) fun _ => .notify _ _

theorem renewClaims_keepsQueue (l : List ApId) (s : State) : KeepsQueue s (renewClaims l s) :=
  .foldl (fun _ _ => .modAp _ rfl rfl) l s

/-- Every entry rewritten, the queue is sorted again (R86). -/
theorem resortQueue_keepsQueue (s : State) : KeepsQueue s (resortQueue s) where
  listed j h := by
    refine Eq.trans ?_ h
    rw [Bool.eq_iff_iff]
    simp only [State.queued, resortQueue, State.setQueue_queue, List.any_eq_true, mem_sortEntries, List.mem_map]
    exact ⟨fun ⟨_, ⟨e, mem, eq⟩, ap⟩ => ⟨e, mem, by rw [← eq] at ap; exact ap⟩,
     fun ⟨e, mem, ap⟩ => ⟨_, ⟨e, mem, rfl⟩, ap⟩⟩
  nodup h := nodup_sortEntries.2 (by rw [List.map_map]; exact h)
  sorted h := .sort (by rw [List.map_map]; exact h.nodup)
  late _ := rfl
  fix _ := rfl
  count := rfl

theorem exposureUpdate_keepsQueue (s : State) : KeepsQueue s (exposureUpdate s) := by
  have supervised (v : State) (x : Supervisor) (queue : x.queue = v.sup.queue)
      (count : x.changeCount = v.sup.changeCount) : KeepsQueue v { v with sup := x } :=
    .of_members (fun _ => rfl) (fun _ => rfl) rfl queue count
  unfold exposureUpdate; dsimp only
  refine KeepsQueue.trans ?_ (announceWeather_keepsQueue _ _ _)
  refine KeepsQueue.trans ?_ (.ite (fun _ => supervised _ _ rfl rfl) fun _ => .refl _)
  refine KeepsQueue.trans ?_ ((renewClaims_keepsQueue _ _).trans (resortQueue_keepsQueue _))
  refine KeepsQueue.trans ?_ (.ite (fun _ => .foldl (fun v i => claimOn_keepsQueue i v) _ _) fun _ => .refl _)
  exact supervised _ _ rfl rfl

theorem gustUpdate_keepsQueue (s : State) : KeepsQueue s (gustUpdate s) := by
  have computed : KeepsQueue s { s with sup := { s.sup with computed := true, gustWord := s.fe.word } } :=
    .of_members (fun _ => rfl) (fun _ => rfl) rfl rfl rfl
  exact computed.trans ((compute_keepsQueue _).trans (exposureUpdate_keepsQueue _))

theorem advisoryChanged_keepsQueue (d : Option Advisory) (s : State) :
    KeepsQueue s (advisoryChanged { s with sup := { s.sup with advisory := d } }) := by
  have record : KeepsQueue s { s with sup := { s.sup with advisory := d } } :=
    .of_members (fun _ => rfl) (fun _ => rfl) rfl rfl rfl
  unfold advisoryChanged
  exact record.trans (.ite (fun _ => (compute_keepsQueue _).trans (exposureUpdate_keepsQueue _)) fun _ => .refl _)

theorem endHolding_keepsQueue (s : State) : KeepsQueue s (endHolding s) := by
  have judged (w : Weather) (v : State) : KeepsQueue v (setWeather w v) :=
    .of_members (fun _ => rfl) (fun _ => rfl) rfl rfl rfl
  unfold endHolding
  exact ((KeepsQueue.foldl (fun v i => dropClaim_keepsQueue i v) _ s).trans (judged _ _)).trans
    (announceWeather_keepsQueue _ _ _)

/-- The stages of the front end touch neither records, branches nor supervisor. -/
theorem frontEndStages_keepsQueue (vane : Byte) (rain rainok : Bool) (s : State) :
    KeepsQueue s (frontEndStages vane rain rainok (beginBoundary vane rain rainok s)) := by
  obtain ⟨_, _, _, _, rest⟩ := frontEndStages_rest (vane := vane) (rain := rain) (rainok := rainok) s
  exact .elsewhere (by rw [rest]) (by rw [rest]) (by rw [rest])

end Sys2Proof.Machine

end

