-- ==== Sys2Proof/Proofs/Projections.lean ====
section
/-! PROOFS. The projection of a branch, its LATE marks, late flag and PLAN notices (R108, R109). -/

namespace Sys2Proof.Machine

open Sys2Proof

variable {s t u : State} {b c : Branch} {e : Entry}

/-! ### A projection depends on the apertures' fixed records and positions, and on the branch's settings (R108) -/

/-- The LATE mark that the recomputation of branch `b` gives an entry (R109). -/
def marked (b : Branch) (s : State) (e : Entry) : Entry :=
  if (s.ap e.ap).fix.branch = b then { e with late := (lateAps s b).contains e.ap } else e

/-- A mark leaves an entry its fields and its place. -/
theorem marked_fields (b : Branch) (s : State) (e : Entry) :
    (marked b s e).ap = e.ap ∧ (marked b s e).deadline = e.deadline ∧ (marked b s e).cause = e.cause ∧
      (marked b s e).rank = e.rank ∧ (marked b s e).load = e.load := by
  unfold marked; split <;> exact ⟨rfl, rfl, rfl, rfl, rfl⟩

theorem marked_lt (b : Branch) (s : State) (x y : Entry) : (marked b s x).lt (marked b s y) = x.lt y := by
  obtain ⟨a1, d1, -, r1, l1⟩ := marked_fields b s x
  obtain ⟨a2, d2, -, r2, l2⟩ := marked_fields b s y
  simp only [Entry.lt, a1, d1, r1, l1, a2, d2, r2, l2]

/-- The recomputation of branch `b` before its notice (R108, R109). -/
def projected (b : Branch) (s : State) : State :=
  (s.setQueue (s.sup.queue.map (marked b s))).modBranch b fun r =>
    { r with late := !(lateAps s b).isEmpty, projection := projection s b }

/-- Beyond marks, flag and projection a recomputation reaches ports and owed attempts. -/
theorem projectBranch_rest (b : Branch) (s : State) :
    ∃ x y, projectBranch s b = { projected b s with ports := x, owed := y } := by
  have notified (ps : List Port) (n : NoticeBody) :
      ∃ x, (projected b s).notify ps n = { projected b s with ports := x } := State.notify_rest ps n
  change ∃ x y, (match (s.branch b).late, lateAps s b with
    | false, i :: _ => (projected b s).notify [.S, .L] (.planLate b (lateAps s b).length i)
    | true, [] => ((projected b s).notify [.S, .L] (.planRecovered b)).owe b
    | _, _ => projected b s) = _
  split
  · obtain ⟨x, h⟩ := notified [.S, .L] (.planLate b (lateAps s b).length ‹_›)
    exact ⟨x, _, h⟩
  · obtain ⟨x, h⟩ := notified [.S, .L] (.planRecovered b)
    rw [h]
    unfold State.owe
    split <;> exact ⟨x, _, rfl⟩
  · exact ⟨_, _, rfl⟩

theorem projectBranch_branch (b c : Branch) (s : State) : (projectBranch s b).branch c =
    if b = c then { s.branch b with late := !(lateAps s b).isEmpty, projection := projection s b } else s.branch c := by
  obtain ⟨x, y, h⟩ := projectBranch_rest b s
  have marks : (projected b s).branch c = _ := State.branch_modBranch ..
  rw [h]
  exact marks

/-- The same apertures in the same order have the same projected completions. -/
theorem projectFrom_congr {r q : BranchRec} (limit : q.limit = r.limit) (gap : q.gap = r.gap)
    (fix : ∀ i, (t.ap i).fix = (s.ap i).fix) (position : ∀ i, (t.ap i).position = (s.ap i).position)
    (f : Entry → Entry) (ap : ∀ e, (f e).ap = e.ap) (w k : Nat) (es : List Entry) :
    projectFrom t q w k (es.map f) = projectFrom s r w k es := by
  induction es generalizing w k with
  | nil => rfl
  | cons e es ih => simp only [List.map_cons, projectFrom, remaining, ap, fix, position, limit, gap, ih]

/-- Entries rewritten in nothing but their marks project as before and are late as before (R108, R109). -/
theorem lateAps_congr (frame : Frame Aperture.keep s t) (f : Entry → Entry)
    (fields : ∀ e, (f e).ap = e.ap ∧ (f e).deadline = e.deadline)
    (entries : t.entriesOf b = (s.entriesOf b).map f) :
    projection t b = projection s b ∧ lateAps t b = lateAps s b := by
  have same : projection t b = projection s b := by
    unfold projection
    rw [entries]
    exact projectFrom_congr (frame.limit b) (frame.gap b) (fun i => (keep_fields (frame.aps i)).1)
      (fun i => (keep_fields (frame.aps i)).2.1) f (fun e => (fields e).1) 0 0 _
  have mark (p : Nat) (e : Entry) : lateMark t.ds p (f e) = lateMark s.ds p e := by
    rw [lateMark, lateMark, (fields e).2, frame.ds]
  refine ⟨same, ?_⟩
  unfold lateAps
  rw [same, entries, List.zip_map_left, List.filter_map, List.map_map]
  simp only [Function.comp_def, Prod.map_fst, Prod.map_snd, id, mark, (fields _).1]

/-! ### The plan of a branch stands while its entries do -/

/-- From `s` to `t` branch `b` kept its entries, their LATE marks, its late flag and its projection. -/
structure PlanStands (b : Branch) (s t : State) : Prop where
  frame      : Frame Aperture.keep s t
  entries    : t.entriesOf b = s.entriesOf b
  late       : (t.branch b).late = (s.branch b).late
  projection : (t.branch b).projection = (s.branch b).projection

namespace PlanStands

theorem refl (b : Branch) (s : State) : PlanStands b s s := ⟨Frame.refl _ s, rfl, rfl, rfl⟩

theorem trans (h : PlanStands b s u) (g : PlanStands b u t) : PlanStands b s t :=
  ⟨h.frame.trans g.frame, g.entries.trans h.entries, g.late.trans h.late, g.projection.trans h.projection⟩

/-- Where the queue stands, the entries of every branch do. -/
theorem of_queue (frame : Frame Aperture.keep s t) (queue : t.sup.queue = s.sup.queue)
    (late : (t.branch b).late = (s.branch b).late) (projection : (t.branch b).projection = (s.branch b).projection) :
    PlanStands b s t := by
  refine ⟨frame, ?_, late, projection⟩
  unfold State.entriesOf
  rw [queue]
  simp only [(keep_fields (frame.aps _)).1]

theorem lateAps (h : PlanStands b s t) : Machine.projection t b = Machine.projection s b ∧
    Machine.lateAps t b = Machine.lateAps s b :=
  lateAps_congr h.frame id (fun _ => ⟨rfl, rfl⟩) (by rw [List.map_id]; exact h.entries)

end PlanStands

/-- The recomputation of another branch leaves the plan of this one. -/
theorem projectBranch_stands (ne : c ≠ b) (s : State) : PlanStands b s (projectBranch s c) := by
  obtain ⟨x, y, h⟩ := projectBranch_rest c s
  have branch : (projectBranch s c).branch b = s.branch b := (projectBranch_branch c b s).trans (if_neg ne)
  refine ⟨(projectBranch_calm c s).frame, ?_, by rw [branch], by rw [branch]⟩
  have keep (e : Entry) (mem : (s.ap e.ap).fix.branch = b) : marked c s e = e :=
    if_neg fun other => ne (other.symm.trans mem)
  have entries : (projectBranch s c).entriesOf b = (s.sup.queue.map (marked c s)).filter fun e =>
      (s.ap e.ap).fix.branch = b := by rw [h]; rfl
  rw [entries, List.filter_map]
  simp only [Function.comp_def, (marked_fields c s _).1]
  exact (List.map_congr_left fun e mem => keep e (of_decide_eq_true (List.mem_filter.1 mem).2)).trans (List.map_id _)

/-- The plan of branch `b` is that of R108 and R109 for the entries, positions and clock of `s`. -/
structure Planned (b : Branch) (s : State) : Prop where
  projection : (s.branch b).projection = projection s b
  late       : (s.branch b).late = !(lateAps s b).isEmpty
  marks      : ∀ e ∈ s.entriesOf b, e.late = (lateAps s b).contains e.ap

/-- The PLAN notices that a change of branch `b`'s late flag from `s` to `t` queues (R109). -/
structure PlanAnnounced (b : Branch) (s t : State) : Prop where
  late      : (s.branch b).late = false → ∀ i l, lateAps t b = i :: l →
    NoticeQueued [.S, .L] ⟨t.sec, .planLate b (lateAps t b).length i⟩ s t
  recovered : (s.branch b).late = true → lateAps t b = [] → NoticeQueued [.S, .L] ⟨t.sec, .planRecovered b⟩ s t

theorem PlanStands.planned (h : PlanStands b s t) (g : Planned b s) : Planned b t := by
  obtain ⟨proj, late⟩ := h.lateAps
  refine ⟨by rw [h.projection, g.projection, proj], by rw [h.late, g.late, late], fun e mem => ?_⟩
  rw [late]
  exact g.marks e (h.entries ▸ mem)

theorem PlanAnnounced.kept (h : PlanAnnounced b s u) (g : PlanStands b u t) : PlanAnnounced b s t := by
  obtain ⟨-, late⟩ := g.lateAps
  refine ⟨fun was i l e => ?_, fun was e => ?_⟩ <;> rw [late] at e <;> rw [g.frame.sec]
  · rw [late]; exact (h.late was i l e).kept g.frame
  · exact (h.recovered was e).kept g.frame

theorem PlanAnnounced.behind (h : PlanAnnounced b u t) (late : (u.branch b).late = (s.branch b).late)
    (ports : ∀ p, PortKept (s.port p) (u.port p)) : PlanAnnounced b s t :=
  ⟨fun was i l e => (h.late (late.trans was) i l e).behind ports,
    fun was e => (h.recovered (late.trans was) e).behind ports⟩

/-! ### A recomputation (R108, R109) -/

theorem entriesOf_projectBranch (b : Branch) (s : State) :
    (projectBranch s b).entriesOf b = (s.entriesOf b).map (marked b s) := by
  obtain ⟨x, y, h⟩ := projectBranch_rest b s
  have entries : (projectBranch s b).entriesOf b = (s.sup.queue.map (marked b s)).filter fun e =>
      (s.ap e.ap).fix.branch = b := by rw [h]; rfl
  rw [entries, List.filter_map]
  simp only [Function.comp_def, (marked_fields b s _).1]
  rfl

theorem lateAps_projectBranch (b : Branch) (s : State) :
    projection (projectBranch s b) b = projection s b ∧ lateAps (projectBranch s b) b = lateAps s b :=
  lateAps_congr (projectBranch_calm b s).frame (marked b s)
    (fun e => ⟨(marked_fields b s e).1, (marked_fields b s e).2.1⟩) (entriesOf_projectBranch b s)

theorem projectBranch_planned (b : Branch) (s : State) : Planned b (projectBranch s b) := by
  obtain ⟨proj, late⟩ := lateAps_projectBranch b s
  have branch := (projectBranch_branch b b s).trans (if_pos rfl)
  refine ⟨by rw [branch, proj], by rw [branch, late], fun e mem => ?_⟩
  rw [entriesOf_projectBranch] at mem
  obtain ⟨e', mem', rfl⟩ := List.mem_map.1 mem
  have own : (s.ap e'.ap).fix.branch = b := of_decide_eq_true (List.mem_filter.1 mem').2
  rw [late, (marked_fields b s e').1, marked, if_pos own]

theorem projectBranch_announced (b : Branch) (s : State) : PlanAnnounced b s (projectBranch s b) := by
  have late := (lateAps_projectBranch b s).2
  have sec := (projectBranch_calm b s).frame.sec
  have queued (n : NoticeBody) : NoticeQueued [.S, .L] ⟨s.sec, n⟩ s ((projected b s).notify [.S, .L] n) :=
    notify_queued [.S, .L] (by decide) n (projected b s)
  refine ⟨fun was i l e => ?_, fun was e => ?_⟩ <;> rw [sec] <;> rw [late] at e
  · have one : projectBranch s b = (projected b s).notify [.S, .L] (.planLate b (lateAps s b).length i) := by
      unfold projectBranch; dsimp only
      rw [was, e]; dsimp only
      rw [← e]; rfl
    rw [late, one]
    exact queued _
  · have one : projectBranch s b = ((projected b s).notify [.S, .L] (.planRecovered b)).owe b := by
      unfold projectBranch; dsimp only
      rw [was, e]; dsimp only
      rw [← e]; rfl
    rw [one]
    exact (queued _).kept (Frame.owe (k := id) b)

/-- The recomputation of the branches of a list leaves the plan of one that is not among them. -/
theorem projectBranches_stands {l : List Branch} (others : b ∉ l) (s : State) :
    PlanStands b s (l.foldl projectBranch s) := by
  induction l generalizing s with
  | nil => exact .refl b s
  | cons c l ih =>
    rw [List.mem_cons, not_or] at others
    exact (projectBranch_stands (Ne.symm others.1) s).trans (ih others.2 _)

/-- After a recomputation every branch's plan is that of R108 and R109, and each change of a flag is announced. -/
theorem project_planned (b : Branch) (s : State) : Planned b (project s) ∧ PlanAnnounced b s (project s) := by
  have split : ∃ l m, allBranches = l ++ b :: m ∧ b ∉ l ∧ b ∉ m := by
    cases b
    · exact ⟨[], [.B, .C, .D], by decide⟩
    · exact ⟨[.A], [.C, .D], by decide⟩
    · exact ⟨[.A, .B], [.D], by decide⟩
    · exact ⟨[.A, .B, .C], [], by decide⟩
  obtain ⟨l, m, e, before, behind⟩ := split
  have first := projectBranches_stands before s
  have last := projectBranches_stands behind (projectBranch (l.foldl projectBranch s) b)
  have turn : project s = m.foldl projectBranch (projectBranch (l.foldl projectBranch s) b) := by
    rw [project, e, List.foldl_append]; rfl
  rw [turn]
  exact ⟨last.planned (projectBranch_planned b _),
    ((projectBranch_announced b _).behind first.late first.frame.ports).kept last⟩

/-- A branch is late exactly while one of its entries is LATE (R109). -/
theorem Planned.late_any (h : Planned b s) : (s.branch b).late = (s.entriesOf b).any (·.late) := by
  rw [h.late, Bool.eq_iff_iff, List.any_eq_true, Bool.not_eq_true', List.isEmpty_eq_false_iff_exists_mem]
  constructor
  · rintro ⟨i, mem⟩
    obtain ⟨⟨e, p⟩, zip, rfl⟩ := List.mem_map.1 mem
    have entry : e ∈ s.entriesOf b := (List.of_mem_zip (List.mem_filter.1 zip).1).1
    exact ⟨e, entry, (h.marks e entry).trans (List.contains_iff_mem.2 mem)⟩
  · rintro ⟨e, entry, late⟩
    exact ⟨e.ap, List.contains_iff_mem.1 ((h.marks e entry).symm.trans late)⟩

/-! ### The order of the queue under its marks (R86) -/

theorem projectBranch_sup (b : Branch) (s : State) :
    (projectBranch s b).sup = { s.sup with queue := s.sup.queue.map (marked b s) } := by
  obtain ⟨x, y, h⟩ := projectBranch_rest b s
  rw [h]; rfl

theorem Sorted.project (h : Sorted s.sup.queue) : Sorted (project s).sup.queue := by
  have each (l : List Branch) (s : State) (h : Sorted s.sup.queue) : Sorted (l.foldl projectBranch s).sup.queue := by
    induction l generalizing s with
    | nil => exact h
    | cons b l ih =>
      refine ih _ ?_
      rw [projectBranch_sup]
      exact h.map (marked_lt b s) fun e => (marked_fields b s e).1
  exact each allBranches s h

theorem project_calm (s : State) : Calm s (project s) := .foldl (fun v c => projectBranch_calm c v) allBranches s

theorem project_listed {j : ApId} (h : Listed j s) : Listed j (project s) := by
  rw [Listed, (project_calm s).queued, State.ap_of_aps (project_calm s).aps]; exact h

end Sys2Proof.Machine

end

