-- ==== Sys2Proof/Proofs/QueueStands.lean ====
section
/-! PROOFS. The end of an event: attempts leave queue and plans, so that the projection is the last word on them
(R86, R101, R109). -/

namespace Sys2Proof.Machine

open Sys2Proof

variable {s t u : State} {i : ApId} {b : Branch}

/-! ### Attempts move no queue entry -/

/-- From `s` to `t` reservations and attempts left late flags and projections, and the queue that matched its
members. -/
structure QueueStands (s t : State) : Prop where
  frame  : Frame Aperture.keep s t
  listed : ∀ j, Listed j s → Listed j t
  sup    : s.QueueMatches → t.sup = s.sup
  late   : ∀ b, (t.branch b).late = (s.branch b).late
  plan   : ∀ b, (t.branch b).projection = (s.branch b).projection

namespace QueueStands

theorem refl (s : State) : QueueStands s s := ⟨Frame.refl _ s, fun _ => id, fun _ => rfl, fun _ => rfl, fun _ => rfl⟩

theorem trans (h : QueueStands s u) (g : QueueStands u t) : QueueStands s t where
  frame := h.frame.trans g.frame
  listed j := g.listed j ∘ h.listed j
  sup m := (g.sup fun j => h.listed j (m j)).trans (h.sup m)
  late b := (g.late b).trans (h.late b)
  plan b := (g.plan b).trans (h.plan b)

theorem foldl {α : Type} {f : State → α → State} (h : ∀ s x, QueueStands s (f s x)) (l : List α) (s : State) :
    QueueStands s (l.foldl f s) := by
  induction l generalizing s with
  | nil => exact .refl s
  | cons x xs ih => exact (h s x).trans (ih _)

/-- Records and supervisor stand, and of the branches flag and projection. -/
theorem elsewhere (frame : Frame Aperture.keep s t) (aps : t.aps = s.aps) (sup : t.sup = s.sup)
    (branch : ∀ b, (t.branch b).late = (s.branch b).late ∧ (t.branch b).projection = (s.branch b).projection) :
    QueueStands s t where
  frame := frame
  listed j h := by rw [Listed, State.queued, sup, State.ap_of_aps aps]; exact h
  sup _ := sup
  late b := (branch b).1
  plan b := (branch b).2

theorem owe (s : State) (b : Branch) : QueueStands s (s.owe b) :=
  .elsewhere (Frame.owe b) (by simp) (by simp) fun c => by rw [State.branch, State.owe_branches]; exact ⟨rfl, rfl⟩

theorem reserve (s : State) (b : Branch) (r : Option ApId) : QueueStands s (s.reserve b r) := by
  refine .elsewhere (Frame.reserve b r) rfl rfl fun c => ?_
  rw [State.reserve, State.branch_modBranch]
  split
  · next e => subst e; exact ⟨rfl, rfl⟩
  · exact ⟨rfl, rfl⟩

/-- Where the queue matches the members, the plan of every branch stands. -/
theorem planStands (h : QueueStands s t) (m : s.QueueMatches) (b : Branch) : PlanStands b s t :=
  .of_queue h.frame (by rw [h.sup m]) (h.late b) (h.plan b)

end QueueStands

theorem refreshEntry_of_listed (h : Listed i s) : refreshEntry i s = s := by
  unfold refreshEntry
  rw [show s.queued i = (s.ap i).member from h]
  cases (s.ap i).member <;> rfl

/-- A motion state entered without a change of membership leaves the queue that matched the member. -/
theorem enter_sup {st : MotionState} {f : Aperture → Aperture} (h : Listed i s)
    (member : ({ f (s.ap i) with state := st } : Aperture).member = (s.ap i).member) :
    (enter i st f s).sup = s.sup := by
  obtain ⟨v, aps, -, sup, e⟩ := enter_judges i s st f
  have ap : v.ap i = { f (s.ap i) with state := st } := (State.ap_of_aps aps i).trans (State.ap_modAp_self ..)
  have listed : Listed i v := by rw [Listed, State.queued, sup, ap, member]; exact h
  rw [e, refreshWarning_sup, refreshEntry_of_listed listed, sup]

/-- An admission takes a WAITING aperture to STARTING: both may be queued (R85, R102). -/
theorem admitMotion_stands (w : (s.ap i).state = .waiting) : QueueStands s (admitMotion b i s) where
  frame := admit_frame i b s
  listed j h := by
    rw [Listed, admitMotion_queued]
    split
    · next e => rw [e]
    · next e => rw [admitMotion_ap, if_neg e]; exact h
  sup m := enter_sup (f := fun a => { a with
      startTime := some s.ds
      mon := { Monitor.stopped with inrush := some (s.ds + (s.branch b).window) } }) (m i)
    (by simp only [Aperture.member, w, MotionState.queueable])
  late c := (admitMotion_branch b c i s).2.1
  plan c := by
    rw [State.branch, admitMotion_branches, Branches.get_put]
    split
    · next e => subst e; rfl
    · rfl

theorem driving_iff (st : MotionState) : st.driving = true ↔ st = .starting ∨ st = .running := by
  cases st <;> decide

/-- A halt takes a driven aperture to STOPPING: both may be queued (R85, R117). -/
theorem halt_stands (i : ApId) (c : HaltCause) (s : State) : QueueStands s (halt i c s) where
  frame := halt_frame i s c
  listed := (halt_keepsQueue i s c).listed
  sup m := by
    unfold halt
    split
    · next driven =>
      refine enter_sup (f := fun a => { a with mon := { Monitor.stopped with haltCause := some c } }) (m i) ?_
      simp only [Aperture.member]
      rcases (driving_iff _).1 driven with e | e <;> rw [e] <;> rfl
    · rfl
  late b := by rw [halt_branch]
  plan b := by rw [halt_branch]

theorem Outcome.stands {x : State × Bool} (o : Outcome b (candidatesOf s b) s x) : QueueStands s x.1 := by
  cases o with
  | nothing => exact .refl s
  | admits e mem _ _ _ =>
    obtain ⟨-, w, -⟩ := (ready_iff e.ap b s e.cls).1 ⟨e, mem, rfl, rfl⟩
    exact admitMotion_stands w
  | sheds e _ _ vs _ => exact (QueueStands.foldl (fun v i => halt_stands i .shed v) vs s).trans (.reserve _ b _)

theorem attempt_stands (b : Branch) (h : AllReserved s) : QueueStands s (attempt b s).1 := by
  rcases attempt_outcome b s (h b) with o | o
  · exact o.stands
  · rw [← candidatesOf_reserve] at o
    exact (QueueStands.reserve s b none).trans o.stands

theorem settleAttempts_stands (h : AllReserved s) : QueueStands s (settleAttempts s) :=
  settleAttempts_along QueueStands.refl (fun _ _ _ => .trans) (fun _ b h => attempt_stands b h)
    (fun v => .elsewhere { Frame.refl _ v with } rfl rfl fun _ => ⟨rfl, rfl⟩) h

/-! ### The end of an event (R86, R101, R109) -/

/-- The part at the end of an event before its attempts: projected where the queue changed, the change counted. -/
def counted (update : Bool) (s0 s : State) : State :=
  countChange s0 (if update || decide (s.sup.queue ≠ s0.sup.queue) then project s else s)

theorem finish_stands (update : Bool) (s0 s : State) : QueueStands (counted update s0 s) (finish update s0 s) := by
  have check (v : State) (b : Branch) : QueueStands v (checkReservation v b) := by
    rcases checkReservation_cases v b with e | e <;> rw [e]
    · exact .refl v
    · exact (QueueStands.reserve v b none).trans (.owe _ b)
  have moves (v : State) (b : Branch) : QueueStands v (oweMoves s0 v b) := by
    unfold oweMoves
    split
    · exact .refl v
    · exact .owe v b
  have reserved := oweMoves_allReserved s0 allBranches (checkReservations_allReserved (counted update s0 s))
  have drawn (v : State) : QueueStands v v.draw := .elsewhere Frame.draw rfl rfl fun _ => ⟨rfl, rfl⟩
  exact (((QueueStands.foldl check allBranches _).trans (.foldl moves allBranches _)).trans (drawn _)).trans
    (settleAttempts_stands reserved)

theorem countChange_fields (s0 s : State) : (countChange s0 s).sup.queue = s.sup.queue ∧
    (countChange s0 s).branches = s.branches ∧
    (countChange s0 s).sup.changeCount = s.sup.changeCount + (if s.sup.queue = s0.sup.queue then 0 else 1) := by
  unfold countChange
  split
  · exact ⟨rfl, rfl, (BitVec.add_zero _).symm⟩
  · exact ⟨rfl, rfl, rfl⟩

theorem countChange_planStands (b : Branch) (s0 s : State) : PlanStands b s (countChange s0 s) := by
  obtain ⟨queue, branches, -⟩ := countChange_fields s0 s
  refine .of_queue (countChange_calm s0 s).frame queue ?_ ?_ <;> rw [State.branch, branches, State.branch]

theorem counted_listed {j : ApId} (update : Bool) (s0 : State) (h : Listed j s) : Listed j (counted update s0 s) := by
  have projected : Listed j (if update || decide (s.sup.queue ≠ s0.sup.queue) then project s else s) :=
    .ite (fun _ => project_listed h) fun _ => h
  have calm := countChange_calm s0 (if update || decide (s.sup.queue ≠ s0.sup.queue) then project s else s)
  rw [Listed, counted, calm.queued, State.ap_of_aps calm.aps]
  exact projected

theorem counted_sorted (update : Bool) (s0 : State) (h : Sorted s.sup.queue) :
    Sorted (counted update s0 s).sup.queue := by
  rw [counted, (countChange_fields _ _).1]
  split
  · exact h.project
  · exact h

/-- Where nothing is projected at the end of an event, its operations left the queue (R108). -/
theorem counted_planned (update : Bool) (s0 s : State) (b : Branch) :
    Planned b (counted update s0 s) ∧ PlanAnnounced b s (counted update s0 s) ∨
      update = false ∧ s.sup.queue = s0.sup.queue ∧ PlanStands b s (counted update s0 s) := by
  unfold counted
  by_cases h : (update || decide (s.sup.queue ≠ s0.sup.queue)) = true
  · rw [if_pos h]
    obtain ⟨planned, announced⟩ := project_planned b s
    have counted := countChange_planStands b s0 (project s)
    exact .inl ⟨counted.planned planned, announced.kept counted⟩
  · rw [if_neg h]
    simp only [Bool.or_eq_true, decide_eq_true_eq, not_or, Decidable.not_not, Bool.not_eq_true] at h
    exact .inr ⟨h.1, h.2, countChange_planStands b s0 s⟩

/-! ### An event keeps membership and order -/

theorem queueOrdered_iff (s : State) : s.QueueOrdered ↔
    Sorted s.sup.queue ∧ ∀ b, (s.branch b).late = (s.entriesOf b).any (·.late) :=
  ⟨fun ⟨nodup, keys, late⟩ => ⟨⟨nodup, keys⟩, late⟩, fun ⟨⟨nodup, keys⟩, late⟩ => ⟨nodup, keys, late⟩⟩

/-- From `s` to `t` the queue went on holding the members, in order, and the late flags followed its LATE marks. -/
structure QueueKept (s t : State) : Prop where
  matched : s.QueueMatches → t.QueueMatches
  ordered : s.QueueMatches → s.QueueOrdered → t.QueueOrdered

namespace QueueKept

theorem refl (s : State) : QueueKept s s := ⟨id, fun _ => id⟩

theorem trans (h : QueueKept s u) (g : QueueKept u t) : QueueKept s t :=
  ⟨g.matched ∘ h.matched, fun m => g.ordered (h.matched m) ∘ h.ordered m⟩

/-- Where the queue stands, only membership, flags and marks matter. -/
theorem of_queue (h : KeepsQueue s t) (queue : t.sup.queue = s.sup.queue) : QueueKept s t where
  matched m i := h.listed i (m i)
  ordered _ := by
    have entries (b : Branch) : t.entriesOf b = s.entriesOf b := by
      unfold State.entriesOf; rw [queue]; simp only [h.fix]
    rw [queueOrdered_iff, queueOrdered_iff, queue]
    simp only [h.late, entries]
    exact id

theorem elsewhere (aps : t.aps = s.aps) (branches : t.branches = s.branches) (sup : t.sup = s.sup) : QueueKept s t :=
  .of_queue (.elsewhere aps branches sup) (by rw [sup])

end QueueKept

/-- The end of an event projects a queue that its operations changed, and its attempts leave that projection. -/
theorem KeepsQueue.finish (h : KeepsQueue s u) (update : Bool) : QueueKept s (finish update s u) := by
  have stands := finish_stands update s u
  have mid (m : s.QueueMatches) : (counted update s u).QueueMatches := fun j =>
    counted_listed update s (h.listed j (m j))
  refine ⟨fun m j => stands.listed j (mid m j), fun m => ?_⟩
  rw [queueOrdered_iff, queueOrdered_iff, stands.sup (mid m)]
  rintro ⟨sorted, late⟩
  refine ⟨counted_sorted update s (h.sorted sorted), fun b => ?_⟩
  have plan := stands.planStands (mid m) b
  rw [plan.late, plan.entries]
  rcases counted_planned update s u b with ⟨planned, -⟩ | ⟨-, queue, still⟩
  · exact planned.late_any
  · have entries : u.entriesOf b = s.entriesOf b := by
      unfold State.entriesOf; rw [queue]; simp only [h.fix]
    rw [still.late, still.entries, entries, h.late, late]

theorem KeepsQueue.event {f : State → State} (h : KeepsQueue s (f s)) : QueueKept s (event f s) := h.finish false

end Sys2Proof.Machine

end

