-- ==== Sys2Proof/Proofs/QueueSteps.lean ====
section
/-! PROOFS. Every command keeps the Closure Queue matched with its members, in order, and late flags with its marks:
O10 and O11. -/

namespace Sys2Proof.Machine

open Sys2Proof

variable {s t : State} {p : Port}

/-! ### Updates and resets (R43, R68, R92) -/

theorem changeAdvisory_queueKept (d : Option Advisory) (s : State) : QueueKept s (changeAdvisory d s) :=
  (advisoryChanged_keepsQueue d s).finish s.sup.computed

/-- A load leaves no entry, no member and no late branch, whatever stood before it. -/
theorem loadTables_queueKept (s : State) : QueueKept s (loadTables s) := by
  obtain ⟨-, queue, -⟩ := loadTables_sup s
  refine ⟨fun _ i => ?_, fun _ _ => (queueOrdered_iff _).2 ⟨?_, fun b => ?_⟩⟩
  · rw [State.queued, queue, loadTables_ap]; rfl
  · rw [queue]; exact ⟨List.nodup_nil, .nil⟩
  · obtain ⟨-, -, -, -, late, -⟩ := loadBranch_reset s.store s.ds b
    rw [loadTables_branch, late, State.entriesOf, queue]; rfl

theorem announceReset_queueKept (kind : ResetKind) (reason : RestartReason) (s : State) :
    QueueKept s (announceReset kind reason s) := by
  obtain ⟨x, rest⟩ := announceReset_rest s kind reason
  exact .elsewhere (by rw [rest]) (by rw [rest]) (by rw [rest])

theorem hardReset_queueKept (kind : ResetKind) (cmsn : Bool) (sticky : Cond) (trigger : Option Trigger) (s : State) :
    QueueKept s (hardReset kind cmsn sticky trigger s) := by
  rw [hardReset_eq]
  have cleared : QueueKept s (clearedPart cmsn sticky trigger s) :=
    .of_queue (.of_members (fun _ => rfl) (fun _ => rfl) rfl rfl rfl) rfl
  exact (cleared.trans (loadTables_queueKept _)).trans (announceReset_queueKept _ _ _)

theorem store_queueKept (r : Store) (s : State) : QueueKept s { s with store := r } := .elsewhere rfl rfl rfl

theorem doRestart_queueKept (reason : RestartReason) (s : State) : QueueKept s (doRestart reason s) :=
  ((store_queueKept _ s).trans (loadTables_queueKept _)).trans (announceReset_queueKept _ _ _)

/-! ### Requests (section 10.3) -/

theorem serveOrder_queueKept (p : Port) (body : List Byte) (s : State) : QueueKept s (serveOrder p body s).1 := by
  unfold serveOrder
  split
  · exact .refl s
  · split
    · exact .refl s
    · split
      · exact .refl s
      · split
        · exact .refl s
        · exact KeepsQueue.event (putResolve_keepsQueue _ s _ _)

theorem serveOrderZone_queueKept (p : Port) (body : List Byte) (s : State) :
    QueueKept s (serveOrderZone p body s).1 := by
  unfold serveOrderZone
  split
  · exact .refl s
  · split
    · exact .refl s
    · split
      · exact .refl s
      · next y _ _ =>
        exact KeepsQueue.event (f := fun v => List.foldl (fun v' i => postOrder p i y v') v _)
          (.foldl (fun v i => putResolve_keepsQueue i v _ _) _ s)

theorem serveRelease_queueKept (p : Port) (body : List Byte) (s : State) : QueueKept s (serveRelease p body s).1 := by
  unfold serveRelease
  split
  · exact .refl s
  · split
    · exact .refl s
    · exact (releaseOrder_keepsQueue _ s p).event

theorem serveClearFault_queueKept (p : Port) (body : List Byte) (s : State) :
    QueueKept s (serveClearFault p body s).1 := by
  unfold serveClearFault
  split
  · exact .refl s
  · split
    · exact .refl s
    · exact (clearFaultOf_keepsQueue _ s).event

theorem serveAlarmRestore_queueKept (s : State) : QueueKept s (serveAlarmRestore s).1 := by
  unfold serveAlarmRestore
  split
  · exact .refl s
  · exact .refl s
  · exact (restoreFire_keepsQueue s).event

theorem serveAdvisoryCancel_queueKept (s : State) : QueueKept s (serveAdvisoryCancel s).1 := by
  unfold serveAdvisoryCancel answer; dsimp only
  split
  · exact changeAdvisory_queueKept none s
  · exact .refl s

theorem clearSticky_queueKept (s : State) : QueueKept s (clearSticky s) := by
  have cleared : QueueKept s { s with fe := s.fe.unstuck } := .elsewhere rfl rfl rfl
  have notified (v : State) (ps : List Port) (b : NoticeBody) : QueueKept v (v.notify ps b) := by
    obtain ⟨x, h⟩ := State.notify_rest (s := v) ps b
    exact .elsewhere (by rw [h]) (by rw [h]) (by rw [h])
  rw [clearSticky_eq]
  split
  · exact cleared.trans (notified _ _ _)
  · exact cleared

theorem serveRestart_queueKept (s : State) : QueueKept s (serveRestart s).1 := by
  unfold serveRestart
  split
  · exact .refl s
  · exact doRestart_queueKept _ s

theorem serveLeaveCommissioning_queueKept (s : State) : QueueKept s (serveLeaveCommissioning s).1 := by
  unfold serveLeaveCommissioning
  split
  · exact .refl s
  · split
    · exact (store_queueKept { s.store with commissioning := false } s).trans (doRestart_queueKept _ _)
    · exact .refl s

theorem serveStoreMode_queueKept (body : List Byte) (s : State) : QueueKept s (serveStoreMode body s).1 := by
  unfold serveStoreMode
  split
  · exact .refl s
  · split
    · exact .refl s
    · split
      · exact store_queueKept _ s
      · exact .refl s

theorem serveStoreAct_queueKept (body : List Byte) (s : State) : QueueKept s (serveStoreAct body s).1 := by
  unfold serveStoreAct
  split
  · exact .refl s
  · split
    · exact .refl s
    · exact store_queueKept _ s

theorem serveLock_queueKept (body : List Byte) (s : State) : QueueKept s (serveLock body s).1 := by
  unfold serveLock
  split
  case h_4 => exact .refl s
  all_goals exact store_queueKept _ s

/-- Serving a request keeps the queue matched and in order. -/
theorem serve_queueKept (k : RequestKind) (p : Port) (body : List Byte) (s : State) :
    QueueKept s (serve k p body s).1 := by
  cases k
  case order => exact serveOrder_queueKept p body s
  case orderZone => exact serveOrderZone_queueKept p body s
  case release => exact serveRelease_queueKept p body s
  case clearFault => exact serveClearFault_queueKept p body s
  case advisory => exact changeAdvisory_queueKept _ s
  case advisoryCancel => exact serveAdvisoryCancel_queueKept s
  case clearConditions => exact clearSticky_queueKept s
  case restart => exact serveRestart_queueKept s
  case alarmRestore => exact serveAlarmRestore_queueKept s
  case nextNotice => exact .elsewhere rfl rfl rfl
  case storeMode => exact serveStoreMode_queueKept body s
  case storeAct => exact serveStoreAct_queueKept body s
  case lock => exact serveLock_queueKept body s
  case leaveCommissioning => exact serveLeaveCommissioning_queueKept s
  all_goals
    rw [serve_query _ p body s (by decide)]
    exact .refl s

theorem queueKept_portSafe : PortSafe QueueKept where
  refl := .refl
  trans := .trans
  port _ _ _ := .elsewhere rfl rfl rfl
  store := store_queueKept
  serve := serve_queueKept

/-! ### Every command -/

/-- A branch timer that stops is owed an attempt, and the branch keeps its late flag. -/
theorem branchTimer_keepsQueue (b : Branch) (f : BranchRec → BranchRec) (late : ∀ r, (f r).late = r.late) (s : State) :
    KeepsQueue s ((s.modBranch b f).owe b) := by
  refine KeepsQueue.trans (u := s.modBranch b f) { KeepsQueue.refl s with late := fun c => ?_ } (.owe b)
  rw [State.branch_modBranch]
  split
  · next e => rw [late, e]
  · rfl

theorem Expires.keepsQueue {f : State → State} (h : Expires s f) (v : State) : KeepsQueue v (f v) := by
  cases h with
  | holding => exact endHolding_keepsQueue v
  | room i x e => exact expireRoom_keepsQueue i v x e
  | quiet b => exact branchTimer_keepsQueue b (fun r => { r with quiet := none }) (fun _ => rfl) v
  | gap b => exact branchTimer_keepsQueue b (fun r => { r with gapTimer := none }) (fun _ => rfl) v
  | inrush i => exact enter_keepsQueue i v _ _ rfl
  | travel i => exact halt_keepsQueue i v _
  | settle i => exact (settled_keepsQueue i v).trans (.owe _)
  | retry i => exact toRest_keepsQueue i v
  | warn z => exact endWarning_keepsQueue z v
  | contact i => exact nodeTimeout_keepsQueue i v
  | exchange g reply => exact complete_keepsQueue g reply v
  | debounce => exact debounced_keepsQueue v

theorem advanceTo_queueKept (n : Nat) (s : State) : QueueKept s (s.advanceTo n) := .elsewhere rfl rfl rfl

theorem startSlot_queueKept (s : State) : QueueKept s (startSlot s) := by
  have begun : QueueKept s { s.advanceTo s.link.nextSlot with link :=
    { s.link with nextSlot := (s.advanceTo s.link.nextSlot).clock.ms + Config.slotMs } } := .elsewhere rfl rfl rfl
  obtain ⟨kept, sup⟩ := arbitrate_keepsQueue { s.advanceTo s.link.nextSlot with link :=
    { s.link with nextSlot := (s.advanceTo s.link.nextSlot).clock.ms + Config.slotMs } }
  exact begun.trans (.of_queue kept (congrArg Supervisor.queue sup))

theorem Effect.queueKept (h : Effect s t) : QueueKept s t := by
  cases h with
  | nothing => exact .refl s
  | por | pinReset => exact hardReset_queueKept _ _ _ _ s
  | boundary vane rain rainok =>
    exact ((frontEndStages_keepsQueue vane rain rainok s).trans (gustUpdate_keepsQueue _)).finish true
  | expiry f n e => exact (advanceTo_queueKept n s).trans (e.keepsQueue _).event
  | advisory d => exact (advanceTo_queueKept _ s).trans (changeAdvisory_queueKept none _)
  | slot => exact startSlot_queueKept s
  | bytes p l => exact queueKept_portSafe.writeBytes p l s
  | stored op => exact (advanceTo_queueKept op.due s).trans (queueKept_portSafe.completeStore op _)
  | pulse | line | read | hold | endHeld | portGap => exact .elsewhere rfl rfl rfl

theorem step_queueKept (h : step s = .next t) : QueueKept s t := by
  unfold step at h
  split at h
  · next c rest _ => exact .trans (u := { s with pending := rest }) (.elsewhere rfl rfl rfl) (exec_effect h).queueKept
  · cases h; exact .elsewhere rfl rfl rfl

end Sys2Proof.Machine

open Sys2Proof Sys2Proof.Machine

/-- Settles O10: within an event an entry joins or leaves with its member, and what every command keeps, every step
keeps. -/
theorem closureQueueMatchesMembership : Obligations.ClosureQueueMatchesMembership := fun _ _ matched h =>
  (step_queueKept h).matched matched

/-- Settles O11: entries take the places of their keys, and an event that changed the queue projects it last. -/
theorem closureQueueStaysOrdered : Obligations.ClosureQueueStaysOrdered := fun _ _ matched ordered h =>
  (step_queueKept h).ordered matched ordered

end

