-- ==== Sys2Proof/Proofs/BoundaryWeather.lean ====
section
/-! PROOFS. The weather state, the hold timer and the notice that a second boundary leaves: O22. -/

namespace Sys2Proof.Machine

open Sys2Proof

variable {s t c u v : State}

/-- The settings of the supervisor that judgements of the weather read (R75, R76, R82), with the advisory record. -/
structure SettingsStand (s t : State) : Prop where
  watchGust : t.sup.watchGust = s.sup.watchGust
  holdTime  : t.sup.holdTime = s.sup.holdTime
  guardLead : t.sup.guardLead = s.sup.guardLead
  advisory  : t.sup.advisory = s.sup.advisory

theorem Updated.settingsStand (h : Updated c u) (e : Ended u t) : SettingsStand c t := by
  obtain ⟨n, q, x, r, sup⟩ := h.sup_ended e
  exact ⟨by rw [sup]; rfl, by rw [sup]; rfl, by rw [sup]; rfl, by rw [sup]; rfl⟩

/-- A gust update judges the weather from the state that it finds (R75, R76). -/
theorem gustUpdate_weatherJudged (e : Ended (gustUpdate v) t) : WeatherJudged v t ∧ SettingsStand v t := by
  unfold gustUpdate at e
  have h := exposureUpdate_updated (compute { v with sup := { v.sup with computed := true, gustWord := v.fe.word } })
  obtain ⟨watchGust, holdTime, guardLead, advisory⟩ := h.settingsStand e
  exact ⟨(h.weatherJudged e).moved rfl rfl ⟨t.ports, rfl⟩ fun _ _ => id, watchGust, holdTime, guardLead, advisory⟩

/-- The stages before the gust update queue notices, and leave the supervisor's record. -/
theorem secondBoundary_weatherJudged (vane : Byte) (rain rainok : Bool) (s : State) :
    ∃ t, exec (.secondBoundary vane rain rainok) s = .next t ∧ WeatherJudged s t ∧ SettingsStand s t := by
  refine ⟨_, rfl, ?_⟩
  have ports := frontEndStages_ports vane rain rainok s
  obtain ⟨_, _, _, _, rest⟩ := frontEndStages_rest (vane := vane) (rain := rain) (rainok := rainok) s
  generalize frontEndStages vane rain rainok (beginBoundary vane rain rainok s) = v at *
  have sup : v.sup = s.sup := by rw [rest]
  obtain ⟨judged, watchGust, holdTime, guardLead, advisory⟩ :=
    gustUpdate_weatherJudged (finish_ended true s (gustUpdate v))
  generalize finish true s (gustUpdate v) = t at *
  rw [sup] at watchGust holdTime guardLead advisory
  exact ⟨judged.moved (by rw [sup]) (by rw [sup]) ⟨t.ports, rfl⟩ fun _ _ queued => queued.behind ports, watchGust,
    holdTime, guardLead, advisory⟩

end Sys2Proof.Machine

open Sys2Proof Sys2Proof.Machine

/-- Settles O22: the update judges the weather once, and nothing that ends the event touches the judgement. -/
theorem secondBoundaryJudgesWeather : Obligations.SecondBoundaryJudgesWeather := fun s vane rain rainok =>
  let ⟨t, run, judged, settings⟩ := secondBoundary_weatherJudged vane rain rainok s
  ⟨t, run, judged, settings.watchGust, settings.holdTime, settings.guardLead, settings.advisory⟩

end

