-- ==== Sys2Proof/Proofs/BoundaryQueue.lean ====
section
/-! PROOFS. A second boundary rewrites, sorts and projects the Closure Queue: O24. -/

namespace Sys2Proof.Machine

open Sys2Proof

variable {s t u c : State} {b : Branch} {e : Entry} {k p : Nat}

/-! ### A projection entry by entry (R108) -/

/-- The work of an entry: its run current for its remaining time (R108). -/
def State.work (s : State) (e : Entry) : Nat := (s.ap e.ap).fix.run * remaining (s.ap e.ap)

theorem length_projectFrom (s : State) (r : BranchRec) (w k : Nat) (es : List Entry) :
    (projectFrom s r w k es).length = es.length := by
  induction es generalizing w k with
  | nil => rfl
  | cons e es ih => rw [projectFrom, List.length_cons, List.length_cons, ih]

/-- Each projected completion is that of the work up to its entry, with the gaps before it (R108). -/
theorem getElem?_projectFrom (s : State) (r : BranchRec) (w k n : Nat) (es : List Entry) (h : es[n]? = some e) :
    (projectFrom s r w k es)[n]? =
      some (ceilDiv (w + ((es.take (n + 1)).map s.work).sum) r.limit + (k + n + 1) * r.gap) := by
  induction es generalizing w k n with
  | nil => cases h
  | cons x xs ih =>
    cases n with
    | zero => simp [projectFrom, State.work]
    | succ n =>
      rw [List.getElem?_cons_succ] at h
      rw [projectFrom, List.getElem?_cons_succ, ih _ _ _ h, List.take_succ_cons, List.map_cons, List.sum_cons,
        ← State.work, Nat.add_assoc w, Nat.add_right_comm k 1 n,
        ← Nat.add_assoc k n 1]

/-! ### The marks of a plan (R109) -/

/-- The entries of branch `b` with their projected completions. -/
def State.plan (s : State) (b : Branch) : List (Entry × Nat) := (s.entriesOf b).zip (projection s b)

theorem plan_fst (s : State) (b : Branch) : (s.plan b).map Prod.fst = s.entriesOf b :=
  List.map_fst_zip (length_projectFrom s _ 0 0 _).ge

theorem entriesOf_nodup (h : (s.sup.queue.map (·.ap)).Nodup) (b : Branch) : ((s.entriesOf b).map (·.ap)).Nodup :=
  h.sublist (List.filter_sublist.map _)

/-- With one entry per aperture, an entry is LATE by its own deadline and completion (R109). -/
theorem Planned.late_eq (h : Planned b s) (nodup : (s.sup.queue.map (·.ap)).Nodup) {x : Entry × Nat}
    (mem : x ∈ s.plan b) : x.1.late = lateMark s.ds x.2 x.1 := by
  have keys : ((s.plan b).map fun x => x.1.ap).Nodup := by
    have entries := entriesOf_nodup nodup b
    rw [← plan_fst, List.map_map] at entries
    exact entries
  rw [h.marks x.1 (plan_fst s b ▸ List.mem_map_of_mem mem), Bool.eq_iff_iff, List.contains_iff_mem]
  constructor
  · intro late
    obtain ⟨y, my, ap⟩ := List.mem_map.1 late
    obtain ⟨zip, mark⟩ := List.mem_filter.1 my
    rw [← List.inj_on_of_nodup_map keys zip mem ap]
    exact mark
  · exact fun mark => List.mem_map.2 ⟨x, List.mem_filter.2 ⟨mem, mark⟩, rfl⟩

/-- The LATE entries of a branch are those of its late apertures, in queue order (R109). -/
theorem Planned.lateAps_eq (h : Planned b s) (nodup : (s.sup.queue.map (·.ap)).Nodup) :
    lateAps s b = ((s.entriesOf b).filter (·.late)).map (·.ap) := by
  rw [← plan_fst, List.filter_map, List.map_map, lateAps, ← State.plan]
  congr 1
  exact List.filter_congr fun x mem => (h.late_eq nodup mem).symm

theorem lateMark_iff (now p : Nat) (e : Entry) : lateMark now p e = true ↔ ∃ d, e.deadline = some d ∧ d < now + p := by
  unfold lateMark
  cases e.deadline <;> simp

/-- What O24 says of one entry of a branch: its projected completion and its LATE mark (R108, R109). -/
theorem Planned.entry (h : Planned b s) (nodup : (s.sup.queue.map (·.ap)).Nodup) (mem : (s.entriesOf b)[k]? = some e) :
    (s.branch b).projection[k]? = some (ceilDiv (((s.entriesOf b).take (k + 1)).map s.work).sum (s.branch b).limit +
        (k + 1) * (s.branch b).gap) ∧
      (e.late = true ↔ ∃ d, e.deadline = some d ∧ d < s.ds + (s.branch b).projection.getD k 0) := by
  have completion : (Machine.projection s b)[k]? = _ := getElem?_projectFrom s (s.branch b) 0 0 k _ mem
  rw [Nat.zero_add, Nat.zero_add] at completion
  have planned : (e, _) ∈ s.plan b := List.mem_of_getElem? (List.getElem?_zip_eq_some.2 ⟨mem, completion⟩)
  rw [h.projection]
  refine ⟨completion, ?_⟩
  rw [h.late_eq nodup planned, lateMark_iff, List.getD_eq_getElem?_getD, completion, Option.getD_some]

/-! ### Entries rewritten by an update (R84, R86) -/

/-- Every entry has the fields that its aperture's record gives it (R84). -/
def State.QueueFresh (s : State) : Prop := ∀ e ∈ s.sup.queue, e = mkEntry s e.ap e.late

theorem mkEntry_kept (f : Frame Aperture.keep s t) (i : ApId) (late : Bool) : mkEntry t i late = mkEntry s i late := by
  obtain ⟨fix, -, -, -, -, claim, -, -, fig⟩ := keep_fields (f.aps i)
  have advisory : t.sup.advisory = s.sup.advisory := by rw [f.sup]
  simp only [mkEntry, entryLoad, Aperture.claimOr, fix, claim, fig, advisory]

/-- Entries rewritten in nothing but their marks stay fresh. -/
theorem State.QueueFresh.kept (h : s.QueueFresh) (f : Frame Aperture.keep s t)
    (queue : ∀ e ∈ t.sup.queue, ∃ x ∈ s.sup.queue, e = { x with late := e.late }) : t.QueueFresh := fun e mem => by
  obtain ⟨x, mx, eq⟩ := queue e mem
  rw [mkEntry_kept f, eq]
  have fresh := h x mx
  generalize e.late = late
  rw [fresh]
  rfl

theorem State.QueueFresh.stands (h : s.QueueFresh) (f : Frame Aperture.keep s t) (queue : t.sup.queue = s.sup.queue) :
    t.QueueFresh := h.kept f fun e mem => ⟨e, queue ▸ mem, rfl⟩

theorem State.QueueFresh.project (h : s.QueueFresh) : (project s).QueueFresh := by
  have each (l : List Branch) (s : State) (h : s.QueueFresh) : (l.foldl projectBranch s).QueueFresh := by
    induction l generalizing s with
    | nil => exact h
    | cons b l ih =>
      refine ih _ (h.kept (projectBranch_calm b s).frame fun e mem => ?_)
      rw [projectBranch_sup] at mem
      obtain ⟨x, mx, rfl⟩ := List.mem_map.1 mem
      refine ⟨x, mx, ?_⟩
      unfold marked
      split <;> rfl
  exact each allBranches s h

/-- An update rewrites every entry and sorts the queue (R84, R86). -/
theorem exposureUpdate_fresh (c : State) : (exposureUpdate c).QueueFresh ∧
    (((exposureUpdate c).sup.queue.map (·.ap)).Nodup → Sorted (exposureUpdate c).sup.queue) := by
  have rewritten (w : State) : (resortQueue w).QueueFresh := fun e mem => by
    obtain ⟨x, -, rfl⟩ := List.mem_map.1 (mem_sortEntries.1 mem)
    rfl
  have sorted (w : State) (h : ((resortQueue w).sup.queue.map (·.ap)).Nodup) : Sorted (resortQueue w).sup.queue :=
    .sort (nodup_sortEntries.1 h)
  have recorded : (entryWritten c).sup.queue = (claimsUpdated c).sup.queue ∧
      ∀ i late, mkEntry (entryWritten c) i late = mkEntry (claimsUpdated c) i late := by
    unfold entryWritten
    split <;> exact ⟨rfl, fun _ _ => rfl⟩
  obtain ⟨x, announced⟩ := announceWeather_rest c.sup.weather (nextWeather c) (entryWritten c)
  have queue : (exposureUpdate c).sup.queue = (claimsUpdated c).sup.queue := by
    rw [exposureUpdate_eq, announced]; exact recorded.1
  have fields (i : ApId) (late : Bool) : mkEntry (exposureUpdate c) i late = mkEntry (claimsUpdated c) i late := by
    rw [exposureUpdate_eq, announced]; exact recorded.2 i late
  refine ⟨fun e mem => ?_, ?_⟩
  · rw [fields]; exact rewritten _ e (queue ▸ mem)
  · rw [queue]; exact sorted _

theorem entryLoad_of_other {a : Aperture} {c : Cause} (h : c ≠ .advisory ∨ s.sup.advisory = none) :
    entryLoad s a c = a.fig.load := by
  unfold entryLoad
  split
  · next d _ _ held _ =>
    rcases h with ne | none
    · exact absurd rfl ne
    · rw [none] at held; cases held
  · rfl

theorem entryLoad_of_advisory {a : Aperture} {q : Nat} {n : Bool} (held : s.sup.advisory.isSome)
    (fig : a.fig.adv = some (q, n)) : entryLoad s a .advisory = q := by
  obtain ⟨d, held⟩ := Option.isSome_iff_exists.1 held
  unfold entryLoad
  rw [held, fig]

/-- What O24 says of the fields of a fresh entry (R84). -/
theorem State.QueueFresh.fields (h : s.QueueFresh) (mem : e ∈ s.sup.queue) :
    e.cause = (s.ap e.ap).claimOr.cause ∧ e.deadline = (s.ap e.ap).claimOr.deadline ∧ e.rank = (s.ap e.ap).fix.rank ∧
      (e.cause ≠ .advisory ∨ s.sup.advisory = none → e.load = (s.ap e.ap).fig.load) ∧
      (e.cause = .advisory → s.sup.advisory.isSome → ∀ q n, (s.ap e.ap).fig.adv = some (q, n) → e.load = q) := by
  have cause : e.cause = (s.ap e.ap).claimOr.cause := congrArg Entry.cause (h e mem)
  have load : e.load = entryLoad s (s.ap e.ap) e.cause := by rw [cause]; exact congrArg Entry.load (h e mem)
  refine ⟨cause, congrArg Entry.deadline (h e mem), congrArg Entry.rank (h e mem), fun other => ?_,
    fun adv held q n fig => ?_⟩
  · rw [load, entryLoad_of_other other]
  · rw [load, adv, entryLoad_of_advisory held fig]

/-! ### A second boundary -/

theorem project_changeCount (s : State) : (project s).sup.changeCount = s.sup.changeCount := by
  simp only [project, allBranches, List.foldl_cons, List.foldl_nil, projectBranch_sup]

/-- What an event with a projection leaves of a queue that its operations kept, rewrote and sorted. -/
structure Projects (s t : State) : Prop where
  sorted    : Sorted t.sup.queue
  fresh     : t.QueueFresh
  count     : t.sup.changeCount = s.sup.changeCount + (if t.sup.queue = s.sup.queue then 0 else 1)
  planned   : ∀ b, Planned b t
  announced : ∀ b, PlanAnnounced b s t

theorem Projects.of_update (matched : s.QueueMatches) (h : KeepsQueue s u) (sorted : Sorted u.sup.queue)
    (fresh : u.QueueFresh) (ports : ∀ p, PortKept (s.port p) (u.port p)) : Projects s (finish true s u) := by
  have stands := finish_stands true s u
  have mid : (counted true s u).QueueMatches := fun j => counted_listed true s (h.listed j (matched j))
  have sup := stands.sup mid
  have plan (b : Branch) : Planned b (counted true s u) ∧ PlanAnnounced b u (counted true s u) :=
    (counted_planned true s u b).resolve_right fun ⟨no, _⟩ => by cases no
  obtain ⟨queue, -, count⟩ : (counted true s u).sup.queue = _ ∧ _ ∧ (counted true s u).sup.changeCount = _ :=
    countChange_fields s (project u)
  refine ⟨?_, ?_, ?_, fun b => (stands.planStands mid b).planned (plan b).1, fun b => ?_⟩
  · rw [sup]; exact counted_sorted true s sorted
  · have change := countChange_calm s (project u)
    exact (fresh.project.stands (t := counted true s u) change.frame queue).stands stands.frame (by rw [sup])
  · rw [sup, count, queue, project_changeCount, h.count]
  · exact ((plan b).2.kept (stands.planStands mid b)).behind (h.late b) ports

theorem secondBoundary_projects (vane : Byte) (rain rainok : Bool) (matched : s.QueueMatches)
    (nodup : (s.sup.queue.map (·.ap)).Nodup) :
    ∃ t, exec (.secondBoundary vane rain rainok) s = .next t ∧ Projects s t := by
  refine ⟨_, rfl, ?_⟩
  have kept := (frontEndStages_keepsQueue vane rain rainok s).trans (gustUpdate_keepsQueue _)
  have ports := frontEndStages_ports vane rain rainok s
  generalize frontEndStages vane rain rainok (beginBoundary vane rain rainok s) = v at kept ports ⊢
  unfold gustUpdate at kept ⊢
  have frame := exposureUpdate_frame (compute { v with sup := { v.sup with computed := true, gustWord := v.fe.word } })
  obtain ⟨fresh, sorted⟩ :=
    exposureUpdate_fresh (compute { v with sup := { v.sup with computed := true, gustWord := v.fe.word } })
  exact .of_update matched kept (sorted (kept.nodup nodup)) fresh fun p => (ports p).trans (frame.ports p)

/-- A notice that every port with room got stands in the queue of a port that has room. -/
theorem NoticeQueued.mem {ps : List Port} {n : Notice} (h : NoticeQueued ps n s t) {p : Port} (mem : p ∈ ps)
    (room : (t.port p).notices.length < 16) : n ∈ (t.port p).notices := by
  obtain ⟨more, e, queued⟩ := h p mem (.inr room)
  rw [e]
  exact List.mem_append_right _ queued

/-- What O24 says of the notices of branch `b`: they count and name its LATE entries (R109). -/
theorem Projects.notices (h : Projects s t) (b : Branch) {p : Port} (port : p = .S ∨ p = .L)
    (room : (t.port p).notices.length < 16) :
    ((s.branch b).late = false → (t.branch b).late = true → ∃ first,
      ((t.entriesOf b).filter (·.late)).head?.map (·.ap) = some first ∧
      ⟨t.sec, .planLate b ((t.entriesOf b).filter (·.late)).length first⟩ ∈ (t.port p).notices) ∧
    ((s.branch b).late = true → (t.branch b).late = false → ⟨t.sec, .planRecovered b⟩ ∈ (t.port p).notices) := by
  have mem : p ∈ [Port.S, .L] := by simpa using port
  have late := (h.planned b).lateAps_eq h.sorted.nodup
  have flag := (h.planned b).late
  refine ⟨fun was now => ?_, fun was now => ?_⟩
  · cases aps : lateAps t b with
    | nil => rw [aps] at flag; rw [flag] at now; cases now
    | cons i l =>
      have queued := ((h.announced b).late was i l aps).mem mem room
      rw [late, List.length_map] at queued
      refine ⟨i, ?_, queued⟩
      rw [← List.head?_map, ← late, aps]
      rfl
  · refine ((h.announced b).recovered was ?_).mem mem room
    rw [flag, Bool.not_eq_false', List.isEmpty_iff] at now
    exact now

end Sys2Proof.Machine

open Sys2Proof Sys2Proof.Machine

/-- Settles O24: the update rewrites and sorts the entries, and the projection that ends the event is the last to touch
them. -/
theorem secondBoundaryProjectsTheQueue : Obligations.SecondBoundaryProjectsTheQueue := by
  intro s vane rain rainok matched nodup
  obtain ⟨t, run, h⟩ := secondBoundary_projects vane rain rainok matched nodup
  refine ⟨t, run, h.sorted.keys, fun e => h.fresh.fields, h.count, fun b => ⟨?_, fun k e mem => ?_, ?_,
    fun p port room => h.notices b port room⟩⟩
  · rw [(h.planned b).projection]
    exact length_projectFrom t _ 0 0 _
  · exact (h.planned b).entry h.sorted.nodup mem
  · rw [(h.planned b).late_any, List.any_eq_true]

end

