-- ==== Sys2Proof/Proofs/WaitOrders.lean ====
section
/-! PROOFS. The order of a wait list, and who is eligible there (R96 to R104). -/

namespace Sys2Proof.Machine

open Sys2Proof

variable {s : State} {b : Branch} {x y z e : WaitEntry} {c d : OrderClass} {i : ApId} {m : Motion}

/-! ### The order of the classes (R22) -/

theorem outranks_iff (c d : OrderClass) : Outranks c d ↔ c.rank < d.rank := by
  have index (c : OrderClass) : [OrderClass.life, .weather, .supervisory, .room].idxOf c = c.rank := by cases c <;> rfl
  rw [← index, ← index]
  rfl

theorem rank_inj (h : c.rank = d.rank) : c = d := by
  revert h
  cases c <;> cases d <;> decide

/-! ### The order of a wait list (R97) -/

theorem WaitEntry.lt_iff (x y : WaitEntry) : x.lt y = true ↔ WaitsBefore x y := by
  unfold WaitEntry.lt WaitsBefore
  rw [outranks_iff]
  by_cases cls : x.cls = y.cls
  · rw [if_neg (not_not.2 cls), cls, or_iff_right (Nat.lt_irrefl _), and_iff_right rfl]
    have time : (if x.orderTime ≠ y.orderTime then decide (x.orderTime < y.orderTime) else decide (x.ap < y.ap)) = true
        ↔ x.orderTime < y.orderTime ∨ x.orderTime = y.orderTime ∧ x.ap < y.ap := by
      split
      · next ne => simp [ne]
      · next same => simp [not_not.1 same]
    by_cases weather : y.cls = .weather
    · cases px : x.place <;> cases py : y.place <;> simp [weather, ← time]
    · simp [weather, ← time]
  · simp [cls]

/-- 0 for a WEATHER entry with a place in the Closure Queue, which goes before those of its class without one, and 1 for
every other entry (R97). -/
def WaitEntry.behind (e : WaitEntry) : Nat := if e.cls = .weather ∧ e.place.isSome then 0 else 1

theorem WaitEntry.behind_le (e : WaitEntry) : e.behind ≤ 1 := by unfold WaitEntry.behind; split <;> omega

/-- The order of R97 by numbers alone. -/
theorem waitsBefore_iff (x y : WaitEntry) : WaitsBefore x y ↔ x.cls.rank < y.cls.rank ∨ x.cls.rank = y.cls.rank ∧
    (x.behind < y.behind ∨ x.behind = 0 ∧ y.behind = 0 ∧ x.place.getD 0 < y.place.getD 0 ∨
      x.behind = 1 ∧ y.behind = 1 ∧
        (x.orderTime < y.orderTime ∨ x.orderTime = y.orderTime ∧ x.ap.val < y.ap.val)) := by
  unfold WaitsBefore
  rw [outranks_iff]
  refine or_congr_right ?_
  by_cases cls : x.cls = y.cls
  · rw [cls, and_iff_right rfl, and_iff_right rfl]
    unfold WaitEntry.behind
    rw [cls]
    by_cases weather : y.cls = .weather
    · cases x.place <;> cases y.place <;> simp [weather]
    · simp [weather]
  · exact iff_of_false (fun h => cls h.1) fun h => cls (rank_inj h.1)

theorem WaitsBefore.trans (h : WaitsBefore x y) (g : WaitsBefore y z) : WaitsBefore x z := by
  rw [waitsBefore_iff] at *
  omega

/-- Entries of different apertures are in order one way or the other, where no two share a place in the queue. -/
theorem waitsBefore_or (ne : x.ap ≠ y.ap) (apart : ∀ p, x.place = some p → y.place ≠ some p) :
    WaitsBefore x y ∨ WaitsBefore y x := by
  have index : x.ap.val ≠ y.ap.val := Fin.val_ne_of_ne ne
  have places : x.behind = 0 → y.behind = 0 → x.place.getD 0 ≠ y.place.getD 0 := by
    unfold WaitEntry.behind
    cases px : x.place with
    | none => simp
    | some p =>
      cases py : y.place with
      | none => simp
      | some q => exact fun _ _ same => apart p px (py.trans (congrArg some (Eq.symm same)))
  have bound := And.intro x.behind_le y.behind_le
  rw [waitsBefore_iff, waitsBefore_iff]
  omega

theorem insertWait_eq (e : WaitEntry) (l : List WaitEntry) :
    insertWait e l = l.orderedInsert (fun x y => x.lt y = true) e := by
  induction l with
  | nil => rfl
  | cons x xs ih => rw [insertWait, List.orderedInsert_cons, ih]

theorem sortWait_eq (l : List WaitEntry) : sortWait l = l.insertionSort fun x y => x.lt y = true := by
  induction l with
  | nil => rfl
  | cons x xs ih => rw [sortWait, insertWait_eq, ih]; rfl

/-! ### The wait list of a branch (R96) -/

/-- The entries of a wait list before they are sorted. -/
def State.waiting (s : State) (b : Branch) : List WaitEntry := (s.onBranch b).filterMap (waitEntry s)

theorem waitEntry_ap (h : waitEntry s i = some e) : e.ap = i := by
  obtain ⟨-, m, -, rfl⟩ := (waitEntry_eq_some i s e).1 h
  rfl

theorem waiting_nodup (s : State) (b : Branch) : ((s.waiting b).map (·.ap)).Nodup := by
  rw [State.waiting, List.map_filterMap]
  refine (onBranch_nodup b s).filterMap fun i j k hi hj => ?_
  obtain ⟨x, hx, rfl⟩ := Option.map_eq_some_iff.1 hi
  obtain ⟨y, hy, same⟩ := Option.map_eq_some_iff.1 hj
  rw [← waitEntry_ap hx, ← waitEntry_ap hy, same]

/-- A place in the Closure Queue is that of one aperture (R96). -/
theorem place_apart (hx : x ∈ waitList s b) (hy : y ∈ waitList s b) (ne : x.ap ≠ y.ap) (p : Nat)
    (px : x.place = some p) : y.place ≠ some p := by
  have placed {e : WaitEntry} (mem : e ∈ waitList s b) (place : e.place = some p) :
      ∃ q, s.sup.queue[p]? = some q ∧ q.ap = e.ap := by
    obtain ⟨-, -, m, -, eq⟩ := (mem_waitList b s e).1 mem |>.imp_right (waitEntry_eq_some e.ap s e).1
    rw [eq] at place
    obtain ⟨lt, found, -⟩ := List.findIdx?_eq_some_iff_getElem.1 place
    exact ⟨_, List.getElem?_eq_getElem lt, of_decide_eq_true found⟩
  intro py
  obtain ⟨q, hq, qx⟩ := placed hx px
  obtain ⟨r, hr, ry⟩ := placed hy py
  cases hq.symm.trans hr
  exact ne (qx.symm.trans ry)

theorem waitList_nodup (s : State) (b : Branch) : ((waitList s b).map (·.ap)).Nodup := by
  rw [waitList, sortWait_eq, ((List.perm_insertionSort _ _).map _).nodup_iff]
  exact waiting_nodup s b

/-- A wait list stands in the order of R97. -/
theorem waitList_pairwise (s : State) (b : Branch) : (waitList s b).Pairwise WaitsBefore := by
  have comparable : (s.waiting b).Pairwise fun x y => x.lt y = true ∨ y.lt x = true := by
    refine pairwise_of_nodup_map (fun x hx y hy ne => ?_) (waiting_nodup s b)
    rw [WaitEntry.lt_iff, WaitEntry.lt_iff]
    exact waitsBefore_or ne (place_apart (b := b) ((mem_sortWait x _).2 hx) ((mem_sortWait y _).2 hy) ne)
  have trans (x y z : WaitEntry) (h : x.lt y = true) (g : y.lt z = true) : x.lt z = true :=
    (WaitEntry.lt_iff x z).2 (((WaitEntry.lt_iff x y).1 h).trans ((WaitEntry.lt_iff y z).1 g))
  rw [waitList, sortWait_eq]
  exact (pairwise_insertionSort trans comparable).imp fun {x y} => (WaitEntry.lt_iff x y).1

/-- A wait list holds the WAITING apertures of its branch that have a motion (R96). -/
theorem waits_iff (i : ApId) : (∃ e ∈ waitList s b, e.ap = i) ↔
    (s.ap i).fix.branch = b ∧ (s.ap i).state = .waiting ∧ (s.ap i).motion.isSome := by
  simp only [mem_waitList, waitEntry_eq_some]
  constructor
  · rintro ⟨e, ⟨branch, state, m, motion, -⟩, rfl⟩
    exact ⟨branch, state, by rw [motion]; rfl⟩
  · rintro ⟨branch, state, motion⟩
    obtain ⟨m, motion⟩ := Option.isSome_iff_exists.1 motion
    exact ⟨entryFor s i m, ⟨branch, state, m, motion, rfl⟩, rfl⟩

/-- The entry of a wait list is that of the aperture's motion. -/
theorem waitList_entry (mem : e ∈ waitList s b) : ∃ m, (s.ap e.ap).motion = some m ∧ e = entryFor s e.ap m := by
  obtain ⟨-, -, m, motion, eq⟩ := (mem_waitList b s e).1 mem |>.imp_right (waitEntry_eq_some e.ap s e).1
  exact ⟨m, motion, eq⟩

theorem orderTime_posted {a : Aperture} {x : Slot} (purpose : m.purpose = .normal) (slot : a.slate.get m.cls = some x) :
    a.orderTime m = x.posted := by
  unfold Aperture.orderTime
  rw [purpose, slot]

theorem orderTime_waitSince {a : Aperture} (h : m.purpose = .backoff ∨ a.slate.get m.cls = none) :
    a.orderTime m = a.waitSince := by
  unfold Aperture.orderTime
  split
  · next purpose slot =>
    rcases h with h | h
    · rw [purpose] at h; cases h
    · rw [slot] at h; cases h
  · rfl

/-! ### Eligible entries, and what fits (R98 to R104) -/

/-- A motion waits for its zone's warning by R99. -/
theorem not_awaitsWarning_iff (motion : (s.ap i).motion = some m) : awaitsWarning s (entryFor s i m) = false ↔
    ¬ ((m.cls = .weather ∨ m.cls = .supervisory) ∧ m.dir = .closing ∧ m.purpose = .normal ∧
      ∃ z, s.governing i = some z ∧ 0 < (s.zones.desc[z]).warn ∧ (s.zones.warnings[z]).state ≠ .done) := by
  rw [awaitsWarning_entryFor i s motion]
  simp only [Motion.needsWarning, Bool.and_eq_true, Bool.or_eq_true, decide_eq_true_eq]
  constructor
  · rintro h ⟨cls, dir, purpose, z, governs, warn, undone⟩
    exact undone (h z governs ⟨⟨⟨cls, dir⟩, purpose⟩, warn⟩)
  · rintro h z governs ⟨⟨⟨cls, dir⟩, purpose⟩, warn⟩
    by_contra undone
    exact h ⟨cls, dir, purpose, z, governs, warn, undone⟩

/-- An attempt works on the eligible entries of the wait list (R98 to R101, R104). -/
theorem mem_candidatesOf_iff (mem : e ∈ waitList s b) : e ∈ candidatesOf s b ↔ Eligible s b e := by
  obtain ⟨m, motion, eq⟩ := waitList_entry mem
  have warning := not_awaitsWarning_iff motion
  rw [← eq] at warning
  have cls : e.cls = m.cls := by rw [eq]; rfl
  have dir : e.dir = m.dir := by rw [eq]; rfl
  have purpose : e.purpose = m.purpose := by rw [eq]; rfl
  rw [candidatesOf, List.mem_filter, and_iff_right mem, decide_eq_true_eq, standingOf_eligible, warning,
    awaitsPlan_eq_false, unfit_eq_false, Eligible, cls, dir, purpose]

theorem fits_iff (s : State) (b : Branch) (e : WaitEntry) :
    fits s b e = true ↔ s.committed b + (s.ap e.ap).fix.inrush ≤ (s.branch b).limit := decide_eq_true_iff

theorem gapPassed_iff (s : State) (b : Branch) : gapPassed s b = true ↔ match (s.branch b).lastStart with
    | some start => start + (s.branch b).gap ≤ s.ds
    | none => s.loadEnd + (s.branch b).gap ≤ s.ds := by
  unfold gapPassed
  cases (s.branch b).lastStart <;> exact decide_eq_true_iff

end Sys2Proof.Machine

end

