-- ==== Sys2Proof/Proofs/ShedOrders.lean ====
section
/-! PROOFS. The candidates for a shedding in their order, and the victims taken from them: O30. -/

namespace Sys2Proof.Machine

open Sys2Proof

variable {s : State} {b : Branch} {i j k : ApId} {c : OrderClass}

/-! ### The order of the candidates (R105) -/

theorem victimLt_iff (s : State) (i j : ApId) : victimLt s i j = true ↔
    let rank := fun k => ((s.ap k).motion.map (·.cls.rank)).getD 0
    let start := fun k => (s.ap k).startTime.getD 0
    rank j < rank i ∨ rank i = rank j ∧ (start j < start i ∨ start i = start j ∧ j < i) := by
  unfold victimLt; dsimp only
  split
  · next ne => simp [ne]
  · next same =>
    rw [not_not] at same
    split
    · next ne => simp [same, ne]
    · next level => simp [same, not_not.1 level]

theorem victimLt_trans (s : State) (i j k : ApId) (h : victimLt s i j = true) (g : victimLt s j k = true) :
    victimLt s i k = true := by
  rw [victimLt_iff] at *
  simp only [Fin.lt_def] at *
  omega

theorem victimLt_or (ne : i ≠ j) : victimLt s i j = true ∨ victimLt s j i = true := by
  have index : i.val < j.val ∨ j.val < i.val := lt_or_gt_of_ne (Fin.val_ne_of_ne ne)
  rw [victimLt_iff, victimLt_iff]
  simp only [Fin.lt_def]
  omega

/-- Among apertures with a motion the order is that of R105. -/
theorem shedBefore_of_victimLt (h : victimLt s i j = true) : ShedBefore s i j := by
  intro m n hm hn
  rw [victimLt_iff] at h
  simp only [hm, hn, Option.map_some, Option.getD_some] at h
  rw [outranks_iff]
  exact h.imp_right fun ⟨rank, later⟩ => ⟨rank_inj rank, later⟩

theorem insertVictim_eq (s : State) (i : ApId) (l : List ApId) :
    insertVictim s i l = l.orderedInsert (fun i j => victimLt s i j = true) i := by
  induction l with
  | nil => rfl
  | cons x xs ih => rw [insertVictim, List.orderedInsert_cons, ih]

theorem sortVictims_eq (s : State) (l : List ApId) :
    sortVictims s l = l.insertionSort fun i j => victimLt s i j = true := by
  induction l with
  | nil => rfl
  | cons x xs ih => rw [sortVictims, insertVictim_eq, ih]; rfl

theorem sheddable_nodup (s : State) (b : Branch) (c : OrderClass) : (sheddable s b c).Nodup := by
  rw [sheddable, sortVictims_eq, (List.perm_insertionSort _ _).nodup_iff]
  exact (onBranch_nodup b s).filter _

theorem sheddable_pairwise (s : State) (b : Branch) (c : OrderClass) : (sheddable s b c).Pairwise (ShedBefore s) := by
  rw [sheddable, sortVictims_eq]
  refine (pairwise_insertionSort (victimLt_trans s) ?_).imp shedBefore_of_victimLt
  exact ((onBranch_nodup b s).filter _).imp victimLt_or

theorem mem_sheddable : i ∈ sheddable s b c ↔ Sheddable s b c i := by
  rw [sheddable, mem_sortVictims, List.mem_filter, mem_onBranch, Bool.and_eq_true, driving_iff, Sheddable]
  refine and_congr_right fun _ => and_congr_right fun _ => ?_
  cases (s.ap i).motion <;> simp [outranks_iff]

/-! ### The victims (R105) -/

/-- The current that the first `n` apertures of a list free. -/
def State.frees (s : State) (l : List ApId) (n : Nat) : Nat := ((l.take n).map fun i => (s.ap i).contribution).sum

theorem frees_succ (s : State) (i : ApId) (l : List ApId) (n : Nat) :
    s.frees (i :: l) (n + 1) = (s.ap i).contribution + s.frees l n := by
  rw [State.frees, List.take_succ_cons, List.map_cons, List.sum_cons, State.frees]

/-- The shortest run of candidates that frees enough is taken. -/
theorem takeVictims_shortest {need free n : Nat} {l : List ApId} (len : n ≤ l.length)
    (enough : need ≤ free + s.frees l n) (short : ∀ m < n, free + s.frees l m < need) :
    takeVictims s need free l = some (l.take n) := by
  induction l generalizing free n with
  | nil =>
    obtain rfl : n = 0 := Nat.le_zero.1 len
    exact if_pos enough
  | cons i l ih =>
    unfold takeVictims
    cases n with
    | zero => exact if_pos enough
    | succ n =>
      have first : free < need := short 0 n.succ_pos
      rw [if_neg (Nat.not_le.2 first), ih (n := n) (Nat.le_of_succ_le_succ len), List.take_succ_cons]
      · rfl
      · rw [frees_succ] at enough
        omega
      · intro m lt
        have less := short (m + 1) (Nat.succ_lt_succ lt)
        rw [frees_succ] at less
        omega

/-- No candidates are taken where all together free too little. -/
theorem takeVictims_none {need free : Nat} {l : List ApId} (short : free + s.frees l l.length < need) :
    takeVictims s need free l = none := by
  induction l generalizing free with
  | nil => exact if_neg (Nat.not_le.2 short)
  | cons i l ih =>
    rw [List.length_cons, frees_succ] at short
    unfold takeVictims
    rw [if_neg (by omega), ih (by omega)]
    rfl

/-- The run currents of the STOPPING apertures of a branch, which they release without a shedding (R105). -/
theorem stoppingCurrent_eq (s : State) (b : Branch) : stoppingCurrent s b =
    ((allAps.filter fun i => (s.ap i).fix.branch = b ∧ (s.ap i).state = .stopping).map
      fun i => (s.ap i).fix.run).sum := by
  rw [stoppingCurrent, State.onBranch, List.filter_filter]
  simp only [Bool.decide_and, Bool.and_comm]

theorem contribution_eq (a : Aperture) : a.contribution = match a.state with
    | .starting => a.fix.inrush
    | .running | .stopping => a.fix.run
    | .offline => a.held.getD 0
    | .fault | .rest | .waiting | .settling | .retryWait | .unknown | .absent => 0 := by
  unfold Aperture.contribution
  cases a.state <;> rfl

end Sys2Proof.Machine

open Sys2Proof Sys2Proof.Machine

/-- Settles O30: each order is transitive and decides between different apertures, so insertion sorts by it; the victims
are counted off by recursion on the candidates. -/
theorem listsAndVictimsFollowTheirOrders : Obligations.ListsAndVictimsFollowTheirOrders := by
  refine ⟨fun s b => ⟨rfl, fun i => contribution_eq _, waits_iff, waitList_nodup s b, waitList_pairwise s b,
    fun e mem => ?_, List.filter_sublist, fun e => mem_candidatesOf_iff, fits_iff s b, gapPassed_iff s b, fun e =>
      ⟨sheddable s b e.cls, sheddable_nodup s b e.cls, fun i => mem_sheddable, sheddable_pairwise s b e.cls, ?_⟩⟩,
    Entry.lt_iff⟩
  · obtain ⟨m, motion, eq⟩ := waitList_entry mem
    have time : e.orderTime = (s.ap e.ap).orderTime m := congrArg WaitEntry.orderTime eq
    exact ⟨m, motion, congrArg WaitEntry.cls eq, congrArg WaitEntry.dir eq, congrArg WaitEntry.purpose eq,
      congrArg WaitEntry.place eq, fun x purpose slot => time.trans (orderTime_posted purpose slot),
      fun h => time.trans (orderTime_waitSince h)⟩
  · rw [← stoppingCurrent_eq]
    exact ⟨fun n len enough short => takeVictims_shortest len enough short, fun short => takeVictims_none short⟩

end

