-- ==== Sys2Proof/Proofs/Servings.lean ====
section
/-! PROOFS. What serving a request can do, said once for all kinds of request (section 10.3). -/

namespace Sys2Proof.Machine

open Sys2Proof

variable {s t : State} {k : RequestKind} {p : Port}

/-- What happens in the event of a request that reaches the apertures. -/
inductive Asks : (State → State) → Prop where
  | order (p : Port) (i : ApId) (y : Target) : Asks (postOrder p i y)
  | orders (p : Port) (y : Target) (l : List ApId) (each : l.Nodup) :
      Asks fun v => l.foldl (fun v' i => postOrder p i y v') v
  | release (p : Port) (i : ApId) : Asks (releaseOrder p i)
  | clearFault (i : ApId) : Asks (clearFaultOf i)
  | restore : Asks restoreFire

/-- What serving a request of kind `k` can do in state `s`. -/
inductive Serves (k : RequestKind) (s : State) : State → Prop where
  | nothing : Serves k s s
  | asked (f : State → State) (h : Asks f) : Serves k s (event f s)
  | advisory (d : Option Advisory) : Serves k s (changeAdvisory d s)
  | conditions : Serves k s (clearSticky s)
  | notice (p : Port) (f : PortRec → PortRec) : Serves k s (s.modPort p f)
  | store (r : Store) : Serves k s { s with store := r }
  | restart (reason : RestartReason) (r : Store) (kind : k = .restart ∨ k = .leaveCommissioning) :
      Serves k s (doRestart reason { s with store := r })

theorem serveOrder_serves (p : Port) (body : List Byte) (s : State) : Serves .order s (serveOrder p body s).1 := by
  unfold serveOrder
  split
  · exact .nothing
  · split
    · exact .nothing
    · split
      · exact .nothing
      · split
        · exact .nothing
        · exact .asked _ (.order p _ _)

theorem serveOrderZone_serves (p : Port) (body : List Byte) (s : State) :
    Serves .orderZone s (serveOrderZone p body s).1 := by
  unfold serveOrderZone
  split
  · exact .nothing
  · split
    · exact .nothing
    · split
      · exact .nothing
      · next y _ _ =>
        exact .asked (fun v => List.foldl (fun v' i => postOrder p i y v') v _)
          (.orders p y _ (((List.nodup_finRange 48).filter _).filter _))

theorem serveRelease_serves (p : Port) (body : List Byte) (s : State) : Serves .release s (serveRelease p body s).1 := by
  unfold serveRelease
  split
  · exact .nothing
  · split
    · exact .nothing
    · exact .asked _ (.release p _)

theorem serveClearFault_serves (p : Port) (body : List Byte) (s : State) :
    Serves .clearFault s (serveClearFault p body s).1 := by
  unfold serveClearFault
  split
  · exact .nothing
  · split
    · exact .nothing
    · exact .asked _ (.clearFault _)

theorem serveAlarmRestore_serves (s : State) : Serves .alarmRestore s (serveAlarmRestore s).1 := by
  unfold serveAlarmRestore
  split
  · exact .nothing
  · exact .nothing
  · exact .asked _ .restore

theorem serveAdvisoryCancel_serves (s : State) : Serves .advisoryCancel s (serveAdvisoryCancel s).1 := by
  unfold serveAdvisoryCancel answer; dsimp only
  split
  · exact .advisory none
  · exact .nothing

theorem serveRestart_serves (s : State) : Serves .restart s (serveRestart s).1 := by
  unfold serveRestart
  split
  · exact .nothing
  · exact .restart .restart s.store (.inl rfl)

theorem serveLeaveCommissioning_serves (s : State) : Serves .leaveCommissioning s (serveLeaveCommissioning s).1 := by
  unfold serveLeaveCommissioning
  split
  · exact .nothing
  · split
    · exact .restart .leaveCommissioning { s.store with commissioning := false } (.inr rfl)
    · exact .nothing

theorem serveStoreMode_serves (body : List Byte) (s : State) : Serves .storeMode s (serveStoreMode body s).1 := by
  unfold serveStoreMode
  split
  · exact .nothing
  · split
    · exact .nothing
    · split
      · exact .store _
      · exact .nothing

theorem serveStoreAct_serves (body : List Byte) (s : State) : Serves .storeAct s (serveStoreAct body s).1 := by
  unfold serveStoreAct
  split
  · exact .nothing
  · split
    · exact .nothing
    · exact .store _

theorem serveLock_serves (body : List Byte) (s : State) : Serves .lock s (serveLock body s).1 := by
  unfold serveLock
  split
  case h_4 => exact .nothing
  all_goals exact .store _

/-- Serving a request does one of these, by its kind. -/
theorem serve_serves (k : RequestKind) (p : Port) (body : List Byte) (s : State) :
    Serves k s (serve k p body s).1 := by
  cases k
  case order => exact serveOrder_serves p body s
  case orderZone => exact serveOrderZone_serves p body s
  case release => exact serveRelease_serves p body s
  case clearFault => exact serveClearFault_serves p body s
  case advisory => exact .advisory _
  case advisoryCancel => exact serveAdvisoryCancel_serves s
  case clearConditions => exact .conditions
  case restart => exact serveRestart_serves s
  case alarmRestore => exact serveAlarmRestore_serves s
  case nextNotice => exact .notice p fun r => { r with notices := r.notices.drop 1, nlost := false }
  case storeMode => exact serveStoreMode_serves body s
  case storeAct => exact serveStoreAct_serves body s
  case lock => exact serveLock_serves body s
  case leaveCommissioning => exact serveLeaveCommissioning_serves s
  all_goals
    rw [serve_query _ p body s (by decide)]
    exact .nothing

end Sys2Proof.Machine

end

