-- ==== Sys2Proof/Proofs/SettledSteps.lean ====
section
/-! PROOFS. Between commands nothing is owed and every reservation stands: O6. -/

namespace Sys2Proof.Machine

open Sys2Proof

variable {s t : State}

/-! ### The end of an event leaves nothing owed, and the reservations of eligible entries (R101, R107) -/

theorem settled_iff (s : State) : s.Settled ↔ s.owed = [] ∧ AllReserved s := by
  refine and_congr_right fun _ => forall_congr' fun b => forall_congr' fun i => imp_congr_right fun _ => ?_
  constructor
  · rintro ⟨e, mem, ap, cls, stands⟩
    exact ⟨e.cls, cls, e, List.mem_filter.2 ⟨mem, decide_eq_true stands⟩, ap, rfl⟩
  · rintro ⟨c, cls, e, mem, ap, rfl⟩
    obtain ⟨listed, stands⟩ := List.mem_filter.1 mem
    exact ⟨e, listed, ap, cls, of_decide_eq_true stands⟩

/-- The attempts of an event leave reservations of eligible entries alone (R107). -/
theorem settleAttempts_allReserved (h : AllReserved s) : AllReserved (settleAttempts s) :=
  settleAttempts_along (P := fun v w => AllReserved v → AllReserved w) (fun _ => id) (fun _ _ _ g f => f ∘ g)
    (fun _ _ _ r => (attempt_attempts r).2) (fun _ r => r) h h

theorem finish_settled (update : Bool) (s0 s : State) : (finish update s0 s).Settled := by
  obtain ⟨v, -, reserved, e⟩ := finish_cases update s0 s
  refine (settled_iff _).2 ⟨rfl, ?_⟩
  rw [e]
  exact settleAttempts_allReserved reserved

/-! ### Every command -/

/-- What was settled in `s` is so in `t`. -/
def KeepsSettled (s t : State) : Prop := s.Settled → t.Settled

/-- A change of nothing that wait lists, reservations and owed attempts are read from. -/
theorem keepsSettled_elsewhere (aps : t.aps = s.aps) (queue : t.sup.queue = s.sup.queue)
    (branches : t.branches = s.branches) (zones : t.zones = s.zones) (owed : t.owed = s.owed) : KeepsSettled s t :=
  WaitsAlike.settled ⟨fun i => by simp only [State.ap_of_aps aps, and_self], queue, branches, zones, owed⟩

/-- After a load nothing is owed and no reservation stands (R111). -/
theorem loadTables_settled (s : State) : (loadTables s).Settled := by
  refine ⟨rfl, fun b i r => ?_⟩
  obtain ⟨-, -, -, none, -⟩ := loadBranch_reset s.store s.ds b
  rw [loadTables_branch, none] at r
  cases r

theorem announceReset_keepsSettled (kind : ResetKind) (reason : RestartReason) (s : State) :
    KeepsSettled s (announceReset kind reason s) := by
  obtain ⟨x, rest⟩ := announceReset_rest s kind reason
  rw [rest]
  exact keepsSettled_elsewhere rfl rfl rfl rfl rfl

theorem Serves.settled {k : RequestKind} (h : Serves k s t) : KeepsSettled s t := by
  cases h with
  | nothing => exact id
  | asked f _ => exact fun _ => finish_settled false s (f s)
  | advisory d => exact fun _ => finish_settled _ s _
  | conditions =>
    obtain ⟨x, rest⟩ := clearSticky_rest s
    rw [rest]
    exact keepsSettled_elsewhere rfl rfl rfl rfl rfl
  | notice | store => exact keepsSettled_elsewhere rfl rfl rfl rfl rfl
  | restart reason r => exact fun _ => announceReset_keepsSettled _ _ _ (loadTables_settled _)

theorem keepsSettled_portSafe : PortSafe KeepsSettled where
  refl _ := id
  trans h g := g ∘ h
  port _ _ _ := keepsSettled_elsewhere rfl rfl rfl rfl rfl
  store _ _ := keepsSettled_elsewhere rfl rfl rfl rfl rfl
  serve k p body s := (serve_serves k p body s).settled

/-- The arbiter's choice writes the link, and of the apertures the send count of the node it sends to (R134, R139). -/
theorem arbitrate_waitsAlike (s : State) : WaitsAlike s (arbitrate s) := by
  have linked (l : Link) (v : State) : WaitsAlike v { v with link := l } :=
    { WaitsAlike.refl v with aps := fun _ => ⟨rfl, rfl, rfl, rfl, rfl⟩ }
  have order (i : ApId) (x : Exchange) (v : State) : WaitsAlike v (sendOrder i x v) := by
    have counted : WaitsAlike v (v.modAp i fun a => { a with node := { a.node with sendCount := some (nextTag v i) } }) :=
      { WaitsAlike.refl v with aps := fun j => by rw [State.ap_modAp]; split <;> simp_all }
    exact counted.trans (linked _ _)
  have poll (i : ApId) (v : State) : WaitsAlike v (sendPoll i v) := by
    unfold sendPoll; dsimp only
    split
    · exact linked _ v
    · exact { WaitsAlike.refl v with aps := fun _ => ⟨rfl, rfl, rfl, rfl, rfl⟩ }
  have next : WaitsAlike s (pollNext s) := by
    unfold pollNext
    split
    · exact poll _ s
    · exact (linked _ s).trans (poll _ _)
    · exact .refl s
  unfold arbitrate
  split
  · exact linked _ s
  · split
    · exact next
    · split
      · exact (linked _ s).trans (order _ _ _)
      · exact (linked _ s).trans (order _ _ _)
      · exact next

theorem startSlot_waitsAlike (s : State) : WaitsAlike s (startSlot s) := by
  have begun : WaitsAlike s { s.advanceTo s.link.nextSlot with link :=
      { s.link with nextSlot := (s.advanceTo s.link.nextSlot).clock.ms + Config.slotMs } } :=
    { WaitsAlike.refl s with aps := fun _ => ⟨rfl, rfl, rfl, rfl, rfl⟩ }
  exact begun.trans (arbitrate_waitsAlike _)

theorem Effect.settled (h : Effect s t) : KeepsSettled s t := by
  cases h with
  | nothing => exact id
  | por | pinReset => exact fun _ => announceReset_keepsSettled _ _ _ (loadTables_settled _)
  | boundary | expiry | advisory => exact fun _ => finish_settled _ _ _
  | slot => exact (startSlot_waitsAlike s).settled
  | bytes p l => exact keepsSettled_portSafe.writeBytes p l s
  | stored op => exact keepsSettled_portSafe.completeStore op (s.advanceTo op.due)
  | pulse | line | read | hold | endHeld | portGap => exact keepsSettled_elsewhere rfl rfl rfl rfl rfl

end Sys2Proof.Machine

open Sys2Proof Sys2Proof.Machine

/-- Settles O6: events end settled, and the other effects leave what reservations are read from. -/
theorem reservationsStandBetweenCommands : Obligations.ReservationsStandBetweenCommands := by
  intro s t settled h
  unfold step at h
  split at h
  · exact (exec_effect h).settled settled
  · cases h
    exact settled

end

