-- ==== Sys2Proof/Proofs/MotionExpiries.lean ====
section
/-! PROOFS. The end of the inrush window and of the travel time: O32. -/

namespace Sys2Proof.Machine

open Sys2Proof

variable {i j : ApId} {s t u : State}

theorem inrushTimerExpiry_runs {e : Nat} (st : (s.ap i).state = .starting) (h : (s.ap i).mon.inrush = some e) :
    exec (.inrushTimerExpiry i) s = .next (event (toRunning i) (s.advanceTo (e * 100))) := by
  simp only [exec, execInrushTimerExpiry, st, h]

theorem travelTimerExpiry_runs {e : Nat} (driven : (s.ap i).state.driving = true) (h : (s.ap i).mon.travel = some e) :
    exec (.travelTimerExpiry i) s = .next (event (halt i .timeout) (s.advanceTo (e * 100))) := by
  simp only [exec, execTravelTimerExpiry, travelTimer, driven, h, if_true]

/-- Past its inrush window an aperture runs, with its motion (R114). -/
theorem toRunning_ap : (toRunning i s).ap j =
    if i = j then { s.ap i with state := .running, mon := { (s.ap i).mon with inrush := none } } else s.ap j :=
  enter_ap ..

/-- A running aperture runs on through the end of an event, or was shed: its run current stays committed (R95, R117). -/
theorem Ending.running (h : Ending i u t) (runs : (u.ap i).state = .running) (fix : (t.ap i).fix = (u.ap i).fix) :
    (t.ap i).contribution = (u.ap i).fix.run ∧ ((t.ap i).state = .running ∨ (t.ap i).state = .stopping) ∧
      (t.ap i).motion = (u.ap i).motion := by
  obtain ⟨motion, st⟩ := h.driven (by rw [runs]; rfl)
  have state : (t.ap i).state = .running ∨ (t.ap i).state = .stopping := st.imp (fun e => e.1.trans runs) And.left
  refine ⟨?_, state, motion⟩
  rw [← fix]
  rcases state with e | e <;> rw [Aperture.contribution, e]

end Sys2Proof.Machine

open Sys2Proof Sys2Proof.Machine

/-- Settles O32, by the passage to RUNNING and by the halt. -/
theorem inrushAndTravelExpiriesKeepTheMotion : Obligations.InrushAndTravelExpiriesKeepTheMotion := by
  intro s i e
  refine ⟨fun st timer => ?_, fun st timer => ?_⟩
  · have d := event_ended (toRunning i) (s.advanceTo (e * 100))
    have own : (toRunning i (s.advanceTo (e * 100))).ap i = _ := toRunning_ap
    rw [if_pos rfl] at own
    obtain ⟨current, state, motion⟩ := (d.ending i).running (by rw [own]) (keep_fields (d.frame.aps i)).1
    rw [own] at current motion
    have frame : Frame Aperture.keep (s.advanceTo (e * 100)) (toRunning i (s.advanceTo (e * 100))) :=
      enter_frame i _ _ _ rfl
    exact ⟨_, inrushTimerExpiry_runs st timer, current, state, motion, frame.trans d.frame⟩
  · have driven : (s.ap i).state.driving = true := (driving_iff _).2 st
    have d := event_ended (halt i .timeout) (s.advanceTo (e * 100))
    refine ⟨_, travelTimerExpiry_runs driven timer, d.halted ⟨rfl, rfl, rfl, rfl, rfl⟩ ?_ driven
      (halt_link .timeout driven), (halt_frame _ _ .timeout).trans d.frame⟩
    rw [halt_ap, if_pos rfl]; rfl

end

