-- ==== Sys2Proof/Proofs/ZoneWarnings.lean ====
section
/-! PROOFS. Closings, calls and warnings of a zone, what one passage of an aperture does to them, and that attempts leave
them alone (R99, R126, R127). -/

namespace Sys2Proof.Machine

open Sys2Proof

variable {i j : ApId} {y z : ZoneId} {s t u : State} {b : Branch}

/-! ### Closings and calls, and the operations on warnings -/

theorem closing_iff (a : Aperture) : a.closing = true ↔
    (a.state = .waiting ∨ a.state = .starting ∨ a.state = .running ∨ a.state = .stopping) ∧
      ∃ m, a.motion = some m ∧ m.dir = .closing := by
  unfold Aperture.closing
  cases a.state <;> cases a.motion <;> simp [MotionState.moving]

theorem closingOf_iff : ClosingOf s z i ↔ s.governing i = some z ∧ (s.ap i).closing = true := by
  rw [closing_iff, ClosingOf]

theorem zoneCloses_iff : s.zoneCloses z = true ↔ ∃ i, ClosingOf s z i := by
  simp only [State.zoneCloses, allAps, List.any_eq_true, List.mem_finRange, true_and, Bool.and_eq_true, beq_iff_eq,
    closingOf_iff, and_comm]

theorem zoneCloses_congr (closing : ∀ i, (t.ap i).closing = (s.ap i).closing) (desc : t.zones.desc = s.zones.desc) :
    t.zoneCloses z = s.zoneCloses z := by
  simp only [State.zoneCloses, closing, State.governing_of_desc desc]

theorem zoneCloses_of_aps (aps : t.aps = s.aps) (desc : t.zones.desc = s.zones.desc) :
    t.zoneCloses z = s.zoneCloses z :=
  zoneCloses_congr (fun i => by rw [State.ap_of_aps aps]) desc

theorem needsWarning_iff (m : Motion) (warn : Nat) : m.needsWarning warn = true ↔
    (m.cls = .weather ∨ m.cls = .supervisory) ∧ m.dir = .closing ∧ m.purpose = .normal ∧ 0 < warn := by
  simp [Motion.needsWarning, and_assoc]

theorem callsWarning_iff : CallsWarning s z i ↔ s.governing i = some z ∧ (s.ap i).state = .waiting ∧
    ∃ m, (s.ap i).motion = some m ∧ m.needsWarning (s.zones.desc[z]).warn = true := by
  simp only [CallsWarning, needsWarning_iff]
  exact ⟨fun ⟨g, w, p, m, h, d, n, c⟩ => ⟨g, w, m, h, c, d, n, p⟩,
    fun ⟨g, w, m, h, c, d, n, p⟩ => ⟨g, w, p, m, h, d, n, c⟩⟩

/-- An aperture that calls for a warning is a closing of its zone. -/
theorem CallsWarning.closes (h : CallsWarning s z i) : ClosingOf s z i := by
  obtain ⟨g, w, -, m, motion, dir, -⟩ := h
  exact ⟨g, .inl w, m, motion, dir⟩

/-- A zone has one governing descriptor for each aperture: calls and closings are of that zone alone (R39). -/
theorem governing_unique (h : s.governing i = some y) (g : s.governing i = some z) : y = z :=
  Option.some.inj (h.symm.trans g)

/-- Closings and calls are read from motion state, motion and descriptors. -/
theorem closingOf_congr (ap : (t.ap i).state = (s.ap i).state ∧ (t.ap i).motion = (s.ap i).motion)
    (desc : t.zones.desc = s.zones.desc) : ClosingOf t z i ↔ ClosingOf s z i := by
  rw [ClosingOf, ClosingOf, ap.1, ap.2, State.governing_of_desc desc]

theorem callsWarning_congr (ap : (t.ap i).state = (s.ap i).state ∧ (t.ap i).motion = (s.ap i).motion)
    (desc : t.zones.desc = s.zones.desc) : CallsWarning t z i ↔ CallsWarning s z i := by
  rw [CallsWarning, CallsWarning, ap.1, ap.2, State.governing_of_desc desc, desc]

theorem settleWarning_warning : (settleWarning y s).zones.warnings[z] =
    if y = z ∧ (s.zones.warnings[z]).state = .done ∧ s.zoneCloses z = false then ⟨.idle, none⟩
    else s.zones.warnings[z] := by
  have test : ((decide ((s.zones.warnings[y]).state = .done) && !s.zoneCloses y) = true) ↔
      (s.zones.warnings[y]).state = .done ∧ s.zoneCloses y = false := by
    rw [Bool.and_eq_true, decide_eq_true_iff, Bool.not_eq_true']
  unfold settleWarning
  by_cases h : (s.zones.warnings[y]).state = .done ∧ s.zoneCloses y = false
  · rw [if_pos (test.2 h), State.warnings_setWarning]
    by_cases e : y = z
    · subst e; rw [if_pos rfl, if_pos ⟨rfl, h⟩]
    · rw [if_neg e]
      exact (if_neg fun g => e (And.left g)).symm
  · rw [if_neg fun g => h (test.1 g)]
    exact (if_neg fun ⟨e, g⟩ => h (e ▸ g)).symm

/-- A warning in DONE ends where its zone has no closing left; every other stands (R127). -/
theorem refreshWarning_warning : (refreshWarning i s).zones.warnings[z] =
    if s.governing i = some z ∧ (s.zones.warnings[z]).state = .done ∧ s.zoneCloses z = false then ⟨.idle, none⟩
    else s.zones.warnings[z] := by
  unfold refreshWarning
  cases s.governing i with
  | none => rw [if_neg fun g => by cases g.1]
  | some y => simp only [settleWarning_warning, Option.some.injEq]

/-- A call starts the warning of its zone from IDLE, and nothing else does anything (R126). -/
theorem callWarning_calls (i : ApId) (s : State) :
    (∃ z, CallsWarning s z i ∧ (s.zones.warnings[z]).state = .idle ∧
      callWarning i s = s.setWarning z ⟨.running, some (s.ds + (s.zones.desc[z]).warn * 10)⟩) ∨
    callWarning i s = s ∧ ∀ z, CallsWarning s z i → (s.zones.warnings[z]).state ≠ .idle := by
  simp only [callsWarning_iff]
  unfold callWarning; dsimp only
  split
  · next y m g motion =>
    split
    · next h =>
      simp only [Bool.and_eq_true, decide_eq_true_eq] at h
      obtain ⟨⟨w, n⟩, idle⟩ := h
      exact .inl ⟨y, ⟨g, w, m, motion, n⟩, idle, rfl⟩
    · next h =>
      refine .inr ⟨rfl, fun z ⟨gz, w, x, hx, n⟩ idle => h ?_⟩
      obtain rfl := governing_unique g gz
      rw [motion] at hx
      cases hx
      rw [n, decide_eq_true w, decide_eq_true idle]; rfl
  · next none => exact .inr ⟨rfl, fun z ⟨g, _, m, motion, _⟩ _ => none z m g motion⟩

/-! ### Passing to a motion state -/

theorem enter_desc (i : ApId) (st : MotionState) (f : Aperture → Aperture) (s : State) :
    (enter i st f s).zones.desc = s.zones.desc := (enter_frame (k := fun _ => s.ap i) i s st f rfl).desc

/-- Passing to a motion state ends the zone's warning in DONE where no closing is left (R127). -/
theorem enter_warning (i : ApId) (st : MotionState) (f : Aperture → Aperture) (s : State) :
    (enter i st f s).zones.warnings[z] =
      if s.governing i = some z ∧ (s.zones.warnings[z]).state = .done ∧ (enter i st f s).zoneCloses z = false then
        ⟨.idle, none⟩
      else s.zones.warnings[z] := by
  have key : ∃ v : State, v.zones = s.zones ∧ enter i st f s = refreshWarning i v := by
    unfold enter; dsimp only
    refine ⟨_, ?_, rfl⟩
    rw [refreshEntry_zones]
    split <;> split <;> simp
  obtain ⟨v, zones, e⟩ := key
  have desc : (refreshWarning i v).zones.desc = v.zones.desc := (refreshWarning_frame (k := id) i v).desc
  rw [e, refreshWarning_warning, zoneCloses_of_aps (refreshWarning_aps i v) desc,
    State.governing_of_desc (congrArg Zones.desc zones), zones]

/-! ### Attempts leave closings and calls, and the warnings that have them -/

/-- From `s` to `t` every closing stayed one, a warning ended only in DONE where there was none, and an entry kept
waiting by its zone's warning stands. -/
structure WarnsOn (s t : State) : Prop where
  closing  : ∀ j, (t.ap j).closing = (s.ap j).closing
  desc     : t.zones.desc = s.zones.desc
  warnings : ∀ z : ZoneId, t.zones.warnings[z] = s.zones.warnings[z] ∨
    (s.zones.warnings[z]).state = .done ∧ s.zoneCloses z = false ∧ t.zones.warnings[z] = ⟨.idle, none⟩
  kept     : ∀ z j, CallsWarning s z j → (s.zones.warnings[z]).state ≠ .done → t.ap j = s.ap j

namespace WarnsOn

theorem refl (s : State) : WarnsOn s s := ⟨fun _ => rfl, rfl, fun _ => .inl rfl, fun _ _ _ _ => rfl⟩

theorem closes (h : WarnsOn s t) (z : ZoneId) : t.zoneCloses z = s.zoneCloses z := zoneCloses_congr h.closing h.desc

/-- A warning not in DONE, or with a closing in its zone, stands. -/
theorem stands (h : WarnsOn s t) (z : ZoneId) (g : (s.zones.warnings[z]).state = .done → s.zoneCloses z = true) :
    t.zones.warnings[z] = s.zones.warnings[z] := by
  rcases h.warnings z with e | ⟨done, none, -⟩
  · exact e
  · rw [g done] at none; cases none

theorem trans (h : WarnsOn s u) (g : WarnsOn u t) : WarnsOn s t where
  closing j := (g.closing j).trans (h.closing j)
  desc := g.desc.trans h.desc
  warnings z := by
    rcases h.warnings z with e | ⟨done, none, e⟩
    · have w := g.warnings z
      rw [e, h.closes] at w
      exact w
    · refine .inr ⟨done, none, ?_⟩
      rw [g.stands z (by rw [e]; nofun), e]
  kept z j calls open_ := by
    have ap := h.kept z j calls open_
    have w := h.stands z fun done => absurd done open_
    exact (g.kept z j ((callsWarning_congr (by rw [ap]; exact ⟨rfl, rfl⟩) h.desc).2 calls) (by rw [w]; exact open_)).trans
      ap

/-- A change of no aperture and no zone. -/
theorem elsewhere (aps : t.aps = s.aps) (zones : t.zones = s.zones) : WarnsOn s t where
  closing j := by rw [State.ap_of_aps aps]
  desc := by rw [zones]
  warnings z := .inl (by rw [zones])
  kept z j _ _ := State.ap_of_aps aps j

theorem foldl {α : Type} {f : State → α → State} (h : ∀ s x, WarnsOn s (f s x)) (l : List α) (s : State) :
    WarnsOn s (l.foldl f s) := by
  induction l generalizing s with
  | nil => exact .refl s
  | cons x xs ih => exact (h s x).trans (ih _)

/-- An aperture not kept waiting by its warning passes to a motion state that leaves it a closing if it was one. -/
theorem enter {st : MotionState} {f : Aperture → Aperture}
    (same : ({ f (s.ap i) with state := st } : Aperture).closing = (s.ap i).closing)
    (free : ∀ z, CallsWarning s z i → (s.zones.warnings[z]).state = .done) : WarnsOn s (enter i st f s) := by
  have closing (j : ApId) : ((Machine.enter i st f s).ap j).closing = (s.ap j).closing := by
    rw [enter_ap]
    split
    · next e => subst e; exact same
    · rfl
  refine ⟨closing, enter_desc i st f s, fun z => ?_, fun z j calls waits => ?_⟩
  · rw [enter_warning, zoneCloses_congr closing (enter_desc i st f s)]
    split
    · next h => exact .inr ⟨h.2.1, h.2.2, rfl⟩
    · exact .inl rfl
  · rw [enter_ap, if_neg]
    rintro rfl
    exact waits (free z calls)

end WarnsOn

/-- A halt stops a closing, which is still one (R117, R126). -/
theorem halt_warnsOn (i : ApId) (c : HaltCause) (s : State) : WarnsOn s (halt i c s) := by
  unfold halt
  split
  · next driven =>
    have entered := WarnsOn.enter (s := s) (i := i) (st := .stopping)
      (f := fun a => { a with mon := { Monitor.stopped with haltCause := some c } }) ?_ ?_
    · exact entered.trans (.elsewhere rfl rfl)
    · rcases (driving_iff _).1 driven with e | e <;> simp [Aperture.closing, e, MotionState.moving]
    · rintro z ⟨-, waits, -⟩
      rw [waits] at driven; cases driven
  · exact .refl s

/-- An entry is started where no warning keeps it waiting, and closes on (R99, R102). -/
theorem admitMotion_warnsOn (waits : (s.ap i).state = .waiting)
    (free : ∀ z, CallsWarning s z i → (s.zones.warnings[z]).state = .done) : WarnsOn s (admitMotion b i s) := by
  have entered := WarnsOn.enter (s := s) (i := i) (st := .starting) (f := fun a => { a with
    startTime := some s.ds, mon := { Monitor.stopped with inrush := some (s.ds + (s.branch b).window) } })
    (by simp [Aperture.closing, waits, MotionState.moving]) free
  unfold admitMotion; dsimp only
  generalize Machine.enter i .starting _ s = v at entered ⊢
  exact entered.trans (.elsewhere rfl rfl)

/-- An eligible entry does not wait for its zone's warning (R99). -/
theorem Ready.warned {c : OrderClass} (h : Ready s b i c) (calls : CallsWarning s z i) :
    (s.zones.warnings[z]).state = .done := by
  obtain ⟨-, -, m, motion, -, -, warned, -⟩ := (ready_iff i b s c).1 h
  obtain ⟨g, -, n, hn, needs⟩ := callsWarning_iff.1 calls
  rw [motion] at hn
  cases hn
  exact warned z g needs

theorem Outcome.warnsOn {x : State × Bool} (o : Outcome b (candidatesOf s b) s x) : WarnsOn s x.1 := by
  cases o with
  | nothing => exact .refl s
  | admits e mem _ _ _ =>
    have ready : Ready s b e.ap e.cls := ⟨e, mem, rfl, rfl⟩
    obtain ⟨-, waits, -⟩ := (ready_iff e.ap b s e.cls).1 ready
    exact admitMotion_warnsOn waits fun _ => ready.warned
  | sheds e _ _ vs _ => exact (WarnsOn.foldl (fun v i => halt_warnsOn i .shed v) vs s).trans (.elsewhere rfl rfl)

theorem attempt_warnsOn (b : Branch) (h : AllReserved s) : WarnsOn s (attempt b s).1 := by
  rcases attempt_outcome b s (h b) with o | o
  · exact o.warnsOn
  · rw [← candidatesOf_reserve] at o
    exact WarnsOn.trans (u := s.reserve b none) (.elsewhere rfl rfl) o.warnsOn

theorem settleAttempts_warnsOn (h : AllReserved s) : WarnsOn s (settleAttempts s) :=
  settleAttempts_along WarnsOn.refl (fun _ _ _ => .trans) (fun _ b h => attempt_warnsOn b h)
    (fun _ => .elsewhere rfl rfl) h

/-! ### The end of an event -/

theorem projectBranch_zones (b : Branch) (s : State) : (projectBranch s b).zones = s.zones := by
  have notified (v : State) (ps : List Port) (n : NoticeBody) : (v.notify ps n).zones = v.zones := by
    obtain ⟨x, h⟩ := State.notify_rest (s := v) ps n
    rw [h]
  unfold projectBranch; dsimp only
  split
  · rw [notified]; rfl
  · rw [State.owe_zones, notified]; rfl
  · rfl

theorem foldl_zones {α : Type} {f : State → α → State} (h : ∀ s x, (f s x).zones = s.zones) (l : List α) (s : State) :
    (l.foldl f s).zones = s.zones := by
  induction l generalizing s with
  | nil => rfl
  | cons x xs ih => exact (ih _).trans (h s x)

/-- The end of an event, but for its attempts, touches no zone. -/
theorem finish_zones (update : Bool) (s0 s : State) :
    ∃ v, Calm s v ∧ v.zones = s.zones ∧ AllReserved v ∧ finish update s0 s = settleAttempts v := by
  have project (v : State) : (project v).zones = v.zones := foldl_zones (fun w c => projectBranch_zones c w) _ v
  have count (v : State) : (countChange s0 v).zones = v.zones := by unfold countChange; split <;> rfl
  have check (v : State) (b : Branch) : (checkReservation v b).zones = v.zones := by
    rcases checkReservation_cases v b with e | e <;> rw [e]
    rw [State.owe_zones]; rfl
  have moves (v : State) (b : Branch) : (oweMoves s0 v b).zones = v.zones := by
    unfold oweMoves
    split
    · rfl
    · exact State.owe_zones v b
  unfold finish; dsimp only
  generalize hp : (if (update || decide (s.sup.queue ≠ s0.sup.queue)) = true then Machine.project s else s) = p
  have projected : Calm s p ∧ p.zones = s.zones := by
    rw [← hp]
    split
    · exact ⟨Calm.foldl (fun w c => projectBranch_calm c w) _ s, project s⟩
    · exact ⟨.refl s, rfl⟩
  have calm := ((projected.1.trans (countChange_calm s0 p)).trans (Calm.foldl checkReservation_calm allBranches _)).trans
    (Calm.foldl (oweMoves_calm s0) allBranches _)
  have zones := ((foldl_zones moves allBranches _).trans (foldl_zones check allBranches _)).trans
    ((count p).trans projected.2)
  have reserved := oweMoves_allReserved s0 allBranches (checkReservations_allReserved (countChange s0 p))
  generalize List.foldl (oweMoves s0) _ allBranches = v at calm zones reserved ⊢
  exact ⟨v.draw, calm.trans ⟨Frame.draw, rfl, rfl, fun _ => rfl⟩, zones, reserved, rfl⟩

theorem finish_warnsOn (update : Bool) (s0 s : State) : WarnsOn s (finish update s0 s) := by
  obtain ⟨v, calm, zones, reserved, e⟩ := finish_zones update s0 s
  rw [e]
  exact (WarnsOn.elsewhere calm.aps zones).trans (settleAttempts_warnsOn reserved)

end Sys2Proof.Machine

end

