-- ==== Sys2Proof/Proofs/WarningPassages.lean ====
section
/-! PROOFS. What the warnings of the zones do while the apertures of an event pass, one after the other, to other motion
states (R126, R127). -/

namespace Sys2Proof.Machine

open Sys2Proof

variable {i j : ApId} {z : ZoneId} {s t u v : State} {l l' : List ApId}

/-! ### Warnings under the passages of some apertures -/

/-- What became of the warning of zone `z` while the apertures of `l` passed: it stands; it ended in DONE; or one of them
started it, and calls for it. -/
inductive ZoneWarned (l : List ApId) (z : ZoneId) (s t : State) : Prop where
  | stands (same : t.zones.warnings[z] = s.zones.warnings[z])
  | ended (done : (s.zones.warnings[z]).state = .done) (ends : t.zones.warnings[z] = ⟨.idle, none⟩)
  | started (i : ApId) (mem : i ∈ l) (calls : CallsWarning t z i) (open_ : (s.zones.warnings[z]).state ≠ .running)
      (runs : t.zones.warnings[z] = ⟨.running, some (t.ds + (t.zones.desc[z]).warn * 10)⟩)

/-- Aperture `i` went on waiting, or went on being driven. -/
def GoesOn (i : ApId) (s t : State) : Prop :=
  (s.ap i).state = .waiting ∧ (t.ap i).state = .waiting ∨
    (s.ap i).state.driving = true ∧ (t.ap i).state ≠ .waiting

/-- From `s` to `t` the apertures of `l` passed to other motion states, each of them once, and no other: the warnings
stayed those of closings and calls, and one in DONE stands while a closing goes on. -/
structure WarnsBy (l : List ApId) (s t : State) : Prop where
  clock  : t.clock = s.clock
  desc   : t.zones.desc = s.zones.desc
  others : ∀ j, j ∉ l → (t.ap j).state = (s.ap j).state ∧ (t.ap j).motion = (s.ap j).motion
  holds  : s.WarningsHold → t.WarningsHold
  zone   : ∀ z, ZoneWarned l z s t
  kept   : ∀ (z : ZoneId) j, (s.zones.warnings[z]).state = .done → ClosingOf s z j → ClosingOf t z j →
    j ∉ l ∨ GoesOn j s t → t.zones.warnings[z] = s.zones.warnings[z]

namespace WarnsBy

theorem ds (h : WarnsBy l s t) : t.ds = s.ds := by rw [State.ds, State.ds, h.clock]

/-- Apertures passed in `l` and then, others or none of them going on or calling, in `l'`. -/
theorem append (h : WarnsBy l s u) (g : WarnsBy l' u t)
    (apart : ∀ j, j ∈ l → j ∈ l' → (u.ap j).state ≠ .waiting ∧
      ∀ z, ClosingOf s z j → ClosingOf t z j → ¬ GoesOn j s t) : WarnsBy (l ++ l') s t where
  clock := g.clock.trans h.clock
  desc := g.desc.trans h.desc
  others j out := by
    simp only [List.mem_append, not_or] at out
    obtain ⟨st, m⟩ := g.others j out.2
    rw [st, m]
    exact h.others j out.1
  holds := g.holds ∘ h.holds
  zone z := by
    rcases g.zone z with same | ⟨done, ends⟩ | ⟨i, mem, calls, open_, runs⟩
    · rcases h.zone z with first | ⟨done, ends⟩ | ⟨i, mem, calls, open_, runs⟩
      · exact .stands (same.trans first)
      · exact .ended done (same.trans ends)
      · have out : i ∉ l' := fun mem' => (apart i mem mem').1 calls.2.1
        refine .started i (List.mem_append_left _ mem) ((callsWarning_congr (g.others i out) g.desc).2 calls) open_ ?_
        rw [same, runs, g.ds, g.desc]
    · rcases h.zone z with first | ⟨done', ends'⟩ | ⟨i, mem, calls, open_, runs⟩
      · exact .ended (by rw [← first]; exact done) ends
      · exact .ended done' ends
      · rw [runs] at done; cases done
    · refine .started i (List.mem_append_right _ mem) calls ?_ runs
      rcases h.zone z with first | ⟨done', ends'⟩ | ⟨i', mem', calls', open', runs'⟩
      · rw [← first]; exact open_
      · rw [done']; nofun
      · exact open'
  kept z j done cs ct goes := by
    simp only [List.mem_append, not_or] at goes
    by_cases in' : j ∈ l'
    · by_cases in_ : j ∈ l
      · rcases goes with out | goes
        · exact absurd in_ out.1
        · exact absurd goes ((apart j in_ in').2 z cs ct)
      · have ap := h.others j in_
        have cu := (closingOf_congr ap h.desc).2 cs
        have first := h.kept z j done cs cu (.inl in_)
        rw [g.kept z j (by rw [first]; exact done) cu ct (.inr ?_), first]
        rcases goes with out | goes
        · exact absurd in' out.2
        · unfold GoesOn
          rw [ap.1]
          exact goes
    · have ap := g.others j in'
      have cu := (closingOf_congr ap g.desc).1 ct
      have first := h.kept z j done cs cu (goes.imp And.left fun goes => by
        unfold GoesOn
        rw [← ap.1]
        exact goes)
      rw [g.kept z j (by rw [first]; exact done) cu ct (.inl in'), first]

theorem mono (h : WarnsBy l s t) (sub : l ⊆ l') : WarnsBy l' s t where
  clock := h.clock
  desc := h.desc
  others j out := h.others j fun mem => out (sub mem)
  holds := h.holds
  zone z := by
    rcases h.zone z with same | ⟨done, ends⟩ | ⟨i, mem, calls, open_, runs⟩
    · exact .stands same
    · exact .ended done ends
    · exact .started i (sub mem) calls open_ runs
  kept z j done cs ct goes := h.kept z j done cs ct (goes.imp_left fun out mem => out (sub mem))

/-- Motion states stand, and motions but for their targets: nothing is called for, and every closing stands. -/
theorem alike (clock : t.clock = s.clock) (zones : t.zones = s.zones)
    (others : ∀ j, j ∉ l → (t.ap j).state = (s.ap j).state ∧ (t.ap j).motion = (s.ap j).motion)
    (state : ∀ j, (t.ap j).state = (s.ap j).state) (closes : ∀ z j, ClosingOf t z j ↔ ClosingOf s z j)
    (calls : ∀ z j, CallsWarning t z j ↔ CallsWarning s z j) : WarnsBy l s t where
  clock := clock
  desc := by rw [zones]
  others := others
  holds h z := by
    simp only [zones, closes, calls, Aperture.present, state, State.governing_of_desc (congrArg Zones.desc zones)]
    exact h z
  zone z := .stands (by rw [zones])
  kept z j _ _ _ _ := by rw [zones]

/-- Motion states and motions stand. -/
theorem of_motions (clock : t.clock = s.clock) (zones : t.zones = s.zones)
    (motions : ∀ j, (t.ap j).state = (s.ap j).state ∧ (t.ap j).motion = (s.ap j).motion) : WarnsBy l s t :=
  have desc := congrArg Zones.desc zones
  alike clock zones (fun j _ => motions j) (fun j => (motions j).1) (fun _ j => closingOf_congr (motions j) desc)
    fun _ j => callsWarning_congr (motions j) desc

theorem refl (s : State) : WarnsBy l s s := of_motions rfl rfl fun _ => ⟨rfl, rfl⟩

theorem elsewhere (clock : t.clock = s.clock) (zones : t.zones = s.zones) (aps : t.aps = s.aps) : WarnsBy l s t :=
  of_motions clock zones fun j => by rw [State.ap_of_aps aps]; exact ⟨rfl, rfl⟩

/-- What stands before passages, or after them, changes nothing of what they do. -/
theorem after (h : WarnsBy [] s u) (g : WarnsBy l u t) : WarnsBy l s t := h.append g fun _ mem => by cases mem

theorem before (h : WarnsBy l s u) (g : WarnsBy [] u t) : WarnsBy l s t :=
  (h.append g fun _ _ mem => by cases mem).mono (by simp)

theorem ite {c : Prop} [Decidable c] (h : c → WarnsBy l s t) (g : ¬ c → WarnsBy l s u) :
    WarnsBy l s (if c then t else u) := by
  split
  · exact h ‹_›
  · exact g ‹_›

/-- The apertures of a list without repeats pass one after the other. -/
theorem foldl {f : State → ApId → State} (h : ∀ s i, WarnsBy [i] s (f s i)) (each : l.Nodup) (s : State) :
    WarnsBy l s (l.foldl f s) := by
  induction l generalizing s with
  | nil => exact .refl s
  | cons x xs ih =>
    obtain ⟨out, each⟩ := List.nodup_cons.1 each
    refine (h s x).append (ih each (f s x)) fun j mem mem' => ?_
    rw [List.mem_singleton.1 mem] at mem'
    exact absurd mem' out

theorem modAp (f : Aperture → Aperture)
    (same : (f (s.ap i)).state = (s.ap i).state ∧ (f (s.ap i)).motion = (s.ap i).motion) : WarnsBy l s (s.modAp i f) :=
  of_motions rfl rfl fun j => by
    rw [State.ap_modAp]
    split
    · next e => subst e; exact same
    · exact ⟨rfl, rfl⟩

theorem notify (ps : List Port) (n : NoticeBody) : WarnsBy l s (s.notify ps n) := by
  obtain ⟨x, h⟩ := State.notify_rest (s := s) ps n
  exact elsewhere (by rw [h]) (by rw [h]) (by rw [h])

theorem withLink (k : Link) : WarnsBy l s { s with link := k } := elsewhere rfl rfl rfl

theorem owe (b : Branch) : WarnsBy l s (s.owe b) := by
  refine elsewhere ?_ (by simp) (by simp)
  unfold State.owe; split <;> rfl

theorem refreshEntry (i : ApId) : WarnsBy l s (refreshEntry i s) :=
  elsewhere (refreshEntry_frame (k := id) i s).clock (refreshEntry_zones i s) (refreshEntry_aps i s)

end WarnsBy

/-! ### One passage, its zone judged and called for -/

/-- From `s` to `v` aperture `i` was written, and the warning of its zone ended where that was in DONE and no closing is
left. -/
structure Passes (i : ApId) (s v : State) : Prop where
  clock    : v.clock = s.clock
  desc     : v.zones.desc = s.zones.desc
  others   : ∀ j, i ≠ j → (v.ap j).state = (s.ap j).state ∧ (v.ap j).motion = (s.ap j).motion
  present  : (s.ap i).present = true → (v.ap i).present = true
  warnings : ∀ z : ZoneId, v.zones.warnings[z] =
    if s.governing i = some z ∧ (s.zones.warnings[z]).state = .done ∧ v.zoneCloses z = false then ⟨.idle, none⟩
    else s.zones.warnings[z]

namespace Passes

/-- A warning stands, or ended in DONE with no closing left. -/
theorem warning (h : Passes i s v) (z : ZoneId) : v.zones.warnings[z] = s.zones.warnings[z] ∨
    (s.zones.warnings[z]).state = .done ∧ v.zoneCloses z = false ∧ v.zones.warnings[z] = ⟨.idle, none⟩ := by
  rw [h.warnings]
  split
  · next e => exact .inr ⟨e.2.1, e.2.2, rfl⟩
  · exact .inl rfl

theorem enter {st : MotionState} {f : Aperture → Aperture} (st_ne : st ≠ .absent) : Passes i s (enter i st f s) where
  clock := enter_clock i s st f
  desc := enter_desc i st f s
  others j ne := by rw [enter_ap, if_neg ne]; exact ⟨rfl, rfl⟩
  present _ := by rw [enter_ap, if_pos rfl]; exact decide_eq_true st_ne
  warnings z := enter_warning i st f s

/-- A motion derived again in its motion state (R10). -/
theorem rederived (m : Motion) : Passes i s (refreshWarning i (s.modAp i fun a => { a with motion := some m })) where
  clock := (refreshWarning_frame (k := id) i _).clock
  desc := (refreshWarning_frame (k := id) i _).desc
  others j ne := by rw [refreshWarning_ap, State.ap_modAp, if_neg ne]; exact ⟨rfl, rfl⟩
  present p := by rw [refreshWarning_ap, State.ap_modAp_self]; exact p
  warnings z := by
    rw [refreshWarning_warning, zoneCloses_of_aps (refreshWarning_aps i _) (refreshWarning_frame (k := id) i _).desc]
    rfl

/-- After the passage each clause of the invariant holds, but that the aperture itself may call for a warning. -/
theorem holds (h : Passes i s v) (hold : s.WarningsHold) (z : ZoneId) :
    ((v.zones.warnings[z]).state = .running ↔ (v.zones.warnings[z]).timer.isSome) ∧
    ((v.zones.warnings[z]).state = .done → ∃ j, ClosingOf v z j) ∧
    ((v.zones.warnings[z]).state ≠ .idle → 0 < (v.zones.desc[z]).warn ∧
      ∃ j, (v.ap j).present ∧ v.governing j = some z) ∧
    ∀ j, i ≠ j → CallsWarning v z j → (v.zones.warnings[z]).state ≠ .idle := by
  obtain ⟨timer, done, standing, calls⟩ := hold z
  have present (j : ApId) (p : (s.ap j).present = true) : (v.ap j).present = true := by
    by_cases e : i = j
    · subst e; exact h.present p
    · rw [Aperture.present, (h.others j e).1]; exact p
  have called (j : ApId) (ne : i ≠ j) (c : CallsWarning v z j) : (s.zones.warnings[z]).state ≠ .idle :=
    calls j ((callsWarning_congr (h.others j ne) h.desc).1 c)
  rcases h.warning z with same | ⟨-, none, ends⟩
  · rw [same]
    refine ⟨timer, fun d => zoneCloses_iff.1 ?_, fun n => ?_, called⟩
    · by_contra none
      have w := h.warnings z
      obtain ⟨-, x, px, gx⟩ := standing (by rw [d]; nofun)
      obtain ⟨y, cy⟩ := done d
      by_cases g : s.governing i = some z
      · rw [if_pos ⟨g, d, by simpa using none⟩, same] at w
        rw [w] at d; cases d
      · have ne : i ≠ y := fun e => g (e ▸ cy.1)
        exact none (zoneCloses_iff.2 ⟨y, (closingOf_congr (h.others y ne) h.desc).2 cy⟩)
    · obtain ⟨warn, j, p, g⟩ := standing n
      exact ⟨by rw [h.desc]; exact warn, j, present j p, by rw [State.governing_of_desc h.desc]; exact g⟩
  · rw [ends]
    refine ⟨⟨nofun, nofun⟩, nofun, fun n => absurd rfl n, fun j ne c => ?_⟩
    have closes := zoneCloses_iff.2 ⟨j, c.closes⟩
    rw [none] at closes; cases closes

/-- A passage, with the call that the aperture then makes. -/
theorem called (h : Passes i s v) : WarnsBy [i] s (callWarning i v) := by
  have others (w : State) (aps : w.aps = v.aps) (j : ApId) (out : j ∉ [i]) :
      (w.ap j).state = (s.ap j).state ∧ (w.ap j).motion = (s.ap j).motion := by
    rw [State.ap_of_aps aps]
    exact h.others j fun e => out (by simp [e])
  have closes (z : ZoneId) (j : ApId) (c : ClosingOf v z j) : v.zones.warnings[z] = s.zones.warnings[z] := by
    rcases h.warning z with same | ⟨-, none, -⟩
    · exact same
    · rw [zoneCloses_iff.2 ⟨j, c⟩] at none; cases none
  rcases callWarning_calls i v with ⟨y, calls, idle, e⟩ | ⟨e, quiet⟩ <;> rw [e]
  · have desc : (v.setWarning y ⟨.running, some (v.ds + (v.zones.desc[y]).warn * 10)⟩).zones.desc = v.zones.desc := rfl
    have same (z : ZoneId) (ne : y ≠ z) : (v.setWarning y
        ⟨.running, some (v.ds + (v.zones.desc[y]).warn * 10)⟩).zones.warnings[z] = v.zones.warnings[z] := by
      rw [State.warnings_setWarning, if_neg ne]
    have runs : (v.setWarning y ⟨.running, some (v.ds + (v.zones.desc[y]).warn * 10)⟩).zones.warnings[y] =
        ⟨.running, some (v.ds + (v.zones.desc[y]).warn * 10)⟩ := by
      rw [State.warnings_setWarning, if_pos rfl]
    refine ⟨h.clock, h.desc, others _ rfl, fun hold z => ?_, fun z => ?_, fun z j done _ ct _ => ?_⟩
    · obtain ⟨timer, done, standing, called⟩ := h.holds hold z
      by_cases at_y : y = z
      · subst at_y
        rw [runs]
        refine ⟨⟨fun _ => rfl, fun _ => rfl⟩, nofun, fun _ => ⟨calls.2.2.1, i, ?_, calls.1⟩, fun _ _ => nofun⟩
        exact decide_eq_true fun absent => by
          have waits := calls.2.1
          rw [show (v.ap i).state = .absent from absent] at waits
          cases waits
      · rw [same z at_y]
        refine ⟨timer, done, standing, fun j c => ?_⟩
        by_cases ne : i = j
        · subst ne
          exact absurd (governing_unique calls.1 c.1) at_y
        · exact called j ne c
    · by_cases at_y : y = z
      · subst at_y
        refine .started i (List.mem_singleton.2 rfl) calls ?_ runs
        rcases h.warning y with w | ⟨d, -⟩
        · rw [← w, idle]; nofun
        · rw [d]; nofun
      · rcases h.warning z with w | ⟨d, -, ends⟩
        · exact .stands ((same z at_y).trans w)
        · exact .ended d ((same z at_y).trans ends)
    · have w := closes z j ct
      rw [same z, w]
      rintro rfl
      rw [w, done] at idle; cases idle
  · refine ⟨h.clock, h.desc, others _ rfl, fun hold z => ?_, fun z => ?_, fun z j _ _ ct _ => closes z j ct⟩
    · obtain ⟨timer, done, standing, called⟩ := h.holds hold z
      refine ⟨timer, done, standing, fun j c => ?_⟩
      by_cases ne : i = j
      · subst ne; exact quiet z c
      · exact called j ne c
    · rcases h.warning z with w | ⟨d, -, ends⟩
      · exact .stands w
      · exact .ended d ends

/-- An aperture that passed to another state than WAITING calls for nothing. -/
theorem silent (h : Passes i s v) (moves : (v.ap i).state ≠ .waiting) : WarnsBy [i] s v := by
  have c := h.called
  rcases callWarning_calls i v with ⟨z, calls, -⟩ | ⟨e, -⟩
  · exact absurd calls.2.1 moves
  · rw [e] at c; exact c

end Passes

end Sys2Proof.Machine

end

