-- ==== Sys2Proof/Proofs/WarningOperations.lean ====
section
/-! PROOFS. What each operation on an aperture does to the warnings of the zones (R99, R126, R127). -/

namespace Sys2Proof.Machine

open Sys2Proof

variable {i j : ApId} {z : ZoneId} {s t u v : State}

/-! ### Passages of one aperture -/

theorem enter_warnsBy {st : MotionState} {f : Aperture → Aperture} (here : st ≠ .absent) (moves : st ≠ .waiting) :
    WarnsBy [i] s (enter i st f s) :=
  (Passes.enter here).silent (by rw [enter_ap, if_pos rfl]; exact moves)

theorem toWaiting_warnsBy (m : Motion) : WarnsBy [i] s (toWaiting i m s) :=
  (Passes.enter (st := .waiting) nofun).called

theorem rederive_warnsBy (m : Motion) : WarnsBy [i] s (rederive i m s) := (Passes.rederived m).called

theorem judge_warnsBy (i : ApId) (s : State) : WarnsBy [i] s (judge i s) := by
  unfold judge; dsimp only
  split
  · exact .ite (fun _ => toWaiting_warnsBy _) fun _ => .refl s
  · exact .refl s

/-- An aperture that rests and is judged goes on waiting only where it was not on target (R9, R10). -/
theorem toRest_warnsBy (h : (s.ap i).state = .waiting → (s.ap i).offTarget = false ∨ (s.ap i).motion = none) :
    WarnsBy [i] s (toRest i s) := by
  have entered : WarnsBy [i] s (enter i .rest (fun a => { a.still with fault := none }) s) :=
    enter_warnsBy (by decide) (by decide)
  refine (entered.append (judge_warnsBy i _) fun j mem _ => ?_).mono (by simp)
  obtain rfl := List.mem_singleton.1 mem
  rw [enter_ap, if_pos rfl]
  refine ⟨nofun, fun z cs ct goes => ?_⟩
  rw [← toRest] at ct goes
  obtain ⟨-, moves, m, motion, -⟩ := ct
  rw [toRest_ap, if_pos rfl] at moves motion
  rw [GoesOn, toRest_ap, if_pos rfl] at goes
  rcases rested_state (s.ap j) s.ds with rests | waits
  · rw [rests] at moves
    rcases moves with h | h | h | h <;> cases h
  · rcases goes with ⟨waited, -⟩ | ⟨-, moved⟩
    · rcases h waited with on | none
      · have off := ((restedAs_rested (s.ap j) s.ds).1.2 ?_)
        · rw [waits] at off; cases off
        · obtain ⟨-, pos, -, et, -⟩ := keep_fields (rested_keep (s.ap j) s.ds)
          rw [Aperture.offTarget, et, pos]
          exact on
      · obtain ⟨-, -, n, hn, -⟩ := cs
        rw [none] at hn; cases hn
    · exact moved waits

theorem toSettling_warnsBy (c : SettleCause) : WarnsBy [i] s (toSettling i c s) := enter_warnsBy (by decide) (by decide)

theorem toRetryWait_warnsBy : WarnsBy [i] s (toRetryWait i s) := enter_warnsBy (by decide) (by decide)

theorem toFault_warnsBy (k : FaultKind) : WarnsBy [i] s (toFault i k s) :=
  (enter_warnsBy (by decide) (by decide)).before (.notify _ _)

theorem toRunning_warnsBy : WarnsBy [i] s (toRunning i s) := enter_warnsBy (by decide) (by decide)

theorem halt_warnsBy (c : HaltCause) : WarnsBy [i] s (halt i c s) := by
  unfold halt
  exact .ite (fun _ => (enter_warnsBy (by decide) (by decide)).before (.withLink _)) fun _ => .refl s

/-- A new target leaves the closing, and calls for nothing (R118). -/
theorem retarget_warnsBy (x : Nat) : WarnsBy [i] s (retarget i x s) := by
  have ap (j : ApId) : (retarget i x s).ap j =
      if i = j then { s.ap i with motion := (s.ap i).motion.map fun m => { m with target := x } } else s.ap j :=
    State.ap_modAp s i j fun a => { a with motion := a.motion.map fun m => { m with target := x } }
  have state (j : ApId) : ((retarget i x s).ap j).state = (s.ap j).state := by
    rw [ap]; split
    · next e => subst e; rfl
    · rfl
  have motion (j : ApId) (P : Motion → Prop) (same : ∀ m, P { m with target := x } ↔ P m) :
      (∃ m, ((retarget i x s).ap j).motion = some m ∧ P m) ↔ ∃ m, (s.ap j).motion = some m ∧ P m := by
    rw [ap]; split
    · next e => subst e; cases (s.ap i).motion <;> simp [same]
    · rfl
  have others (j : ApId) (out : j ∉ [i]) : ((retarget i x s).ap j).state = (s.ap j).state ∧
      ((retarget i x s).ap j).motion = (s.ap j).motion := by
    rw [ap, if_neg fun e => out (by simp [e])]
    exact ⟨rfl, rfl⟩
  refine .alike rfl rfl others state (fun z j => ?_) fun z j => ?_
  · rw [ClosingOf, ClosingOf, state, motion j (fun m => m.dir = .closing) fun _ => Iff.rfl]; rfl
  · rw [callsWarning_iff, callsWarning_iff, state, motion j (fun m => m.needsWarning _ = true) fun _ => Iff.rfl]; rfl

/-! ### Changed targets handed on, stops, stalls and back-offs -/

theorem steer_warnsBy (i : ApId) (s : State) : WarnsBy [i] s (steer i s) := by
  rcases steer_cases i s with e | ⟨x, e⟩ | e <;> rw [e]
  · exact .refl s
  · exact retarget_warnsBy x
  · exact halt_warnsBy _

theorem rejudgeWaiting_warnsBy (i : ApId) (s : State) : WarnsBy [i] s (rejudgeWaiting i s) := by
  unfold rejudgeWaiting; dsimp only
  split
  · refine .ite (fun _ => rederive_warnsBy _) fun _ => .ite (fun _ => rederive_warnsBy _) fun on => ?_
    exact toRest_warnsBy fun _ => .inl (by simpa using on)
  · next other =>
    refine toRest_warnsBy fun _ => ?_
    cases motion : (s.ap i).motion with
    | none => exact .inr rfl
    | some m =>
      refine .inl ?_
      unfold Aperture.offTarget
      split
      · next x p et pos => exact absurd pos (other m x p motion et)
      · rfl

theorem handOn_warnsBy (i : ApId) (s : State) : WarnsBy [i] s (handOn i s) := by
  unfold handOn
  split
  · exact judge_warnsBy i s
  · exact rejudgeWaiting_warnsBy i s
  · exact steer_warnsBy i s
  · exact steer_warnsBy i s
  · next e => exact toRest_warnsBy fun w => by rw [e] at w; cases w
  all_goals exact .refl s

theorem arrive_warnsBy (h : (s.ap i).state ≠ .waiting) : WarnsBy [i] s (arrive i s) := by
  have counted : WarnsBy [] s (s.modAp i fun a => if a.position = some 0 then { a with stallCount := 0 } else a) :=
    .modAp _ (by split <;> exact ⟨rfl, rfl⟩)
  refine counted.after (toRest_warnsBy fun w => absurd ?_ h)
  rw [State.ap_modAp_self] at w
  revert w; split <;> exact id

theorem confirmStop_warnsBy (fresh : Bool) (h : (s.ap i).state ≠ .waiting) : WarnsBy [i] s (confirmStop i fresh s) := by
  unfold confirmStop
  exact .ite (fun _ => .ite (fun _ => .ite (fun _ => arrive_warnsBy h) fun _ => toRest_warnsBy fun w => absurd w h)
      fun _ => toFault_warnsBy _)
    fun _ => .ite (fun _ => toSettling_warnsBy _) fun _ => toSettling_warnsBy _

theorem stall_warnsBy (i : ApId) (s : State) : WarnsBy [i] s (stall i s) := by
  have counted : WarnsBy [] s (s.modAp i fun a => { a with stallCount := min 3 (a.stallCount + 1) }) :=
    .modAp _ ⟨rfl, rfl⟩
  unfold stall
  split
  · exact counted.after (.ite (fun _ => toSettling_warnsBy _) fun _ => toFault_warnsBy _)
  · exact toFault_warnsBy _

theorem orderBackoff_warnsBy (bp : Nat) : WarnsBy [i] s (orderBackoff i bp s) :=
  .ite (fun _ => toWaiting_warnsBy _) fun _ => toRetryWait_warnsBy

theorem settled_warnsBy (h : (s.ap i).state ≠ .waiting) : WarnsBy [i] s (settled i s) := by
  unfold settled; dsimp only
  split
  · exact orderBackoff_warnsBy _
  · exact orderBackoff_warnsBy _
  · exact toRest_warnsBy fun w => absurd w h

theorem releaseHeld_warnsBy (i : ApId) (s : State) : WarnsBy [] s (releaseHeld i s) := by
  have released : WarnsBy [] s (s.modAp i fun a => { a with held := some 0 }) := .modAp _ ⟨rfl, rfl⟩
  exact .ite (fun _ => released.before (.owe _)) fun _ => .refl s

theorem toOffline_warnsBy (i : ApId) (s : State) : WarnsBy [i] s (toOffline i s) := by
  refine WarnsBy.before ?_ (.notify _ _)
  exact (enter_warnsBy (by decide) (by decide)).before (.ite (fun _ => .owe _) fun _ => .refl _)

theorem toOnline_warnsBy (i : ApId) (s : State) : WarnsBy [i] s (toOnline i s) :=
  (releaseHeld_warnsBy i s).after ((enter_warnsBy (by decide) (by decide)).before (.notify _ _))

theorem clearFaultOf_warnsBy (i : ApId) (s : State) : WarnsBy [i] s (clearFaultOf i s) := by
  unfold clearFaultOf
  split
  · next e _ =>
    have counted : WarnsBy [] s (s.modAp i fun a => { a with stallCount := 0 }) := .modAp _ ⟨rfl, rfl⟩
    refine counted.after (toRest_warnsBy fun w => ?_)
    rw [State.ap_modAp_self] at w
    cases e.symm.trans w
  · next e _ => exact toRest_warnsBy fun w => by rw [e] at w; cases w
  · exact .refl s

theorem nodeTimeout_warnsBy (i : ApId) (s : State) : WarnsBy [i] s (nodeTimeout i s) := by
  have silent : WarnsBy [] s (s.modAp i fun a => { a with node := { a.node with contactTimer := none } }) :=
    .modAp _ ⟨rfl, rfl⟩
  unfold nodeTimeout; dsimp only
  refine silent.after ?_
  split
  · exact .ite (fun _ => (releaseHeld_warnsBy i _).mono (List.nil_subset _)) fun _ => .refl _
  · next e => exact confirmStop_warnsBy false (by rw [e]; nofun)
  · exact .refl _

/-! ### Orders (R22 to R35, R148 to R153) -/

theorem resolve_warnsBy (i : ApId) (s : State) : WarnsBy [i] s (resolve i s) := by
  have turned (c : Bool) (v : State) : WarnsBy [] v (if c then v.modAp i fun a => { a with stallCount := 0 } else v) :=
    .ite (fun _ => .modAp _ ⟨rfl, rfl⟩) fun _ => .refl v
  unfold resolve; dsimp only
  refine .ite (fun _ => .refreshEntry i) fun _ => WarnsBy.before ?_ (.refreshEntry i)
  refine WarnsBy.after ?_ (handOn_warnsBy i _)
  exact WarnsBy.after (.modAp _ ⟨rfl, rfl⟩) (turned _ _)

theorem putSlot_warnsBy (c : OrderClass) (x : Option Slot) : WarnsBy [] s (putSlot i c x s) := .modAp _ ⟨rfl, rfl⟩

theorem putResolve_warnsBy (c : OrderClass) (x : Option Slot) : WarnsBy [i] s (resolve i (putSlot i c x s)) :=
  (putSlot_warnsBy c x).after (resolve_warnsBy i _)

theorem postOrder_warnsBy (p : Port) (i : ApId) (y : Target) (s : State) : WarnsBy [i] s (postOrder p i y s) :=
  putResolve_warnsBy _ _

theorem releaseOrder_warnsBy (p : Port) (i : ApId) (s : State) : WarnsBy [i] s (releaseOrder p i s) := by
  unfold releaseOrder
  split
  · exact .refl s
  · exact putResolve_warnsBy _ _

theorem postAlarm_warnsBy (r : Bool) (s : State) (i : ApId) : WarnsBy [i] s (postAlarm r s i) := by
  unfold postAlarm; dsimp only
  split
  · exact putResolve_warnsBy _ _
  · exact .refl s

theorem dropAlarm_warnsBy (s : State) (i : ApId) : WarnsBy [i] s (dropAlarm s i) :=
  .ite (fun _ => putResolve_warnsBy _ _) fun _ => .refl s

theorem cancelOpening_warnsBy (i : ApId) (c : OrderClass) (s : State) : WarnsBy [] s (cancelOpening i c s) := by
  unfold cancelOpening
  split
  · exact .ite (fun _ => (putSlot_warnsBy c none).before (.notify _ _)) fun _ => .refl s
  · exact .refl s

theorem postClaim_warnsBy (i : ApId) (k : Claim) (s : State) : WarnsBy [i] s (postClaim i k s) := by
  have claimed (v : State) : WarnsBy [] v (v.modAp i fun a => { a with claim := some k }) := .modAp _ ⟨rfl, rfl⟩
  unfold postClaim; dsimp only
  refine WarnsBy.after ?_ (resolve_warnsBy i _)
  exact (putSlot_warnsBy .weather _).after ((claimed _).after
    ((cancelOpening_warnsBy i .supervisory _).after (cancelOpening_warnsBy i .room _)))

theorem claimOn_warnsBy (s : State) (i : ApId) : WarnsBy [i] s (claimOn s i) := by
  unfold claimOn
  split
  · exact postClaim_warnsBy i _ s
  · exact .refl s

theorem dropClaim_warnsBy (s : State) (i : ApId) : WarnsBy [i] s (dropClaim s i) := by
  have unclaimed : WarnsBy [] s (s.modAp i fun a => { a with claim := none }) := .modAp _ ⟨rfl, rfl⟩
  exact .ite (fun _ => unclaimed.after (putResolve_warnsBy _ _)) fun _ => .refl s

theorem expireRoom_warnsBy (i : ApId) (x : Slot) (e : Nat) (s : State) : WarnsBy [i] s (expireRoom i x e s) := by
  unfold expireRoom; dsimp only
  exact ((putSlot_warnsBy .room _).before (.notify _ _)).after (resolve_warnsBy i _)

/-! ### Fresh statuses and the ends of exchanges (R7, R17, R19, R116, R133) -/

theorem writePosition_warnsBy (i : ApId) (p : Nat) (s : State) : WarnsBy [] s (writePosition i p s) := by
  have written : WarnsBy [] s (s.modAp i fun a => { a with position := some p }) := .modAp _ ⟨rfl, rfl⟩
  unfold writePosition; dsimp only
  refine written.after ?_
  split
  · exact WarnsBy.before (.elsewhere (State.dropEntry_clock _ i) (State.dropEntry_zones _ i) (State.dropEntry_aps _ i))
      (.notify _ _)
  · exact .refreshEntry i

theorem driveStatus_warnsBy (r : LinkReply) (h : (s.ap i).state ≠ .waiting) : WarnsBy [i] s (driveStatus i r s) := by
  refine .ite (fun _ => stall_warnsBy i s) fun _ => .ite (fun _ => .refl s) fun _ => ?_
  split
  · exact toRetryWait_warnsBy
  · exact arrive_warnsBy h

theorem faultStatus_warnsBy (r : LinkReply) (h : (s.ap i).state ≠ .waiting) : WarnsBy [i] s (faultStatus i r s) := by
  unfold faultStatus
  split
  · exact .ite (fun _ => .refl s) fun _ => toRest_warnsBy fun w => absurd w h
  · exact .refl s

theorem freshStatus_warnsBy (i : ApId) (r : LinkReply) (s : State) : WarnsBy [i] s (freshStatus i r s) := by
  have st := writePosition_state i r.writes s
  have wrote := writePosition_warnsBy i r.writes s
  unfold freshStatus; dsimp only
  split <;> rename_i e <;> rw [e] at st
  case h_1 | h_2 => exact .refl s
  case h_3 => exact .ite (fun _ => .refl s) fun _ => wrote.after (toRest_warnsBy fun w => by rw [st] at w; cases w)
  case h_4 => exact wrote.after (judge_warnsBy i _)
  case h_5 => exact wrote.after (.ite (fun _ => .refl _) fun on => toRest_warnsBy fun _ => .inl (by simpa using on))
  all_goals
    have moves : ((writePosition i r.writes s).ap i).state ≠ .waiting := by rw [st]; nofun
  case h_6 | h_7 => exact wrote.after (driveStatus_warnsBy r moves)
  case h_8 =>
    exact .ite (fun _ => wrote.mono (List.nil_subset _)) fun _ => wrote.after (confirmStop_warnsBy true moves)
  case h_9 | h_10 => exact wrote.mono (List.nil_subset _)
  case h_11 => exact wrote.after (faultStatus_warnsBy r moves)

theorem missed_warnsBy (i : ApId) (f : InFlight) (s : State) : WarnsBy [i] s (missed i f s) := by
  have counted : WarnsBy [] s
      (s.modAp i fun a => { a with node := { a.node with missCount := min 3 (a.node.missCount + 1) } }) :=
    .modAp _ ⟨rfl, rfl⟩
  have leaves (c : Bool) (v : State) : WarnsBy [i] v (if c then toOffline i v else v) :=
    .ite (fun _ => toOffline_warnsBy i v) fun _ => .refl v
  exact (counted.after (leaves _ _)).before (.withLink _)

theorem acceptOrder_warnsBy (i : ApId) (tag : BitVec 4) (s : State) : WarnsBy [] s (acceptOrder i tag s) := by
  have tagged : WarnsBy [] s (s.modAp i fun a => { a with orderTag := some tag }) := .modAp _ ⟨rfl, rfl⟩
  exact tagged.after (.withLink _)

theorem startTravel_warnsBy (i : ApId) (s : State) : WarnsBy [] s (startTravel i s) :=
  .ite (fun _ => .modAp _ ⟨rfl, rfl⟩) fun _ => .refl s

theorem strayHalt_warnsBy (i : ApId) (s : State) : WarnsBy [] s (strayHalt i s) := .withLink _

theorem moveReplied_warnsBy (i : ApId) (f : InFlight) (r : LinkReply) (s : State) :
    WarnsBy [i] s (moveReplied i f r s) := by
  have accepted := ((acceptOrder_warnsBy i f.tag s).after (startTravel_warnsBy i _)).mono (List.nil_subset [i])
  exact .ite (fun _ => .ite (fun _ => toFault_warnsBy _) fun _ => .refl s) fun _ =>
    .ite (fun _ => accepted) fun _ => accepted.before (strayHalt_warnsBy i _)

theorem pollReplied_warnsBy (i : ApId) (r : LinkReply) (s : State) : WarnsBy [i] s (pollReplied i r s) :=
  .ite (fun _ => (freshStatus_warnsBy i r s).before (strayHalt_warnsBy i _)) fun _ => freshStatus_warnsBy i r s

end Sys2Proof.Machine

end

