-- ==== Sys2Proof/Proofs/WarningEvents.lean ====
section
/-! PROOFS. What the events do to the warnings of the zones, before their attempts (R99, R126, R127). -/

namespace Sys2Proof.Machine

open Sys2Proof

variable {i j : ApId} {z : ZoneId} {s t u v : State} {l : List ApId}

/-! ### Ends of exchanges (R133) -/

theorem renewContact_warnsBy (i : ApId) (s : State) : WarnsBy [] s (renewContact i s) := .modAp _ ⟨rfl, rfl⟩

theorem learnTag_warnsBy (i : ApId) (tag : BitVec 4) (s : State) : WarnsBy [] s (learnTag i tag s) := .modAp _ ⟨rfl, rfl⟩

/-- A MOVE accepted or refused for an aperture that is not driven passes none (R124, R143). -/
theorem moveReplied_idle (f : InFlight) (r : LinkReply) (h : (s.ap i).state.driving = false) :
    WarnsBy [] s (moveReplied i f r s) := by
  have accepted := (acceptOrder_warnsBy i f.tag s).after (startTravel_warnsBy i _)
  refine .ite (fun _ => .ite (fun d => ?_) fun _ => .refl s) fun _ =>
    .ite (fun _ => accepted) fun _ => accepted.before (strayHalt_warnsBy i _)
  rw [h] at d; cases d

theorem toOnline_state (i : ApId) (s : State) : ((toOnline i s).ap i).state = .unknown := by
  rw [toOnline_ap, if_pos rfl]

theorem replied_warnsBy (i : ApId) (f : InFlight) (r : LinkReply) (s : State) : WarnsBy [i] s (replied i f r s) := by
  have taught (c : Bool) (v : State) : WarnsBy [] v (if c then learnTag i r.tag v else v) :=
    .ite (fun _ => learnTag_warnsBy i _ v) fun _ => .refl v
  have state (c : Bool) (v : State) : ((if c then learnTag i r.tag v else v).ap i).state = (v.ap i).state := by
    cases c
    · rfl
    · rw [if_pos rfl, learnTag, State.ap_modAp_self]
  have renewed := renewContact_warnsBy i s
  unfold replied; dsimp only
  by_cases offline : (s.ap i).state = .offline
  · have online := toOnline_state i (renewContact i s)
    rw [← state (s.ap i).orderTag.isNone] at online
    rw [if_pos (decide_eq_true offline)]
    refine (renewed.after (toOnline_warnsBy i _)).before ((taught (s.ap i).orderTag.isNone _).after ?_)
    generalize (if (s.ap i).orderTag.isNone = true then learnTag i r.tag _ else _) = w at online ⊢
    split
    · exact moveReplied_idle f r (by rw [online]; rfl)
    · exact acceptOrder_warnsBy i _ _
    · rw [decide_eq_true offline]
      simp only [Bool.not_true, Bool.and_false, Bool.false_and, Bool.false_eq_true, if_false]
      exact .refl w
    · exact .refl w
  · rw [decide_eq_false offline, if_neg Bool.false_ne_true]
    refine (renewed.after (taught (s.ap i).orderTag.isNone _)).after ?_
    generalize (if (s.ap i).orderTag.isNone = true then learnTag i r.tag _ else _) = w
    split
    · exact moveReplied_warnsBy i f r w
    · exact (acceptOrder_warnsBy i _ w).mono (List.nil_subset _)
    · exact .ite (fun _ => pollReplied_warnsBy i r w) fun _ => .refl w
    · exact .refl w

theorem complete_warnsBy (f : InFlight) (reply : List Byte) (s : State) : ∃ l, WarnsBy l s (complete f reply s) := by
  have free : WarnsBy [] s { s with link := { s.link with inFlight := none } } := .withLink _
  unfold complete
  split
  · exact ⟨[], free⟩
  · next i _ =>
    refine ⟨[i], ?_⟩
    split
    · exact free.after (missed_warnsBy i f _)
    · exact free.after (replied_warnsBy i f _ _)

/-! ### Weather and fire (R73 to R83, R147 to R153) -/

/-- The apertures pass one after the other. -/
theorem all_warnsBy {f : State → ApId → State} (h : ∀ s i, WarnsBy [i] s (f s i)) (s : State) :
    WarnsBy allAps s (allAps.foldl f s) := .foldl h (List.nodup_finRange 48) s

theorem compute_warnsBy (s : State) : WarnsBy [] s (compute s) :=
  .of_motions rfl rfl fun j => by rw [compute_ap]; split <;> exact ⟨rfl, rfl⟩

theorem renewClaims_warnsBy (old : List ApId) (s : State) : WarnsBy [] s (renewClaims old s) := by
  have renewed (v w : State) (i : ApId) :
      WarnsBy [] v (v.modAp i fun a => { a with claim := a.claim.map (renewClaim w a) }) := .modAp _ ⟨rfl, rfl⟩
  have each (l : List ApId) (v : State) :
      WarnsBy [] v (l.foldl (fun v i => v.modAp i fun a => { a with claim := a.claim.map (renewClaim s a) }) v) := by
    induction l generalizing v with
    | nil => exact .refl v
    | cons x xs ih => exact (renewed v s x).after (ih _)
  exact each old s

theorem announceWeather_warnsBy (o w : Weather) (s : State) : WarnsBy [] s (announceWeather o w s) :=
  .ite (fun _ => .refl s) fun _ => .notify _ _

theorem exposureUpdate_warnsBy (s : State) : WarnsBy allAps s (exposureUpdate s) := by
  have record (v : State) (c : Prop) [Decidable c] (x : Trigger) :
      WarnsBy [] v (if c then { v with sup := { v.sup with trigger := some x } } else v) :=
    .ite (fun _ => .elsewhere rfl rfl rfl) fun _ => .refl v
  have claims (v : State) (c : Prop) [Decidable c] : WarnsBy allAps v (if c then allAps.foldl claimOn v else v) :=
    .ite (fun _ => all_warnsBy claimOn_warnsBy v) fun _ => .refl v
  have resorted (v : State) : WarnsBy [] v (resortQueue v) := .elsewhere rfl rfl rfl
  have judged (v : State) (n : Nat) :
      WarnsBy [] v (setWeather (nextWeather s) { v with sup := { v.sup with needs := n } }) :=
    .elsewhere rfl rfl rfl
  unfold exposureUpdate; dsimp only
  refine WarnsBy.before ?_ (announceWeather_warnsBy _ _ _)
  refine WarnsBy.before ?_ (record _ _ _)
  refine WarnsBy.before ?_ (resorted _)
  refine WarnsBy.before ?_ (renewClaims_warnsBy _ _)
  exact (judged s _).after (claims _ _)

theorem advisoryChanged_warnsBy (s : State) : WarnsBy allAps s (advisoryChanged s) :=
  .ite (fun _ => (compute_warnsBy s).after (exposureUpdate_warnsBy _)) fun _ => .refl s

theorem gustUpdate_warnsBy (s : State) : WarnsBy allAps s (gustUpdate s) := by
  have delivered : WarnsBy [] s { s with sup := { s.sup with computed := true, gustWord := s.fe.word } } :=
    .elsewhere rfl rfl rfl
  exact (delivered.after (compute_warnsBy _)).after (exposureUpdate_warnsBy _)

theorem endHolding_warnsBy (s : State) : WarnsBy allAps s (endHolding s) := by
  have judged (w : Weather) (v : State) : WarnsBy [] v (setWeather w v) := .elsewhere rfl rfl rfl
  unfold endHolding; dsimp only
  exact (all_warnsBy dropClaim_warnsBy s).before ((judged _ _).after (announceWeather_warnsBy _ _ _))

theorem fireState_warnsBy (x : FireState) (s : State) : WarnsBy [] s { s with fire := { s.fire with state := x } } :=
  .elsewhere rfl rfl rfl

theorem fireLevel_warnsBy (s : State) : WarnsBy allAps s (fireLevel s) := by
  have alarm (r : Bool) (v : State) : WarnsBy allAps v (allAps.foldl (postAlarm r) v) :=
    all_warnsBy (postAlarm_warnsBy r) v
  unfold fireLevel
  split
  · exact ((fireState_warnsBy .alarm s).after (alarm false _)).before (.notify _ _)
  · exact ((fireState_warnsBy .alarm s).after (alarm true _)).before (.notify _ _)
  · exact ((fireState_warnsBy .restoreWait s).before (.notify _ _)).mono (List.nil_subset _)
  · exact .refl s

theorem debounced_warnsBy (s : State) : WarnsBy allAps s (debounced s) := by
  have fire (x : Fire) (v : State) : WarnsBy [] v { v with fire := x } := .elsewhere rfl rfl rfl
  exact (fire _ s).after (.ite (fun _ => .refl _) fun _ => (fire _ _).after (fireLevel_warnsBy _))

theorem restoreFire_warnsBy (s : State) : WarnsBy allAps s (restoreFire s) :=
  ((fireState_warnsBy .normal s).after (all_warnsBy dropAlarm_warnsBy _)).before (.notify _ _)

/-! ### Requests that reach the apertures -/

theorem Asks.warnsBy {f : State → State} (h : Asks f) (s : State) : ∃ l, WarnsBy l s (f s) := by
  cases h with
  | order p i y => exact ⟨_, postOrder_warnsBy p i y s⟩
  | orders p y l each => exact ⟨l, .foldl (fun v i => postOrder_warnsBy p i y v) each s⟩
  | release p i => exact ⟨_, releaseOrder_warnsBy p i s⟩
  | clearFault i => exact ⟨_, clearFaultOf_warnsBy i s⟩
  | restore => exact ⟨_, restoreFire_warnsBy s⟩

/-! ### Driven apertures, outside of exchanges -/

/-- From `s` to `t` no moving aperture came to rest or to wait. -/
def MovesOn (s t : State) : Prop := ∀ i, (s.ap i).state.moving = true → (t.ap i).state.moving = true

namespace MovesOn

theorem refl (s : State) : MovesOn s s := fun _ => id

theorem trans (h : MovesOn s u) (g : MovesOn u t) : MovesOn s t := fun i => g i ∘ h i

theorem foldl {α : Type} {f : State → α → State} (h : ∀ s x, MovesOn s (f s x)) (l : List α) (s : State) :
    MovesOn s (l.foldl f s) := by
  induction l generalizing s with
  | nil => exact .refl s
  | cons x xs ih => exact (h s x).trans (ih _)

/-- An operation that writes one aperture, and passes it to no state in which it rests or waits. -/
theorem of_writes {a : Aperture} (w : Writes i s t a) (own : (s.ap i).state.moving = true → a.state.moving = true) :
    MovesOn s t := fun j moves => by
  rw [w j]
  split
  · next e => subst e; exact own moves
  · exact moves

theorem of_states (h : ∀ j, (t.ap j).state = (s.ap j).state) : MovesOn s t := fun j => by rw [h j]; exact id

end MovesOn

theorem driving_moving {st : MotionState} (h : st.driving = true) : st.moving = true := by
  revert h; cases st <;> decide

theorem moving_iff (st : MotionState) : st.moving = true ↔ st = .starting ∨ st = .running ∨ st = .stopping := by
  cases st <;> decide

/-- A changed target leaves a moving aperture moving, if to its stop (R24, R118). -/
theorem handed_moving {a : Aperture} (now : Nat) (h : a.state.moving = true) : (a.handed now).state.moving = true := by
  have steered (d : a.state.driving = true) : a.steered.state.moving = true := by
    rcases steered_cases a with e | ⟨x, e⟩ | e <;> rw [e]
    · exact h
    · exact h
    · rw [Aperture.halted, if_pos d]; rfl
  rcases (moving_iff _).1 h with e | e | e <;> rw [Aperture.handed, e]
  · exact steered (by rw [e]; rfl)
  · exact steered (by rw [e]; rfl)
  · exact h

theorem reordered_moving {a : Aperture} (now : Nat) (x : Slate) (c : Option Claim) (h : a.state.moving = true) :
    (a.reordered now x c).state.moving = true := by
  unfold Aperture.reordered Aperture.resolved
  split
  · exact h
  · exact handed_moving now (by rw [(derived_fields _).2.1]; exact h)

theorem Reorders.movesOn {x : Slate} {c : Option Claim} (h : Reorders i x c s t) : MovesOn s t :=
  .of_writes h.writes (reordered_moving s.ds x c)

theorem MayReorder.movesOn (h : MayReorder i s t) : MovesOn s t := by
  cases h with
  | none => exact .refl s
  | some x c t h => exact h.movesOn

theorem halt_movesOn (i : ApId) (c : HaltCause) (s : State) : MovesOn s (halt i c s) :=
  .of_writes (halt_writes i s c) fun h => by
    unfold Aperture.halted
    split
    · rfl
    · exact h

end Sys2Proof.Machine

end

