-- ==== Sys2Proof/Proofs/WarnedEvents.lean ====
section
/-! PROOFS. Events with their attempts, and what every command does to the warnings and lines of the zones: O35. -/

namespace Sys2Proof.Machine

open Sys2Proof

variable {i j : ApId} {y z : ZoneId} {s t u v : State} {l : List ApId} {on : Prop} {p : Port}

/-! ### The invariant of the warnings -/

/-- The invariant is read from motion states, motions and zones. -/
theorem warningsHold_of_motions (ap : ∀ j, (t.ap j).state = (s.ap j).state ∧ (t.ap j).motion = (s.ap j).motion)
    (zones : t.zones = s.zones) (h : s.WarningsHold) : t.WarningsHold := fun z => by
  have desc := congrArg Zones.desc zones
  simp only [zones, closingOf_congr (ap _) desc, callsWarning_congr (ap _) desc, State.governing_of_desc desc,
    Aperture.present, (ap _).1]
  exact h z

theorem warningsHold_congr (aps : t.aps = s.aps) (zones : t.zones = s.zones) (h : s.WarningsHold) : t.WarningsHold :=
  warningsHold_of_motions (fun j => by rw [State.ap_of_aps aps]; exact ⟨rfl, rfl⟩) zones h

/-- With every warning IDLE and nothing waiting the invariant holds. -/
theorem warningsHold_idle (idle : ∀ z : ZoneId, s.zones.warnings[z] = ⟨.idle, none⟩)
    (none : ∀ i, (s.ap i).state ≠ .waiting) : s.WarningsHold := fun z => by
  rw [idle z]
  exact ⟨⟨nofun, nofun⟩, nofun, fun n => absurd rfl n, fun i calls => absurd calls.2.1 (none i)⟩

theorem loadTables_warningsHold (s : State) : (loadTables s).WarningsHold :=
  warningsHold_idle (loadTables_warning s) fun i => by rw [loadTables_ap]; exact (reset_idle _).2

theorem announceReset_warningsHold (kind : ResetKind) (reason : RestartReason) (s : State) :
    s.WarningsHold → (announceReset kind reason s).WarningsHold := by
  obtain ⟨x, rest⟩ := announceReset_rest s kind reason
  rw [rest]
  exact warningsHold_congr rfl rfl

/-- What the end of an event made of an aperture is as much installed, and waits only where it waited before. -/
theorem Ending.keeps (h : Ending j u t) :
    ((u.ap j).present = true → (t.ap j).present = true) ∧ ((t.ap j).state = .waiting → t.ap j = u.ap j) := by
  rcases h with ⟨ap, -, -⟩ | ⟨m, waits, -, ap⟩ | ⟨driven, ap⟩
  · rw [ap]; exact ⟨id, fun _ => rfl⟩
  · rw [ap]; exact ⟨fun _ => rfl, nofun⟩
  · rw [ap, Aperture.halted, if_pos driven]; exact ⟨fun _ => rfl, nofun⟩

/-- The end of an event leaves every warning of an invariant state as it is. -/
theorem finish_warning (update : Bool) (s0 : State) (h : u.WarningsHold) (z : ZoneId) :
    (finish update s0 u).zones.warnings[z] = u.zones.warnings[z] :=
  (finish_warnsOn update s0 u).stands z fun done => zoneCloses_iff.2 ((h z).2.1 done)

theorem finish_warningsHold (update : Bool) (s0 : State) (h : u.WarningsHold) :
    (finish update s0 u).WarningsHold := fun z => by
  have on := finish_warnsOn update s0 u
  have ending := (finish_ended update s0 u).ending
  rw [finish_warning update s0 h z]
  generalize finish update s0 u = t at on ending
  obtain ⟨timer, done, standing, called⟩ := h z
  refine ⟨timer, fun d => zoneCloses_iff.1 ?_, fun n => ?_, fun i calls => ?_⟩
  · rw [on.closes]
    exact zoneCloses_iff.2 (done d)
  · obtain ⟨warn, j, here, g⟩ := standing n
    exact ⟨by rw [on.desc]; exact warn, j, (ending j).keeps.1 here, by rw [State.governing_of_desc on.desc]; exact g⟩
  · have ap := (ending i).keeps.2 calls.2.1
    exact called i ((callsWarning_congr (by rw [ap]; exact ⟨rfl, rfl⟩) on.desc).1 calls)

/-! ### What a command does to a warning between resets -/

/-- The warning of zone `z` was started by a call, with the full warn time. -/
def WarningStarted (z : ZoneId) (s t : State) : Prop :=
  t.zones.warnings[z] = ⟨.running, some (t.ds + (s.zones.desc[z]).warn * 10)⟩ ∧ ∃ i, CallsWarning t z i

/-- A closing of zone `z` went on waiting, or went on being driven where `on` says that this counts. -/
def ClosingGoesOn (on : Prop) (z : ZoneId) (s t : State) : Prop :=
  ∃ i, ClosingOf s z i ∧ ClosingOf t z i ∧ ((s.ap i).state = .waiting ∧ (t.ap i).state = .waiting ∨
    (s.ap i).state.driving = true ∧ (t.ap i).state ≠ .waiting ∧ on)

/-- What becomes of the warning of zone `z` where its timer does not expire. -/
structure ZoneKept (on : Prop) (z : ZoneId) (s t : State) : Prop where
  idle    : (s.zones.warnings[z]).state = .idle →
    t.zones.warnings[z] = s.zones.warnings[z] ∨ WarningStarted z s t
  running : (s.zones.warnings[z]).state = .running → t.zones.warnings[z] = s.zones.warnings[z]
  done    : (s.zones.warnings[z]).state = .done →
    t.zones.warnings[z] = s.zones.warnings[z] ∨ t.zones.warnings[z] = ⟨.idle, none⟩ ∨ WarningStarted z s t
  kept    : (s.zones.warnings[z]).state = .done → ClosingGoesOn on z s t →
    t.zones.warnings[z] = s.zones.warnings[z]

theorem ZoneKept.of_stands (h : t.zones.warnings[z] = s.zones.warnings[z]) : ZoneKept on z s t :=
  ⟨fun _ => .inl h, fun _ => h, fun _ => .inl h, fun _ _ => h⟩

/-- A command without the expiry of a warn timer, from a state in which the invariant holds. -/
structure Warned (on : Prop) (s t : State) : Prop where
  holds : t.WarningsHold
  zone  : ∀ z, ZoneKept on z s t

/-- No motion and no zone was touched. -/
theorem Warned.of_motions (h : s.WarningsHold)
    (ap : ∀ j, (t.ap j).state = (s.ap j).state ∧ (t.ap j).motion = (s.ap j).motion) (zones : t.zones = s.zones) :
    Warned on s t := ⟨warningsHold_of_motions ap zones h, fun z => .of_stands (by rw [zones])⟩

theorem Warned.elsewhere (h : s.WarningsHold) (aps : t.aps = s.aps) (zones : t.zones = s.zones) : Warned on s t :=
  .of_motions h (fun j => by rw [State.ap_of_aps aps]; exact ⟨rfl, rfl⟩) zones

theorem Warned.ite {q : Prop} [Decidable q] (h : q → Warned on s t) (g : ¬ q → Warned on s u) :
    Warned on s (if q then t else u) := by
  split
  · exact h ‹_›
  · exact g ‹_›

/-- An event with its attempts: what its passages did to the warnings stands (R101, R126, R127). -/
theorem WarnsBy.warned (h : WarnsBy l s u) (hold : s.WarningsHold) (update : Bool) (s0 : State)
    (moves : on → ∀ i, (s.ap i).state.driving = true → (u.ap i).state ≠ .waiting) :
    Warned on s (finish update s0 u) := by
  have holds := h.holds hold
  have attempted := finish_warnsOn update s0 u
  have frame := finish_frame u update s0
  have ending := (finish_ended update s0 u).ending
  have same := finish_warning update s0 holds
  have invariant := finish_warningsHold update s0 holds
  generalize finish update s0 u = t at attempted frame ending same invariant
  have start (z : ZoneId) (i : ApId) (calls : CallsWarning u z i)
      (runs : u.zones.warnings[z] = ⟨.running, some (u.ds + (u.zones.desc[z]).warn * 10)⟩) : WarningStarted z s t := by
    have ap := attempted.kept z i calls (by rw [runs]; nofun)
    refine ⟨?_, i, (callsWarning_congr (by rw [ap]; exact ⟨rfl, rfl⟩) attempted.desc).2 calls⟩
    rw [same, runs, frame.ds, h.desc]
  refine ⟨invariant, fun z => ?_⟩
  have kept (done : (s.zones.warnings[z]).state = .done) (goesOn : ClosingGoesOn on z s t) :
      t.zones.warnings[z] = s.zones.warnings[z] := by
    obtain ⟨i, cs, ct, goes⟩ := goesOn
    have cu : ClosingOf u z i := by
      rw [closingOf_iff, ← attempted.closing, ← State.governing_of_desc attempted.desc]
      exact closingOf_iff.1 ct
    refine (same z).trans (h.kept z i done cs cu (.inr ?_))
    rcases goes with ⟨ws, wt⟩ | ⟨d, -, e⟩
    · have ap := (ending i).keeps.2 wt
      exact .inl ⟨ws, by rw [← ap]; exact wt⟩
    · exact .inr ⟨d, moves e i d⟩
  rcases h.zone z with stands | ⟨done, ends⟩ | ⟨i, -, calls, open_, runs⟩
  · exact .of_stands ((same z).trans stands)
  · exact ⟨fun e => (by rw [done] at e; cases e), fun e => (by rw [done] at e; cases e),
      fun _ => .inr (.inl ((same z).trans ends)), kept⟩
  · have started := start z i calls runs
    exact ⟨fun _ => .inr started, fun e => absurd e open_, fun _ => .inr (.inr started), kept⟩

/-- What stands before and after an event, of apertures, zones and clock, is no matter of its warnings. -/
theorem Warned.congr (h : Warned on s t) (aps : u.aps = s.aps) (zones : u.zones = s.zones)
    (aps' : v.aps = t.aps) (zones' : v.zones = t.zones) (clock : v.clock = t.clock) : Warned on u v := by
  have ds : v.ds = t.ds := by rw [State.ds, clock, State.ds]
  have calls (z : ZoneId) (i : ApId) : CallsWarning v z i ↔ CallsWarning t z i :=
    callsWarning_congr (by rw [State.ap_of_aps aps']; exact ⟨rfl, rfl⟩) (by rw [zones'])
  have closes (z : ZoneId) (i : ApId) : ClosingOf v z i ↔ ClosingOf t z i :=
    closingOf_congr (by rw [State.ap_of_aps aps']; exact ⟨rfl, rfl⟩) (by rw [zones'])
  have closed (z : ZoneId) (i : ApId) : ClosingOf u z i ↔ ClosingOf s z i :=
    closingOf_congr (by rw [State.ap_of_aps aps]; exact ⟨rfl, rfl⟩) (by rw [zones])
  refine ⟨warningsHold_congr aps' zones' h.holds, fun z => ?_⟩
  obtain ⟨idle, running, done, kept⟩ := h.zone z
  simp only [WarningStarted, ClosingGoesOn] at idle done kept
  constructor <;> simp only [WarningStarted, ClosingGoesOn, zones, zones', ds, calls, closes, closed,
    State.ap_of_aps aps, State.ap_of_aps aps'] <;> assumption

theorem Warned.advanced {n : Nat} (h : Warned on (s.advanceTo n) t) : Warned on s t := h.congr rfl rfl rfl rfl rfl

/-- An event that a timer's expiry at `n` ms brings about. -/
theorem event_warned (f : State → State) (n : Nat) (hold : s.WarningsHold)
    (h : WarnsBy l (s.advanceTo n) (f (s.advanceTo n)))
    (moves : on → ∀ i, (s.ap i).state.driving = true → ((f (s.advanceTo n)).ap i).state ≠ .waiting) :
    Warned on s (event f (s.advanceTo n)) :=
  (h.warned (warningsHold_congr rfl rfl hold) false _ moves).advanced

/-- Driven apertures that move on do not wait. -/
theorem MovesOn.drives (h : MovesOn s u) (i : ApId) (d : (s.ap i).state.driving = true) : (u.ap i).state ≠ .waiting :=
  fun w => by
    have moving := h i (driving_moving d)
    rw [w] at moving; cases moving

/-- An operation on one aperture that is not driven leaves the driven ones. -/
theorem WarnsBy.drives (h : WarnsBy [i] s u) (idle : (s.ap i).state.driving = false) (j : ApId)
    (d : (s.ap j).state.driving = true) : (u.ap j).state ≠ .waiting := by
  rw [(h.others j fun mem => ?_).1]
  · intro w; rw [w] at d; cases d
  · rw [List.mem_singleton.1 mem, idle] at d; cases d

/-! ### Expiry of a warn timer (R127) -/

/-- The end of a warning sets it, and owes attempts. -/
theorem endWarning_owes (z : ZoneId) (s : State) : ∃ owed,
    endWarning z s = { s.setWarning z ⟨if s.zoneCloses z then .done else .idle, none⟩ with owed := owed } := by
  have owes (c : ApId → Prop) [DecidablePred c] (b : ApId → Branch) (l : List ApId) (v : State) : ∃ owed,
      l.foldl (fun s' i => if c i then s'.owe (b i) else s') v = { v with owed := owed } := by
    induction l generalizing v with
    | nil => exact ⟨v.owed, rfl⟩
    | cons x xs ih =>
      have first : ∃ owed, (if c x then v.owe (b x) else v) = { v with owed := owed } := by
        unfold State.owe
        split
        · split
          · exact ⟨v.owed, rfl⟩
          · exact ⟨_, rfl⟩
        · exact ⟨v.owed, rfl⟩
      obtain ⟨o, e⟩ := first
      rw [List.foldl_cons, e]
      exact ih _
  exact owes (fun i => (s.ap i).state = .waiting ∧ s.governing i = some z) (fun i => (s.ap i).fix.branch) allAps _

theorem endWarning_aps (z : ZoneId) (s : State) : (endWarning z s).aps = s.aps := by
  obtain ⟨owed, e⟩ := endWarning_owes z s
  rw [e]; rfl

theorem endWarning_zones (z : ZoneId) (s : State) :
    (endWarning z s).zones = (s.setWarning z ⟨if s.zoneCloses z then .done else .idle, none⟩).zones := by
  obtain ⟨owed, e⟩ := endWarning_owes z s
  rw [e]

theorem endWarning_warning (z y : ZoneId) (s : State) : (endWarning z s).zones.warnings[y] =
    if z = y then ⟨if s.zoneCloses z then .done else .idle, none⟩ else s.zones.warnings[y] := by
  rw [endWarning_zones, State.warnings_setWarning]

theorem endWarning_desc (z : ZoneId) (s : State) : (endWarning z s).zones.desc = s.zones.desc := by
  rw [endWarning_zones]; rfl

theorem endWarning_warningsHold (h : s.WarningsHold) (open_ : (s.zones.warnings[z]).state ≠ .idle) :
    (endWarning z s).WarningsHold := fun y => by
  have ap (i : ApId) : (endWarning z s).ap i = s.ap i := State.ap_of_aps (endWarning_aps z s) i
  have desc := endWarning_desc z s
  have calls (i : ApId) : CallsWarning (endWarning z s) y i ↔ CallsWarning s y i :=
    callsWarning_congr (by rw [ap]; exact ⟨rfl, rfl⟩) desc
  have closes (i : ApId) : ClosingOf (endWarning z s) y i ↔ ClosingOf s y i :=
    closingOf_congr (by rw [ap]; exact ⟨rfl, rfl⟩) desc
  simp only [calls, closes, ap, desc, State.governing_of_desc desc]
  obtain ⟨timer, done, standing, called⟩ := h y
  rw [endWarning_warning]
  split
  · next e =>
    subst e
    refine ⟨?_, fun d => zoneCloses_iff.1 ?_, fun _ => standing open_, fun i c => ?_⟩
    · refine ⟨fun e => ?_, nofun⟩
      revert e; dsimp only; split <;> nofun
    · revert d; dsimp only; split
      · exact fun _ => ‹_›
      · nofun
    · rw [zoneCloses_iff.2 ⟨i, c.closes⟩]; nofun
  · exact ⟨timer, done, standing, called⟩

/-- The expiry of the warn timer of zone `z`. -/
structure WarningEnds (z : ZoneId) (s t : State) : Prop where
  holds : t.WarningsHold
  runs  : (s.zones.warnings[z]).state = .running
  ends  : t.zones.warnings[z] = ⟨if t.zoneCloses z then .done else .idle, none⟩
  other : ∀ y, z ≠ y → t.zones.warnings[y] = s.zones.warnings[y]

theorem endWarning_ends {n : Nat} (h : s.WarningsHold) (timer : (s.zones.warnings[z]).timer.isSome = true) :
    WarningEnds z s (event (endWarning z) (s.advanceTo n)) := by
  have runs := (h z).1.2 timer
  have holds : (endWarning z (s.advanceTo n)).WarningsHold :=
    endWarning_warningsHold (warningsHold_congr rfl rfl h) (show (s.zones.warnings[z]).state ≠ .idle by rw [runs]; nofun)
  have same := finish_warning false (s.advanceTo n) holds
  refine ⟨finish_warningsHold false _ holds, runs, ?_, fun y ne => ?_⟩
  · rw [event, same, endWarning_warning, if_pos rfl, (finish_warnsOn false _ _).closes,
      zoneCloses_of_aps (endWarning_aps z _) (endWarning_desc z _)]
  · rw [event, same, endWarning_warning, if_neg ne]
    rfl

end Sys2Proof.Machine

end

