-- ==== Sys2Proof/Proofs/WarningCommands.lean ====
section
/-! PROOFS. What every command does to the warnings and lines of the zones: O35. -/

namespace Sys2Proof.Machine

open Sys2Proof

variable {i j : ApId} {y z : ZoneId} {s t u v : State} {l : List ApId} {on : Prop} {p : Port} {c : Instr}

/-! ### Exposure updates and fire changes move driven apertures on -/

theorem movesOn_elsewhere (aps : t.aps = s.aps) : MovesOn s t := .of_states fun j => by rw [State.ap_of_aps aps]

theorem MovesOn.ite {q : Prop} [Decidable q] (h : q → MovesOn s t) (g : ¬ q → MovesOn s u) :
    MovesOn s (if q then t else u) := by
  split
  · exact h ‹_›
  · exact g ‹_›

theorem notify_movesOn (ps : List Port) (n : NoticeBody) (s : State) : MovesOn s (s.notify ps n) :=
  .of_states fun j => by rw [State.notify_ap]

theorem renewClaims_movesOn (old : List ApId) (s : State) : MovesOn s (renewClaims old s) := by
  refine MovesOn.foldl (fun v i => .of_states fun j => ?_) old s
  rw [State.ap_modAp]
  split
  · next e => subst e; rfl
  · rfl

theorem exposureUpdate_movesOn (s : State) : MovesOn s (exposureUpdate s) := by
  have record (v : State) (q : Prop) [Decidable q] (x : Trigger) :
      MovesOn v (if q then { v with sup := { v.sup with trigger := some x } } else v) :=
    .ite (fun _ => movesOn_elsewhere rfl) fun _ => .refl v
  have claims (v : State) (q : Prop) [Decidable q] : MovesOn v (if q then allAps.foldl claimOn v else v) :=
    .ite (fun _ => .foldl (fun w i => (claimOn_mayReorder w i).movesOn) _ v) fun _ => .refl v
  have judged (v : State) (n : Nat) :
      MovesOn v (setWeather (nextWeather s) { v with sup := { v.sup with needs := n } }) :=
    movesOn_elsewhere rfl
  have resorted (v : State) : MovesOn v (resortQueue v) := movesOn_elsewhere rfl
  have announced (o w : Weather) (v : State) : MovesOn v (announceWeather o w v) :=
    .ite (fun _ => .refl v) fun _ => notify_movesOn _ _ v
  unfold exposureUpdate; dsimp only
  refine MovesOn.trans ?_ (announced _ _ _)
  refine MovesOn.trans ?_ (record _ _ _)
  refine MovesOn.trans ?_ (resorted _)
  refine MovesOn.trans ?_ (renewClaims_movesOn _ _)
  exact (judged s _).trans (claims _ _)

theorem compute_movesOn (s : State) : MovesOn s (compute s) :=
  .of_states fun j => by rw [compute_ap]; split <;> rfl

theorem advisoryChanged_movesOn (s : State) : MovesOn s (advisoryChanged s) :=
  .ite (fun _ => (compute_movesOn s).trans (exposureUpdate_movesOn _)) fun _ => .refl s

theorem gustUpdate_movesOn (s : State) : MovesOn s (gustUpdate s) := by
  have delivered : MovesOn s { s with sup := { s.sup with computed := true, gustWord := s.fe.word } } :=
    movesOn_elsewhere rfl
  exact (delivered.trans (compute_movesOn _)).trans (exposureUpdate_movesOn _)

theorem endHolding_movesOn (s : State) : MovesOn s (endHolding s) := by
  have judged (w : Weather) (v : State) : MovesOn v (setWeather w v) := movesOn_elsewhere rfl
  have announced (o w : Weather) (v : State) : MovesOn v (announceWeather o w v) :=
    .ite (fun _ => .refl v) fun _ => notify_movesOn _ _ v
  unfold endHolding; dsimp only
  exact (MovesOn.foldl (fun w i => (dropClaim_mayReorder w i).movesOn) allAps s).trans
    ((judged _ _).trans (announced _ _ _))

theorem fireLevel_movesOn (s : State) : MovesOn s (fireLevel s) := by
  have state (x : FireState) : MovesOn s { s with fire := { s.fire with state := x } } := movesOn_elsewhere rfl
  have alarm (r : Bool) (v : State) : MovesOn v (allAps.foldl (postAlarm r) v) :=
    .foldl (fun w i => (postAlarm_mayReorder r w i).movesOn) _ v
  unfold fireLevel
  split
  · exact ((state _).trans (alarm false _)).trans (notify_movesOn _ _ _)
  · exact ((state _).trans (alarm true _)).trans (notify_movesOn _ _ _)
  · exact (state _).trans (notify_movesOn _ _ _)
  · exact .refl s

theorem debounced_movesOn (s : State) : MovesOn s (debounced s) := by
  have fire (x : Fire) (v : State) : MovesOn v { v with fire := x } := movesOn_elsewhere rfl
  exact (fire _ s).trans (.ite (fun _ => .refl _) fun _ => (fire _ _).trans (fireLevel_movesOn _))

theorem restoreFire_movesOn (s : State) : MovesOn s (restoreFire s) := by
  have state : MovesOn s { s with fire := { s.fire with state := .normal } } := movesOn_elsewhere rfl
  exact (state.trans (.foldl (fun w i => (dropAlarm_mayReorder w i).movesOn) allAps _)).trans (notify_movesOn _ _ _)

/-! ### Requests (R158) -/

/-- The warnings after a change of the advisory (R78, R79). -/
theorem changeAdvisory_warned (d : Option Advisory) (h : s.WarningsHold) : Warned on s (changeAdvisory d s) := by
  have recorded : WarnsBy [] s { s with sup := { s.sup with advisory := d } } := .elsewhere rfl rfl rfl
  have kept : MovesOn s { s with sup := { s.sup with advisory := d } } := movesOn_elsewhere rfl
  exact (recorded.after (advisoryChanged_warnsBy _)).warned h _ _ fun _ => (kept.trans (advisoryChanged_movesOn _)).drives

theorem Asks.drives {f : State → State} (h : Asks f) (s : State) (j : ApId) (d : (s.ap j).state.driving = true) :
    ((f s).ap j).state ≠ .waiting := by
  cases h with
  | order p i y => exact (postOrder_reorders p i y s).movesOn.drives j d
  | orders p y l =>
    have all : MovesOn s (l.foldl (fun v i => postOrder p i y v) s) :=
      .foldl (fun v i => (postOrder_reorders p i y v).movesOn) l s
    exact all.drives j d
  | release p i => exact (releaseOrder_mayReorder p i s).movesOn.drives j d
  | clearFault i =>
    by_cases fault : (s.ap i).state = .fault
    · exact (clearFaultOf_warnsBy i s).drives (by rw [fault]; rfl) j d
    · have same : clearFaultOf i s = s := by
        unfold clearFaultOf
        split
        · next e _ => exact absurd e fault
        · next e _ => exact absurd e fault
        · rfl
      rw [same]
      intro w; rw [w] at d; cases d
  | restore => exact (restoreFire_movesOn s).drives j d

/-- A request that restarts the part (R166, R175). -/
def RequestKind.restarts (k : RequestKind) : Prop := k = .restart ∨ k = .leaveCommissioning

theorem Serves.warned {k : RequestKind} (h : Serves k s t) (hold : s.WarningsHold) :
    Warned on s t ∨ k.restarts ∧ t.WarningsHold := by
  cases h with
  | nothing => exact .inl (.elsewhere hold rfl rfl)
  | asked f h =>
    obtain ⟨l, by_⟩ := h.warnsBy s
    exact .inl (by_.warned hold false s fun _ => h.drives s)
  | advisory d => exact .inl (changeAdvisory_warned d hold)
  | conditions =>
    obtain ⟨x, rest⟩ := clearSticky_rest s
    rw [rest]
    exact .inl (.elsewhere hold rfl rfl)
  | notice | store => exact .inl (.elsewhere hold rfl rfl)
  | restart reason r kind => exact .inr ⟨kind, announceReset_warningsHold _ _ _ (loadTables_warningsHold _)⟩

/-- A request that is checked and served between resets (R158): a restart is allowed on Port S alone. -/
theorem serveRequest_warned (p : Port) (kind : Byte) (body : List Byte) (h : s.WarningsHold) :
    Warned on s (serveRequest p kind body s).1 ∨ p = .S ∧ ∃ k : RequestKind, k.restarts ∧ kind = k.code := by
  unfold serveRequest
  split
  · next k served =>
    unfold checkRequest at served
    split at served
    · cases served
    · next k' known =>
      split at served
      · cases served
      · next allowed =>
        split at served
        · cases served
          refine ((serve_serves k p body s).warned h).imp_right fun ⟨restarts, _⟩ => ⟨?_, k, restarts, ?_⟩
          · rcases restarts with rfl | rfl <;> simpa [RequestKind.allowedOn] using allowed
          · have code := List.find?_some known
            exact (of_decide_eq_true code).symm
        · cases served
  · exact .inl (.elsewhere h rfl rfl)

theorem placeReply_rests (p : Port) (kind : Byte) (x : Served) : (placeReply p kind x).aps = x.1.aps ∧
    (placeReply p kind x).zones = x.1.zones ∧ (placeReply p kind x).clock = x.1.clock := by
  rcases x with ⟨v, _ | r⟩ <;> exact ⟨rfl, rfl, rfl⟩

/-- A taken request is served and answered. -/
theorem placed_warned {p : Port} (kind : Byte) (body : List Byte) (hold : s.WarningsHold) (aps : v.aps = s.aps)
    (zones : v.zones = s.zones) :
    Warned on s (placeReply p kind (serveRequest p kind body v)) ∨
      p = .S ∧ ∃ k : RequestKind, k.restarts ∧ kind = k.code := by
  obtain ⟨aps', zones', clock⟩ := placeReply_rests p kind (serveRequest p kind body v)
  exact (serveRequest_warned p kind body (warningsHold_congr aps zones hold)).imp_left fun h =>
    h.congr aps.symm zones.symm aps' zones' clock

theorem exec_requestOf {kind : Byte} {body : List Byte} (h : requestOf c = some (p, kind, body)) (s : State) :
    exec c s = submit p kind body s := by
  cases c <;> cases h <;> rfl

/-- A whole request at a ready port (R157, R158). -/
theorem request_warned {kind : Byte} {body : List Byte} (h : requestOf c = some (p, kind, body))
    (hold : s.WarningsHold) (run : exec c s = .next t) (ready : (s.port p).ready) (len : body.length ≤ 30) :
    Warned on s t ∨ ∃ k : RequestKind, k.restarts ∧ servesAt s c k := by
  rw [exec_requestOf h, submit_ready ready kind body len] at run
  obtain rfl := next_inj run
  obtain h' | ⟨port, k, restarts, code⟩ := placed_warned (on := on) (p := p)
    (v := s.modPort p fun r => r.asked (requestBytes kind body)) kind body hold rfl rfl
  · exact .inl h'
  subst port code
  exact .inr ⟨k, restarts, .inr (.inr ⟨k.code, body, h, by simp [requestBytes], fun _ _ => rfl⟩)⟩

/-- A request's last byte has its request served, by its first byte (R157). -/
theorem append_head (r : PortRec) (now : Nat) (x kind n : Byte) (body : List Byte)
    (h : (r.append now x).reqBuf = kind :: n :: body) : r.reqBuf.head? = some kind := by
  unfold PortRec.append PortRec.startGap at h; dsimp only at h
  split at h
  · rw [h]; rfl
  · split at h
    · cases h
    · cases e : r.reqBuf with
      | nil => rw [e] at h; cases h
      | cons y ys => rw [e] at h; exact congrArg some (List.cons.inj h).1

theorem byte_warned (p : Port) (x : Byte) (hold : s.WarningsHold) : Warned on s (writeByte p x s) ∨
    ∃ k : RequestKind, k.restarts ∧ servesAt s (.requestByteWrite p false x) k := by
  have stands (v : State) (aps : v.aps = s.aps) (zones : v.zones = s.zones) : Warned on s v := .elsewhere hold aps zones
  unfold writeByte
  split
  · exact .inl (stands _ rfl rfl)
  · exact .inl (stands _ rfl rfl)
  · next assembling =>
    unfold assemble; dsimp only
    split
    · unfold takeRequest servePending
      split
      · next kind n body buf =>
        rw [State.port_modPort_self, State.port_modPort_self] at buf
        obtain h' | ⟨port, k, restarts, code⟩ := placed_warned (on := on) (p := p)
          (v := (s.modPort p fun r => r.append s.clock.ms x).modPort p PortRec.take) kind body hold rfl rfl
        · exact .inl h'
        subst port code
        exact .inr ⟨k, restarts, .inr (.inl ⟨x, rfl, assembling, append_head _ _ _ _ _ _ buf⟩)⟩
      · exact .inl (stands _ rfl rfl)
    · exact .inl (stands _ rfl rfl)
  · exact .inl (stands _ rfl rfl)

/-! ### Whatever the ports are told -/

/-- The invariant of the warnings is kept from `s` to `t`. -/
def KeepsWarnings (s t : State) : Prop := s.WarningsHold → t.WarningsHold

theorem keepsWarnings_portSafe : PortSafe KeepsWarnings where
  refl _ := id
  trans h g := g ∘ h
  port _ _ _ := warningsHold_congr rfl rfl
  store _ _ := warningsHold_congr rfl rfl
  serve k p body s hold := ((serve_serves k p body s).warned (on := True) hold).elim Warned.holds And.right

end Sys2Proof.Machine

end

