-- ==== Sys2Proof/Proofs/WarningLines.lean ====
section
/-! PROOFS. Warnings and WARN lines after every command: O35. -/

namespace Sys2Proof.Machine

open Sys2Proof

variable {i j : ApId} {b : Branch} {y z : ZoneId} {s t u v : State} {on : Prop} {p : Port} {c : Instr} {n : Nat}

/-! ### Events of single rows -/

theorem startSlot_warned (h : s.WarningsHold) : Warned on s (startSlot s) := by
  have alike := startSlot_waitsAlike s
  refine .of_motions h (fun j => ?_) alike.zones
  obtain ⟨-, state, motion, -⟩ := alike.aps j
  exact ⟨state, motion⟩

/-- The warnings after a second boundary (R44). -/
theorem boundary_warned (vane : Byte) (rain rainok : Bool) (h : s.WarningsHold) : Warned on s
    (finish true s (gustUpdate (frontEndStages vane rain rainok (beginBoundary vane rain rainok s)))) := by
  obtain ⟨clock, pins, fe, ports, e⟩ := frontEndStages_rest (vane := vane) (rain := rain) (rainok := rainok) s
  rw [e]
  have begun := (gustUpdate_warnsBy { s with clock := clock, pins := pins, fe := fe, ports := ports }).warned (on := on)
    (warningsHold_congr rfl rfl h) true s fun _ => (gustUpdate_movesOn _).drives
  exact begun.congr rfl rfl rfl rfl rfl

/-- A timer of a branch stopped and an attempt owed: no aperture passes. -/
theorem branchTimer_warned (b : Branch) (f : BranchRec → BranchRec) (n : Nat) (h : s.WarningsHold) :
    Warned on s (event (fun v => (v.modBranch b f).owe b) (s.advanceTo n)) := by
  have stopped : WarnsBy [] (s.advanceTo n) (((s.advanceTo n).modBranch b f).owe b) :=
    WarnsBy.after (u := (s.advanceTo n).modBranch b f) (.elsewhere rfl rfl rfl) (.owe b)
  refine event_warned (fun v => (v.modBranch b f).owe b) n h stopped fun _ i d w => ?_
  rw [State.owe_ap] at w
  rw [show (s.ap i).state = .waiting from w] at d; cases d

theorem settled_warned (n : Nat) (h : s.WarningsHold) (settling : (s.ap i).state = .settling) :
    Warned on s (event (fun v => (settled i v).owe (v.ap i).fix.branch) (s.advanceTo n)) := by
  have st : ((s.advanceTo n).ap i).state = .settling := settling
  have passed : WarnsBy [i] (s.advanceTo n)
      ((settled i (s.advanceTo n)).owe ((s.advanceTo n).ap i).fix.branch) :=
    (settled_warnsBy (by rw [st]; nofun)).before (.owe _)
  exact event_warned (fun v => (settled i v).owe (v.ap i).fix.branch) n h passed fun _ =>
    passed.drives (by rw [st]; rfl)

theorem retried_warned (n : Nat) (h : s.WarningsHold) (waits : (s.ap i).state = .retryWait) :
    Warned on s (event (toRest i) (s.advanceTo n)) := by
  have st : ((s.advanceTo n).ap i).state = .retryWait := waits
  have passed : WarnsBy [i] (s.advanceTo n) (toRest i (s.advanceTo n)) :=
    toRest_warnsBy fun w => by rw [st] at w; cases w
  exact event_warned (toRest i) n h passed fun _ => passed.drives (by rw [st]; rfl)

/-- A node timeout passes a STOPPING aperture alone (R141). -/
theorem nodeTimeout_drives (i : ApId) (s : State) (d : (s.ap j).state.driving = true) :
    ((nodeTimeout i s).ap j).state ≠ .waiting := by
  by_cases e : i = j
  · subst e
    have st : (s.ap i).state ≠ .stopping ∧ (s.ap i).state ≠ .offline := by
      rcases (driving_iff _).1 d with h | h <;> rw [h] <;> exact ⟨nofun, nofun⟩
    obtain ⟨-, -, other⟩ := nodeTimeout_eq i s
    rw [other st.1 (.inr st.2), silenced_ap, if_pos rfl]
    intro w
    rw [show (s.ap i).state = .waiting from w] at d; cases d
  · rw [((nodeTimeout_warnsBy i s).others j fun mem => e (List.mem_singleton.1 mem).symm).1]
    intro w; rw [w] at d; cases d

theorem holdTimer_warned (n : Nat) (h : s.WarningsHold) : Warned on s (event endHolding (s.advanceTo n)) :=
  event_warned endHolding n h (endHolding_warnsBy _) fun _ => (endHolding_movesOn (s.advanceTo n)).drives

theorem advisoryTimer_warned (n : Nat) (h : s.WarningsHold) : Warned on s (changeAdvisory none (s.advanceTo n)) :=
  (changeAdvisory_warned none (warningsHold_congr (t := s.advanceTo n) rfl rfl h)).advanced

theorem roomTimer_warned (i : ApId) (x : Slot) (e n : Nat) (h : s.WarningsHold) :
    Warned on s (event (expireRoom i x e) (s.advanceTo n)) :=
  event_warned (expireRoom i x e) n h (expireRoom_warnsBy i x e _) fun _ =>
    (expireRoom_reorders i x e (s.advanceTo n)).movesOn.drives

theorem inrushTimer_warned (i : ApId) (n : Nat) (h : s.WarningsHold) :
    Warned on s (event (toRunning i) (s.advanceTo n)) := by
  have runs : MovesOn (s.advanceTo n) (toRunning i (s.advanceTo n)) := .of_writes (fun _ => toRunning_ap) fun _ => rfl
  exact event_warned (toRunning i) n h toRunning_warnsBy fun _ => runs.drives

theorem travelTimer_warned (i : ApId) (n : Nat) (h : s.WarningsHold) :
    Warned on s (event (halt i .timeout) (s.advanceTo n)) :=
  event_warned (halt i .timeout) n h (halt_warnsBy .timeout) fun _ => (halt_movesOn i .timeout (s.advanceTo n)).drives

theorem contactTimer_warned (i : ApId) (n : Nat) (h : s.WarningsHold) :
    Warned on s (event (nodeTimeout i) (s.advanceTo n)) :=
  event_warned (nodeTimeout i) n h (nodeTimeout_warnsBy i _) fun _ _ => nodeTimeout_drives i (s.advanceTo n)

theorem debounceTimer_warned (n : Nat) (h : s.WarningsHold) : Warned on s (event debounced (s.advanceTo n)) :=
  event_warned debounced n h (debounced_warnsBy _) fun _ => (debounced_movesOn (s.advanceTo n)).drives

/-- An exchange's end passes its node, which may wait again in the same event. -/
theorem complete_warned (f : InFlight) (reply : List Byte) (n : Nat) (h : s.WarningsHold) (off : ¬ on) :
    Warned on s (event (complete f reply) (s.advanceTo n)) := by
  obtain ⟨l, passed⟩ := complete_warnsBy f reply (s.advanceTo n)
  exact event_warned (complete f reply) n h passed fun o => absurd o off

/-! ### Commands other than requests and resets -/

/-- Where a warning runs, its timer's expiry ends it (R127). -/
theorem exec_warnTimerExpiry (hold : s.WarningsHold) (runs : (s.zones.warnings[z]).state = .running)
    (run : exec (.warnTimerExpiry z) s = .next t) : WarningEnds z s t := by
  have timer := (hold z).1.1 runs
  simp only [exec, execWarnTimerExpiry] at run
  split at run
  · obtain rfl := next_inj run
    exact endWarning_ends hold timer
  · next none => rw [none] at timer; cases timer

/-- A command that is no reset and no request, by its row: the expiry of a warn timer ends that warning, and no other
command does. -/
theorem exec_warned (hold : s.WarningsHold) (run : exec c s = .next t) (request : requestOf c = none)
    (resets : ∀ b, c ≠ .por b ∧ c ≠ .pinReset b) (stores : c ≠ .storeOperationComplete)
    (bytes : ∀ p n x, c ≠ .requestByteWrite p n x) :
    (∃ z, c = .warnTimerExpiry z ∧ WarningEnds z s t) ∨ Warned (∀ reply, c ≠ .exchangeCompleted reply) s t := by
  have same {q : Prop} : Warned q s s := .elsewhere hold rfl rfl
  cases c
  case por b => exact absurd rfl (resets b).1
  case pinReset b => exact absurd rfl (resets b).2
  case storeOperationComplete => exact absurd rfl stores
  case requestByteWrite p n x => exact absurd rfl (bytes p n x)
  case warnTimerExpiry z =>
    simp only [exec, execWarnTimerExpiry] at run
    split at run <;> obtain rfl := next_inj run
    · next timer => exact .inl ⟨z, rfl, endWarning_ends hold (by rw [timer]; rfl)⟩
    · exact .inr same
  all_goals refine .inr ?_
  case anemoPulse => obtain rfl := next_inj run; exact .elsewhere hold rfl rfl
  case secondBoundary => obtain rfl := next_inj run; exact boundary_warned _ _ _ hold
  case holdTimerExpiry =>
    simp only [exec, execHoldTimerExpiry] at run
    split at run <;> obtain rfl := next_inj run
    · exact holdTimer_warned _ hold
    · exact same
  case advisoryExpiry =>
    simp only [exec, execAdvisoryExpiry] at run
    split at run <;> obtain rfl := next_inj run
    · exact advisoryTimer_warned _ hold
    · exact same
  case roomExpiry a =>
    simp only [exec, execRoomExpiry] at run
    split at run <;> obtain rfl := next_inj run
    · exact roomTimer_warned a _ _ _ hold
    · exact same
  case quietTimerExpiry b =>
    simp only [exec, execQuietTimerExpiry] at run
    split at run <;> obtain rfl := next_inj run
    · exact branchTimer_warned b _ _ hold
    · exact same
  case branchGapTimerExpiry b =>
    simp only [exec, execBranchGapTimerExpiry] at run
    split at run <;> obtain rfl := next_inj run
    · exact branchTimer_warned b _ _ hold
    · exact same
  case inrushTimerExpiry a =>
    simp only [exec, execInrushTimerExpiry] at run
    split at run <;> obtain rfl := next_inj run
    · exact inrushTimer_warned a _ hold
    · exact same
  case travelTimerExpiry a =>
    simp only [exec, execTravelTimerExpiry] at run
    split at run <;> obtain rfl := next_inj run
    · exact travelTimer_warned a _ hold
    · exact same
  case settleTimerExpiry a =>
    simp only [exec, execSettleTimerExpiry] at run
    split at run <;> obtain rfl := next_inj run
    · next st _ => exact settled_warned _ hold st
    · exact same
  case retryTimerExpiry a =>
    simp only [exec, execRetryTimerExpiry] at run
    split at run <;> obtain rfl := next_inj run
    · next st _ => exact retried_warned _ hold st
    · exact same
  case contactTimerExpiry a =>
    simp only [exec, execContactTimerExpiry] at run
    split at run <;> obtain rfl := next_inj run
    · exact contactTimer_warned a _ hold
    · exact same
  case linkSlotStart =>
    simp only [exec, execLinkSlotStart] at run
    split at run <;> obtain rfl := next_inj run
    · exact same
    · exact startSlot_warned hold
  case exchangeCompleted reply =>
    simp only [exec, execExchangeCompleted] at run
    split at run <;> obtain rfl := next_inj run
    · exact complete_warned _ reply _ hold fun other => absurd rfl (other reply)
    · exact same
  case alarmLineChange => obtain rfl := next_inj run; exact .elsewhere hold rfl rfl
  case debounceTimerExpiry =>
    simp only [exec, execDebounceTimerExpiry] at run
    split at run <;> obtain rfl := next_inj run
    · exact debounceTimer_warned _ hold
    · exact same
  case statusWrite => obtain rfl := next_inj run; exact same
  case replyByteRead p csN =>
    obtain rfl := next_inj run
    exact .ite (fun _ => same) fun _ => .elsewhere hold rfl rfl
  case waitHoldOff p x =>
    obtain rfl := next_inj run
    exact .ite (fun _ => .elsewhere hold rfl rfl) fun _ => same
  case heldStrobeEnd p => obtain rfl := next_inj run; exact .elsewhere hold rfl rfl
  case portGapTimerExpiry p =>
    simp only [exec, execPortGapTimerExpiry] at run
    split at run <;> obtain rfl := next_inj run
    · exact .elsewhere hold rfl rfl
    · exact same
  all_goals cases request

/-- Every command keeps the invariant of the warnings. -/
theorem exec_warningsHold (hold : s.WarningsHold) (run : exec c s = .next t) : t.WarningsHold := by
  by_cases request : requestOf c = none
  · cases c
    case por b =>
      obtain rfl := next_inj run
      exact announceReset_warningsHold _ _ _ (loadTables_warningsHold _)
    case pinReset b =>
      obtain rfl := next_inj run
      exact announceReset_warningsHold _ _ _ (loadTables_warningsHold _)
    case storeOperationComplete =>
      simp only [exec, execStoreOperationComplete] at run
      split at run <;> obtain rfl := next_inj run
      · exact keepsWarnings_portSafe.completeStore _ _ (warningsHold_congr rfl rfl hold)
      · exact hold
    case requestByteWrite p n x =>
      obtain rfl := next_inj run
      split
      · exact hold
      · exact keepsWarnings_portSafe.writeByte p x s hold
    all_goals
      rcases exec_warned hold run request (fun _ => ⟨nofun, nofun⟩) nofun (fun _ _ _ => nofun) with ⟨_, _, e⟩ | w
      · exact e.holds
      · exact w.holds
  · obtain ⟨⟨p, kind, body⟩, h⟩ := Option.ne_none_iff_exists'.1 request
    rw [exec_requestOf h] at run
    obtain rfl := next_inj run
    exact keepsWarnings_portSafe.writeBytes p _ s hold

/-- Between resets, one whole request at most, and no store completion. -/
theorem exec_warned_once (hold : s.WarningsHold) (run : exec c s = .next t)
    (resets : ∀ b, c ≠ .por b ∧ c ≠ .pinReset b) (stores : c ≠ .storeOperationComplete)
    (restart : ∀ k : RequestKind, k.restarts → ¬ servesAt s c k)
    (ready : ∀ p kind body, requestOf c = some (p, kind, body) → (s.port p).ready ∧ body.length ≤ 30) :
    (∃ z, c = .warnTimerExpiry z ∧ WarningEnds z s t) ∨ Warned (∀ reply, c ≠ .exchangeCompleted reply) s t := by
  by_cases request : requestOf c = none
  · by_cases bytes : ∀ p n x, c ≠ .requestByteWrite p n x
    · exact exec_warned hold run request resets stores bytes
    · push Not at bytes
      obtain ⟨p, n, x, rfl⟩ := bytes
      obtain rfl := next_inj run
      cases n
      · exact .inr ((byte_warned p x hold).resolve_right fun ⟨k, restarts, serves⟩ => restart k restarts serves)
      · exact .inr (.elsewhere hold rfl rfl)
  · obtain ⟨⟨p, kind, body⟩, h⟩ := Option.ne_none_iff_exists'.1 request
    obtain ⟨ready, len⟩ := ready p kind body h
    exact .inr ((request_warned h hold run ready len).resolve_right fun ⟨k, restarts, serves⟩ => restart k restarts serves)

/-! ### WARN lines (R128) -/

theorem warnLine_iff : s.warnLine z = true ↔ (s.zones.warnings[z]).state = .running ∨ ∃ i, ClosingOf s z i := by
  rw [State.warnLine, Bool.or_eq_true, decide_eq_true_iff, zoneCloses_iff]

/-- A zone that governs an aperture is enabled (R39). -/
theorem enabled_of_governing (h : s.governing i = some z) : (s.zones.desc[z]).enabled = true := by
  have covers := (governing_eq_some.1 h).1
  rw [Zone.covers, Bool.and_eq_true] at covers
  exact covers.1

/-- A line is asserted for a zone that governs an installed aperture alone. -/
theorem warnLine_governs (hold : s.WarningsHold) (h : s.warnLine z = true) :
    (s.zones.desc[z]).enabled = true ∧ ∃ i, (s.ap i).present ∧ s.governing i = some z := by
  have governed : ∃ i, (s.ap i).present ∧ s.governing i = some z := by
    rcases warnLine_iff.1 h with runs | ⟨i, g, moves, -⟩
    · exact ((hold z).2.2.1 (by rw [runs]; nofun)).2
    · refine ⟨i, decide_eq_true fun absent => ?_, g⟩
      rw [show (s.ap i).state = .absent from absent] at moves
      rcases moves with e | e | e | e <;> cases e
  obtain ⟨i, here, g⟩ := governed
  exact ⟨enabled_of_governing g, i, here, g⟩

end Sys2Proof.Machine

open Sys2Proof Sys2Proof.Machine

/-- Settles O35: the invariant and the lines for every command, and what becomes of each warning by the command. -/
theorem warningsAndLinesFollowClosings : Obligations.WarningsAndLinesFollowClosings := by
  intro s t c hold run
  refine ⟨exec_warningsHold hold run, fun z => ⟨warnLine_iff, warnLine_governs hold⟩,
    fun resets stores restart leave ready z => ?_⟩
  have restarts (k : RequestKind) (h : k.restarts) : ¬ servesAt s c k := by
    rcases h with rfl | rfl
    · exact restart
    · exact leave
  rcases exec_warned_once hold run resets stores restarts ready with ⟨y, rfl, e⟩ | w
  · by_cases at_z : y = z
    · subst at_z
      have runs := e.runs
      refine ⟨fun idle => ?_, fun _ => ⟨fun ne => absurd rfl ne, fun _ => e.ends⟩, fun done => ?_⟩
      · rw [runs] at idle; cases idle
      · rw [runs] at done; cases done
    · have stands := e.other z at_z
      refine ⟨fun _ => .inl stands, fun _ => ⟨fun _ => stands, fun same => ?_⟩, fun _ => ⟨.inl stands, fun _ => stands⟩⟩
      cases same
      exact absurd rfl at_z
  · obtain ⟨idle, running, done, kept⟩ := w.zone z
    refine ⟨idle, fun r => ⟨fun _ => running r, fun e => ?_⟩, fun d => ⟨done d, kept d⟩⟩
    subst e
    exact (exec_warnTimerExpiry hold r run).ends

end

