-- ==== Sys2Proof/Proofs/BranchViews.lean ====
section
/-! PROOFS. What an admission attempt reads of the state: a branch's own apertures, the order of their queue entries, and
the warnings of zones with closings (R96 to R105). -/

namespace Sys2Proof.Machine

open Sys2Proof

variable {i j : ApId} {b c : Branch} {s t u : State} {e x y : WaitEntry}

/-! ### Places in the queue, and the order they give -/

/-- The place of aperture `i` in the Closure Queue (R97). -/
def State.place (s : State) (i : ApId) : Option Nat := s.sup.queue.findIdx? fun e => e.ap = i

/-- A place goes before another, and any before none (R97). -/
def ahead : Option Nat → Option Nat → Bool
  | some p, some q => p < q
  | some _, none => true
  | none, _ => false

/-- The first entry of `i` stands before those of `j`. -/
def precedes (l : List Entry) (i j : ApId) : Bool :=
  ahead (l.findIdx? fun e => e.ap = i) (l.findIdx? fun e => e.ap = j)

theorem precedes_cons (e : Entry) (l : List Entry) (i j : ApId) :
    precedes (e :: l) i j = if e.ap = j then false else if e.ap = i then true else precedes l i j := by
  simp only [precedes, List.findIdx?_cons, decide_eq_true_eq]
  generalize (l.findIdx? fun e => decide (e.ap = i)) = p
  generalize (l.findIdx? fun e => decide (e.ap = j)) = q
  by_cases hj : e.ap = j
  · rw [if_pos hj, if_pos hj]
    split <;> cases p <;> simp [ahead]
  · rw [if_neg hj, if_neg hj]
    split
    · cases q <;> simp [ahead]
    · cases p <;> cases q <;> simp [ahead]

/-- Entries that are left out change no order among the others. -/
theorem precedes_filter {f : Entry → Bool} (hi : ∀ e : Entry, e.ap = i → f e = true)
    (hj : ∀ e : Entry, e.ap = j → f e = true) (l : List Entry) : precedes (l.filter f) i j = precedes l i j := by
  induction l with
  | nil => rfl
  | cons e l ih =>
    cases h : f e with
    | true => rw [List.filter_cons_of_pos h, precedes_cons, precedes_cons, ih]
    | false =>
      rw [List.filter_cons_of_neg (by rw [h]; nofun), precedes_cons, ih, if_neg, if_neg]
      · exact fun e' => by rw [hi e e'] at h; cases h
      · exact fun e' => by rw [hj e e'] at h; cases h

theorem findIdx?_isSome_filter {f : Entry → Bool} (hi : ∀ e : Entry, e.ap = i → f e = true) (l : List Entry) :
    ((l.filter f).findIdx? fun e => e.ap = i).isSome = (l.findIdx? fun e => e.ap = i).isSome := by
  rw [List.findIdx?_isSome, List.findIdx?_isSome, List.any_filter]
  congr 1
  funext e
  by_cases h : e.ap = i
  · simp [h, hi e h]
  · simp [h]

/-! ### Wait lists with places of another queue -/

/-- The wait-list entry with its place in the queue of `t`. -/
def placedIn (t : State) (e : WaitEntry) : WaitEntry := { e with place := t.place e.ap }

/-- The order of R97 is read from classes, order times, indices and the order of the places. -/
theorem lt_placed {p q : Option Nat} (both : ahead p q = ahead x.place y.place) (px : p.isSome = x.place.isSome)
    (qy : q.isSome = y.place.isSome) :
    WaitEntry.lt { x with place := p } { y with place := q } = x.lt y := by
  unfold WaitEntry.lt; dsimp only
  split
  · rfl
  · cases x.cls
    case weather =>
      revert both px qy
      cases p <;> cases q <;> cases x.place <;> cases y.place <;> simp [ahead]
    all_goals rfl

theorem insertWait_map {f : WaitEntry → WaitEntry} {l : List WaitEntry} (h : ∀ y ∈ l, (f x).lt (f y) = x.lt y) :
    insertWait (f x) (l.map f) = (insertWait x l).map f := by
  induction l with
  | nil => rfl
  | cons y ys ih =>
    rw [List.map_cons, insertWait, insertWait, h y List.mem_cons_self]
    split
    · rfl
    · rw [ih fun z mem => h z (List.mem_cons_of_mem _ mem), List.map_cons]

theorem sortWait_map {f : WaitEntry → WaitEntry} {l : List WaitEntry} (h : ∀ x ∈ l, ∀ y ∈ l, (f x).lt (f y) = x.lt y) :
    sortWait (l.map f) = (sortWait l).map f := by
  induction l with
  | nil => rfl
  | cons x xs ih =>
    rw [List.map_cons, sortWait, sortWait,
      ih fun y hy z hz => h y (List.mem_cons_of_mem _ hy) z (List.mem_cons_of_mem _ hz)]
    exact insertWait_map fun y mem =>
      h x List.mem_cons_self y (List.mem_cons_of_mem _ ((mem_sortWait y xs).1 mem))

/-! ### A branch that stands aside -/

/-- From `s` to `t` branch `b` stood, with its apertures, their queue entries, and the warnings of zones with closings;
an attempt owed on it is owed still. -/
structure Aside (b : Branch) (s t : State) : Prop where
  frame   : Frame Aperture.keep s t
  aps     : ∀ j, (s.ap j).fix.branch = b → t.ap j = s.ap j
  branch  : t.branch b = s.branch b
  entries : t.entriesOf b = s.entriesOf b
  warns   : WarnsOn s t
  owed    : b ∈ s.owed → b ∈ t.owed

namespace Aside

theorem refl (b : Branch) (s : State) : Aside b s s := ⟨Frame.refl _ s, fun _ _ => rfl, rfl, rfl, .refl s, id⟩

theorem fix (h : Aside b s t) (j : ApId) : (t.ap j).fix = (s.ap j).fix := (keep_fields (h.frame.aps j)).1

theorem trans (h : Aside b s u) (g : Aside b u t) : Aside b s t where
  frame := h.frame.trans g.frame
  aps j on := (g.aps j (by rw [h.fix]; exact on)).trans (h.aps j on)
  branch := g.branch.trans h.branch
  entries := g.entries.trans h.entries
  warns := h.warns.trans g.warns
  owed := g.owed ∘ h.owed

theorem onBranch (h : Aside b s t) (c : Branch) : t.onBranch c = s.onBranch c := by simp only [State.onBranch, h.fix]

theorem ap (h : Aside b s t) (mem : j ∈ s.onBranch b) : t.ap j = s.ap j := h.aps j ((mem_onBranch j b s).1 mem)

theorem precedes (h : Aside b s t) (hi : i ∈ s.onBranch b) (hj : j ∈ s.onBranch b) :
    ahead (t.place i) (t.place j) = ahead (s.place i) (s.place j) := by
  have on (k : ApId) (mem : k ∈ s.onBranch b) (v : State) (fix : ∀ j, (v.ap j).fix = (s.ap j).fix) (e : Entry)
      (he : e.ap = k) : decide ((v.ap e.ap).fix.branch = b) = true := by
    rw [fix, he]; exact decide_eq_true ((mem_onBranch k b s).1 mem)
  have left := precedes_filter (on i hi t h.fix) (on j hj t h.fix) t.sup.queue
  have right := precedes_filter (on i hi s fun _ => rfl) (on j hj s fun _ => rfl) s.sup.queue
  exact left.symm.trans ((congrArg (Machine.precedes · i j) h.entries).trans right)

theorem place_isSome (h : Aside b s t) (hi : i ∈ s.onBranch b) : (t.place i).isSome = (s.place i).isSome := by
  have on (v : State) (fix : ∀ j, (v.ap j).fix = (s.ap j).fix) (e : Entry) (he : e.ap = i) :
      decide ((v.ap e.ap).fix.branch = b) = true := by
    rw [fix, he]; exact decide_eq_true ((mem_onBranch i b s).1 hi)
  have left := findIdx?_isSome_filter (on t h.fix) t.sup.queue
  have right := findIdx?_isSome_filter (on s fun _ => rfl) s.sup.queue
  exact left.symm.trans ((congrArg (fun l : List Entry => (l.findIdx? fun e => e.ap = i).isSome) h.entries).trans right)

theorem waitEntry (h : Aside b s t) (hi : i ∈ s.onBranch b) :
    waitEntry t i = (waitEntry s i).map (placedIn t) := by
  unfold Machine.waitEntry
  rw [h.ap hi]
  split <;> rfl

/-- The wait list stands, but for the places of its entries in the queue. -/
theorem waitList (h : Aside b s t) : waitList t b = (waitList s b).map (placedIn t) := by
  have listed : (t.onBranch b).filterMap (Machine.waitEntry t) =
      ((s.onBranch b).filterMap (Machine.waitEntry s)).map (placedIn t) := by
    rw [h.onBranch, List.map_filterMap]
    exact List.filterMap_congr fun i mem => h.waitEntry mem
  have entry (x : WaitEntry) (mem : x ∈ (s.onBranch b).filterMap (Machine.waitEntry s)) :
      x.ap ∈ s.onBranch b ∧ x.place = s.place x.ap := by
    obtain ⟨i, on, e⟩ := List.mem_filterMap.1 mem
    obtain ⟨-, m, -, rfl⟩ := (waitEntry_eq_some i s x).1 e
    exact ⟨on, rfl⟩
  rw [Machine.waitList, Machine.waitList, listed]
  refine sortWait_map fun x hx y hy => ?_
  obtain ⟨onx, placex⟩ := entry x hx
  obtain ⟨ony, placey⟩ := entry y hy
  refine lt_placed ?_ ?_ ?_
  · rw [placex, placey]; exact h.precedes onx ony
  · rw [placex]; exact h.place_isSome onx
  · rw [placey]; exact h.place_isSome ony

theorem mem_waitList_ap (mem : e ∈ Machine.waitList s b) : e.ap ∈ s.onBranch b :=
  (mem_onBranch e.ap b s).2 ((mem_waitList b s e).1 mem).1

theorem awaitsWarning (h : Aside b s t) (mem : e ∈ Machine.waitList s b) :
    awaitsWarning t (placedIn t e) = awaitsWarning s e := by
  obtain ⟨-, entry⟩ := (mem_waitList b s e).1 mem
  obtain ⟨waits, m, motion, -⟩ := (waitEntry_eq_some e.ap s e).1 entry
  have ap := h.ap (mem_waitList_ap mem)
  unfold Machine.awaitsWarning
  rw [show (placedIn t e).ap = e.ap from rfl, State.governing_of_desc h.frame.desc, ap, motion]
  cases g : s.governing e.ap with
  | none => rfl
  | some z =>
    dsimp only
    rw [h.frame.desc]
    cases n : m.needsWarning (s.zones.desc[z]).warn with
    | false => rfl
    | true => rw [h.warns.stands z fun _ => zoneCloses_of_needsWarning g waits motion n]

/-- The eligible entries stand, but for the places of their entries in the queue. -/
theorem candidates (h : Aside b s t) : candidatesOf t b = (candidatesOf s b).map (placedIn t) := by
  unfold candidatesOf
  rw [h.waitList, List.filter_map]
  congr 1
  refine List.filter_congr fun e mem => ?_
  have ap := h.ap (mem_waitList_ap mem)
  refine decide_eq_decide.2 ?_
  rw [standingOf_eligible, standingOf_eligible, h.awaitsWarning mem, h.branch]
  simp only [unfit, awaitsPlan, show (placedIn t e).ap = e.ap from rfl, ap]
  rfl

theorem mem_candidates_ap (mem : e ∈ candidatesOf s b) : e.ap ∈ s.onBranch b :=
  mem_waitList_ap (List.mem_filter.1 mem).1

/-! ### Fits, gaps and victims -/

theorem committed (h : Aside b s t) : t.committed b = s.committed b := by
  unfold State.committed
  rw [h.onBranch]
  exact congrArg List.sum (List.map_congr_left fun i mem => by rw [h.ap mem])

theorem fits (h : Aside b s t) (mem : e ∈ candidatesOf s b) : fits t b (placedIn t e) = fits s b e := by
  unfold Machine.fits
  rw [h.committed, h.branch, show (placedIn t e).ap = e.ap from rfl, h.ap (mem_candidates_ap mem)]

theorem gapPassed (h : Aside b s t) : gapPassed t b = gapPassed s b := by
  unfold Machine.gapPassed
  rw [h.branch, h.frame.loadEnd, h.frame.ds]

theorem victimLt (h : Aside b s t) (hi : i ∈ s.onBranch b) (hj : j ∈ s.onBranch b) :
    victimLt t i j = victimLt s i j := by
  simp only [Machine.victimLt, h.ap hi, h.ap hj]

theorem sortVictims (h : Aside b s t) {l : List ApId} (on : ∀ i ∈ l, i ∈ s.onBranch b) :
    sortVictims t l = sortVictims s l := by
  have insert (i : ApId) (hi : i ∈ s.onBranch b) (l : List ApId) (on : ∀ j ∈ l, j ∈ s.onBranch b) :
      insertVictim t i l = insertVictim s i l := by
    induction l with
    | nil => rfl
    | cons j js ih =>
      rw [insertVictim, insertVictim, h.victimLt hi (on j List.mem_cons_self),
        ih fun k mem => on k (List.mem_cons_of_mem _ mem)]
  induction l with
  | nil => rfl
  | cons i is ih =>
    rw [Machine.sortVictims, Machine.sortVictims, ih fun k mem => on k (List.mem_cons_of_mem _ mem)]
    exact insert i (on i List.mem_cons_self) _ fun j mem =>
      on j (List.mem_cons_of_mem _ ((mem_sortVictims j s is).1 mem))

theorem sheddable (h : Aside b s t) (c : OrderClass) : sheddable t b c = sheddable s b c := by
  unfold Machine.sheddable
  rw [h.onBranch, h.sortVictims fun i mem => (List.mem_filter.1 mem).1]
  congr 1
  exact List.filter_congr fun i mem => by rw [h.ap mem]

theorem takeVictims (h : Aside b s t) {l : List ApId} (on : ∀ i ∈ l, i ∈ s.onBranch b) (need free : Nat) :
    takeVictims t need free l = takeVictims s need free l := by
  induction l generalizing free with
  | nil => rfl
  | cons i is ih =>
    rw [Machine.takeVictims, Machine.takeVictims, h.ap (on i List.mem_cons_self),
      ih fun k mem => on k (List.mem_cons_of_mem _ mem)]

theorem victims (h : Aside b s t) (mem : e ∈ candidatesOf s b) : victims t b (placedIn t e) = victims s b e := by
  have stopping : stoppingCurrent t b = stoppingCurrent s b := by
    unfold stoppingCurrent
    rw [h.onBranch, List.filter_congr fun i mem => by rw [h.ap mem]]
    exact congrArg List.sum (List.map_congr_left fun i mem => by rw [h.ap (List.mem_filter.1 mem).1])
  unfold Machine.victims
  rw [stopping, h.committed, h.branch, show (placedIn t e).ap = e.ap from rfl, h.ap (mem_candidates_ap mem),
    show (placedIn t e).cls = e.cls from rfl, h.sheddable]
  refine h.takeVictims (fun i mem => ?_) _ _
  rw [Machine.sheddable, mem_sortVictims] at mem
  exact (List.mem_filter.1 mem).1

end Aside

end Sys2Proof.Machine

end

