-- ==== Sys2Proof/Proofs/AttemptsElsewhere.lean ====
section
/-! PROOFS. Attempts on one branch leave the others aside (R101 to R107). -/

namespace Sys2Proof.Machine

open Sys2Proof

variable {i j : ApId} {b c : Branch} {s t u v : State} {e : WaitEntry}

/-! ### What is owed, and the queue entries of other branches -/

theorem mem_owe (c : Branch) (h : b ∈ s.owed) : b ∈ (s.owe c).owed := by
  unfold State.owe
  split
  · exact h
  · exact List.mem_append_left _ h

theorem owe_mem (b : Branch) (s : State) : b ∈ (s.owe b).owed := by
  unfold State.owe
  split
  · assumption
  · exact List.mem_append_right _ (List.mem_singleton.2 rfl)

theorem refreshEntry_owed (i : ApId) (s : State) : (refreshEntry i s).owed = s.owed := by
  unfold refreshEntry; split <;> rfl

theorem refreshWarning_owed (i : ApId) (s : State) : (refreshWarning i s).owed = s.owed := by
  rcases refreshWarning_cases i s with h | ⟨z, -, h⟩ <;> rw [h]; rfl

/-- Passing to a motion state may owe an attempt, and takes none back. -/
theorem enter_owed (i : ApId) (st : MotionState) (f : Aperture → Aperture) (h : b ∈ s.owed) :
    b ∈ (enter i st f s).owed := by
  have withdrawn (q : Prop) [Decidable q] (v : State) (h : b ∈ v.owed) :
      b ∈ (if q then { v with link := v.link.withdrawMove i } else v).owed := by split <;> exact h
  unfold enter; dsimp only
  rw [refreshWarning_owed, refreshEntry_owed]
  refine withdrawn _ _ ?_
  split
  · exact mem_owe _ h
  · exact h

theorem filter_insertEntry {f : Entry → Bool} {e : Entry} (h : f e = false) (l : List Entry) :
    (insertEntry e l).filter f = l.filter f := by
  induction l with
  | nil => simp [insertEntry, h]
  | cons x xs ih =>
    unfold insertEntry
    split
    · rw [List.filter_cons_of_neg (by rw [h]; nofun)]
    · rw [List.filter_cons, List.filter_cons, ih]

/-- The entry of one aperture joins or leaves, those of another branch stand (R86). -/
theorem refreshEntry_entriesOf (h : (s.ap i).fix.branch ≠ b) : (refreshEntry i s).entriesOf b = s.entriesOf b := by
  unfold refreshEntry
  split
  · exact filter_insertEntry (decide_eq_false h) _
  · refine (List.filter_filter ..).trans (List.filter_congr fun e _ => ?_)
    change (decide ((s.ap e.ap).fix.branch = b) && decide (e.ap ≠ i)) = decide ((s.ap e.ap).fix.branch = b)
    by_cases on : (s.ap e.ap).fix.branch = b
    · have other : e.ap ≠ i := fun same => h (same ▸ on)
      rw [decide_eq_true other, Bool.and_true]
    · rw [decide_eq_false on, Bool.false_and]
  · rfl

theorem enter_entriesOf {st : MotionState} {f : Aperture → Aperture} (fix : (f (s.ap i)).fix = (s.ap i).fix)
    (h : (s.ap i).fix.branch ≠ b) : (enter i st f s).entriesOf b = s.entriesOf b := by
  obtain ⟨v, aps, -, sup, e⟩ := enter_judges i s st f
  have fixes (j : ApId) : (v.ap j).fix = (s.ap j).fix := by
    rw [State.ap_of_aps aps, State.ap_modAp]
    split
    · next same => subst same; exact fix
    · rfl
  have judged : (enter i st f s).entriesOf b = (refreshEntry i v).entriesOf b := by
    rw [e, State.entriesOf, refreshWarning_sup]
    simp only [refreshWarning_ap, State.entriesOf]
  rw [judged, refreshEntry_entriesOf (by rw [fixes]; exact h), State.entriesOf, sup]
  simp only [fixes, State.entriesOf]

/-- An admission enters STARTING, and writes its branch and the link beside. -/
theorem admitMotion_enters (b : Branch) (i : ApId) (s : State) : ∃ f : Aperture → Aperture,
    (f (s.ap i)).fix = (s.ap i).fix ∧ (admitMotion b i s).aps = (enter i .starting f s).aps ∧
      (admitMotion b i s).sup = (enter i .starting f s).sup ∧ (admitMotion b i s).owed = (enter i .starting f s).owed := by
  refine ⟨fun a => { a with
    startTime := some s.ds, mon := { Monitor.stopped with inrush := some (s.ds + (s.branch b).window) } }, rfl, ?_⟩
  unfold admitMotion; dsimp only
  generalize enter i .starting _ s = v
  exact ⟨rfl, rfl, rfl⟩

theorem admitMotion_entriesOf (off : (s.ap i).fix.branch ≠ b) : (admitMotion c i s).entriesOf b = s.entriesOf b := by
  obtain ⟨f, fix, aps, sup, -⟩ := admitMotion_enters c i s
  rw [← enter_entriesOf (st := .starting) fix off, State.entriesOf, State.entriesOf, sup]
  simp only [State.ap_of_aps aps]

theorem admitMotion_owed (h : b ∈ s.owed) : b ∈ (admitMotion c i s).owed := by
  obtain ⟨f, -, -, -, owed⟩ := admitMotion_enters c i s
  rw [owed]
  exact enter_owed i .starting f h

/-! ### Attempts on other branches -/

namespace Aside

/-- A change of nothing that an attempt on the branch reads. -/
theorem elsewhere (frame : Frame Aperture.keep s t) (aps : t.aps = s.aps) (branch : t.branch b = s.branch b)
    (queue : t.sup.queue = s.sup.queue) (zones : t.zones = s.zones) (owed : b ∈ s.owed → b ∈ t.owed) : Aside b s t where
  frame := frame
  aps j _ := State.ap_of_aps aps j
  branch := branch
  entries := by
    rw [State.entriesOf, queue]
    simp only [State.ap_of_aps aps, State.entriesOf]
  warns := .elsewhere aps zones
  owed := owed

theorem owe (b c : Branch) (s : State) : Aside b s (s.owe c) :=
  .elsewhere (Frame.owe c) (State.owe_aps s c) (by rw [State.branch, State.owe_branches]; rfl) (by simp) (by simp)
    (mem_owe c)

theorem reserve (ne : c ≠ b) (r : Option ApId) (s : State) : Aside b s (s.reserve c r) :=
  .elsewhere (Frame.reserve c r) rfl (by rw [State.reserve, State.branch_modBranch, if_neg ne]) rfl rfl id

theorem halt (cause : HaltCause) (off : (s.ap i).fix.branch ≠ b) : Aside b s (halt i cause s) where
  frame := halt_frame i s cause
  aps j on := by rw [halt_ap, if_neg]; rintro rfl; exact off on
  branch := halt_branch i cause s b
  entries := by
    have entered := enter_entriesOf (s := s) (st := .stopping)
      (f := fun a => { a with mon := { Monitor.stopped with haltCause := some cause } }) rfl off
    unfold Machine.halt
    split
    · generalize enter i .stopping _ s = v at entered ⊢
      exact entered
    · rfl
  warns := halt_warnsOn i cause s
  owed mem := by
    unfold Machine.halt
    split
    · exact enter_owed i _ _ mem
    · exact mem

theorem halts (vs : List ApId) (off : ∀ v ∈ vs, (s.ap v).fix.branch ≠ b) :
    Aside b s (vs.foldl (fun s' i => Machine.halt i .shed s') s) := by
  induction vs generalizing s with
  | nil => exact .refl b s
  | cons v vs ih =>
    have first := Aside.halt (b := b) .shed (off v List.mem_cons_self)
    exact first.trans (ih fun x mem => by rw [first.fix]; exact off x (List.mem_cons_of_mem _ mem))

theorem admission (ne : c ≠ b) {d : OrderClass} (ready : Ready s c i d) : Aside b s (admitMotion c i s) := by
  obtain ⟨on, waits, -⟩ := (ready_iff i c s d).1 ready
  have off : (s.ap i).fix.branch ≠ b := by rw [on]; exact ne
  refine ⟨admit_frame i c s, fun j onb => ?_, ?_, admitMotion_entriesOf off, admitMotion_warnsOn waits fun z calls => ?_,
    admitMotion_owed⟩
  · rw [admitMotion_ap, if_neg]; rintro rfl; exact off onb
  · rw [State.branch, admitMotion_branches, Branches.get_put, if_neg ne]; rfl
  · exact ready.warned calls

theorem outcome (ne : c ≠ b) {x : State × Bool} (o : Outcome c (candidatesOf s c) s x) : Aside b s x.1 := by
  cases o with
  | nothing => exact .refl b s
  | admits e mem => exact admission ne ⟨e, mem, rfl, rfl⟩
  | sheds e _ _ vs take =>
    refine (halts vs fun v mem => ?_).trans (.reserve ne _ _)
    rw [(of_mem_victims v c s take mem).1]
    exact ne

theorem attempt (ne : c ≠ b) (h : AllReserved s) : Aside b s (attempt c s).1 := by
  rcases attempt_outcome c s (h c) with o | o
  · exact outcome ne o
  · rw [← candidatesOf_reserve] at o
    exact (Aside.reserve ne none s).trans (outcome ne o)

theorem runAttempts (ne : c ≠ b) (h : AllReserved s) (n : Nat) : Aside b s (runAttempts c n s) := by
  induction n generalizing s with
  | zero => exact .refl b s
  | succ n ih =>
    have one := Aside.attempt ne h
    have reserved := (attempt_attempts (b := c) h).2
    unfold Machine.runAttempts
    split
    · next w e => rw [e] at one reserved; exact one.trans (ih reserved)
    · next w e => rw [e] at one; exact one

end Aside

/-! ### The owed attempts, branch by branch -/

/-- The attempts owed on branch `b` are run (R101). -/
def runOwed (s : State) (b : Branch) : State := if b ∈ s.owed then runAttempts b (attemptBound s b) s else s

theorem settleAttempts_eq (s : State) : settleAttempts s = { allBranches.foldl runOwed s with owed := [] } := rfl

theorem runOwed_allReserved (h : AllReserved s) (b : Branch) : AllReserved (runOwed s b) := by
  unfold runOwed
  split
  · exact (runAttempts_along (P := fun _ _ => True) (fun _ => trivial) (fun _ _ _ _ _ => trivial)
      (fun _ _ _ => trivial) h b _).2
  · exact h

/-- What holds of one attempt holds of those owed on some branches. -/
theorem foldl_runOwed {P : State → State → Prop} (refl : ∀ s, P s s) (trans : ∀ s u t, P s u → P u t → P s t)
    (l : List Branch) (one : ∀ s c, c ∈ l → AllReserved s → P s (runOwed s c)) (h : AllReserved s) :
    P s (l.foldl runOwed s) ∧ AllReserved (l.foldl runOwed s) := by
  induction l generalizing s with
  | nil => exact ⟨refl s, h⟩
  | cons c l ih =>
    have first := one s c List.mem_cons_self h
    obtain ⟨rest, reserved⟩ := ih (fun v d mem => one v d (List.mem_cons_of_mem _ mem)) (runOwed_allReserved h c)
    exact ⟨trans _ _ _ first rest, reserved⟩

theorem foldl_runOwed_aside {l : List Branch} (out : b ∉ l) (h : AllReserved s) :
    Aside b s (l.foldl runOwed s) ∧ AllReserved (l.foldl runOwed s) := by
  refine foldl_runOwed (Aside.refl b) (fun _ _ _ => Aside.trans) l (fun v c mem r => ?_) h
  unfold runOwed
  split
  · exact .runAttempts (by rintro rfl; exact out mem) r _
  · exact .refl b v

/-- The owed attempts of an event: branches before `b`, branch `b`, and branches behind it. -/
theorem settleAttempts_split (b : Branch) (s : State) : ∃ before behind : List Branch, b ∉ before ∧ b ∉ behind ∧
    settleAttempts s = { behind.foldl runOwed (runOwed (before.foldl runOwed s) b) with owed := [] } := by
  have split : ∃ l m, allBranches = l ++ b :: m ∧ b ∉ l ∧ b ∉ m := by
    cases b
    · exact ⟨[], [.B, .C, .D], by decide⟩
    · exact ⟨[.A], [.C, .D], by decide⟩
    · exact ⟨[.A, .B], [.D], by decide⟩
    · exact ⟨[.A, .B, .C], [], by decide⟩
  obtain ⟨l, m, e, before, behind⟩ := split
  refine ⟨l, m, before, behind, ?_⟩
  rw [settleAttempts_eq, e, List.foldl_append, List.foldl_cons]

end Sys2Proof.Machine

end

