-- ==== Sys2Proof/Proofs/BranchTurns.lean ====
section
/-! PROOFS. The first attempt on a branch in an event, and what the attempts behind it leave of its outcome (R101 to
R107, R113). -/

namespace Sys2Proof.Machine

open Sys2Proof

variable {i j : ApId} {b c : Branch} {s t u v w : State} {e x : WaitEntry} {es rest : List WaitEntry}

/-! ### What one attempt does, by reservation and first entry -/

theorem Ready.waits {d : OrderClass} (h : Ready s b i d) : (s.ap i).state = .waiting := ((ready_iff i b s d).1 h).2.1

theorem Ready.on {d : OrderClass} (h : Ready s b i d) : (s.ap i).fix.branch = b := ((ready_iff i b s d).1 h).1

/-- An eligible entry has one class. -/
theorem Ready.unique {d d' : OrderClass} (h : Ready s b i d) (g : Ready s b i d') : d = d' := by
  obtain ⟨-, -, m, hm, rfl, -⟩ := (ready_iff i b s d).1 h
  obtain ⟨-, -, n, hn, rfl, -⟩ := (ready_iff i b s d').1 g
  rw [hm] at hn
  cases hn; rfl

/-- Two eligible entries of one aperture are one. -/
theorem candidate_unique (he : e ∈ candidatesOf s b) (hx : x ∈ candidatesOf s b) (same : x.ap = e.ap) : x = e := by
  have h := ((mem_waitList b s e).1 (List.mem_filter.1 he).1).2
  have g := ((mem_waitList b s x).1 (List.mem_filter.1 hx).1).2
  rw [same, h] at g
  exact (Option.some.inj g).symm

/-- With a reservation standing the attempt considers the reserved entry alone (R107). -/
theorem attempt_reserved (r : (s.branch b).reservation = some e.ap) (mem : e ∈ candidatesOf s b)
    (alone : e.cls = .weather → ∀ x ∈ candidatesOf s b, x.cls ≠ .life) :
    attempt b s = if fits s b e && gapPassed s b then (admitMotion b e.ap s, true) else (s, false) := by
  obtain ⟨-, -, m, hm, cls, -⟩ := (ready_iff e.ap b s e.cls).1 ⟨e, mem, rfl, rfl⟩
  have found : (candidatesOf s b).find? (fun x => x.ap = e.ap) = some e := by
    cases h : (candidatesOf s b).find? (fun x => x.ap = e.ap) with
    | none => exact absurd (List.find?_eq_none.1 h e mem) (by simp)
    | some x =>
      exact congrArg some (candidate_unique mem (List.mem_of_find?_eq_some h) (by simpa using List.find?_some h))
  have kept : (decide (m.cls = .weather) && (candidatesOf s b).any fun x => x.cls = .life) = false := by
    rw [cls, Bool.and_eq_false_iff, decide_eq_false_iff_not, List.any_eq_false]
    by_cases weather : e.cls = .weather
    · exact .inr fun x hx => by simpa using alone weather x hx
    · exact .inl weather
  unfold attempt; dsimp only
  rw [r]; dsimp only
  rw [hm]; dsimp only
  rw [kept, if_neg Bool.false_ne_true, found]

/-- Where a first entry fits, no eligible entry of a higher class stands short, and it is started if the gap has passed
(R102, R103). -/
theorem attemptOpen_fits (sorted : (e :: rest).Pairwise fun x y => x.cls.rank ≤ y.cls.rank) (fit : fits s b e = true) :
    attemptOpen b (e :: rest) s = if gapPassed s b then (admitMotion b e.ap s, true) else (s, false) := by
  have none : (e :: rest).any (fun x => !fits s b x && x.cls.rank < e.cls.rank) = false := by
    rw [List.any_eq_false]
    intro x mem
    have le : e.cls.rank ≤ x.cls.rank := by
      rcases List.mem_cons.1 mem with rfl | mem
      · exact le_rfl
      · exact (List.pairwise_cons.1 sorted).1 x mem
    simp [not_lt.2 le]
  have first : admitFirst b (e :: rest) s = if gapPassed s b then (admitMotion b e.ap s, true) else (s, false) := by
    unfold admitFirst
    rw [List.find?_cons_of_pos fit]; dsimp only
    rw [none, Bool.false_or]
    cases gapPassed s b <;> rfl
  unfold attemptOpen; dsimp only
  rw [fit, Bool.not_true, Bool.and_false, if_neg Bool.false_ne_true, first]

/-- A short LIFE or WEATHER entry has its victims halted and is reserved (R105, R107). -/
theorem attemptOpen_sheds {vs : List ApId} (short : fits s b e = false) (cls : e.cls = .life ∨ e.cls = .weather)
    (take : victims s b e = some vs) : attemptOpen b (e :: rest) s =
      ((vs.foldl (fun s' i => halt i .shed s') s).reserve b (some e.ap), true) := by
  have sheds : ((decide (e.cls = .life) || decide (e.cls = .weather)) && !fits s b e) = true := by
    rw [short]; simpa using cls
  unfold attemptOpen; dsimp only
  rw [if_pos sheds, take]

/-- A short entry that sheds nothing leaves the attempt to the first entry that fits (R102). -/
theorem attemptOpen_passes (other : (e.cls ≠ .life ∧ e.cls ≠ .weather) ∨ victims s b e = none) :
    attemptOpen b (e :: rest) s = admitFirst b (e :: rest) s := by
  unfold attemptOpen; dsimp only
  split
  · next h =>
    rcases other with ⟨life, weather⟩ | none
    · simp [life, weather] at h
    · rw [none]
  · rfl

theorem admitFirst_none (short : ∀ x ∈ es, fits s b x = false) : admitFirst b es s = (s, false) := by
  unfold admitFirst
  rw [List.find?_eq_none.2 fun x mem => by rw [short x mem]; nofun]

theorem admitFirst_some (found : es.find? (fits s b) = some x) :
    ((∃ y ∈ es, fits s b y = false ∧ y.cls.rank < x.cls.rank) ∨ gapPassed s b = false → admitFirst b es s = (s, false)) ∧
    ((¬ ∃ y ∈ es, fits s b y = false ∧ y.cls.rank < x.cls.rank) → gapPassed s b = true →
      admitFirst b es s = (admitMotion b x.ap s, true)) := by
  have passed : (es.any fun y => !fits s b y && y.cls.rank < x.cls.rank) = true ↔
      ∃ y ∈ es, fits s b y = false ∧ y.cls.rank < x.cls.rank := by
    simp only [List.any_eq_true, Bool.and_eq_true, Bool.not_eq_true', decide_eq_true_eq]
  unfold admitFirst
  rw [found]; dsimp only
  refine ⟨fun h => ?_, fun no gap => ?_⟩
  · rw [if_pos]
    rw [Bool.or_eq_true, Bool.not_eq_true', passed]
    exact h
  · rw [if_neg]
    rw [Bool.or_eq_true, Bool.not_eq_true', passed, gap]
    rintro (h | h)
    · exact no h
    · cases h

/-! ### Started apertures, stamped branches and claimed reservations, through further attempts -/

/-- Start time and gap timer of branch `b` are those of a start at this uptime (R103, R113). -/
def Stamped (b : Branch) (s : State) : Prop :=
  (s.branch b).lastStart = some s.ds ∧
    (s.branch b).gapTimer = if (s.branch b).gap = 0 then none else some (s.ds + (s.branch b).gap)

/-- Branch `b` is reserved for aperture `i`, and no eligible entry there ranks before it (R107). -/
def Booked (b : Branch) (i : ApId) (s : State) : Prop :=
  (s.branch b).reservation = some i ∧ ∃ d, (d = .life ∨ d = .weather) ∧ Ready s b i d ∧
    ∀ j d', Ready s b j d' → d.rank ≤ d'.rank

theorem admitMotion_stamped (b : Branch) (i : ApId) (s : State) : Stamped b (admitMotion b i s) := by
  have frame := admit_frame i b s
  rw [Stamped, frame.ds, frame.gap, State.branch, admitMotion_branches, Branches.get_put, if_pos rfl]
  exact ⟨rfl, rfl⟩

theorem Stamped.of_branch (h : Stamped b s) (frame : Frame Aperture.keep s t)
    (start : (t.branch b).lastStart = (s.branch b).lastStart) (timer : (t.branch b).gapTimer = (s.branch b).gapTimer) :
    Stamped b t := by
  rw [Stamped, start, timer, frame.ds, frame.gap]
  exact h

theorem reserve_starts (s : State) (b c : Branch) (r : Option ApId) :
    ((s.reserve b r).branch c).lastStart = (s.branch c).lastStart ∧
      ((s.reserve b r).branch c).gapTimer = (s.branch c).gapTimer ∧
      ((s.reserve b r).branch c).quiet = (s.branch c).quiet := by
  rw [State.reserve, State.branch_modBranch]
  split
  · next e => subst e; exact ⟨rfl, rfl, rfl⟩
  · exact ⟨rfl, rfl, rfl⟩

theorem halts_branch (vs : List ApId) (c : Branch) (s : State) :
    (vs.foldl (fun s' i => halt i .shed s') s).branch c = s.branch c := by
  induction vs generalizing s with
  | nil => rfl
  | cons v vs ih => exact (ih _).trans (halt_branch v .shed s c)

/-- What an attempt leaves of the timers of a branch: all of them, or the quiet timer, with a start stamped. -/
def TimersKept (c : Branch) (s t : State) : Prop :=
  (t.branch c).quiet = (s.branch c).quiet ∧
    ((t.branch c).lastStart = (s.branch c).lastStart ∧ (t.branch c).gapTimer = (s.branch c).gapTimer ∨ Stamped c t)

theorem TimersKept.refl (c : Branch) (s : State) : TimersKept c s s := ⟨rfl, .inl ⟨rfl, rfl⟩⟩

theorem TimersKept.reserve (b c : Branch) (r : Option ApId) (s : State) : TimersKept c s (s.reserve b r) := by
  obtain ⟨start, timer, quiet⟩ := reserve_starts s b c r
  exact ⟨quiet, .inl ⟨start, timer⟩⟩

theorem TimersKept.stamped (h : TimersKept c s t) (frame : Frame Aperture.keep s t) (g : Stamped c s) : Stamped c t := by
  rcases h.2 with ⟨start, timer⟩ | st
  · exact g.of_branch frame start timer
  · exact st

theorem TimersKept.trans (h : TimersKept c s u) (g : TimersKept c u t) (frame : Frame Aperture.keep u t) :
    TimersKept c s t := by
  refine ⟨g.1.trans h.1, ?_⟩
  rcases h.2 with ⟨start, timer⟩ | st
  · rcases g.2 with ⟨start', timer'⟩ | st
    · exact .inl ⟨start'.trans start, timer'.trans timer⟩
    · exact .inr st
  · exact .inr (g.stamped frame st)

theorem Outcome.timersKept {x : State × Bool} (o : Outcome b (candidatesOf s b) s x) (c : Branch) :
    TimersKept c s x.1 := by
  cases o with
  | nothing => exact .refl c s
  | admits e =>
    refine ⟨(admitMotion_branch b c e.ap s).1, ?_⟩
    by_cases at_b : b = c
    · subst at_b
      exact .inr (admitMotion_stamped b e.ap s)
    · refine .inl ?_
      rw [State.branch, admitMotion_branches, Branches.get_put, if_neg at_b]
      exact ⟨rfl, rfl⟩
  | sheds e _ _ vs =>
    obtain ⟨start, timer, quiet⟩ := reserve_starts (vs.foldl (fun s' i => halt i .shed s') s) b c (some e.ap)
    rw [halts_branch] at start timer quiet
    exact ⟨quiet, .inl ⟨start, timer⟩⟩

theorem attempt_timersKept (b c : Branch) (h : AllReserved s) : TimersKept c s (attempt b s).1 := by
  have frame := (attempt_attempts (b := b) h).1.frame
  rcases attempt_outcome b s (h b) with o | o
  · exact o.timersKept c
  · rw [← candidatesOf_reserve] at o
    have reserved := (o.attempts (h.reserve_none b)).1
    exact (TimersKept.reserve b c none s).trans (o.timersKept c) reserved.frame

/-- An aperture once started in an event is started when it ends (R106). -/
theorem Attempts.starts (h : Attempts s u) (g : Attempts u t) (waits : (s.ap i).state = .waiting)
    (starts : (u.ap i).state = .starting) : (t.ap i).state = .starting := by
  rcases Fate.trans h g i with ⟨ap, -, -⟩ | ⟨m, -, -, ap, -, -⟩ | ⟨m, driven, -⟩
  · rcases g.fate i with ⟨ap', -, -⟩ | ⟨m, waits', -⟩ | ⟨m, driven, -, ap', -⟩
    · rw [ap', starts]
    · rw [starts] at waits'; cases waits'
    · rw [ap, Aperture.halted, if_pos driven] at ap'
      rw [ap'] at waits; cases waits
  · rw [ap]; rfl
  · rw [waits] at driven; cases driven

/-- Further attempts leave a branch stamped, and a claimed reservation claimed until its aperture is started. -/
structure Onward (b : Branch) (i : ApId) (s t : State) : Prop where
  attempts : Attempts s t
  timers   : TimersKept b s t
  booked   : Booked b i s → Booked b i t ∨ (t.ap i).state = .starting ∧ Stamped b t

theorem Booked.waits (h : Booked b i s) : (s.ap i).state = .waiting := by
  obtain ⟨-, d, -, ready, -⟩ := h
  exact ready.waits

namespace Onward

theorem refl (b : Branch) (i : ApId) (s : State) : Onward b i s s := ⟨.refl s, .refl b s, .inl⟩

theorem trans (h : Onward b i s u) (g : Onward b i u t) : Onward b i s t where
  attempts := h.attempts.trans g.attempts
  timers := h.timers.trans g.timers g.attempts.frame
  booked claim := by
    rcases h.booked claim with stands | ⟨starts, stamped⟩
    · exact g.booked stands
    · exact .inr ⟨h.attempts.starts g.attempts claim.waits starts, g.timers.stamped g.attempts.frame stamped⟩

/-- A claimed reservation that stands among attempts is claimed on. -/
theorem booked_of_reservation (h : Attempts s t) (reserved : AllReserved t) (claim : Booked b i s)
    (stands : (t.branch b).reservation = some i) : Booked b i t := by
  obtain ⟨-, d, cls, ready, first⟩ := claim
  obtain ⟨d', cls', ready'⟩ := reserved b i stands
  obtain rfl := ready.unique (h.ready b i d' ready')
  exact ⟨stands, d, cls, ready', fun j k r => first j k (h.ready b j k r)⟩

theorem attempt (c : Branch) (i : ApId) (h : AllReserved s) : Onward b i s (attempt c s).1 where
  attempts := (attempt_attempts h).1
  timers := attempt_timersKept c b h
  booked claim := by
    obtain ⟨attempts, reserved⟩ := attempt_attempts (b := c) h
    by_cases ne : c = b
    · subst ne
      obtain ⟨r, d, -, ⟨e, mem, rfl, rfl⟩, first⟩ := id claim
      have alone : e.cls = .weather → ∀ x ∈ candidatesOf s c, x.cls ≠ .life := fun weather x hx life => by
        have le := first x.ap x.cls ⟨x, hx, rfl, rfl⟩
        rw [weather, life] at le
        exact absurd le (by decide)
      rw [attempt_reserved r mem alone]
      split
      · refine .inr ⟨?_, admitMotion_stamped c e.ap s⟩
        rw [admitMotion_ap, if_pos rfl]; rfl
      · exact .inl claim
    · refine .inl (booked_of_reservation attempts reserved claim ?_)
      rw [(Aside.attempt ne h).branch]
      exact claim.1

end Onward

/-! ### The turn of a branch -/

/-- In `v` the turn of branch `b` came, and its attempts and those of the branches behind it led to `t`. -/
structure BranchTurn (b : Branch) (v t : State) : Prop where
  before : AllReserved v
  behind : AllReserved t
  stands : (attempt b v).2 = false →
    BranchStands b (attempt b v).1 t ∧ t.branch b = (attempt b v).1.branch b
  onward : ∀ i, Onward b i (attempt b v).1 t

/-- The turn of an owed branch comes with the branch as it was (R101). -/
theorem settleAttempts_turn (h : AllReserved s) (owed : b ∈ s.owed) :
    ∃ v, Aside b s v ∧ BranchTurn b v (settleAttempts s) := by
  obtain ⟨before, behind, outBefore, outBehind, e⟩ := settleAttempts_split b s
  obtain ⟨aside, reserved⟩ := foldl_runOwed_aside outBefore h
  rw [e]
  generalize before.foldl runOwed s = v at aside reserved ⊢
  have turn : runOwed v b = runAttempts b (attemptBound v b) v := if_pos (aside.owed owed)
  have reserved' := runOwed_allReserved reserved b
  obtain ⟨asideBehind, reserved''⟩ := foldl_runOwed_aside outBehind reserved'
  have clear (i : ApId) (w : State) : Onward b i w { w with owed := [] } :=
    ⟨Attempts.silent { Frame.refl _ w with } rfl rfl rfl (fun _ => rfl) rfl fun _ => ⟨rfl, rfl, rfl⟩, .refl b w, .inl⟩
  have along (i : ApId) (w : State) (r : AllReserved w) (c : Branch) : Onward b i w (runOwed w c) := by
    unfold runOwed
    split
    · exact (runAttempts_along (Onward.refl b i) (fun _ _ _ => Onward.trans) (fun _ d r => Onward.attempt d i r) r c _).1
    · exact .refl b i w
  have onwardBehind (i : ApId) := (foldl_runOwed (Onward.refl b i) (fun _ _ _ => Onward.trans) behind
    (fun w c _ r => along i w r c) reserved').1
  obtain ⟨n, bound⟩ : ∃ n, attemptBound v b = n + 1 := ⟨_, rfl⟩
  rw [bound, runAttempts] at turn
  have first := (attempt_attempts (b := b) reserved).2
  refine ⟨v, aside, reserved, reserved'', fun unchanged => ?_, fun i => ?_⟩
  · have same : runOwed v b = (attempt b v).1 := by
      rw [turn]
      split
      · next w e => rw [e] at unchanged; cases unchanged
      · next w e => rw [e]
    rw [same] at asideBehind ⊢
    exact ⟨asideBehind.aps, asideBehind.branch⟩
  · refine Onward.trans ?_ ((onwardBehind i).trans (clear i _))
    rw [turn]
    split
    · next w e =>
      rw [e] at first ⊢
      exact (runAttempts_along (Onward.refl b i) (fun _ _ _ => Onward.trans) (fun _ d r => Onward.attempt d i r)
        first b n).1
    · next w e => rw [e]; exact .refl b i w

end Sys2Proof.Machine

end

