-- ==== Sys2Proof/Proofs/AttemptsRan.lean ====
section
/-! PROOFS. What the attempt owed on a branch leaves when its event has ended (R101 to R107). -/

namespace Sys2Proof.Machine

open Sys2Proof

variable {i j : ApId} {b c : Branch} {s t u v w : State} {e x : WaitEntry} {es rest : List WaitEntry}

/-! ### Outcomes of the turn, when the event has ended -/

/-- A start among attempts that is there at their end is a start in the sense of R102 and R113. -/
theorem Attempts.started (h : Attempts v t) (on : (v.ap i).fix.branch = b) (waits : (v.ap i).state = .waiting)
    (starts : (t.ap i).state = .starting) (stamped : Stamped b t) (reserved : AllReserved t) : Started b i v t := by
  rcases h.fate i with ⟨ap, -, -⟩ | ⟨m, -, motion, ap, moves, -⟩ | ⟨m, driven, -⟩
  · rw [ap, waits] at starts; cases starts
  · obtain ⟨start, timer⟩ := stamped
    rw [h.frame.ds] at start timer
    rw [h.frame.gap] at timer
    refine ⟨starts, by rw [ap]; rfl, by rw [ap]; rfl, by rw [ap, on]; rfl, by rw [ap]; rfl, start, timer, fun n hn => ?_,
      fun r => ?_⟩
    · rw [motion] at hn
      cases hn
      exact (moves m.target).2 rfl
    · obtain ⟨d, -, ready⟩ := reserved b i r
      rw [ready.waits] at starts; cases starts
  · rw [waits] at driven; cases driven

/-- Halted and listed for it. -/
def HaltListed (i : ApId) (s : State) : Prop := (s.ap i).state = .stopping ∧ i ∈ s.link.haltList

theorem HaltListed.halt (h : HaltListed i s) (j : ApId) : HaltListed i (halt j .shed s) := by
  by_cases e : j = i
  · subst e
    have same : Machine.halt j .shed s = s := if_neg (by rw [h.1]; decide)
    rw [same]; exact h
  · exact ⟨by rw [halt_ap, if_neg e]; exact h.1, ((halt_local j s .shed).halts i e).2 h.2⟩

theorem HaltListed.of_driving (h : (s.ap i).state.driving = true) : HaltListed i (Machine.halt i .shed s) :=
  ⟨by rw [halt_ap, if_pos rfl, Aperture.halted, if_pos h], (halt_link .shed h).1⟩

/-- All victims of a shedding are halted and listed (R105). -/
theorem haltListed_foldl (vs : List ApId) :
    (HaltListed i s → HaltListed i (vs.foldl (fun s' j => halt j .shed s') s)) ∧
      (i ∈ vs → (s.ap i).state.driving = true → HaltListed i (vs.foldl (fun s' j => halt j .shed s') s)) := by
  induction vs generalizing s with
  | nil => exact ⟨id, nofun⟩
  | cons v vs ih =>
    obtain ⟨listed, driven⟩ := ih (s := halt v .shed s)
    refine ⟨fun h => listed (h.halt v), fun mem d => ?_⟩
    by_cases e : v = i
    · subst e
      exact listed (.of_driving d)
    · have mem' : i ∈ vs := (List.mem_cons.1 mem).resolve_left fun q => e q.symm
      exact driven mem' (by rw [halt_ap, if_neg e]; exact d)

theorem HaltListed.attempts (h : HaltListed i s) (g : Attempts s t) : HaltListed i t := by
  rcases g.fate i with ⟨ap, -, halts⟩ | ⟨m, waits, -⟩ | ⟨m, driven, -⟩
  · exact ⟨by rw [ap]; exact h.1, halts.2 h.2⟩
  · rw [h.1] at waits; cases waits
  · rw [h.1] at driven; cases driven

namespace BranchTurn

theorem attempts (h : BranchTurn b v t) : Attempts v t := (attempt_attempts h.before).1.trans (h.onward 0).attempts

/-- The turn admitted an aperture. -/
theorem started (h : BranchTurn b v t) {d : OrderClass} (ready : Ready v b i d)
    (eq : attempt b v = (admitMotion b i v, true)) : Started b i v t := by
  have one := (attempt_attempts (b := b) h.before).1
  have on := h.onward i
  rw [eq] at one on
  refine h.attempts.started ready.on ready.waits (one.starts on.attempts ready.waits ?_)
    (on.timers.stamped on.attempts.frame (admitMotion_stamped b i v)) h.behind
  rw [admitMotion_ap, if_pos rfl]; rfl

/-- The turn changed nothing. -/
theorem rests (h : BranchTurn b v t) (eq : attempt b v = (v, false)) : BranchStands b v t ∧ t.branch b = v.branch b := by
  have stands := h.stands (by rw [eq])
  rw [eq] at stands
  exact stands

/-- The turn shed for the first entry (R105, R107). -/
theorem shed (h : BranchTurn b v t) {vs : List ApId} (mem : e ∈ candidatesOf v b)
    (first : ∀ x ∈ candidatesOf v b, e.cls.rank ≤ x.cls.rank) (take : victims v b e = some vs)
    (eq : attempt b v = ((vs.foldl (fun s' i => halt i .shed s') v).reserve b (some e.ap), true)) :
    (∀ x ∈ vs, (t.ap x).state = .stopping ∧ x ∈ t.link.haltList) ∧
      ((t.branch b).reservation = some e.ap ∨ Started b e.ap v t) := by
  obtain ⟨one, reserved⟩ := attempt_attempts (b := b) h.before
  have on := h.onward e.ap
  have ready : Ready v b e.ap e.cls := ⟨e, mem, rfl, rfl⟩
  rw [eq] at one reserved on
  refine ⟨fun x hx => ?_, ?_⟩
  · have listed := (haltListed_foldl (s := v) vs).2 hx (of_mem_victims x b v take hx).2.1
    exact HaltListed.attempts (s := (vs.foldl (fun s' i => halt i .shed s') v).reserve b (some e.ap)) listed on.attempts
  · have held := (reserve_branch (vs.foldl (fun s' i => halt i .shed s') v) b b (some e.ap)).2.2.2
    rw [if_pos rfl] at held
    generalize (vs.foldl (fun s' i => halt i .shed s') v).reserve b (some e.ap) = w at one reserved on held
    obtain ⟨d, cls, ready'⟩ := reserved b e.ap held
    obtain rfl := ready.unique (one.ready b e.ap d ready')
    have booked : Booked b e.ap w := ⟨held, e.cls, cls, ready', fun j k r => by
      obtain ⟨x, hx, -, rfl⟩ := one.ready b j k r
      exact first x hx⟩
    rcases on.booked booked with stands | ⟨starts, stamped⟩
    · exact .inl stands.1
    · exact .inr (h.attempts.started ready.on ready.waits starts stamped h.behind)

/-- What the attempt makes of the first eligible entry, with no reservation standing (R102, R103, R105). -/
theorem head (h : BranchTurn b v t) (r : (v.branch b).reservation = none) (entries : candidatesOf v b = e :: rest) :
    HeadAttempted b e v t := by
  have turn : attempt b v = attemptOpen b (e :: rest) v := by
    unfold attempt; dsimp only
    rw [r, entries]
  have sorted := pairwise_candidatesOf b v
  have mem : e ∈ candidatesOf v b := by rw [entries]; exact List.mem_cons_self
  have first : ∀ x ∈ candidatesOf v b, e.cls.rank ≤ x.cls.rank := fun x hx => by
    rw [entries] at hx sorted
    rcases List.mem_cons.1 hx with rfl | hx
    · exact le_rfl
    · exact (List.pairwise_cons.1 sorted).1 x hx
  have fit (f : fits v b e = true) := turn.trans (attemptOpen_fits (by rw [← entries]; exact sorted) f)
  refine ⟨fun f gap => ?_, fun f gap => ?_, fun short cls vs take => ?_, fun short other => ?_⟩
  · exact h.started ⟨e, mem, rfl, rfl⟩ ((fit f).trans (by rw [gap]; rfl))
  · exact (h.rests ((fit f).trans (by rw [gap]; rfl))).1
  · exact h.shed mem first take (turn.trans (attemptOpen_sheds short cls take))
  · have passes := turn.trans (attemptOpen_passes other)
    rw [← entries] at passes
    refine ⟨fun none => (h.rests (passes.trans (admitFirst_none none))).1, fun x found => ?_⟩
    obtain ⟨held, admitted⟩ := admitFirst_some found
    exact ⟨fun q => (h.rests (passes.trans (held q))).1, fun no gap =>
      h.started ⟨x, List.mem_of_find?_eq_some found, rfl, rfl⟩ (passes.trans (admitted no gap))⟩

/-- With nothing eligible the branch stands. -/
theorem empty (h : BranchTurn b v t) (r : (v.branch b).reservation = none) (entries : candidatesOf v b = []) :
    BranchStands b v t := by
  refine (h.rests ?_).1
  unfold attempt; dsimp only
  rw [r, entries]; rfl

/-- What the attempt makes of a reserved entry (R107). -/
theorem reserved (h : BranchTurn b v t) (r : (v.branch b).reservation = some e.ap) (mem : e ∈ candidatesOf v b)
    (alone : e.cls = .weather → ∀ x ∈ candidatesOf v b, x.cls ≠ .life) :
    (fits v b e = true → gapPassed v b = true → Started b e.ap v t) ∧
      (fits v b e = false ∨ gapPassed v b = false → BranchStands b v t ∧ (t.branch b).reservation = some e.ap) := by
  have turn := attempt_reserved r mem alone
  refine ⟨fun fit gap => h.started ⟨e, mem, rfl, rfl⟩ (turn.trans (by rw [fit, gap]; rfl)), fun no => ?_⟩
  have same : (fits v b e && gapPassed v b) = false := by
    rcases no with q | q <;> rw [q]
    · rfl
    · exact Bool.and_false _
  obtain ⟨stands, branch⟩ := h.rests (turn.trans (by rw [same]; rfl))
  exact ⟨stands, by rw [branch]; exact r⟩

end BranchTurn

/-! ### Seen from a state that the branch stands aside from -/

namespace Aside

theorem started (h : Aside b s v) (on : (s.ap i).fix.branch = b) (g : Started b i v t) : Started b i s t := by
  unfold Started at g ⊢
  rw [h.aps i on, h.branch, h.frame.ds] at g
  exact g

theorem branchStands (h : Aside b s v) (g : BranchStands b v t) : BranchStands b s t := fun j on =>
  (g j (by rw [h.fix]; exact on)).trans (h.aps j on)

theorem candidate_on (mem : e ∈ candidatesOf s b) : (s.ap e.ap).fix.branch = b :=
  (mem_onBranch e.ap b s).1 (mem_candidates_ap mem)

theorem placed_mem (h : Aside b s v) (mem : x ∈ candidatesOf s b) : placedIn v x ∈ candidatesOf v b := by
  rw [h.candidates]; exact List.mem_map_of_mem mem

theorem forall_candidates (h : Aside b s v) {p : WaitEntry → Prop} :
    (∀ x ∈ candidatesOf v b, p x) ↔ ∀ x ∈ candidatesOf s b, p (placedIn v x) := by
  rw [h.candidates, List.forall_mem_map]

theorem find_candidates (h : Aside b s v) :
    (candidatesOf v b).find? (Machine.fits v b) = ((candidatesOf s b).find? (Machine.fits s b)).map (placedIn v) := by
  have along (l : List WaitEntry) (sub : ∀ x ∈ l, x ∈ candidatesOf s b) :
      (l.map (placedIn v)).find? (Machine.fits v b) = (l.find? (Machine.fits s b)).map (placedIn v) := by
    induction l with
    | nil => rfl
    | cons x xs ih =>
      rw [List.map_cons, List.find?_cons, List.find?_cons, h.fits (sub x List.mem_cons_self),
        ih fun y mem => sub y (List.mem_cons_of_mem _ mem)]
      cases Machine.fits s b x <;> rfl
  rw [h.candidates]
  exact along _ fun _ => id

theorem head (h : Aside b s v) (mem : e ∈ candidatesOf s b) (g : HeadAttempted b (placedIn v e) v t) :
    HeadAttempted b e s t := by
  obtain ⟨fit, held, sheds, passes⟩ := g
  rw [h.fits mem, h.gapPassed] at fit held
  rw [h.fits mem, h.victims mem] at sheds passes
  refine ⟨fun f gap => h.started (candidate_on mem) (fit f gap), fun f gap => h.branchStands (held f gap),
    fun short cls vs take => ?_, fun short other => ?_⟩
  · exact (sheds short cls vs take).imp_right fun q => q.imp (fun q => by exact q) (h.started (candidate_on mem))
  · obtain ⟨none, found⟩ := passes short other
    refine ⟨fun q => h.branchStands (none (h.forall_candidates.2 fun x hx => by rw [h.fits hx]; exact q x hx)),
      fun x hx => ?_⟩
    have memx := List.mem_of_find?_eq_some hx
    obtain ⟨stands, starts⟩ := found (placedIn v x) (by rw [h.find_candidates, hx]; rfl)
    have passed : (∃ y ∈ candidatesOf v b, Machine.fits v b y = false ∧ y.cls.rank < (placedIn v x).cls.rank) ↔
        ∃ y ∈ candidatesOf s b, Machine.fits s b y = false ∧ y.cls.rank < x.cls.rank := by
      constructor
      · rintro ⟨y', hy', short', lt⟩
        rw [h.candidates] at hy'
        obtain ⟨y, hy, rfl⟩ := List.mem_map.1 hy'
        exact ⟨y, hy, by rw [← h.fits hy]; exact short', lt⟩
      · rintro ⟨y, hy, short', lt⟩
        exact ⟨placedIn v y, h.placed_mem hy, by rw [h.fits hy]; exact short', lt⟩
    rw [passed, h.gapPassed] at stands starts
    exact ⟨fun q => h.branchStands (stands q), fun q gap => h.started (candidate_on memx) (starts q gap)⟩

end Aside

/-- The turn that comes with the branch as it was leaves what R101 to R107 say. -/
theorem BranchTurn.attemptRan (h : BranchTurn b v t) (aside : Aside b s v) (only : OnlyAttempts s t) :
    AttemptRan b s t := by
  refine ⟨only, fun r none => ?_, fun r e rest entries => ?_, fun e r mem cls alone => ?_⟩
  · exact aside.branchStands (h.empty (by rw [aside.branch]; exact r) (by rw [aside.candidates, none]; rfl))
  · have mem : e ∈ candidatesOf s b := by rw [entries]; exact List.mem_cons_self
    exact aside.head mem (h.head (by rw [aside.branch]; exact r) (by rw [aside.candidates, entries]; rfl))
  · obtain ⟨starts, stands⟩ := h.reserved (e := placedIn v e) (by rw [aside.branch]; exact r) (aside.placed_mem mem)
      fun weather => aside.forall_candidates.2 (alone weather)
    rw [aside.fits mem, aside.gapPassed] at starts stands
    exact ⟨fun fit gap => aside.started (Aside.candidate_on mem) (starts fit gap),
      fun no => (stands no).imp_left aside.branchStands⟩

/-! ### The end of an event that leaves the queue -/

theorem checkReservation_of_reserved (h : Reserved s b) : checkReservation s b = s := by
  unfold checkReservation
  split
  · rfl
  · next i r =>
    obtain ⟨d, cls, e, mem, rfl, rfl⟩ := h i r
    obtain ⟨listed, eligible⟩ := List.mem_filter.1 mem
    split
    · next x found =>
      have same : x.ap = e.ap := by simpa using List.find?_some found
      have entry := ((mem_waitList b s x).1 (List.mem_of_find?_eq_some found)).2
      rw [same, ((mem_waitList b s e).1 listed).2, Option.some.injEq] at entry
      subst entry
      rw [if_pos (by simpa [of_decide_eq_true eligible] using cls)]
    · next none => exact absurd (List.find?_eq_none.1 none e listed) (by simp)

theorem Aside.reserved (h : Aside b s t) (r : Reserved s b) : Reserved t b := fun i held => by
  rw [h.branch] at held
  obtain ⟨d, cls, e, mem, rfl, rfl⟩ := r i held
  exact ⟨e.cls, cls, placedIn t e, h.placed_mem mem, rfl, rfl⟩

theorem Aside.foldl {α : Type} {f : State → α → State} (h : ∀ s x, Reserved s b → Aside b s (f s x)) (l : List α)
    (r : Reserved s b) : Aside b s (l.foldl f s) := by
  induction l generalizing s with
  | nil => exact .refl b s
  | cons x xs ih => exact (h s x r).trans (ih ((h s x r).reserved r))

theorem Aside.checkReservation (c : Branch) (r : Reserved s b) : Aside b s (checkReservation s c) := by
  by_cases e : c = b
  · subst e
    rw [checkReservation_of_reserved r]
    exact .refl c s
  · rcases checkReservation_cases s c with same | gone
    · rw [same]; exact .refl b s
    · rw [gone]; exact (Aside.reserve e none s).trans (.owe b c _)

/-- An event that leaves the queue comes to its attempts with reservations tested and attempts owed, and no more. -/
theorem finish_eq (s0 : State) (queue : u.sup.queue = s0.sup.queue) : finish false s0 u =
    settleAttempts (allBranches.foldl (oweMoves s0) (allBranches.foldl checkReservation u)).draw := by
  unfold finish; dsimp only
  rw [if_neg (by simp [queue]), countChange, if_pos queue]

theorem finish_allReserved (s0 u : State) :
    AllReserved (allBranches.foldl (oweMoves s0) (allBranches.foldl checkReservation u)).draw :=
  oweMoves_allReserved s0 allBranches (checkReservations_allReserved u)

/-- Where a reservation of the branch stands, its turn comes with the branch as it was. -/
theorem finish_turn (s0 : State) (queue : u.sup.queue = s0.sup.queue) (r : Reserved u b) (owed : b ∈ u.owed) :
    ∃ v, Aside b u v ∧ BranchTurn b v (finish false s0 u) := by
  have moves (v : State) (c : Branch) : Aside b v (oweMoves s0 v c) := by
    unfold oweMoves
    split
    · exact .refl b v
    · exact .owe b c v
  have checked := Aside.foldl (fun v c r => Aside.checkReservation c r) allBranches r
  have owes := checked.trans (.foldl (fun v c _ => moves v c) allBranches (checked.reserved r))
  have aside := owes.trans (.elsewhere (t := State.draw _) Frame.draw rfl rfl rfl rfl id)
  rw [finish_eq s0 queue]
  obtain ⟨v, turned, turn⟩ := settleAttempts_turn (finish_allReserved s0 u) (aside.owed owed)
  exact ⟨v, aside.trans turned, turn⟩

/-- The attempt owed on a branch, seen from a state from which the branch stood aside (R101). -/
theorem attemptRan_finish (s0 : State) (aside : Aside b s u) (states : ∀ j, (u.ap j).state = (s.ap j).state)
    (queue : u.sup.queue = s0.sup.queue) (owed : b ∈ u.owed) : AttemptRan b s (finish false s0 u) := by
  have only := (finish_ended false s0 u).onlyAttempts states
  have ran (r : Reserved s b) : AttemptRan b s (finish false s0 u) := by
    obtain ⟨v, turned, turn⟩ := finish_turn s0 queue (aside.reserved r) owed
    exact turn.attemptRan (aside.trans turned) only
  have none (r : (s.branch b).reservation = none) := ran fun i held => by rw [r] at held; cases held
  exact ⟨only, fun r => (none r).2.1 r, fun r => (none r).2.2.1 r, fun e r mem cls =>
    (ran fun i held => by rw [r] at held; cases held; exact ⟨e.cls, cls, e, mem, rfl, rfl⟩).2.2.2 e r mem cls⟩

/-- What attempts, and the end of an event before them, leave: the order side and, but for a start, the timers of
branch `c`. -/
structure TimersFramed (c : Branch) (s t : State) : Prop where
  frame  : Frame Aperture.keep s t
  timers : TimersKept c s t

namespace TimersFramed

theorem refl (c : Branch) (s : State) : TimersFramed c s s := ⟨.refl _ s, .refl c s⟩

theorem trans (h : TimersFramed c s u) (g : TimersFramed c u t) : TimersFramed c s t :=
  ⟨h.frame.trans g.frame, h.timers.trans g.timers g.frame⟩

theorem foldl {α : Type} {f : State → α → State} (h : ∀ s x, TimersFramed c s (f s x)) (l : List α) (s : State) :
    TimersFramed c s (l.foldl f s) := by
  induction l generalizing s with
  | nil => exact refl c s
  | cons x xs ih => exact (h s x).trans (ih _)

theorem elsewhere (frame : Frame Aperture.keep s t) (branches : t.branches = s.branches) : TimersFramed c s t := by
  have branch : t.branch c = s.branch c := by rw [State.branch, branches]; rfl
  refine ⟨frame, ?_, .inl ⟨?_, ?_⟩⟩ <;> rw [branch]

theorem owe (b : Branch) (s : State) : TimersFramed c s (s.owe b) := .elsewhere (.owe b) (State.owe_branches s b)

theorem checkReservation (s : State) (b : Branch) : TimersFramed c s (checkReservation s b) := by
  rcases checkReservation_cases s b with same | gone
  · rw [same]; exact refl c s
  · rw [gone]; exact trans ⟨.reserve b none, .reserve b c none s⟩ (.owe b _)

theorem oweMoves (s0 s : State) (b : Branch) : TimersFramed c s (oweMoves s0 s b) := by
  unfold Machine.oweMoves
  split
  · exact refl c s
  · exact .owe b s

theorem settleAttempts (h : AllReserved s) : TimersFramed c s (settleAttempts s) :=
  settleAttempts_along (refl c) (fun _ _ _ => trans)
    (fun _ b h => ⟨(attempt_attempts h).1.frame, attempt_timersKept b c h⟩)
    (fun v => .elsewhere { Frame.refl _ v with } rfl) h

end TimersFramed

/-- The timers of every branch when such an event has ended. -/
theorem finish_timersKept (s0 : State) (queue : u.sup.queue = s0.sup.queue) (c : Branch) :
    TimersKept c u (finish false s0 u) := by
  have owes : TimersFramed c u (allBranches.foldl (oweMoves s0) (allBranches.foldl checkReservation u)).draw :=
    ((TimersFramed.foldl .checkReservation allBranches u).trans (.foldl (.oweMoves s0) allBranches _)).trans
      (.elsewhere .draw rfl)
  rw [finish_eq s0 queue]
  exact (owes.trans (.settleAttempts (finish_allReserved s0 u))).timers

end Sys2Proof.Machine

end

