-- ==== Sys2Proof/Proofs/BranchExpiries.lean ====
section
/-! PROOFS. The expiries that owe attempts: quiet and gap timers (O31) and warn timers (O34). -/

namespace Sys2Proof.Machine

open Sys2Proof

variable {i : ApId} {b : Branch} {y z : ZoneId} {s : State} {e : Nat}

/-! ### Quiet and gap timers (R98, R103) -/

theorem quietTimerExpiry_runs (h : (s.branch b).quiet = some e) : exec (.quietTimerExpiry b) s =
    .next (event (fun v => (v.modBranch b fun r => { r with quiet := none }).owe b) (s.advanceTo (e * 100))) := by
  simp only [exec, execQuietTimerExpiry, h]

theorem branchGapTimerExpiry_runs (h : (s.branch b).gapTimer = some e) : exec (.branchGapTimerExpiry b) s =
    .next (event (fun v => (v.modBranch b fun r => { r with gapTimer := none }).owe b) (s.advanceTo (e * 100))) := by
  simp only [exec, execBranchGapTimerExpiry, h]

/-- A change of a branch record that owes the branch an attempt: the attempt ran on the changed branch (R101), and its
timers stand but for a start (R113). -/
theorem branchTimer_attempted (f : BranchRec → BranchRec) (s : State)
    (kept : (f (s.branch b)).limit = (s.branch b).limit ∧ (f (s.branch b)).window = (s.branch b).window ∧
      (f (s.branch b)).gap = (s.branch b).gap) :
    AttemptRan b (s.modBranch b f) (event (fun v => (v.modBranch b f).owe b) s) ∧
      TimersKept b (s.modBranch b f) (event (fun v => (v.modBranch b f).owe b) s) ∧
      Frame Aperture.keep s (event (fun v => (v.modBranch b f).owe b) s) := by
  have owes := TimersFramed.owe (c := b) b (s.modBranch b f)
  have ended := (event_ended (fun v => (v.modBranch b f).owe b) s).frame
  have queue : ((s.modBranch b f).owe b).sup.queue = s.sup.queue := by rw [State.owe_sup]; rfl
  exact ⟨attemptRan_finish s (.owe b b _) (fun j => by rw [State.owe_ap]) queue (owe_mem b _),
    owes.timers.trans (finish_timersKept s queue b) ended,
    (Frame.modBranch b f kept).trans (owes.frame.trans ended)⟩

/-! ### Warn timers (R127) -/

theorem warnTimerExpiry_runs (h : (s.zones.warnings[z]).timer = some e) : exec (.warnTimerExpiry z) s =
    .next (event (endWarning z) (s.advanceTo (e * 100))) := by
  simp only [exec, execWarnTimerExpiry, h]

/-- Owing attempts settles none. -/
theorem mem_foldl_owe {q : ApId → Prop} [DecidablePred q] (f : ApId → Branch) (l : List ApId) (owed : b ∈ s.owed) :
    b ∈ (l.foldl (fun v i => if q i then v.owe (f i) else v) s).owed := by
  induction l generalizing s with
  | nil => exact owed
  | cons x xs ih =>
    refine ih ?_
    beta_reduce
    split
    · exact mem_owe _ owed
    · exact owed

/-- The branches of the apertures picked are owed an attempt. -/
theorem foldl_owe_picked {q : ApId → Prop} [DecidablePred q] (f : ApId → Branch) {l : List ApId} (s : State)
    (mem : i ∈ l) (picked : q i) : f i ∈ (l.foldl (fun v i => if q i then v.owe (f i) else v) s).owed := by
  induction l generalizing s with
  | nil => cases mem
  | cons x xs ih =>
    rcases List.mem_cons.1 mem with rfl | mem
    · refine mem_foldl_owe f xs ?_
      beta_reduce
      rw [if_pos picked]
      exact owe_mem _ s
    · exact ih _ mem

/-- The branch of each waiting aperture that the zone governs is owed an attempt (R99, R101). -/
theorem endWarning_owed (z : ZoneId) (s : State) (waits : (s.ap i).state = .waiting)
    (governed : s.governing i = some z) : (s.ap i).fix.branch ∈ (endWarning z s).owed :=
  foldl_owe_picked (q := fun i => (s.ap i).state = .waiting ∧ s.governing i = some z) (fun i => (s.ap i).fix.branch) _
    (List.mem_finRange i) ⟨waits, governed⟩

/-- Once its warning is set, the end of a warning leaves every branch as it is. -/
theorem Aside.endWarning (b : Branch) (z : ZoneId) (s : State) :
    Aside b (s.setWarning z ⟨if s.zoneCloses z then .done else .idle, none⟩) (endWarning z s) := by
  have stays (owed : b ∈ s.owed) : b ∈ (Machine.endWarning z s).owed := mem_foldl_owe
    (q := fun i => (s.ap i).state = .waiting ∧ s.governing i = some z) (fun i => (s.ap i).fix.branch) allAps owed
  obtain ⟨owed, ends⟩ := endWarning_owes z s
  rw [ends] at stays ⊢
  exact .elsewhere { Frame.refl _ _ with } rfl rfl rfl rfl stays

/-- The warning that an expiry sets stands when its event has ended: in DONE the zone has a closing. -/
theorem event_endWarning_warning (z : ZoneId) (s : State) : (event (Machine.endWarning z) s).zones.warnings[z] =
    ⟨if s.zoneCloses z then .done else .idle, none⟩ := by
  have own : (Machine.endWarning z s).zones.warnings[z] = ⟨if s.zoneCloses z then .done else .idle, none⟩ := by
    rw [endWarning_warning, if_pos rfl]
  rw [event, (finish_warnsOn false s (Machine.endWarning z s)).stands z, own]
  intro done
  rw [zoneCloses_of_aps (endWarning_aps z s) (endWarning_desc z s)]
  by_contra none
  rw [own, if_neg none] at done
  cases done

/-- The attempts that an expiry owes (R99, R101). -/
theorem event_endWarning_attempted (z : ZoneId) (s : State) (waits : (s.ap i).state = .waiting)
    (governed : s.governing i = some z) : AttemptRan (s.ap i).fix.branch
      (s.setWarning z ⟨if s.zoneCloses z then .done else .idle, none⟩) (event (Machine.endWarning z) s) := by
  have queue : (Machine.endWarning z s).sup.queue = s.sup.queue := by
    obtain ⟨owed, ends⟩ := endWarning_owes z s
    rw [ends]; rfl
  refine attemptRan_finish s (.endWarning _ z s) (fun j => ?_) queue (endWarning_owed z s waits governed)
  rw [State.ap_of_aps (endWarning_aps z s)]
  rfl

end Sys2Proof.Machine

open Sys2Proof Sys2Proof.Machine

/-- Settles O31, by the attempt owed on the branch whose timer stopped. -/
theorem branchTimerExpiriesRunAnAttempt : Obligations.BranchTimerExpiriesRunAnAttempt := by
  refine fun s b e => ⟨fun timer => ?_, fun timer => ?_⟩
  · obtain ⟨ran, ⟨quiet, -⟩, frame⟩ := branchTimer_attempted (b := b) (fun r => { r with quiet := none })
      (s.advanceTo (e * 100)) ⟨rfl, rfl, rfl⟩
    exact ⟨_, quietTimerExpiry_runs timer, by rw [quiet, State.branch_modBranch_self], ran, frame⟩
  · obtain ⟨ran, ⟨-, starts⟩, frame⟩ := branchTimer_attempted (b := b) (fun r => { r with gapTimer := none })
      (s.advanceTo (e * 100)) ⟨rfl, rfl, rfl⟩
    refine ⟨_, branchGapTimerExpiry_runs timer, ?_, ran, frame⟩
    rcases starts with ⟨-, gap⟩ | ⟨start, -⟩
    · exact .inl (by rw [gap, State.branch_modBranch_self])
    · exact .inr start

/-- Settles O34, by the attempts owed on the branches of the apertures that the zone governs. -/
theorem warnExpiryEndsWarning : Obligations.WarnExpiryEndsWarning := by
  intro s z e timer
  have frame := (Frame.setWarning (k := Aperture.keep) (s := s.advanceTo (e * 100)) z _).trans
    ((Aside.endWarning .A z _).frame.trans (event_ended (endWarning z) (s.advanceTo (e * 100))).frame)
  exact ⟨_, warnTimerExpiry_runs timer, event_endWarning_warning z (s.advanceTo (e * 100)),
    fun i => event_endWarning_attempted z (s.advanceTo (e * 100)), frame⟩

end
